-- ==== Sys2Proof/Word.lean ====
section
/-! DEFINITION. The words of the engine (00_scope.md R11) and the closed lists of names the spec gives: error classes
(R365) and error causes (R366). Their numeric codes are in Machine/Flags.lean. -/

namespace Sys2Proof

/-- One byte of MEM or of a stream (R80). -/
abbrev Byte := BitVec 8

/-- One 32-bit register or command word (R31, R110). -/
abbrev Word := BitVec 32

/-- The error classes (R365). -/
inductive ErrClass where
  | invalidArgument
  | outputTooSmall
  | corruptData
  | unexpectedEndOfStream
  | unsupportedFeature
deriving DecidableEq, Repr

/-- The error causes (R366), in the order of the spec's list. -/
inductive Cause where
  | illegalOpcode
  | reservedBits
  | badLevel
  | badBlockSizeCode
  | regionWrap
  | regionOverlap
  | lengthTooLarge
  | badState
  | indexNotReady
  | badCursor
  | badMode
  | badVersion
  | prefixUnderflow
  | indexBusy
  | dstFull
  | badMagic
  | headerChecksum
  | headerReserved
  | headerBlockSize
  | blockTooLarge
  | blockChecksum
  | tokenTruncated
  | literalOverrun
  | offsetZero
  | offsetBeforeWindow
  | outputOverrun
  | transportEof
  | version
  | contentChecksum
  | blockChecksumEncode
  | dictionaryId
  | partialDecode
deriving DecidableEq, Repr

end Sys2Proof
end

