-- ==== Sys2Proof/Syntax.lean ====
section
/-! DEFINITION. The engine's commands (30_encoding.md R111, R112): one constructor per row of spec/opcode_table.json, its
arguments the modifier fields of the command word as raw bits. The other operands of a command are the latched argument
registers (R46), not part of the word (R110). -/

namespace Sys2Proof

/-- A command of R111 with its modifier fields of R112. -/
inductive Instr where
  /-- NOP, opcode 0x00 (R350). -/
  | nop
  /-- ABORT_ENC, opcode 0x01 (R351). -/
  | abortEnc
  /-- ABORT_DEC, opcode 0x02 (R352). -/
  | abortDec
  /-- MATCH_INIT, opcode 0x10 (R171): KIND, false FAST, true HC. -/
  | matchInit (hc : Bool)
  /-- MATCH_FIND, opcode 0x11 (R175). -/
  | matchFind
  /-- MATCH_WIDEN, opcode 0x12 (R180). -/
  | matchWiden
  /-- BLOCK_ENCODE, opcode 0x20 (R191): LEVEL. -/
  | blockEncode (level : BitVec 4)
  /-- BLOCK_DECODE, opcode 0x30 (R251): EOO, DMODE, PARTIAL. -/
  | blockDecode (eoo : Bool) (dmode : BitVec 2) (short : Bool)
  /-- FENC_OPEN, opcode 0x40 (R281): LEVEL. -/
  | fencOpen (level : BitVec 4)
  /-- FENC_WRITE, opcode 0x41 (R287). -/
  | fencWrite
  /-- FENC_CLOSE, opcode 0x42 (R292). -/
  | fencClose
  /-- FDEC_OPEN, opcode 0x50 (R311): IN_EOF. -/
  | fdecOpen (inEof : Bool)
  /-- FDEC_READ, opcode 0x51 (R320): IN_EOF. -/
  | fdecRead (inEof : Bool)
deriving DecidableEq, Repr

end Sys2Proof
end

