-- ==== Sys2Proof/WellFormed.lean ====
section
/-! DEFINITION. Which commands are legal as encodings (30_encoding.md R112): the level of an encode is 0 or 3 to 12, the
dictionary mode of a block decode is 0 to 2, and the partial decode mode is not asked for. -/

namespace Sys2Proof

/-- LEVEL takes the values 0 and 3 to 12 (R112). -/
def LevelOk (level : BitVec 4) : Bool :=
  level == 0#4 || (3 ≤ level.toNat && level.toNat ≤ 12)

/-- The field values R112 allows, per command. -/
def Instr.WellFormed : Instr → Bool
  | .nop => true
  | .abortEnc => true
  | .abortDec => true
  | .matchInit _ => true
  | .matchFind => true
  | .matchWiden => true
  | .blockEncode level => LevelOk level
  | .blockDecode _ dmode short => dmode != 3#2 && !short
  | .fencOpen level => LevelOk level
  | .fencWrite => true
  | .fencClose => true
  | .fdecOpen _ => true
  | .fdecRead _ => true

end Sys2Proof
end

