-- ==== Sys2Proof/Decode.lean ====
section
/-! DEFINITION. Decoding a command word (30_encoding.md R110-R113), total on every word, each rejection by its cause in
the order R113 gives; and the encoder (R110-R112, R114). -/

namespace Sys2Proof

/-- OPCODE, w[7:0] (R110). -/
def opcodeOf (w : Word) : BitVec 8 := w.extractLsb' 0 8

/-- MOD, w[15:8] (R110). -/
def modOf (w : Word) : BitVec 8 := w.extractLsb' 8 8

/-- w[31:16], reserved (R110). -/
def upperOf (w : Word) : BitVec 16 := w.extractLsb' 16 16

/-- The opcode map of R111 with the modifier fields of R112: the modifier bits the command leaves reserved, and the
command its fields name. None for an opcode not in the map. -/
def opcodeRow (op m : BitVec 8) : Option (BitVec 8 × Instr) :=
  match op.toNat with
  | 0x00 => some (0xFF#8, .nop)
  | 0x01 => some (0xFF#8, .abortEnc)
  | 0x02 => some (0xFF#8, .abortDec)
  | 0x10 => some (0xFE#8, .matchInit (m.getLsbD 0))
  | 0x11 => some (0xFF#8, .matchFind)
  | 0x12 => some (0xFF#8, .matchWiden)
  | 0x20 => some (0xF0#8, .blockEncode (m.extractLsb' 0 4))
  | 0x30 => some (0xF0#8, .blockDecode (m.getLsbD 0) (m.extractLsb' 1 2) (m.getLsbD 3))
  | 0x40 => some (0xF0#8, .fencOpen (m.extractLsb' 0 4))
  | 0x41 => some (0xFF#8, .fencWrite)
  | 0x42 => some (0xFF#8, .fencClose)
  | 0x50 => some (0xFE#8, .fdecOpen (m.getLsbD 0))
  | 0x51 => some (0xFE#8, .fdecRead (m.getLsbD 0))
  | _ => none

/-- The legal levels, for R113 step 3. -/
def levelCause (level : BitVec 4) : Option Cause :=
  if level = 0#4 ∨ (3 ≤ level.toNat ∧ level.toNat ≤ 12) then none else some .badLevel

/-- R113 steps 3 and 4: the illegal field values and the unsupported mode, in that order. -/
def fieldCause : Instr → Option Cause
  | .nop => none
  | .abortEnc => none
  | .abortDec => none
  | .matchInit _ => none
  | .matchFind => none
  | .matchWiden => none
  | .blockEncode level => levelCause level
  | .blockDecode _ dmode short =>
    if dmode = 3#2 then some .badMode else if short then some .partialDecode else none
  | .fencOpen level => levelCause level
  | .fencWrite => none
  | .fencClose => none
  | .fdecOpen _ => none
  | .fdecRead _ => none

/-- Decoding a command word in the order of R113: opcode, reserved bits, field values, unsupported mode. -/
def decode (w : Word) : Except Cause Instr :=
  match opcodeRow (opcodeOf w) (modOf w) with
  | none => .error .illegalOpcode
  | some (reserved, i) =>
    if upperOf w ≠ 0#16 ∨ modOf w &&& reserved ≠ 0#8 then .error .reservedBits
    else
      match fieldCause i with
      | some c => .error c
      | none => .ok i

/-- One modifier bit as a byte. -/
def flagByte (b : Bool) : BitVec 8 := if b then 1#8 else 0#8

/-- The opcode of a command (R111). -/
def opcodeByte : Instr → BitVec 8
  | .nop => 0x00#8
  | .abortEnc => 0x01#8
  | .abortDec => 0x02#8
  | .matchInit _ => 0x10#8
  | .matchFind => 0x11#8
  | .matchWiden => 0x12#8
  | .blockEncode _ => 0x20#8
  | .blockDecode _ _ _ => 0x30#8
  | .fencOpen _ => 0x40#8
  | .fencWrite => 0x41#8
  | .fencClose => 0x42#8
  | .fdecOpen _ => 0x50#8
  | .fdecRead _ => 0x51#8

/-- The modifier byte of a command (R112). -/
def modByte : Instr → BitVec 8
  | .nop => 0#8
  | .abortEnc => 0#8
  | .abortDec => 0#8
  | .matchInit hc => flagByte hc
  | .matchFind => 0#8
  | .matchWiden => 0#8
  | .blockEncode level => level.setWidth 8
  | .blockDecode eoo dmode short =>
    flagByte eoo ||| (dmode.setWidth 8 <<< 1) ||| (flagByte short <<< 3)
  | .fencOpen level => level.setWidth 8
  | .fencWrite => 0#8
  | .fencClose => 0#8
  | .fdecOpen inEof => flagByte inEof
  | .fdecRead inEof => flagByte inEof

/-- The command word of a command (R110): OPCODE in bits 7:0, MOD in bits 15:8, zero above. -/
def encode (i : Instr) : Word :=
  (0#16 ++ modByte i ++ opcodeByte i : BitVec (16 + 8 + 8))

/-- The host's entry to the decoder: the command read from a word of nbits bits with value w; a command is one 32-bit
word (R110), and every bit above nbits is 0. None where the decoder rejects the word. -/
def decodeTableWord (nbits w : Nat) : Option Instr :=
  match decode (BitVec.ofNat 32 (w % 2 ^ nbits)) with
  | .ok i => some i
  | .error _ => none

end Sys2Proof
end

