-- ==== Sys2Proof/Config.lean ====
section
/-! DEFINITION. The engine's fixed parameters (00_scope.md R8, 42_hc_encoder.md R212, 43_optimal_encoder.md R233) at the
spec's reference values, and the free values of what the spec leaves open: opaque constants with no body, applied to a
plain number, so that no proof can see what they are. -/

namespace Sys2Proof

/-- The shortest match (R8, R122). -/
def Config.minMatch : Nat := 4

/-- The largest backward distance (R8, R127). -/
def Config.maxDistance : Nat := 65535

/-- Bytes of history kept per stream (R8, R51). -/
def Config.window : Nat := 65536

/-- The largest input of one BLOCK_ENCODE (R8). -/
def Config.maxBlock : Nat := 4194304

/-- The most positions of one price table (R8, R233). -/
def Config.optNum : Nat := 4096

/-- log2 of the FAST head table (R8). -/
def Config.fastHashLog : Nat := 12

/-- log2 of the HC head table (R8). -/
def Config.hcHashLog : Nat := 15

/-- Slots of the HC chain table (R8). -/
def Config.chainSize : Nat := 65536

/-- Failed probes per skip step, as a power of two (R8, R196). -/
def Config.skipTrigger : Nat := 6

/-- The largest skip step (R8, R196). -/
def Config.stepCap : Nat := 32

/-- The index hash multiplier (R162). -/
def Config.hashMultiplier : Nat := 2654435761

/-- NB_SEARCHES(level) (R212 for levels 3 to 9, R233 for levels 10 to 12). -/
def Config.nbSearches (level : Nat) : Nat :=
  if level ≤ 9 then 2 ^ (level - 1) else if level = 10 then 96 else if level = 11 then 512 else 16384

/-- SUFFICIENT_LEN(level) (R233). -/
def Config.sufficientLen (level : Nat) : Nat :=
  if level ≤ 10 then 64 else if level = 11 then 128 else 4096

/-- A free byte: what a DST byte holds after an execution error or an abandoned command (R367, R402). -/
opaque Config.freeByte : Nat → Byte

/-- A free choice of two: whether a register the spec leaves unstable while BUSY reads its value at completion (R420). -/
opaque Config.freeChoice : Nat → Bool

/-- CMD_LATENCY (R430), counted in host accesses: how many a command lets pass before it completes. -/
opaque Config.cmdLatency : Nat → Nat

/-- A stream byte at a position the engine no longer holds (R166 against R289). -/
opaque Config.lostByte : Nat → Byte

end Sys2Proof
end

