-- ==== Sys2Proof/Machine/State.lean ====
section
/-! DEFINITION. The state of the engine as plain data (10_state.md R30-R52, 20_memory.md R80), its reset value
(70_reset_and_hazards.md R400), and the reasons a step can stop. -/

namespace Sys2Proof.Machine

/-- Why the machine stops with a fault. -/
inductive Fault where
  /-- HOST_RACE (R96, I-U4): raised by a host write of a byte of the running command's SRC, DICT, PREFIX or
  DST, and by a host read of a byte of its DST. Safe: the spec gives such a run no meaning. -/
  | hostRace
deriving DecidableEq, Repr

/-- Why the machine refuses to go on. -/
inductive Refusal where
  /-- Raised by an arm of exec whose command has no meaning yet; no arm does. Safe: the step stops. -/
  | notModelled (mnemonic : String)
  /-- Raised by a host register access that is not an aligned 32-bit access (R32, I-U6). Safe: the spec says a model
  refuses it. -/
  | registerAccess
deriving DecidableEq, Repr

/-- The argument registers (R38-R41), and the shape of their latched copy (R46). -/
structure Args where
  srcAddr : Word
  srcLen : Word
  dstAddr : Word
  dstCap : Word
  dictAddr : Word
  dictLen : Word
  arg0 : Word
  arg1 : Word
  arg2 : Word
  arg3 : Word
  fdesc : Word
  csizeLo : Word
  csizeHi : Word
deriving DecidableEq, Repr

/-- The fields of STATUS that describe the last completion, and CMD_OVERRUN (R35). -/
structure Status where
  done : Bool
  err : Bool
  needInput : Bool
  frameEnd : Bool
  errCode : BitVec 3
  errCause : BitVec 8
  overrun : Bool
deriving DecidableEq, Repr

/-- IDX_OWNER (R47). -/
inductive IdxOwner where
  | free
  | matcher
  | encoder
deriving DecidableEq, Repr

/-- IDX_KIND (R47). -/
inductive IdxKind where
  | fast
  | hc
deriving DecidableEq, Repr

/-- A table of positions: the entries that hold one, by rising index; an index not listed is EMPTY or NONE (R47). -/
abbrev Table := List (Nat × Nat)

/-- The match index (R47). -/
structure Index where
  owner : IdxOwner
  kind : IdxKind
  head : Table
  chain : Table
  nextToUpdate : Nat
  lastProbe : Option Nat
  base : Word
  len : Word
deriving DecidableEq, Repr

/-- ENC_STATE (R48). -/
inductive EncState where
  | unopened
  | headerWritten
  | blockLoop
  | closed
deriving DecidableEq, Repr

/-- The encoder stream context (R48). `total` counts the content bytes accepted since the open; the registers
ENC_TOTAL_LO/HI show it modulo 2^64 (R44). -/
structure Encoder where
  state : EncState
  level : BitVec 4
  flg : Byte
  bd : Byte
  blockSize : Nat
  chained : Bool
  buf : List Byte
  hist : List Byte
  total : Nat
deriving DecidableEq, Repr

/-- DEC_STATE (R49). -/
inductive DecState where
  | unopened
  | opening
  | headerRead
  | blockLoop
  | closed
  | failed
deriving DecidableEq, Repr

/-- DEC_STAGE (R49): the field the parser expects next. -/
inductive DecStage where
  | magic
  | flg
  | bd
  | csize
  | dictId
  | hc
  | blkLen
  | payload
  | bcsum
  | serve
  | finish
deriving DecidableEq, Repr

/-- The decoder stream context (R49). -/
structure Decoder where
  state : DecState
  stage : DecStage
  field : List Byte
  hdr : List Byte
  flg : Byte
  bd : Byte
  blockSize : Nat
  chained : Bool
  bcsum : Bool
  blkLen : Word
  inBuf : List Byte
  outBuf : List Byte
  servePos : Nat
  hist : List Byte
  total : BitVec 64
deriving DecidableEq, Repr

/-- MEM (R80): the bytes that differ from `Memory.background`, by strictly rising address. -/
abbrev Memory := List Host.Cell

/-- What an address that is not listed reads as. DESIGN CHOICE (log 1): the spec lets MEM hold any value at power-up
(R400, I-U11). -/
def Memory.background : Byte := 0#8

/-- One access of the host (R95, R96, R151, R152) or the platform's reset input (R400). -/
inductive HostOp where
  /-- A write of `size` bytes at a register offset; only size 4 at a multiple of 4 is defined (R32). -/
  | write (offset : BitVec 12) (size : Nat) (value : Word)
  /-- A read of `size` bytes at a register offset. -/
  | read (offset : BitVec 12) (size : Nat)
  /-- A host write of one byte of MEM, at the moment it takes effect. -/
  | memWrite (addr : Word) (value : Byte)
  /-- A host read of one byte of MEM. -/
  | memRead (addr : Word)
  /-- The pseudo-instruction wait (R152): read STATUS until BUSY = 0. -/
  | wait
  /-- The platform's reset input (R400). -/
  | hardReset
deriving DecidableEq, Repr

/-- The whole state. The first group is the register file (R31), the second the internal state (R46-R49), the third MEM
(R80), and the last the model's own fields. -/
structure State where
  /-- SRC_ADDR .. CSIZE_HI as the host last wrote them (R38-R41). -/
  args : Args
  /-- CTRL.IRQ_EN_DONE (R34). -/
  irqEnDone : Bool
  /-- CTRL.IRQ_EN_ERR (R34). -/
  irqEnErr : Bool
  /-- The stored fields of STATUS (R35). -/
  status : Status
  /-- IRQ_STATUS.DONE_PEND (R36). -/
  donePend : Bool
  /-- IRQ_STATUS.ERR_PEND (R36). -/
  errPend : Bool
  /-- RESULT0 (R42). -/
  result0 : Word
  /-- RESULT1 (R42). -/
  result1 : Word
  /-- RESULT2 (R42). -/
  result2 : Word
  /-- DEC_FDESC (R43). -/
  decFdesc : Word
  /-- DEC_CSIZE_HI:LO (R43). -/
  decCsize : BitVec 64
  /-- DEC_DICT_ID (R43). -/
  decDictId : Word
  /-- The latched command word while STATUS.BUSY = 1; none while BUSY = 0 (R35, R37). -/
  running : Option Word
  /-- The argument registers as latched at the last acceptance (R46). -/
  snap : Args
  /-- The match index (R47). -/
  index : Index
  /-- The encoder stream context (R48). -/
  enc : Encoder
  /-- The decoder stream context (R49). -/
  dec : Decoder
  /-- MEM (R80). -/
  mem : Memory
  /-- The model's own: host accesses the running command still lets pass before it completes (log 2). -/
  latency : Nat
  /-- The model's own: the host accesses still to come, in the order in which they take effect (log 9). -/
  inbox : List HostOp
  /-- The model's own: the value the host's last read returned (log 9). -/
  lastRead : Word
  /-- The model's own: how many free values have been used (log 3). -/
  draws : Nat
deriving DecidableEq, Repr

/-- Every argument register 0 (R38-R41, R400). -/
def Args.zero : Args :=
  { srcAddr := 0, srcLen := 0, dstAddr := 0, dstCap := 0, dictAddr := 0, dictLen := 0, arg0 := 0, arg1 := 0,
    arg2 := 0, arg3 := 0, fdesc := 0, csizeLo := 0, csizeHi := 0 }

/-- Every stored STATUS field 0 (R35, R400). -/
def Status.zero : Status :=
  { done := false, err := false, needInput := false, frameEnd := false, errCode := 0, errCause := 0, overrun := false }

/-- The match index at reset (R47, R400). -/
def Index.reset : Index :=
  { owner := .free, kind := .fast, head := [], chain := [], nextToUpdate := 0, lastProbe := none, base := 0, len := 0 }

/-- The encoder context at reset (R48, R400). -/
def Encoder.reset : Encoder :=
  { state := .unopened, level := 0, flg := 0, bd := 0, blockSize := 0, chained := false, buf := [], hist := [],
    total := 0 }

/-- The decoder context at reset (R49, R400). -/
def Decoder.reset : Decoder :=
  { state := .unopened, stage := .magic, field := [], hdr := [], flg := 0, bd := 0, blockSize := 0, chained := false,
    bcsum := false, blkLen := 0, inBuf := [], outBuf := [], servePos := 0, hist := [], total := 0 }

/-- The machine right after reset (R400): every engine state at its reset value, MEM with nothing listed (log 1), and the
model's own fields at 0 or empty (logs 2, 3, 9). -/
def State.reset : State :=
  { args := Args.zero, irqEnDone := false, irqEnErr := false, status := Status.zero, donePend := false,
    errPend := false, result0 := 0, result1 := 0, result2 := 0, decFdesc := 0, decCsize := 0, decDictId := 0,
    running := none, snap := Args.zero, index := Index.reset, enc := Encoder.reset, dec := Decoder.reset, mem := [],
    latency := 0, inbox := [], lastRead := 0, draws := 0 }

end Sys2Proof.Machine
end

