-- ==== Sys2Proof/Machine/Flags.lean ====
section
/-! DEFINITION. Every flag and status computation of the spec: the numeric error codes (60_exceptions.md R365, R366), the
STATUS, IRQ_STATUS and CTRL words (10_state.md R34-R36), the stored STATUS fields at acceptance and completion (R37,
R361, R362), and the interrupt line (R370). -/

namespace Sys2Proof.Machine

/-- The class of each cause (R366). -/
def causeClass : Cause → ErrClass
  | .illegalOpcode => .invalidArgument
  | .reservedBits => .invalidArgument
  | .badLevel => .invalidArgument
  | .badBlockSizeCode => .invalidArgument
  | .regionWrap => .invalidArgument
  | .regionOverlap => .invalidArgument
  | .lengthTooLarge => .invalidArgument
  | .badState => .invalidArgument
  | .indexNotReady => .invalidArgument
  | .badCursor => .invalidArgument
  | .badMode => .invalidArgument
  | .badVersion => .invalidArgument
  | .prefixUnderflow => .invalidArgument
  | .indexBusy => .invalidArgument
  | .dstFull => .outputTooSmall
  | .badMagic => .corruptData
  | .headerChecksum => .corruptData
  | .headerReserved => .corruptData
  | .headerBlockSize => .corruptData
  | .blockTooLarge => .corruptData
  | .blockChecksum => .corruptData
  | .tokenTruncated => .corruptData
  | .literalOverrun => .corruptData
  | .offsetZero => .corruptData
  | .offsetBeforeWindow => .corruptData
  | .outputOverrun => .corruptData
  | .transportEof => .unexpectedEndOfStream
  | .version => .unsupportedFeature
  | .contentChecksum => .unsupportedFeature
  | .blockChecksumEncode => .unsupportedFeature
  | .dictionaryId => .unsupportedFeature
  | .partialDecode => .unsupportedFeature

/-- ERR_CODE of a class (R365). -/
def classCode : ErrClass → BitVec 3
  | .invalidArgument => 1#3
  | .outputTooSmall => 2#3
  | .corruptData => 3#3
  | .unexpectedEndOfStream => 4#3
  | .unsupportedFeature => 5#3

/-- ERR_CAUSE of a cause (R366). -/
def causeCode : Cause → BitVec 8
  | .illegalOpcode => 0x01#8
  | .reservedBits => 0x02#8
  | .badLevel => 0x03#8
  | .badBlockSizeCode => 0x04#8
  | .regionWrap => 0x05#8
  | .regionOverlap => 0x06#8
  | .lengthTooLarge => 0x07#8
  | .badState => 0x08#8
  | .indexNotReady => 0x09#8
  | .badCursor => 0x0A#8
  | .badMode => 0x0B#8
  | .badVersion => 0x0C#8
  | .prefixUnderflow => 0x0D#8
  | .indexBusy => 0x0E#8
  | .dstFull => 0x20#8
  | .badMagic => 0x30#8
  | .headerChecksum => 0x31#8
  | .headerReserved => 0x32#8
  | .headerBlockSize => 0x33#8
  | .blockTooLarge => 0x34#8
  | .blockChecksum => 0x35#8
  | .tokenTruncated => 0x36#8
  | .literalOverrun => 0x37#8
  | .offsetZero => 0x38#8
  | .offsetBeforeWindow => 0x39#8
  | .outputOverrun => 0x3A#8
  | .transportEof => 0x40#8
  | .version => 0x50#8
  | .contentChecksum => 0x51#8
  | .blockChecksumEncode => 0x52#8
  | .dictionaryId => 0x53#8
  | .partialDecode => 0x54#8

/-- STATUS.ENC_STATE (R48). -/
def encStateCode : EncState → BitVec 3
  | .unopened => 0#3
  | .headerWritten => 1#3
  | .blockLoop => 2#3
  | .closed => 3#3

/-- STATUS.DEC_STATE (R49). -/
def decStateCode : DecState → BitVec 3
  | .unopened => 0#3
  | .opening => 1#3
  | .headerRead => 2#3
  | .blockLoop => 3#3
  | .closed => 4#3
  | .failed => 5#3

/-- STATUS.IDX_OWNER (R35). -/
def ownerCode : IdxOwner → BitVec 2
  | .free => 0#2
  | .matcher => 1#2
  | .encoder => 2#2

/-- STATUS.IDX_KIND (R35). -/
def kindCode : IdxKind → BitVec 1
  | .fast => 0#1
  | .hc => 1#1

/-- STATUS.BUSY (R35): a command is accepted and not completed. -/
def State.busy (s : State) : Bool := s.running.isSome

/-- STATUS as the host reads it (R35), bit 31 leftmost. -/
def State.statusWord (s : State) : Word :=
  (0#4 ++ kindCode s.index.kind ++ BitVec.ofBool s.status.overrun ++ ownerCode s.index.owner ++ 0#1 ++
    decStateCode s.dec.state ++ 0#1 ++ encStateCode s.enc.state ++ s.status.errCause ++ s.status.errCode ++
    BitVec.ofBool s.status.frameEnd ++ BitVec.ofBool s.status.needInput ++ BitVec.ofBool s.status.err ++
    BitVec.ofBool s.status.done ++ BitVec.ofBool s.busy :
      BitVec (4 + 1 + 1 + 2 + 1 + 3 + 1 + 3 + 8 + 3 + 1 + 1 + 1 + 1 + 1))

/-- CTRL as the host reads it (R34): SOFT_RESET and the reserved bits read 0. -/
def State.ctrlWord (s : State) : Word :=
  (0#29 ++ BitVec.ofBool s.irqEnErr ++ BitVec.ofBool s.irqEnDone ++ 0#1 : BitVec (29 + 1 + 1 + 1))

/-- IRQ_STATUS as the host reads it (R36). -/
def State.irqStatusWord (s : State) : Word :=
  (0#30 ++ BitVec.ofBool s.errPend ++ BitVec.ofBool s.donePend : BitVec (30 + 1 + 1))

/-- The interrupt output (R370). -/
def State.irqLine (s : State) : Bool := (s.donePend && s.irqEnDone) || (s.errPend && s.irqEnErr)

/-- The stored STATUS fields after a completion without error (R361); CMD_OVERRUN is kept. -/
def Status.ofDone (st : Status) (needInput frameEnd : Bool) : Status :=
  { done := true, err := false, needInput := needInput, frameEnd := frameEnd, errCode := 0#3, errCause := 0#8,
    overrun := st.overrun }

/-- The stored STATUS fields after an error (R362); CMD_OVERRUN is kept. -/
def Status.ofError (st : Status) (c : Cause) : Status :=
  { done := false, err := true, needInput := false, frameEnd := false, errCode := classCode (causeClass c),
    errCause := causeCode c, overrun := st.overrun }

end Sys2Proof.Machine
end

