-- ==== Sys2Proof/Machine/Ops.lean ====
section
/-! DEFINITION. The named operations over memory, tables and registers: sparse lists, MEM (20_memory.md R80-R82), the byte
order (R81), completion (60_exceptions.md R361), the error report that is this machine's exception (R362, R374), accepting
a command, which is its return (10_state.md R37, R46; R375), free DST bytes (R367), and the resets (R400, R402). -/

namespace Sys2Proof.Machine

/-- A step's answer. -/
abbrev Result := Host.Outcome State Fault Refusal

/-! ### Sparse lists by rising key -/

/-- The value listed for a key. -/
def Sparse.find {α : Type} : List (Nat × α) → Nat → Option α
  | [], _ => none
  | (k, v) :: rest, j => if k = j then some v else Sparse.find rest j

/-- List a value for a key, keeping the keys in order. -/
def Sparse.put {α : Type} : List (Nat × α) → Nat → α → List (Nat × α)
  | [], j, x => [(j, x)]
  | (k, v) :: rest, j, x =>
    if j < k then (j, x) :: (k, v) :: rest
    else if j = k then (j, x) :: rest
    else (k, v) :: Sparse.put rest j x

/-- Take a key out of the list. -/
def Sparse.cut {α : Type} (l : List (Nat × α)) (j : Nat) : List (Nat × α) := l.filter fun c => c.1 != j

/-- The keys rise strictly. -/
def Sparse.rising {α : Type} : List (Nat × α) → Bool
  | [] => true
  | [_] => true
  | (k, _) :: (j, w) :: rest => decide (k < j) && Sparse.rising ((j, w) :: rest)

/-! ### Position tables (R47) -/

/-- HEAD[k] or CHAIN[k]: none is EMPTY or NONE. -/
def Table.get (t : Table) (k : Nat) : Option Nat := Sparse.find t k

/-- HEAD[k] <- v or CHAIN[k] <- v. -/
def Table.set (t : Table) (k : Nat) (v : Option Nat) : Table :=
  match v with
  | some p => Sparse.put t k p
  | none => Sparse.cut t k

/-! ### MEM -/

/-- The byte of MEM at an address (R80). -/
def Memory.read (m : Memory) (a : Nat) : Byte := (Sparse.find m a).getD Memory.background

/-- MemRead(a, n) (R13): the n bytes at addresses a .. a+n-1. -/
def Memory.readBytes (m : Memory) (a n : Nat) : List Byte := (List.range' a n).map m.read

/-- The cells of a byte string placed at an address: the bytes that differ from the background. -/
def Memory.cells : Nat → List Byte → Memory
  | _, [] => []
  | a, b :: bs => if b = Memory.background then Memory.cells (a + 1) bs else (a, b) :: Memory.cells (a + 1) bs

/-- MemWrite(a, |bs|, bs) (R13): the cells below, the string's cells, the cells above. -/
def Memory.writeBytes (m : Memory) (a : Nat) (bs : List Byte) : Memory :=
  m.filter (fun c => decide (c.1 < a)) ++ Memory.cells a bs ++
    m.filter (fun c => decide (a + bs.length ≤ c.1))

/-- The canonical form of MEM: strictly rising addresses inside the address space (R80), no cell equal to the background. -/
def Memory.wf (m : Memory) : Bool :=
  Sparse.rising m && m.all fun c => decide (c.1 < 2 ^ 32) && c.2 != Memory.background

/-- MemRead on the state. -/
def State.memRead (s : State) (a n : Nat) : List Byte := s.mem.readBytes a n

/-- MemWrite on the state. -/
def State.memWrite (s : State) (a : Nat) (bs : List Byte) : State := { s with mem := s.mem.writeBytes a bs }

/-! ### Byte order (R12, R81) -/

/-- The little-endian value of a byte string, least significant byte first: LE16, LE32 and LE64 of R12 on strings of
2, 4 and 8 bytes. -/
def leNat : List Byte → Nat
  | [] => 0
  | b :: bs => b.toNat + 256 * leNat bs

/-- bytesLE_n(v) (R12). -/
def leBytes : Nat → Nat → List Byte
  | 0, _ => []
  | n + 1, v => BitVec.ofNat 8 v :: leBytes n (v / 256)

/-- The last min(n, |l|) bytes of a string (R288, R322). -/
def lastBytes (n : Nat) (l : List Byte) : List Byte := l.drop (l.length - n)

/-! ### Completion and the error report -/

/-- done(r0, r1, r2) (R361), with the NEED_INPUT and FRAME_END the command set. -/
def State.finishWith (s : State) (needInput frameEnd : Bool) (r0 r1 r2 : Nat) : State :=
  { s with
    result0 := BitVec.ofNat 32 r0
    result1 := BitVec.ofNat 32 r1
    result2 := BitVec.ofNat 32 r2
    status := s.status.ofDone needInput frameEnd
    donePend := true
    running := none
    latency := 0 }

/-- done(r0, r1, r2) (R361) of a command that sets neither NEED_INPUT nor FRAME_END. -/
def State.complete (s : State) (r0 r1 r2 : Nat) : State := s.finishWith false false r0 r1 r2

/-- raise E(cause) (R362): the error report, this machine's form of taking an exception (R374). -/
def State.raise (s : State) (c : Cause) : State :=
  { s with
    result0 := 0
    result1 := 0
    result2 := 0
    status := s.status.ofError c
    errPend := true
    running := none
    latency := 0 }

/-- Accepting the command word w (R37, R46): latch it and the arguments, set BUSY, clear the report of the last command.
This is also what ends an error report (R375). `latency` is how many host accesses pass before the command completes. -/
def State.accept (s : State) (w : Word) (latency : Nat) : State :=
  { s with running := some w, snap := s.args, status := Status.zero, latency := latency }

/-- The first cause in an ordered list of checks whose condition holds (R372). -/
def firstCause : List (Bool × Cause) → Option Cause
  | [] => none
  | (bad, c) :: rest => if bad then some c else firstCause rest

/-! ### Free DST bytes and resets -/

/-- The n free bytes the machine draws next (R367). -/
def freeBytes (draws n : Nat) : List Byte := (List.range' draws n).map Config.freeByte

/-- Every byte of the region [a, a + n) that exists takes any value (R367, R402). -/
def State.scramble (s : State) (a n : Nat) : State :=
  { s with
    mem := s.mem.writeBytes a (freeBytes s.draws (min n (2 ^ 32 - a)))
    draws := s.draws + min n (2 ^ 32 - a) }

/-- An execution error of a command whose output region is DST (R363, R367): DST bytes take any value, and the error is
reported. -/
def State.raiseExec (s : State) (c : Cause) : State :=
  (s.scramble s.snap.dstAddr.toNat s.snap.dstCap.toNat).raise c

/-- Every engine state at its reset value (R400), MEM and the model's own fields as they were. -/
def State.clearEngine (s : State) : State :=
  { State.reset with mem := s.mem, inbox := s.inbox, lastRead := s.lastRead, draws := s.draws }

/-- The index tables emptied (R171, R191, R281, R288): HEAD, CHAIN, LAST_PROBE, and NEXT_TO_UPDATE at a position. -/
def Index.clear (x : Index) (next : Nat) : Index :=
  { x with head := [], chain := [], nextToUpdate := next, lastProbe := none }

end Sys2Proof.Machine
end

