-- ==== Sys2Proof/Machine/Operands.lean ====
section
/-! DEFINITION. Every operand form of the commands: the memory regions named by the latched argument registers (10_state.md
R38, R46; 44_block_decoder.md R253), their legality (20_memory.md R84), and which regions a running command uses (R96). -/

namespace Sys2Proof.Machine

/-- A memory region: start and length (R84). -/
structure Region where
  start : Nat
  len : Nat
deriving DecidableEq, Repr

/-- The region runs past the end of the address space (R84). -/
def Region.wraps (r : Region) : Bool := decide (2 ^ 32 < r.start + r.len)

/-- Both regions are nonempty and share a byte (R84). -/
def Region.overlaps (r q : Region) : Bool :=
  decide (0 < r.len ∧ 0 < q.len ∧ r.start < q.start + q.len ∧ q.start < r.start + r.len)

/-- The address lies in the region. -/
def Region.holds (r : Region) (a : Nat) : Bool := decide (r.start ≤ a ∧ a < r.start + r.len)

/-- Some region of the list wraps (R84). -/
def anyWraps (rs : List Region) : Bool := rs.any Region.wraps

/-- Some two regions of the list overlap (R84). -/
def anyOverlap : List Region → Bool
  | [] => false
  | r :: rest => rest.any r.overlaps || anyOverlap rest

/-- SRC (R38). -/
def Args.src (a : Args) : Region := ⟨a.srcAddr.toNat, a.srcLen.toNat⟩

/-- DST (R38). -/
def Args.dst (a : Args) : Region := ⟨a.dstAddr.toNat, a.dstCap.toNat⟩

/-- DICT (R38). -/
def Args.dict (a : Args) : Region := ⟨a.dictAddr.toNat, a.dictLen.toNat⟩

/-- PREFIX, the bytes [DST_ADDR - DICT_LEN, DST_ADDR) (R84, R253). DEDUCED (log 7): where DICT_LEN is above DST_ADDR, which
BLOCK_DECODE refuses (R251), it is the part of that interval that exists, [0, DST_ADDR). -/
def Args.behind (a : Args) : Region := ⟨a.dstAddr.toNat - a.dictLen.toNat, min a.dictLen.toNat a.dstAddr.toNat⟩

/-- CSIZE (R41). -/
def Args.csize (a : Args) : Nat := a.csizeHi.toNat * 2 ^ 32 + a.csizeLo.toNat

/-- The dictionary region of a block decode (R253): none, PREFIX or DICT. -/
def dictRegions (a : Args) (dmode : BitVec 2) : List Region :=
  if dmode = 0#2 then [] else if dmode = 1#2 then [a.behind] else [a.dict]

/-- The regions the host must not write while a command runs, beside its DST (R96): its SRC, DICT or PREFIX. MATCH_FIND and
MATCH_WIDEN have none: the host may write the indexed buffer at any time (R97, R425). -/
def readRegions (s : State) : Instr → List Region
  | .nop => []
  | .abortEnc => []
  | .abortDec => []
  | .matchInit _ => [s.snap.src]
  | .matchFind => []
  | .matchWiden => []
  | .blockEncode _ => [s.snap.src]
  | .blockDecode _ dmode _ => s.snap.src :: dictRegions s.snap dmode
  | .fencOpen _ => []
  | .fencWrite => [s.snap.src]
  | .fencClose => []
  | .fdecOpen _ => [s.snap.src]
  | .fdecRead _ => [s.snap.src]

/-- The region a command writes (R86), if it has one. -/
def writeRegions (s : State) : Instr → List Region
  | .nop => []
  | .abortEnc => []
  | .abortDec => []
  | .matchInit _ => []
  | .matchFind => []
  | .matchWiden => []
  | .blockEncode _ => [s.snap.dst]
  | .blockDecode _ _ _ => [s.snap.dst]
  | .fencOpen _ => [s.snap.dst]
  | .fencWrite => [s.snap.dst]
  | .fencClose => [s.snap.dst]
  | .fdecOpen _ => []
  | .fdecRead _ => [s.snap.dst]

/-- The running command, if its word decodes (R113). DESIGN CHOICE (log 25): while a word that R113 refuses is BUSY (R191 and
R251 count these refusals among the command's own pre-checks), R96 does not say whether the registers name regions of it;
here it has none, and the host may read and write all of MEM under it. -/
def State.command (s : State) : Option Instr :=
  match s.running with
  | none => none
  | some w =>
    match decode w with
    | .ok i => some i
    | .error _ => none

/-- The SRC, DICT and PREFIX of the running command (R96); none while idle. -/
def State.busyReads (s : State) : List Region :=
  match s.command with
  | none => []
  | some i => readRegions s i

/-- The DST of the running command (R96); none while idle. -/
def State.busyWrites (s : State) : List Region :=
  match s.command with
  | none => []
  | some i => writeRegions s i

end Sys2Proof.Machine
end

