-- ==== Sys2Proof/Machine/BlockDecode.lean ====
section
/-! DEFINITION. The block decoder (44_block_decoder.md R254-R259) and BLOCK_DECODE (R251-R253). -/

namespace Sys2Proof.Machine

/-- The extension bytes of a length field (R121): each is added, up to and with the first that is not 255. None where the
input ends first. -/
def readExt : List Byte → Nat → Option (Nat × List Byte)
  | [], _ => none
  | e :: rest, acc => if e = 0xFF#8 then readExt rest (acc + 255) else some (acc + e.toNat, rest)

/-- A length field of nibble value k (R121). -/
def readLength (k : Nat) (rest : List Byte) : Option (Nat × List Byte) :=
  if k = 15 then readExt rest 15 else some (k, rest)

/-- byteAt(|out| - off) (R254): the byte off behind the output position, in the output or else in the dictionary. -/
def byteBehind (dict out : Array Byte) (off : Nat) : Byte :=
  if off ≤ out.size then out.getD (out.size - off) 0#8 else dict.getD (dict.size + out.size - off) 0#8

/-- Match replay (R257): n bytes, one at a time, each read behind the output written so far. -/
def replay (dict : Array Byte) (off : Nat) : Nat → Array Byte → Array Byte
  | 0, out => out
  | n + 1, out => replay dict off n (out.push (byteBehind dict out off))

/-- overflow() (R254, R259). -/
def overflowCause (eoo : Bool) : Cause := if eoo then .outputOverrun else .dstFull

/-- The match half of a sequence (R254): offset, checks, match length, replay. -/
def decodeMatch (cap : Nat) (eoo : Bool) (dict : Array Byte) (nibble : Nat) (rest : List Byte) (out : Array Byte) :
    Except Cause (List Byte × Array Byte) :=
  match rest with
  | b0 :: b1 :: rest1 =>
    let off := leNat [b0, b1]
    if off = 0 then .error .offsetZero
    else if out.size + dict.size < off then .error .offsetBeforeWindow
    else
      match readLength nibble rest1 with
      | none => .error .tokenTruncated
      | some (m, rest2) =>
        if cap < out.size + (m + Config.minMatch) then .error (overflowCause eoo)
        else .ok (rest2, replay dict off (m + Config.minMatch) out)
  | _ => .error .tokenTruncated

/-- The literal half of a sequence (R254): literal length, checks, copy. -/
def decodeLiterals (cap : Nat) (eoo : Bool) (nibble : Nat) (rest : List Byte) (out : Array Byte) :
    Except Cause (List Byte × Array Byte) :=
  match readLength nibble rest with
  | none => .error .tokenTruncated
  | some (l, rest1) =>
    if rest1.length < l then .error .literalOverrun
    else if cap < out.size + l then .error (overflowCause eoo)
    else .ok (rest1.drop l, out ++ (rest1.take l).toArray)

/-- The sequence is the terminal one (R258). -/
def atBoundary (cap : Nat) (eoo : Bool) (rest : List Byte) (out : Array Byte) : Bool :=
  if eoo then out.size == cap else rest.isEmpty

/-- The loop of decodeBlock (R254) on the input not yet read, at most n sequences; it answers the output and the input
left. A sequence takes at least its token byte, so the input's length of sequences is enough, and none left to read is
the spec's own truncation. -/
def decodeLoop (cap : Nat) (eoo : Bool) (dict : Array Byte) :
    Nat → List Byte → Array Byte → Except Cause (List Byte × Array Byte)
  | 0, _, _ => .error .tokenTruncated
  | _ + 1, [], _ => .error .tokenTruncated
  | n + 1, token :: rest, out =>
    match decodeLiterals cap eoo (token.toNat / 16) rest out with
    | .error c => .error c
    | .ok (rest1, out1) =>
      if atBoundary cap eoo rest1 out1 then .ok (rest1, out1)
      else
        match decodeMatch cap eoo dict (token.toNat % 16) rest1 out1 with
        | .error c => .error c
        | .ok (rest2, out2) => decodeLoop cap eoo dict n rest2 out2

/-- decodeBlock(in, cap, eoo, dict) (R254): the output and how many input bytes were read. -/
def decodeBlock (input : List Byte) (cap : Nat) (eoo : Bool) (dict : List Byte) : Except Cause (List Byte × Nat) :=
  match decodeLoop cap eoo dict.toArray input.length input #[] with
  | .error c => .error c
  | .ok (rest, out) => .ok (out.toList, input.length - rest.length)

/-- The dictionary bytes of a block decode (R253). -/
def dictBytes (s : State) (dmode : BitVec 2) : List Byte :=
  (dictRegions s.snap dmode).flatMap fun r => s.memRead r.start r.len

/-- The pre-checks of BLOCK_DECODE (R251) behind the command word's. -/
def blockDecodeChecks (dmode : BitVec 2) (s : State) : List (Bool × Cause) :=
  [(anyWraps [s.snap.src, s.snap.dst] || (dmode == 2#2 && anyWraps [s.snap.dict]), .regionWrap),
   (dmode == 1#2 && decide (s.snap.dstAddr.toNat < s.snap.dictLen.toNat), .prefixUnderflow),
   (anyOverlap (s.snap.src :: s.snap.dst :: dictRegions s.snap dmode), .regionOverlap)]

/-- BLOCK_DECODE (R251). -/
def execBlockDecode (eoo : Bool) (dmode : BitVec 2) (short : Bool) (s : State) : Result :=
  match (fieldCause (.blockDecode eoo dmode short)).or (firstCause (blockDecodeChecks dmode s)) with
  | some c => .next (s.raise c)
  | none =>
    match decodeBlock (s.memRead s.snap.srcAddr.toNat s.snap.srcLen.toNat) s.snap.dstCap.toNat eoo (dictBytes s dmode) with
    | .error c => .next (s.raiseExec c)
    | .ok (out, used) => .next ((s.memWrite s.snap.dstAddr.toNat out).complete out.length used 0)

end Sys2Proof.Machine
end

