-- ==== Sys2Proof/Machine/MatchEngine.lean ====
section
/-! DEFINITION. The match engine (40_match_engine.md R160-R170): the buffer view, the hash, match lengths, the FAST probe,
HC insertion and search, and widening. Positions are unbounded naturals (R47, R168). -/

namespace Sys2Proof.Machine

/-- The byte function buf of R161: the bytes at positions base, base + 1, ... -/
structure View where
  base : Nat
  bytes : Array Byte
deriving DecidableEq, Repr

/-- The view of a byte string from a position on. -/
def View.ofList (base : Nat) (bs : List Byte) : View := ⟨base, bs.toArray⟩

/-- buf(p) (R161); a position the view does not hold reads as a free byte (log 12). -/
def View.byte (v : View) (p : Nat) : Byte :=
  if v.base ≤ p then v.bytes.getD (p - v.base) (Config.lostByte p) else Config.lostByte p

/-- buf[lo .. hi). -/
def View.slice (v : View) (lo hi : Nat) : List Byte := (List.range' lo (hi - lo)).map v.byte

/-- seq(p) (R161). -/
def View.seq (v : View) (p : Nat) : Nat := leNat [v.byte p, v.byte (p + 1), v.byte (p + 2), v.byte (p + 3)]

/-- HASH_LOG of an index (R162). -/
def hashLog : IdxKind → Nat
  | .fast => Config.fastHashLog
  | .hc => Config.hcHashLog

/-- The multiplicative hash of a 32-bit value (R162). -/
def hashOf (kind : IdxKind) (x : Nat) : Nat := x * Config.hashMultiplier % 2 ^ 32 / 2 ^ (32 - hashLog kind)

/-- H(p) (R162). -/
def View.hash (v : View) (kind : IdxKind) (p : Nat) : Nat := hashOf kind (v.seq p)

/-- How many of the next n bytes agree, beyond the k already compared (R163). -/
def matchRun (v : View) (c cand : Nat) : Nat → Nat → Nat
  | 0, k => k
  | n + 1, k => if v.byte (cand + k) = v.byte (c + k) then matchRun v c cand n (k + 1) else k

/-- matchLen(c, cand, limit) (R163). -/
def matchLen (v : View) (c cand limit : Nat) : Nat := matchRun v c cand (limit - c) 0

/-- A search result: length 0 when there is no match (R165, R167). -/
structure Found where
  len : Nat
  cand : Nat
deriving DecidableEq, Repr

/-- No match. -/
def Found.none : Found := ⟨0, 0⟩

/-- The candidate is usable: inside the window and with the same four bytes (R165). -/
def fastHit (v : View) (c low : Nat) (cand : Option Nat) : Option Nat :=
  match cand with
  | some p =>
    if low ≤ p ∧ c - p ≤ Config.maxDistance then if v.seq p = v.seq c then some p else none else none
  | none => none

/-- fastProbe(c, low, limit) (R165). -/
def fastProbe (v : View) (x : Index) (c low limit : Nat) : Found × Index :=
  let h := v.hash .fast c
  let x' := { x with head := Table.set x.head h (some c), lastProbe := some c }
  match fastHit v c low (Table.get x.head h) with
  | some p => (⟨4 + matchLen v (c + 4) (p + 4) limit, p⟩, x')
  | none => (Found.none, x')

/-- The previous position a new one is chained to (R166). -/
def chainPrev (p : Nat) (prev : Option Nat) : Option Nat :=
  match prev with
  | some q => if p - q ≤ Config.maxDistance then some q else none
  | none => none

/-- Inserting one position (R166). -/
def hcInsert (v : View) (x : Index) (p : Nat) : Index :=
  let h := v.hash .hc p
  { x with
    chain := Table.set x.chain (p % Config.chainSize) (chainPrev p (Table.get x.head h))
    head := Table.set x.head h (some p)
    nextToUpdate := p + 1 }

/-- hcInsertUpTo(c, limit) (R166): the positions from NEXT_TO_UPDATE on that are at most c and hashable. -/
def hcInsertUpTo (v : View) (x : Index) (c limit : Nat) : Index :=
  (List.range' x.nextToUpdate (min (c + 1) (limit - 3) - x.nextToUpdate)).foldl (hcInsert v) x

/-- The chain walk of hcFind (R167), one candidate an attempt. -/
def hcWalk (v : View) (chain : Table) (c low limit : Nat) : Nat → Option Nat → Found → Found
  | 0, _, best => best
  | _ + 1, none, best => best
  | n + 1, some cand, best =>
    if low ≤ cand ∧ c - cand ≤ Config.maxDistance then
      let next := Table.get chain (cand % Config.chainSize)
      if v.seq cand = v.seq c then
        let len := 4 + matchLen v (c + 4) (cand + 4) limit
        hcWalk v chain c low limit n next (if best.len < len then ⟨len, cand⟩ else best)
      else hcWalk v chain c low limit n next best
    else best

/-- hcFind(c, low, budget, limit) (R167). -/
def hcFind (v : View) (x : Index) (c low budget limit : Nat) : Found × Index :=
  let x' := hcInsertUpTo v x c limit
  (hcWalk v x'.chain c low limit budget (Table.get x'.chain (c % Config.chainSize)) Found.none, x')

/-- How many of the n bytes before two positions agree (R170), beyond the k already compared. -/
def widenRun (v : View) (c cand : Nat) : Nat → Nat → Nat
  | 0, k => k
  | n + 1, k => if v.byte (c - k - 1) = v.byte (cand - k - 1) then widenRun v c cand n (k + 1) else k

/-- The number k of bytes widen(c, cand, anchor, low) grows a match by (R170): the match then starts at c - k. -/
def widenBy (v : View) (c cand anchor low : Nat) : Nat := widenRun v c cand (min (c - anchor) (cand - low)) 0

end Sys2Proof.Machine
end

