-- ==== Sys2Proof/Machine/Emit.lean ====
section
/-! DEFINITION. What every encoder writes (41_fast_encoder.md R190, R192; 30_encoding.md R120-R126): a parse of the block
into match sequences and a terminal sequence, and its bytes. -/

namespace Sys2Proof.Machine

/-- One match sequence (R192): literals buf[anchor .. ip), then a match of `len` bytes at distance `off`. -/
structure Sequence where
  anchor : Nat
  ip : Nat
  len : Nat
  off : Nat
deriving DecidableEq, Repr

/-- What an encoder found: the match sequences in order, the start of the terminal literals, and the index it leaves. -/
structure Parse where
  seqs : List Sequence
  anchor : Nat
  index : Index
deriving DecidableEq, Repr

/-- lenExt(v) (R192, R125). -/
def lenExt (v : Nat) : List Byte :=
  if v < 15 then [] else List.replicate ((v - 15) / 255) 0xFF#8 ++ [BitVec.ofNat 8 ((v - 15) % 255)]

/-- The token byte of a literal length and a match field value (R120, R125). -/
def tokenByte (literals matchField : Nat) : Byte := BitVec.ofNat 8 (min literals 15 * 16 + min matchField 15)

/-- emitSeq (R192). -/
def emitSeq (v : View) (q : Sequence) : List Byte :=
  tokenByte (q.ip - q.anchor) (q.len - 4) :: lenExt (q.ip - q.anchor) ++ v.slice q.anchor q.ip ++ leBytes 2 q.off ++
    lenExt (q.len - 4)

/-- emitLast (R192): the terminal sequence, its low nibble 0. -/
def emitLast (v : View) (anchor stop : Nat) : List Byte :=
  tokenByte (stop - anchor) 0 :: lenExt (stop - anchor) ++ v.slice anchor stop

/-- The block payload of a parse (R124, R190). -/
def emitBlockBytes (v : View) (p : Parse) (stop : Nat) : List Byte :=
  p.seqs.flatMap (emitSeq v) ++ emitLast v p.anchor stop

end Sys2Proof.Machine
end

