-- ==== Sys2Proof/Machine/FastEncoder.lean ====
section
/-! DEFINITION. The fast greedy encoder of level 0 (41_fast_encoder.md R196, R197). -/

namespace Sys2Proof.Machine

/-- The encoder's variables (R196); the sequences are kept newest first. -/
structure FastState where
  ip : Nat
  anchor : Nat
  attempts : Nat
  index : Index
  seqs : List Sequence
deriving DecidableEq, Repr

/-- The skip step after a failed probe (R196, R197). -/
def fastStep (attempts : Nat) : Nat := min (attempts / 2 ^ Config.skipTrigger) Config.stepCap

/-- One probe at ip (R196): step on after a failure, else widen, emit and go on behind the match. -/
def fastAdvance (v : View) (low stop : Nat) (st : FastState) : FastState :=
  let r := fastProbe v st.index st.ip low stop
  if r.1.len = 0 then
    { st with ip := st.ip + fastStep st.attempts, attempts := st.attempts + 1, index := r.2 }
  else
    let k := widenBy v st.ip r.1.cand st.anchor low
    let next := st.ip + r.1.len
    { ip := next, anchor := next, attempts := 2 ^ Config.skipTrigger, index := r.2,
      seqs := ⟨st.anchor, st.ip - k, r.1.len + k, st.ip - r.1.cand⟩ :: st.seqs }

/-- The two loops of R196 as one: probe while ip is hashable, at most n probes. -/
def fastLoop (v : View) (low stop : Nat) : Nat → FastState → FastState
  | 0, st => st
  | n + 1, st => if st.ip + 4 ≤ stop then fastLoop v low stop n (fastAdvance v low stop st) else st

/-- The parse of fastEncode(start, end, low) (R196). Every probe moves ip on, so end - start probes are enough. -/
def fastParse (v : View) (x : Index) (start stop low : Nat) : Parse :=
  let st := fastLoop v low stop (stop - start)
    { ip := start, anchor := start, attempts := 2 ^ Config.skipTrigger, index := x, seqs := [] }
  { seqs := st.seqs.reverse, anchor := st.anchor, index := st.index }

end Sys2Proof.Machine
end

