-- ==== Sys2Proof/Machine/HcEncoder.lean ====
section
/-! DEFINITION. The HC encoder with lazy matching of levels 3 to 9 (42_hc_encoder.md R211-R213). -/

namespace Sys2Proof.Machine

/-- The encoder's variables (R211); the sequences are kept newest first. -/
structure HcState where
  ip : Nat
  anchor : Nat
  index : Index
  seqs : List Sequence
deriving DecidableEq, Repr

/-- A chosen match and where it starts (R211). -/
structure LazyState where
  ip : Nat
  best : Found
  index : Index
deriving DecidableEq, Repr

/-- The lookahead of R211 and R213 at distance k: the match found there if it dominates, and the index. -/
def lookAt (v : View) (low stop budget : Nat) (st : LazyState) (k : Nat) : Option Found × Index :=
  if st.ip + k + 4 ≤ stop then
    let r := hcFind v st.index (st.ip + k) low budget stop
    (if st.best.len + k < r.1.len then some r.1 else none, r.2)
  else (none, st.index)

/-- The lazy step (R211, R213): k = 1, then k = 2, repeated from the new cursor after a replacement, at most n times. -/
def lazyLoop (v : View) (low stop budget : Nat) : Nat → LazyState → LazyState
  | 0, st => st
  | n + 1, st =>
    match lookAt v low stop budget st 1 with
    | (some m, x) => lazyLoop v low stop budget n ⟨st.ip + 1, m, x⟩
    | (none, x) =>
      match lookAt v low stop budget { st with index := x } 2 with
      | (some m, y) => lazyLoop v low stop budget n ⟨st.ip + 2, m, y⟩
      | (none, y) => { st with index := y }

/-- One cursor of R211: nothing found, or the lazy step, widening and one sequence. -/
def hcAdvance (v : View) (low stop budget : Nat) (st : HcState) : HcState :=
  let r := hcFind v st.index st.ip low budget stop
  if r.1.len = 0 then { st with ip := st.ip + 1, index := r.2 }
  else
    let z := lazyLoop v low stop budget (stop - st.ip) ⟨st.ip, r.1, r.2⟩
    let w := widenBy v z.ip z.best.cand st.anchor low
    let next := z.ip + z.best.len
    { ip := next, anchor := next, index := z.index,
      seqs := ⟨st.anchor, z.ip - w, z.best.len + w, z.ip - z.best.cand⟩ :: st.seqs }

/-- The loop of R211, at most n cursors. -/
def hcLoop (v : View) (low stop budget : Nat) : Nat → HcState → HcState
  | 0, st => st
  | n + 1, st => if st.ip + 4 ≤ stop then hcLoop v low stop budget n (hcAdvance v low stop budget st) else st

/-- The parse of hcEncode(start, end, low, level) (R211). Every cursor moves ip on, so end - start of them are enough. -/
def hcParse (v : View) (x : Index) (level start stop low : Nat) : Parse :=
  let st := hcLoop v low stop (Config.nbSearches level) (stop - start)
    { ip := start, anchor := start, index := x, seqs := [] }
  { seqs := st.seqs.reverse, anchor := st.anchor, index := st.index }

end Sys2Proof.Machine
end

