-- ==== Sys2Proof/Machine/OptEncoder.lean ====
section
/-! DEFINITION. The optimal-parsing encoder of levels 10 to 12 and its price table (43_optimal_encoder.md R231-R236). -/

namespace Sys2Proof.Machine

/-- ext(v) (R125). -/
def extLen (v : Nat) : Nat := if v < 15 then 0 else 1 + (v - 15) / 255

/-- litp(L) (R232). -/
def litPrice (n : Nat) : Nat := n + extLen n

/-- matchp(M) (R232). -/
def matchPrice (m : Nat) : Nat := 3 + extLen (m - 4)

/-- from[i] (R231). -/
inductive Origin where
  | start
  | literal (node : Nat)
  | copy (node len off : Nat)
deriving DecidableEq, Repr

/-- One entry of the price table that is not infinite (R231): price, lit and from. -/
structure Node where
  price : Nat
  lit : Nat
  origin : Origin
deriving DecidableEq, Repr

/-- The price table (R231): none is an infinite price. -/
abbrev Prices := Array (Option Node)

/-- Entry i of the table. -/
def Prices.at (t : Prices) (i : Nat) : Option Node := t.getD i none

/-- Keep the cheaper of the entry and a new node: only a strictly lower price replaces (R231, R234). -/
def Prices.offer (t : Prices) (i : Nat) (node : Node) : Prices :=
  match t.at i with
  | none => t.setIfInBounds i (some node)
  | some old => if node.price < old.price then t.setIfInBounds i (some node) else t

/-- relaxLit(i) (R231). -/
def relaxLit (t : Prices) (i : Nat) : Prices :=
  match t.at i with
  | none => t
  | some n => t.offer (i + 1) ⟨n.price - litPrice n.lit + litPrice (n.lit + 1), n.lit + 1, .literal i⟩

/-- relaxMatch(i, m) (R231) for a match at distance off: every length from 4 to the match's. -/
def relaxMatch (t : Prices) (i len off : Nat) : Prices :=
  match t.at i with
  | none => t
  | some n =>
    (List.range' 4 (len - 3)).foldl (fun u m => u.offer (i + m) ⟨n.price + matchPrice m, 0, .copy i m off⟩) t

/-- The variables of the fill loop (R231). -/
structure FillState where
  node : Nat
  last : Nat
  table : Prices
  index : Index
  forced : Option (Nat × Found)
deriving DecidableEq, Repr

/-- One node of the fill loop (R231). -/
def fillNode (v : View) (ip low stop budget suff : Nat) (f : FillState) : FillState :=
  let t := relaxLit f.table f.node
  let c := ip + f.node
  if c + 4 ≤ stop then
    let r := hcFind v f.index c low budget stop
    if r.1.len = 0 then { f with node := f.node + 1, table := t, index := r.2 }
    else if suff ≤ r.1.len ∨ Config.optNum < f.node + r.1.len then
      { f with table := t, index := r.2, forced := some (f.node, r.1) }
    else
      { f with
        node := f.node + 1
        last := max f.last (f.node + r.1.len)
        table := relaxMatch t f.node r.1.len (c - r.1.cand)
        index := r.2 }
  else { f with node := f.node + 1, table := t }

/-- The fill loop (R231), at most n nodes: it ends at `last` or at a forced match. -/
def fillLoop (v : View) (ip low stop budget suff : Nat) : Nat → FillState → FillState
  | 0, f => f
  | n + 1, f =>
    if f.forced = none ∧ f.node < f.last then
      fillLoop v ip low stop budget suff n (fillNode v ip low stop budget suff f)
    else f

/-- The match entries met from a node back to node 0, in forward order (R231), over at most n edges. -/
def tracePath (t : Prices) : Nat → Nat → List (Nat × Nat × Nat) → List (Nat × Nat × Nat)
  | 0, _, acc => acc
  | n + 1, i, acc =>
    match t.at i with
    | none => acc
    | some e =>
      match e.origin with
      | .start => acc
      | .literal j => tracePath t n j acc
      | .copy j len off => tracePath t n j ((j, len, off) :: acc)

/-- The encoder's variables (R231); the sequences are kept newest first. -/
structure OptState where
  ip : Nat
  anchor : Nat
  index : Index
  seqs : List Sequence
deriving DecidableEq, Repr

/-- Emit the matches of a path whose node 0 is position ip (R231). -/
def emitPath (ip : Nat) : List (Nat × Nat × Nat) → OptState → OptState
  | [], st => st
  | (i, len, off) :: rest, st =>
    emitPath ip rest
      { st with anchor := ip + i + len, seqs := ⟨st.anchor, ip + i, len, off⟩ :: st.seqs }

/-- The table before the fill loop (R231): node 0 with its literal edge and its match edges. Nodes past end - ip are never
offered a price and are not held. -/
def firstTable (ip anchor stop len off : Nat) : Prices :=
  let t : Prices := Array.replicate (min Config.optNum (stop - ip) + 1) none
  relaxMatch (relaxLit (t.setIfInBounds 0 (some ⟨litPrice (ip - anchor), ip - anchor, .start⟩)) 0) 0 len off

/-- One price table (R231): fill it, walk it back, emit its path and the forced match. -/
def optTable (v : View) (low stop budget suff : Nat) (st : OptState) (m0 : Found) : OptState :=
  let f := fillLoop v st.ip low stop budget suff Config.optNum
    { node := 1, last := m0.len, table := firstTable st.ip st.anchor stop m0.len (st.ip - m0.cand), index := st.index,
      forced := none }
  match f.forced with
  | some (s, m) =>
    let e := emitPath st.ip (tracePath f.table s s []) { st with index := f.index }
    let next := st.ip + s + m.len
    { e with ip := next, anchor := next, seqs := ⟨e.anchor, st.ip + s, m.len, st.ip + s - m.cand⟩ :: e.seqs }
  | none =>
    let e := emitPath st.ip (tracePath f.table f.last f.last []) { st with index := f.index }
    { e with ip := st.ip + f.last }

/-- One cursor of R231: nothing found, a sufficient match taken at once, or a price table. -/
def optAdvance (v : View) (low stop budget suff : Nat) (st : OptState) : OptState :=
  let r := hcFind v st.index st.ip low budget stop
  if r.1.len = 0 then { st with ip := st.ip + 1, index := r.2 }
  else if suff ≤ r.1.len then
    let next := st.ip + r.1.len
    { ip := next, anchor := next, index := r.2,
      seqs := ⟨st.anchor, st.ip, r.1.len, st.ip - r.1.cand⟩ :: st.seqs }
  else optTable v low stop budget suff { st with index := r.2 } r.1

/-- The loop of R231, at most n cursors. -/
def optLoop (v : View) (low stop budget suff : Nat) : Nat → OptState → OptState
  | 0, st => st
  | n + 1, st => if st.ip + 4 ≤ stop then optLoop v low stop budget suff n (optAdvance v low stop budget suff st) else st

/-- The parse of optEncode(start, end, low, level) (R231). Every cursor moves ip on, so end - start of them are enough. -/
def optParse (v : View) (x : Index) (level start stop low : Nat) : Parse :=
  let st := optLoop v low stop (Config.nbSearches level) (Config.sufficientLen level) (stop - start)
    { ip := start, anchor := start, index := x, seqs := [] }
  { seqs := st.seqs.reverse, anchor := st.anchor, index := st.index }

end Sys2Proof.Machine
end

