-- ==== Sys2Proof/Machine/BlockEncode.lean ====
section
/-! DEFINITION. The encoders by level (41_fast_encoder.md R190) and BLOCK_ENCODE (R191, R195). -/

namespace Sys2Proof.Machine

/-- The parse of encode(level, start, end, low) (R190). -/
def parseBlock (v : View) (x : Index) (level start stop low : Nat) : Parse :=
  if level = 0 then fastParse v x start stop low
  else if level ≤ 9 then hcParse v x level start stop low
  else optParse v x level start stop low

/-- encode(level, start, end, low) (R190): the block payload, and the index the encoder leaves. -/
def encodeBlock (v : View) (x : Index) (level start stop low : Nat) : List Byte × Index :=
  let p := parseBlock v x level start stop low
  (emitBlockBytes v p stop, p.index)

/-- The index kind of a level (R190). -/
def levelKind (level : BitVec 4) : IdxKind := if level = 0#4 then .fast else .hc

/-- CompressBound(n) (R195). -/
def compressBound (n : Nat) : Nat := n + n / 255 + 16

/-- The bound on |E| that R199 derives for every encoder, and that R200 asks of any block payload of n bytes. -/
def payloadBound (n : Nat) : Nat := n + n / 255 + 2

/-- The pre-checks of BLOCK_ENCODE (R191) behind the command word's. -/
def blockEncodeChecks (s : State) : List (Bool × Cause) :=
  [(s.index.owner == .encoder, .indexBusy),
   (anyWraps [s.snap.src, s.snap.dst], .regionWrap),
   (anyOverlap [s.snap.src, s.snap.dst], .regionOverlap),
   (decide (Config.maxBlock < s.snap.srcLen.toNat), .lengthTooLarge)]

/-- The index BLOCK_ENCODE starts with (R191): cleared, of the level's kind, owned by no one. -/
def Index.forEncode (x : Index) (level : BitVec 4) : Index :=
  { x.clear 0 with kind := levelKind level, owner := .free }

/-- The payload BLOCK_ENCODE makes of SRC (R191), and the index it leaves. -/
def encodeSource (level : BitVec 4) (s : State) : List Byte × Index :=
  let n := s.snap.srcLen.toNat
  encodeBlock (View.ofList 0 (s.memRead s.snap.srcAddr.toNat n)) (s.index.forEncode level) level.toNat 0 n 0

/-- BLOCK_ENCODE (R191). -/
def execBlockEncode (level : BitVec 4) (s : State) : Result :=
  match (levelCause level).or (firstCause (blockEncodeChecks s)) with
  | some c => .next (s.raise c)
  | none =>
    let r := encodeSource level s
    let t := { s with index := r.2 }
    if s.snap.dstCap.toNat < r.1.length then .next (t.raiseExec .dstFull)
    else .next ((t.memWrite s.snap.dstAddr.toNat r.1).complete r.1.length s.snap.srcLen.toNat 0)

end Sys2Proof.Machine
end

