-- ==== Sys2Proof/Machine/Control.lean ====
section
/-! DEFINITION. The control commands NOP, ABORT_ENC and ABORT_DEC (47_control.md R350-R353). -/

namespace Sys2Proof.Machine

/-- NOP (R350). -/
def execNop (s : State) : Result := .next (s.complete 0 0 0)

/-- Dropping the encoder stream (R351): its context at reset, and the index released if it was the encoder's. -/
def State.dropEncoder (s : State) : State :=
  if s.enc.state = .unopened then s
  else
    { s with
      enc := Encoder.reset
      index := if s.index.owner = .encoder then { s.index with owner := .free } else s.index }

/-- ABORT_ENC (R351). -/
def execAbortEnc (s : State) : Result := .next (s.dropEncoder.complete 0 0 0)

/-- The decoder stream and its header registers at reset (R352, R311). -/
def State.dropDecoder (s : State) : State :=
  { s with dec := Decoder.reset, decFdesc := 0, decCsize := 0, decDictId := 0 }

/-- ABORT_DEC (R352). -/
def execAbortDec (s : State) : Result := .next (s.dropDecoder.complete 0 0 0)

end Sys2Proof.Machine
end

