-- ==== Sys2Proof/Machine/Xxh32.lean ====
section
/-! DEFINITION. XXH32, the 32-bit hash of the header checksum and the block checksum (46_frame_decoder.md R340), and the
header checksum byte (30_encoding.md R133). -/

namespace Sys2Proof.Machine

/-- P1 (R340). -/
def xxP1 : Word := 0x9E3779B1#32

/-- P2 (R340). -/
def xxP2 : Word := 0x85EBCA77#32

/-- P3 (R340). -/
def xxP3 : Word := 0xC2B2AE3D#32

/-- P4 (R340). -/
def xxP4 : Word := 0x27D4EB2F#32

/-- P5 (R340). -/
def xxP5 : Word := 0x165667B1#32

/-- LE32 of the first four bytes of a string, as a word (R12). -/
def le32 (d : List Byte) : Word := BitVec.ofNat 32 (leNat (d.take 4))

/-- One lane of a stripe (R340). -/
def xxRound (v lane : Word) : Word := (v + lane * xxP2).rotateLeft 13 * xxP1

/-- The four accumulators (R340). -/
structure XxLanes where
  v1 : Word
  v2 : Word
  v3 : Word
  v4 : Word
deriving DecidableEq, Repr

/-- n stripes of 16 bytes from the front of a string (R340). -/
def xxStripes : Nat → List Byte → XxLanes → XxLanes
  | 0, _, v => v
  | n + 1, d, v =>
    xxStripes n (d.drop 16)
      { v1 := xxRound v.v1 (le32 d)
        v2 := xxRound v.v2 (le32 (d.drop 4))
        v3 := xxRound v.v3 (le32 (d.drop 8))
        v4 := xxRound v.v4 (le32 (d.drop 12)) }

/-- n words of 4 bytes of the tail (R340). -/
def xxWords : Nat → List Byte → Word → Word
  | 0, _, h => h
  | n + 1, d, h => xxWords n (d.drop 4) ((h + le32 d * xxP3).rotateLeft 17 * xxP4)

/-- The last bytes of the tail (R340). -/
def xxBytes : List Byte → Word → Word
  | [], h => h
  | b :: bs, h => xxBytes bs ((h + b.setWidth 32 * xxP5).rotateLeft 11 * xxP1)

/-- The final mixing (R340). -/
def xxAvalanche (h0 : Word) : Word :=
  let h1 := (h0 ^^^ (h0 >>> 15)) * xxP2
  let h2 := (h1 ^^^ (h1 >>> 13)) * xxP3
  h2 ^^^ (h2 >>> 16)

/-- The accumulator before the tail (R340): the merged lanes of a string of 16 bytes or more, else seed + P5. -/
def xxStart (d : List Byte) (seed : Word) : Word :=
  if 16 ≤ d.length then
    let v := xxStripes (d.length / 16) d
      { v1 := seed + xxP1 + xxP2, v2 := seed + xxP2, v3 := seed, v4 := seed - xxP1 }
    v.v1.rotateLeft 1 + v.v2.rotateLeft 7 + v.v3.rotateLeft 12 + v.v4.rotateLeft 18
  else seed + xxP5

/-- XXH32(D, seed) (R340). -/
def xxh32 (d : List Byte) (seed : Word) : Word :=
  let h0 := xxStart d seed + BitVec.ofNat 32 d.length
  let tail := d.drop (d.length / 16 * 16)
  let h1 := xxWords (tail.length / 4) tail h0
  xxAvalanche (xxBytes (tail.drop (tail.length / 4 * 4)) h1)

/-- header_checksum (R133): bits 15:8 of XXH32 with seed 0 of the header bytes from FLG on. -/
def headerChecksum (d : List Byte) : Byte := (xxh32 d 0#32).extractLsb' 8 8

end Sys2Proof.Machine
end

