-- ==== Sys2Proof/Machine/FrameEncode.lean ====
section
/-! DEFINITION. The frame encoder: FENC_OPEN, FENC_WRITE and FENC_CLOSE (45_frame_encoder.md R280-R294), with the frame
header (30_encoding.md R130-R133) and the block stream (R140-R142). -/

namespace Sys2Proof.Machine

/-- B(code), the block size of a block-size code (R131). -/
def blockSizeOf (code : Nat) : Nat := 2 ^ (2 * code + 8)

/-- The block-size code BD[6:4] (R131). -/
def sizeCode (bd : Byte) : Nat := (bd.extractLsb' 4 3).toNat

/-- The version field FLG[7:6] (R130). -/
def versionOf (flg : Byte) : BitVec 2 := flg.extractLsb' 6 2

/-- A reserved bit of FLG or BD is set (R130, R131): FLG[1], BD[7] or BD[3:0]. -/
def descriptorReserved (flg bd : Byte) : Bool := flg.getLsbD 1 || bd.getLsbD 7 || bd.extractLsb' 0 4 != 0#4

/-- The magic number's bytes (R132, R134). -/
def magicBytes : List Byte := leBytes 4 0x184D2204

/-- The header bytes from FLG on, without the checksum (R283). -/
def descriptorBytes (flg bd : Byte) (csize : Nat) : List Byte :=
  [flg, bd] ++ (if flg.getLsbD 3 then leBytes 8 csize else [])

/-- frameHeader(FLG, BD, CSIZE) (R283). -/
def frameHeader (flg bd : Byte) (csize : Nat) : List Byte :=
  magicBytes ++ descriptorBytes flg bd csize ++ [headerChecksum (descriptorBytes flg bd csize)]

/-- FLG of FDESC (R40). -/
def Args.flg (a : Args) : Byte := a.fdesc.extractLsb' 0 8

/-- BD of FDESC (R40). -/
def Args.bd (a : Args) : Byte := a.fdesc.extractLsb' 8 8

/-- The header FENC_OPEN writes (R281). -/
def openHeader (a : Args) : List Byte := frameHeader a.flg a.bd a.csize

/-- The encoder stream is open (R280). -/
def Encoder.isOpen (e : Encoder) : Bool :=
  match e.state with
  | .unopened => false
  | .headerWritten => true
  | .blockLoop => true
  | .closed => false

/-- The pre-checks of FENC_OPEN behind the command word's, in order (R281, R282). -/
def fencOpenChecks (s : State) : List (Bool × Cause) :=
  let a := s.snap
  [(s.enc.isOpen, .badState),
   (anyWraps [a.dst], .regionWrap),
   (a.fdesc.extractLsb' 16 16 != 0#16 || descriptorReserved a.flg a.bd, .reservedBits),
   (versionOf a.flg != 1#2, .badVersion),
   (decide (sizeCode a.bd < 4), .badBlockSizeCode),
   (a.flg.getLsbD 4, .blockChecksumEncode),
   (a.flg.getLsbD 2, .contentChecksum),
   (a.flg.getLsbD 0, .dictionaryId),
   (decide (a.dstCap.toNat < (openHeader a).length), .dstFull)]

/-- The encoder context of a freshly opened stream (R281). -/
def Encoder.opened (level : BitVec 4) (a : Args) : Encoder :=
  { state := .headerWritten, level := level, flg := a.flg, bd := a.bd, blockSize := blockSizeOf (sizeCode a.bd),
    chained := !a.flg.getLsbD 5, buf := [], hist := [], total := 0 }

/-- The index of a freshly opened stream (R281). -/
def Index.forStream (x : Index) (level : BitVec 4) : Index :=
  { x.clear 0 with kind := levelKind level, owner := .encoder }

/-- FENC_OPEN (R281). -/
def execFencOpen (level : BitVec 4) (s : State) : Result :=
  match (levelCause level).or (firstCause (fencOpenChecks s)) with
  | some c => .next (s.raise c)
  | none =>
    let h := openHeader s.snap
    let t := s.memWrite s.snap.dstAddr.toNat h
    .next ({ t with enc := Encoder.opened level s.snap, index := s.index.forStream level }.complete h.length 0 0)

/-- The block bytes of a payload E of the content c (R288, R140): compressed if shorter, else raw. -/
def blockBytes (payload c : List Byte) : List Byte :=
  if payload.length < c.length then leBytes 4 payload.length ++ payload
  else leBytes 4 (0x80000000 ||| c.length) ++ c

/-- emitBlock() (R288, R289) on the pending block ENC_BUF, with `soFar` content bytes accepted up to its last byte: the
block bytes, the context and the index after it. -/
def emitBlock (e : Encoder) (x : Index) (soFar : Nat) : List Byte × Encoder × Index :=
  let c := e.buf
  let s := soFar - c.length
  let base := s - e.hist.length
  let r := encodeBlock (View.ofList base (e.hist ++ c)) (if e.chained then x else x.clear s) e.level.toNat s
    (s + c.length) (if e.chained then base else s)
  (blockBytes r.1 c,
   { e with buf := [], hist := if e.chained then lastBytes Config.window (e.hist ++ c) else e.hist },
   r.2)

/-- The variables of FENC_WRITE (R287). ENC_BUF is held newest byte first in `held`, with its length beside it. -/
structure WriteRun where
  enc : Encoder
  index : Index
  held : List Byte
  size : Nat
  soFar : Nat
  out : List Byte
  blocks : Nat
deriving DecidableEq, Repr

/-- One content byte (R287): take it, and emit the block when it is full. -/
def takeByte (r : WriteRun) (b : Byte) : WriteRun :=
  if r.size + 1 = r.enc.blockSize then
    let q := emitBlock { r.enc with buf := (b :: r.held).reverse } r.index (r.soFar + 1)
    { enc := q.2.1, index := q.2.2, held := [], size := 0, soFar := r.soFar + 1, out := r.out ++ q.1,
      blocks := r.blocks + 1 }
  else { r with held := b :: r.held, size := r.size + 1, soFar := r.soFar + 1 }

/-- The variables of FENC_WRITE before its first byte. -/
def writeStart (e : Encoder) (x : Index) : WriteRun :=
  { enc := e, index := x, held := e.buf.reverse, size := e.buf.length, soFar := e.total, out := [], blocks := 0 }

/-- The loop of FENC_WRITE over the content bytes (R287). -/
def writeLoop (e : Encoder) (x : Index) (content : List Byte) : WriteRun := content.foldl takeByte (writeStart e x)

/-- The encoder context after FENC_WRITE of n bytes (R287). -/
def WriteRun.context (r : WriteRun) (total : Nat) : Encoder :=
  { r.enc with buf := r.held.reverse, total := total, state := .blockLoop }

/-- The capacity FENC_WRITE asks for (R291). -/
def writeNeed (e : Encoder) (n : Nat) : Nat := (e.buf.length + n) / e.blockSize * (e.blockSize + 4)

/-- The pre-checks of FENC_WRITE (R287, R291). -/
def fencWriteChecks (s : State) : List (Bool × Cause) :=
  [(!s.enc.isOpen, .badState),
   (anyWraps [s.snap.src, s.snap.dst], .regionWrap),
   (anyOverlap [s.snap.src, s.snap.dst], .regionOverlap),
   (decide (s.snap.dstCap.toNat < writeNeed s.enc s.snap.srcLen.toNat), .dstFull)]

/-- FENC_WRITE (R287). -/
def execFencWrite (s : State) : Result :=
  match firstCause (fencWriteChecks s) with
  | some c => .next (s.raise c)
  | none =>
    let n := s.snap.srcLen.toNat
    let r := writeLoop s.enc s.index (s.memRead s.snap.srcAddr.toNat n)
    let t := s.memWrite s.snap.dstAddr.toNat r.out
    .next ({ t with enc := r.context (s.enc.total + n), index := r.index }.complete r.out.length n r.blocks)

/-- The capacity FENC_CLOSE asks for (R291). -/
def closeNeed (e : Encoder) : Nat := (if 0 < e.buf.length then e.buf.length + 4 else 0) + 4

/-- The pre-checks of FENC_CLOSE on an open stream (R292). -/
def fencCloseChecks (s : State) : List (Bool × Cause) :=
  [(anyWraps [s.snap.dst], .regionWrap), (decide (s.snap.dstCap.toNat < closeNeed s.enc), .dstFull)]

/-- The pending block's bytes, the context and index after it, and the number of blocks (R292). -/
def flushBlock (e : Encoder) (x : Index) : List Byte × Encoder × Index × Nat :=
  if 0 < e.buf.length then
    let q := emitBlock e x e.total
    (q.1, q.2.1, q.2.2, 1)
  else ([], e, x, 0)

/-- FENC_CLOSE (R292, R293). -/
def execFencClose (s : State) : Result :=
  if s.enc.isOpen then
    match firstCause (fencCloseChecks s) with
    | some c => .next (s.raise c)
    | none =>
      let q := flushBlock s.enc s.index
      let out := q.1 ++ leBytes 4 0
      let t := s.memWrite s.snap.dstAddr.toNat out
      .next ({ t with
        enc := { q.2.1 with state := .closed, hist := [] }
        index := { q.2.2.1 with owner := .free } }.complete out.length 0 q.2.2.2)
  else .next (s.complete 0 0 0)

end Sys2Proof.Machine
end

