-- ==== Sys2Proof/Machine/FrameDecode.lean ====
section
/-! DEFINITION. The frame decoder: the incremental parser (46_frame_decoder.md R313-R318, R321-R324) and its commands
FDEC_OPEN (R311) and FDEC_READ (R320). -/

namespace Sys2Proof.Machine

/-- The variables of frameRun (R313): the machine, the SRC bytes consumed and the content bytes served. -/
structure DecRun where
  state : State
  ip : Nat
  served : Nat
deriving DecidableEq, Repr

/-- How frameRun ends: finish() with its two flags, or raise (R313, R318). -/
inductive DecEnd where
  | stop (r : DecRun) (needInput frameEnd : Bool)
  | fail (r : DecRun) (c : Cause)
deriving DecidableEq, Repr

/-- What one stage answers: go on, or end the run. -/
inductive DecStep where
  | more (r : DecRun)
  | halt (e : DecEnd)
deriving DecidableEq, Repr

/-- finish() with the flags the command set (R313). -/
def DecStep.stop (r : DecRun) (needInput frameEnd : Bool) : DecStep := .halt (.stop r needInput frameEnd)

/-- raise (R313, R319). -/
def DecStep.fail (r : DecRun) (c : Cause) : DecStep := .halt (.fail r c)

/-- The run with another decoder context. -/
def DecRun.withDec (r : DecRun) (d : Decoder) : DecRun := { r with state := { r.state with dec := d } }

/-- The bytes of the current field received by earlier commands (R317). -/
def Decoder.soFar (d : Decoder) : List Byte :=
  match d.stage with
  | .payload => d.inBuf
  | _ => d.field

/-- The bytes of the current field kept for the next command (R318). -/
def Decoder.keep (d : Decoder) (got : List Byte) : Decoder :=
  match d.stage with
  | .payload => { d with inBuf := got }
  | _ => { d with field := got }

/-- How many SRC bytes gather(k) takes (R317). -/
def gatherTake (r : DecRun) (k : Nat) : Nat :=
  min (k - r.state.dec.soFar.length) (r.state.snap.srcLen.toNat - r.ip)

/-- The bytes of the field after gather(k) has taken what SRC has (R317). -/
def gathered (r : DecRun) (k : Nat) : List Byte :=
  r.state.dec.soFar ++ r.state.memRead (r.state.snap.srcAddr.toNat + r.ip) (gatherTake r k)

/-- gather(k) (R317) and what follows it; inputExhausted() (R318) where SRC ends first. -/
def gather (inEof : Bool) (k : Nat) (r : DecRun) (next : List Byte → DecRun → DecStep) : DecStep :=
  let got := gathered r k
  let r1 := { r with ip := r.ip + gatherTake r k }
  if got.length < k then
    if inEof then .fail r1 .transportEof else .stop (r1.withDec (r.state.dec.keep got)) true false
  else next got (r1.withDec { r.state.dec with field := [] })

/-- The MAGIC stage (R314). -/
def magicStage (f : List Byte) (r : DecRun) : DecStep :=
  if f ≠ magicBytes then .fail r .badMagic else .more (r.withDec { r.state.dec with stage := .flg })

/-- The FLG stage (R314): DEC_FDESC[7:0] and DEC_HDR show the byte even if the version is refused. -/
def flgStage (f : List Byte) (r : DecRun) : DecStep :=
  let b := f.headD 0#8
  let d := { r.state.dec with flg := b, hdr := r.state.dec.hdr ++ f }
  let s := { r.state with dec := d, decFdesc := (r.state.decFdesc.extractLsb' 8 24 ++ b : BitVec (24 + 8)) }
  if versionOf b ≠ 1#2 then .fail { r with state := s } .version
  else .more { r with state := { s with dec := { d with stage := .bd } } }

/-- The stage behind the content size (R314). -/
def afterCsize (flg : Byte) : DecStage := if flg.getLsbD 0 then .dictId else .hc

/-- The BD stage (R314). -/
def bdStage (f : List Byte) (r : DecRun) : DecStep :=
  let b := f.headD 0#8
  let d := r.state.dec
  .more { r with state := { r.state with
    dec := { d with bd := b, hdr := d.hdr ++ f, stage := if d.flg.getLsbD 3 then .csize else afterCsize d.flg }
    decFdesc := (r.state.decFdesc.extractLsb' 16 16 ++ b ++ r.state.decFdesc.extractLsb' 0 8 : BitVec (16 + 8 + 8)) } }

/-- The CSIZE stage (R314). -/
def csizeStage (f : List Byte) (r : DecRun) : DecStep :=
  let d := r.state.dec
  .more { r with state := { r.state with
    dec := { d with hdr := d.hdr ++ f, stage := afterCsize d.flg }
    decCsize := BitVec.ofNat 64 (leNat (f.take 8)) } }

/-- The DICTID stage (R314). -/
def dictIdStage (f : List Byte) (r : DecRun) : DecStep :=
  let d := r.state.dec
  .more { r with state := { r.state with
    dec := { d with hdr := d.hdr ++ f, stage := .hc }
    decDictId := le32 f } }

/-- The header checks and feature refusals of the HC stage, in order (R315, R316). -/
def headerChecks (d : Decoder) (f : List Byte) : List (Bool × Cause) :=
  [(f.headD 0#8 != headerChecksum d.hdr, .headerChecksum),
   (descriptorReserved d.flg d.bd, .headerReserved),
   (decide (sizeCode d.bd < 4), .headerBlockSize),
   (d.flg.getLsbD 2, .contentChecksum),
   (d.flg.getLsbD 0, .dictionaryId)]

/-- The HC stage (R314-R316). -/
def hcStage (f : List Byte) (r : DecRun) : DecStep :=
  let d := r.state.dec
  match firstCause (headerChecks d f) with
  | some c => .fail r c
  | none => .more (r.withDec { d with
      blockSize := blockSizeOf (sizeCode d.bd)
      chained := !d.flg.getLsbD 5
      bcsum := d.flg.getLsbD 4
      state := .headerRead
      stage := .blkLen })

/-- W[30:0] (R140). -/
def payloadLen (w : Word) : Nat := w.toNat % 2 ^ 31

/-- The BLKLEN stage behind its word (R313, R321). -/
def blkLenStage (f : List Byte) (r : DecRun) : DecStep :=
  let w := le32 f
  let d := { r.state.dec with blkLen := w }
  if payloadLen w = 0 then .more (r.withDec { d with state := .closed, stage := .finish })
  else if d.blockSize < payloadLen w then .fail (r.withDec d) .blockTooLarge
  else .more (r.withDec { d with inBuf := [], stage := .payload })

/-- Inside the frame decoder an output past the block size is corrupt data (R322). -/
def frameCause : Cause → Cause
  | .dstFull => .outputOverrun
  | c => c

/-- The content of the current block (R322): raw, or decoded with the history as dictionary in chained mode. -/
def blockContent (d : Decoder) : Except Cause (List Byte) :=
  if d.blkLen.getLsbD 31 then .ok d.inBuf
  else
    match decodeBlock d.inBuf d.blockSize false (if d.chained then d.hist else []) with
    | .error c => .error (frameCause c)
    | .ok (out, _) => .ok out

/-- decodeCurrent() (R322). -/
def decodeCurrent (r : DecRun) : DecStep :=
  let d := r.state.dec
  match blockContent d with
  | .error c => .fail r c
  | .ok out => .more (r.withDec { d with
      outBuf := out
      hist := if d.chained then lastBytes Config.window (d.hist ++ out) else d.hist
      servePos := 0
      stage := .serve
      state := .blockLoop })

/-- The PAYLOAD stage behind its bytes (R313). -/
def payloadStage (f : List Byte) (r : DecRun) : DecStep :=
  let r1 := r.withDec { r.state.dec with inBuf := f }
  if r.state.dec.bcsum then .more (r1.withDec { r1.state.dec with stage := .bcsum }) else decodeCurrent r1

/-- The BCSUM stage behind its word (R313, R323). -/
def bcsumStage (f : List Byte) (r : DecRun) : DecStep :=
  if le32 f ≠ xxh32 r.state.dec.inBuf 0#32 then .fail r .blockChecksum else decodeCurrent r

/-- The SERVE stage with room for t > 0 or an empty block (R313). -/
def serveStage (cap : Nat) (r : DecRun) : DecStep :=
  let d := r.state.dec
  let t := min (cap - r.served) (d.outBuf.length - d.servePos)
  let s := r.state.memWrite (r.state.snap.dstAddr.toNat + r.served) ((d.outBuf.drop d.servePos).take t)
  .more
    { state := { s with dec := { d with
        servePos := d.servePos + t
        total := d.total + BitVec.ofNat 64 t
        stage := if d.outBuf.length ≤ d.servePos + t then .blkLen else .serve } }
      ip := r.ip
      served := r.served + t }

/-- One stage of the parser (R313). DEDUCED (log 23): with DST_CAP = 0 a FDEC_READ that stands in the middle of a block goes
on gathering it, as R313's pseudocode does and R325's last sentence does not. -/
def decStage (opening inEof : Bool) (cap : Nat) (r : DecRun) : DecStep :=
  match r.state.dec.stage with
  | .magic => gather inEof 4 r magicStage
  | .flg => gather inEof 1 r flgStage
  | .bd => gather inEof 1 r bdStage
  | .csize => gather inEof 8 r csizeStage
  | .dictId => gather inEof 4 r dictIdStage
  | .hc => gather inEof 1 r hcStage
  | .blkLen => if opening || r.served == cap then .stop r false false else gather inEof 4 r blkLenStage
  | .payload => gather inEof (payloadLen r.state.dec.blkLen) r payloadStage
  | .bcsum => gather inEof 4 r bcsumStage
  | .serve => if r.served = cap then .stop r false false else serveStage cap r
  | .finish => .stop r false true

/-- frameRun (R313), at most n stages. -/
def decLoop (opening inEof : Bool) (cap : Nat) : Nat → DecRun → DecEnd
  | 0, r => .stop r false false
  | n + 1, r =>
    match decStage opening inEof cap r with
    | .more r1 => decLoop opening inEof cap n r1
    | .halt e => e

/-- A number of stages no run reaches (R14): a block costs at most four stages and at least five bytes (log 17). -/
def stageBound (srcLen : Nat) : Nat := 4 * srcLen + 20

/-- frameRun(open, cap) (R313) from a machine. -/
def frameRun (opening inEof : Bool) (cap : Nat) (s : State) : DecEnd :=
  decLoop opening inEof cap (stageBound s.snap.srcLen.toNat) { state := s, ip := 0, served := 0 }

/-- The stream has failed (R312, R319). -/
def State.failDecoder (s : State) : State := { s with dec := { s.dec with state := .failed } }

/-- FDEC_OPEN is refused in these states (R312). -/
def Decoder.isOpen (d : Decoder) : Bool :=
  match d.state with
  | .unopened => false
  | .opening => true
  | .headerRead => true
  | .blockLoop => true
  | .closed => false
  | .failed => false

/-- FDEC_READ is refused in these states (R312). -/
def Decoder.unreadable (d : Decoder) : Bool :=
  match d.state with
  | .unopened => true
  | .opening => false
  | .headerRead => false
  | .blockLoop => false
  | .closed => false
  | .failed => true

/-- The pre-checks of FDEC_OPEN (R311). -/
def fdecOpenChecks (s : State) : List (Bool × Cause) :=
  [(s.dec.isOpen, .badState), (anyWraps [s.snap.src], .regionWrap)]

/-- The machine at the start of a new frame (R311). -/
def State.openDecoder (s : State) : State :=
  { s.dropDecoder with dec := { Decoder.reset with state := .opening } }

/-- FDEC_OPEN (R311). Its errors write no byte of MEM (log 4). -/
def execFdecOpen (inEof : Bool) (s : State) : Result :=
  match firstCause (fdecOpenChecks s) with
  | some c => .next (s.raise c)
  | none =>
    match frameRun true inEof 0 s.openDecoder with
    | .stop r needInput frameEnd => .next (r.state.finishWith needInput frameEnd r.served r.ip 0)
    | .fail r c => .next (r.state.failDecoder.raise c)

/-- The pre-checks of FDEC_READ (R320). -/
def fdecReadChecks (s : State) : List (Bool × Cause) :=
  [(s.dec.unreadable, .badState),
   (anyWraps [s.snap.src, s.snap.dst], .regionWrap),
   (anyOverlap [s.snap.src, s.snap.dst], .regionOverlap)]

/-- FDEC_READ (R320). -/
def execFdecRead (inEof : Bool) (s : State) : Result :=
  match firstCause (fdecReadChecks s) with
  | some c => .next (s.raise c)
  | none =>
    match frameRun false inEof s.snap.dstCap.toNat s with
    | .stop r needInput frameEnd => .next (r.state.finishWith needInput frameEnd r.served r.ip 0)
    | .fail r c => .next (r.state.failDecoder.raiseExec c)

end Sys2Proof.Machine
end

