-- ==== Sys2Proof/Machine/Match.lean ====
section
/-! DEFINITION. The match commands MATCH_INIT, MATCH_FIND and MATCH_WIDEN (40_match_engine.md R171, R175, R180). -/

namespace Sys2Proof.Machine

/-- The index MATCH_INIT sets up over SRC (R171). -/
def Index.init (x : Index) (hc : Bool) (base len : Word) : Index :=
  { x.clear 0 with kind := if hc then .hc else .fast, base := base, len := len, owner := .matcher }

/-- The pre-checks of MATCH_INIT (R171). -/
def matchInitChecks (s : State) : List (Bool × Cause) :=
  [(s.index.owner == .encoder, .indexBusy), (anyWraps [s.snap.src], .regionWrap)]

/-- MATCH_INIT (R171). -/
def execMatchInit (hc : Bool) (s : State) : Result :=
  match firstCause (matchInitChecks s) with
  | some c => .next (s.raise c)
  | none => .next ({ s with index := s.index.init hc s.snap.srcAddr s.snap.srcLen }.complete 0 0 0)

/-- The cursor order of R175: above the last probe for FAST, not below the last inserted position for HC. -/
def cursorBehind (x : Index) (c : Nat) : Bool :=
  match x.kind with
  | .fast => match x.lastProbe with
    | some p => decide (c ≤ p)
    | none => false
  | .hc => decide (0 < x.nextToUpdate ∧ c < x.nextToUpdate - 1)

/-- The pre-checks of MATCH_FIND (R175). -/
def matchFindChecks (s : State) : List (Bool × Cause) :=
  let c := s.snap.arg0.toNat
  let low := s.snap.arg1.toNat
  let limit := s.snap.arg3.toNat
  [(s.index.owner != .matcher, .indexNotReady),
   (decide (s.index.len.toNat < limit) || decide (limit < c + 4) || decide (c < low) || cursorBehind s.index c,
    .badCursor)]

/-- The indexed bytes below `limit`, as MEM holds them now (R161, R175). -/
def State.indexView (s : State) (limit : Nat) : View := View.ofList 0 (s.memRead s.index.base.toNat limit)

/-- The search of MATCH_FIND (R175): the budget counts for HC only. -/
def indexFind (v : View) (x : Index) (c low budget limit : Nat) : Found × Index :=
  match x.kind with
  | .fast => fastProbe v x c low limit
  | .hc => hcFind v x c low budget limit

/-- MATCH_FIND (R175). -/
def execMatchFind (s : State) : Result :=
  match firstCause (matchFindChecks s) with
  | some c => .next (s.raise c)
  | none =>
    let c := s.snap.arg0.toNat
    let limit := s.snap.arg3.toNat
    let r := indexFind (s.indexView limit) s.index c s.snap.arg1.toNat s.snap.arg2.toNat limit
    .next ({ s with index := r.2 }.complete r.1.len r.1.cand (if 0 < r.1.len then c - r.1.cand else 0))

/-- The pre-checks of MATCH_WIDEN (R180). -/
def matchWidenChecks (s : State) : List (Bool × Cause) :=
  let c := s.snap.arg0.toNat
  let cand := s.snap.arg1.toNat
  let anchor := s.snap.arg2.toNat
  let low := s.snap.arg3.toNat
  [(s.index.owner != .matcher, .indexNotReady),
   (decide (c ≤ cand) || decide (c < anchor) || decide (cand < low) || decide (s.index.len.toNat < c), .badCursor)]

/-- MATCH_WIDEN (R180). -/
def execMatchWiden (s : State) : Result :=
  match firstCause (matchWidenChecks s) with
  | some c => .next (s.raise c)
  | none =>
    let c := s.snap.arg0.toNat
    let cand := s.snap.arg1.toNat
    let k := widenBy (s.indexView c) c cand s.snap.arg2.toNat s.snap.arg3.toNat
    .next (s.complete (c - k) (cand - k) k)

end Sys2Proof.Machine
end

