-- ==== Sys2Proof/Machine/Dispatch.lean ====
section
/-! DEFINITION. The dispatch of a decoded command to its meaning (30_encoding.md R111), one arm per constructor. -/

namespace Sys2Proof.Machine

def exec (i : Instr) (s : State) : Host.Outcome State Fault Refusal :=
  match i with
  | .nop => Sys2Proof.Machine.execNop s
  | .abortEnc => Sys2Proof.Machine.execAbortEnc s
  | .abortDec => Sys2Proof.Machine.execAbortDec s
  | .matchInit hc => Sys2Proof.Machine.execMatchInit hc s
  | .matchFind => Sys2Proof.Machine.execMatchFind s
  | .matchWiden => Sys2Proof.Machine.execMatchWiden s
  | .blockEncode level => Sys2Proof.Machine.execBlockEncode level s
  | .blockDecode eoo dmode short => Sys2Proof.Machine.execBlockDecode eoo dmode short s
  | .fencOpen level => Sys2Proof.Machine.execFencOpen level s
  | .fencWrite => Sys2Proof.Machine.execFencWrite s
  | .fencClose => Sys2Proof.Machine.execFencClose s
  | .fdecOpen inEof => Sys2Proof.Machine.execFdecOpen inEof s
  | .fdecRead inEof => Sys2Proof.Machine.execFdecRead inEof s

end Sys2Proof.Machine
end

