-- ==== Sys2Proof/Machine/HostPort.lean ====
section
/-! DEFINITION. The two agents' turns: running the latched command (30_encoding.md R113, 10_state.md R37), and the host's
accesses (R31-R44, 20_memory.md R95, R96, 70_reset_and_hazards.md R402, R420). -/

namespace Sys2Proof.Machine

/-- The engine's turn: the latched word is decoded and its command run from acceptance to completion (R113, R420). A word
that does not decode completes with its cause. While idle nothing happens (R401). -/
def runCommand (s : State) : Result :=
  match s.running with
  | none => .next s
  | some w =>
    match decode w with
    | .error c => .next (s.raise c)
    | .ok i => exec i s

/-- The state the running command will leave, as seen from now (R420). -/
def State.atCompletion (s : State) : State :=
  match runCommand s with
  | .next t => t
  | .fault _ => s
  | .refused _ => s

/-- The registers R420 leaves unstable while BUSY, by offset (R43, R44); none for every other offset. -/
def State.streamReg (s : State) (offset : Nat) : Option Word :=
  match offset with
  | 0x058 => some s.decFdesc
  | 0x05C => some (s.decCsize.extractLsb' 0 32)
  | 0x060 => some (s.decCsize.extractLsb' 32 32)
  | 0x064 => some s.decDictId
  | 0x068 => some ((BitVec.ofNat 64 s.enc.total).extractLsb' 0 32)
  | 0x06C => some ((BitVec.ofNat 64 s.enc.total).extractLsb' 32 32)
  | 0x070 => some (s.dec.total.extractLsb' 0 32)
  | 0x074 => some (s.dec.total.extractLsb' 32 32)
  | _ => none

/-- The registers whose reads are the same while BUSY (R31, R33-R42): a reserved offset and CMD read 0 (R32, R37). -/
def State.plainReg (s : State) (offset : Nat) : Word :=
  match offset with
  | 0x000 => 0x4C5A3401#32
  | 0x004 => s.ctrlWord
  | 0x008 => s.statusWord
  | 0x00C => s.irqStatusWord
  | 0x014 => s.args.srcAddr
  | 0x018 => s.args.srcLen
  | 0x01C => s.args.dstAddr
  | 0x020 => s.args.dstCap
  | 0x024 => s.args.dictAddr
  | 0x028 => s.args.dictLen
  | 0x02C => s.args.arg0
  | 0x030 => s.args.arg1
  | 0x034 => s.args.arg2
  | 0x038 => s.args.arg3
  | 0x03C => s.args.fdesc
  | 0x040 => s.args.csizeLo
  | 0x044 => s.args.csizeHi
  | 0x04C => s.result0
  | 0x050 => s.result1
  | 0x054 => s.result2
  | _ => 0#32

/-- The value of a register with no command running (R31). -/
def State.regValue (s : State) (offset : Nat) : Word := (s.streamReg offset).getD (s.plainReg offset)

/-- A register read (R32): its value, and for an unstable register while BUSY a free choice between its value at
acceptance and its value at completion (R420). -/
def State.readReg (s : State) (offset : Nat) : State :=
  if s.busy && (s.streamReg offset).isSome then
    { s with
      lastRead := if Config.freeChoice s.draws then s.atCompletion.regValue offset else s.regValue offset
      draws := s.draws + 1 }
  else { s with lastRead := s.regValue offset }

/-- The argument registers by offset (R38-R41). -/
def Args.write (a : Args) (offset : Nat) (v : Word) : Args :=
  match offset with
  | 0x014 => { a with srcAddr := v }
  | 0x018 => { a with srcLen := v }
  | 0x01C => { a with dstAddr := v }
  | 0x020 => { a with dstCap := v }
  | 0x024 => { a with dictAddr := v }
  | 0x028 => { a with dictLen := v }
  | 0x02C => { a with arg0 := v }
  | 0x030 => { a with arg1 := v }
  | 0x034 => { a with arg2 := v }
  | 0x038 => { a with arg3 := v }
  | 0x03C => { a with fdesc := v }
  | 0x040 => { a with csizeLo := v }
  | 0x044 => { a with csizeHi := v }
  | _ => a

/-- The DST bytes of a command abandoned by a reset take any value (R402, log 5); a BUSY word that R113 refuses has no DST by
the model's choice (log 25), and MEM stays under it. -/
def State.abandon (s : State) : State :=
  match s.busyWrites with
  | [] => s
  | r :: _ => s.scramble r.start r.len

/-- A reset of the whole engine at any moment (R400, R402): the running command is abandoned, MEM otherwise stays. -/
def State.resetEngine (s : State) : State := s.abandon.clearEngine

/-- A write of CTRL (R34): SOFT_RESET = 1 resets, and the other bits of that write are ignored (R402). -/
def State.writeCtrl (s : State) (v : Word) : State :=
  if v.getLsbD 0 then s.resetEngine else { s with irqEnDone := v.getLsbD 1, irqEnErr := v.getLsbD 2 }

/-- A write of IRQ_STATUS (R36): a 1 clears its bit. -/
def State.writeIrqStatus (s : State) (v : Word) : State :=
  { s with donePend := s.donePend && !v.getLsbD 0, errPend := s.errPend && !v.getLsbD 1 }

/-- A write of CMD (R37): accepted while idle, dropped and flagged while BUSY. CMD_LATENCY is drawn (R430, log 2). -/
def State.writeCmd (s : State) (w : Word) : State :=
  if s.busy then { s with status := { s.status with overrun := true } }
  else { s.accept w (Config.cmdLatency s.draws) with draws := s.draws + 1 }

/-- A register write (R31, R32): CTRL, IRQ_STATUS, CMD, the argument registers; no effect anywhere else. -/
def State.writeReg (s : State) (offset : Nat) (v : Word) : State :=
  match offset with
  | 0x004 => s.writeCtrl v
  | 0x00C => s.writeIrqStatus v
  | 0x010 => s.writeCmd v
  | _ => { s with args := s.args.write offset v }

/-- Only 32-bit accesses at multiples of 4 are defined (R32). -/
def accessOk (offset : BitVec 12) (size : Nat) : Bool := size == 4 && offset.toNat % 4 == 0

/-- A host write of one MEM byte: a race inside SRC, DICT, PREFIX or DST of the running command, unrestricted everywhere
else (R96, R424). -/
def hostMemWrite (a : Word) (b : Byte) (s : State) : Result :=
  if s.busyReads.any (Region.holds · a.toNat) || s.busyWrites.any (Region.holds · a.toNat) then .fault .hostRace
  else .next (s.memWrite a.toNat [b])

/-- A host read of one MEM byte: a race inside DST of the running command, unrestricted everywhere else (R96, R424). -/
def hostMemRead (a : Word) (s : State) : Result :=
  if s.busyWrites.any (Region.holds · a.toNat) then .fault .hostRace
  else .next { s with lastRead := (s.mem.read a.toNat).setWidth 32 }

/-- One access of the host. A wait is met only when BUSY = 0: its last STATUS read (R152). -/
def hostAccess (op : HostOp) (s : State) : Result :=
  match op with
  | .write offset size v =>
    if accessOk offset size then .next (s.writeReg offset.toNat v) else .refused .registerAccess
  | .read offset size =>
    if accessOk offset size then .next (s.readReg offset.toNat) else .refused .registerAccess
  | .memWrite a b => hostMemWrite a b s
  | .memRead a => hostMemRead a s
  | .wait => .next (s.readReg 0x008)
  | .hardReset => .next s.resetEngine

/-- The host's turn: the next access of the inbox, which counts against the running command's latency. With nothing to
come the machine stays as it is (R401). -/
def hostTurn (s : State) : Result :=
  match s.inbox with
  | [] => .next s
  | op :: rest => hostAccess op { s with inbox := rest, latency := s.latency - 1 }

/-- The host does nothing before the running command completes: no access is left, or it waits (R152). -/
def State.hostIdle (s : State) : Bool :=
  match s.inbox with
  | [] => true
  | .wait :: _ => true
  | .write _ _ _ :: _ => false
  | .read _ _ :: _ => false
  | .memWrite _ _ :: _ => false
  | .memRead _ :: _ => false
  | .hardReset :: _ => false

/-- The running command completes now: its latency is used up, or the host lets it finish (R430, log 2). -/
def State.engineTurn (s : State) : Bool := s.busy && (s.hostIdle || s.latency == 0)

/-- The machine with a command word just accepted and nothing to wait for: what a host write of CMD leaves (R37, R46). -/
def State.withCommand (s : State) (w : Word) : State := s.accept w 0

end Sys2Proof.Machine
end

