-- ==== Sys2Proof/Machine/Step.lean ====
section
/-! DEFINITION. One step of the machine: the engine runs its command to completion, or the host makes its next access
(00_scope.md R16, 70_reset_and_hazards.md R420, R421). -/

namespace Sys2Proof.Machine

/-- One step. -/
def step (s : State) : Host.Outcome State Fault Refusal :=
  if s.engineTurn then runCommand s else hostTurn s

/-- The machine as the host's write of the command word leaves it, so that the next step runs that command (log 10). -/
def State.withFetchWord (s : State) (nbits w : Nat) : State := s.withCommand (BitVec.ofNat 32 (w % 2 ^ nbits))

end Sys2Proof.Machine
end

