-- ==== Sys2Proof/Safety.lean ====
section
/-! DEFINITION. The terms in which claims are made: safe runs (20_memory.md R96, 10_state.md R32), a match that is real
(40_match_engine.md R169), a parse that covers its block (41_fast_encoder.md R198), and what holds of the machine's state
between steps (10_state.md R35, R43, R47-R51). -/

namespace Sys2Proof.Safety

open Sys2Proof.Machine

/-- One step goes on. -/
def Steps (s : State) : Prop := ∃ t, step s = .next t

/-- Every number of steps from a state goes on. -/
def Runs (s : State) : Prop := ∀ k, ∃ t, Sys2Proof.core.run k s = .next t

/-- The host's next access is a defined one (R32) and touches no region of the running command (R96). -/
def PoliteAccess (s : State) : HostOp → Prop
  | .write offset size _ => accessOk offset size = true
  | .read offset size => accessOk offset size = true
  | .memWrite a _ => ∀ r ∈ s.busyReads ++ s.busyWrites, r.holds a.toNat = false
  | .memRead a => ∀ r ∈ s.busyWrites, r.holds a.toNat = false
  | .wait => True
  | .hardReset => True

end Sys2Proof.Safety

namespace Sys2Proof.Machine

/-! ### Operands -/

/-- The region ends inside the address space (R84). -/
abbrev Region.Fits (r : Region) : Prop := r.start + r.len ≤ 2 ^ 32

/-- The regions share no byte; an empty region overlaps nothing (R84). -/
abbrev Region.Apart (r q : Region) : Prop :=
  r.len = 0 ∨ q.len = 0 ∨ r.start + r.len ≤ q.start ∨ q.start + q.len ≤ r.start

/-- The bytes of MEM in a region. -/
def State.bytes (s : State) (r : Region) : List Byte := s.memRead r.start r.len

/-- The cursor conditions of MATCH_FIND (R175). -/
def State.CursorOk (s : State) : Prop :=
  s.snap.arg3.toNat ≤ s.index.len.toNat ∧ s.snap.arg0.toNat + 4 ≤ s.snap.arg3.toNat ∧
    s.snap.arg1.toNat ≤ s.snap.arg0.toNat ∧
    (s.index.kind = .fast → ∀ p, s.index.lastProbe = some p → p < s.snap.arg0.toNat) ∧
    (s.index.kind = .hc → s.index.nextToUpdate ≤ s.snap.arg0.toNat + 1)

/-- The cursor conditions of MATCH_WIDEN (R180). -/
abbrev State.WidenOk (s : State) : Prop :=
  s.snap.arg1.toNat < s.snap.arg0.toNat ∧ s.snap.arg2.toNat ≤ s.snap.arg0.toNat ∧
    s.snap.arg3.toNat ≤ s.snap.arg1.toNat ∧ s.snap.arg0.toNat ≤ s.index.len.toNat

/-- A descriptor FENC_OPEN accepts (R281, R282). -/
abbrev Args.DescriptorOk (a : Args) : Prop :=
  a.fdesc.extractLsb' 16 16 = 0#16 ∧ descriptorReserved a.flg a.bd = false ∧ versionOf a.flg = 1#2 ∧
    4 ≤ sizeCode a.bd ∧ a.flg.getLsbD 4 = false ∧ a.flg.getLsbD 2 = false ∧ a.flg.getLsbD 0 = false

/-- The block payload of the content at a level, made with a cleared index and the dictionary as history (R190, R289). -/
def encoded (level : BitVec 4) (dict content : List Byte) : List Byte :=
  (encodeBlock (View.ofList 0 (dict ++ content)) (Index.reset.clear dict.length) level.toNat dict.length
    (dict.length + content.length) 0).1

/-- The commands of the encoder stream (R48, R50). -/
def ofEncoder : Instr → Bool
  | .nop => false
  | .abortEnc => true
  | .abortDec => false
  | .matchInit _ => false
  | .matchFind => false
  | .matchWiden => false
  | .blockEncode _ => false
  | .blockDecode _ _ _ => false
  | .fencOpen _ => true
  | .fencWrite => true
  | .fencClose => true
  | .fdecOpen _ => false
  | .fdecRead _ => false

/-- The commands of the decoder stream (R49, R50). -/
def ofDecoder : Instr → Bool
  | .nop => false
  | .abortEnc => false
  | .abortDec => true
  | .matchInit _ => false
  | .matchFind => false
  | .matchWiden => false
  | .blockEncode _ => false
  | .blockDecode _ _ _ => false
  | .fencOpen _ => false
  | .fencWrite => false
  | .fencClose => false
  | .fdecOpen _ => true
  | .fdecRead _ => true

/-- The commands that may change the match index (R47, R50). -/
def ofIndex : Instr → Bool
  | .nop => false
  | .abortEnc => true
  | .abortDec => false
  | .matchInit _ => true
  | .matchFind => true
  | .matchWiden => false
  | .blockEncode _ => true
  | .blockDecode _ _ _ => false
  | .fencOpen _ => true
  | .fencWrite => true
  | .fencClose => true
  | .fdecOpen _ => false
  | .fdecRead _ => false

/-! ### Matches and parses -/

/-- A reported match has at least four bytes, starts at an earlier position inside the window, ends inside the limit, and
its bytes agree (R169); length 0 reports none. -/
def Sound (v : View) (c low limit : Nat) (f : Found) : Prop :=
  f.len = 0 ∨ (4 ≤ f.len ∧ f.cand < c ∧ low ≤ f.cand ∧ c - f.cand ≤ 65535 ∧ c + f.len ≤ limit ∧
    ∀ j, j < f.len → v.byte (f.cand + j) = v.byte (c + j))

/-- k is the match length of two positions (R163): k bytes from each agree, inside the limit, and no more do. -/
structure View.Longest (v : View) (c cand limit k : Nat) : Prop where
  inside : c + k ≤ limit
  agree : ∀ j, j < k → v.byte (cand + j) = v.byte (c + j)
  ends : c + k < limit → v.byte (cand + k) ≠ v.byte (c + k)

/-- p is a candidate of the cursor c: an earlier position inside the window, not below `low`, with the cursor's four bytes
(R160, R167). -/
def View.Candidate (v : View) (c low p : Nat) : Prop := low ≤ p ∧ p < c ∧ c - p ≤ 65535 ∧ v.seq p = v.seq c

/-- p is the candidate with the longest match, and of those with that length, n, the most recent (R169). -/
structure View.Best (v : View) (c low limit p n : Nat) : Prop where
  candidate : v.Candidate c low p
  longest : v.Longest c p limit n
  most : ∀ q m, v.Candidate c low q → v.Longest c q limit m → m < n ∨ (m = n ∧ q ≤ p)

/-- The positions a chain leads to from an entry on, most recent first, down to the first outside the window of the cursor c;
at most n of them (R167). -/
def chained (chain : Table) (c low : Nat) : Nat → Option Nat → List Nat
  | 0, _ => []
  | _ + 1, none => []
  | n + 1, some p =>
    if low ≤ p ∧ c - p ≤ 65535 then p :: chained chain c low n (Table.get chain (p % 65536)) else []

/-- The positions of the window of the cursor c with the cursor's hash, most recent first (R166, R168, R169). -/
def View.sameHash (v : View) (c low : Nat) : List Nat :=
  ((List.range c).filter fun p => low ≤ p ∧ c - p ≤ 65535 ∧ v.hash .hc p = v.hash .hc c).reverse

/-- p, with n bytes, is the first longest match among the positions tried in order (R163, R167): strictly longer than those
before it, at least as long as those behind it. -/
def View.FirstLongest (v : View) (c limit : Nat) (tried : List Nat) (p n : Nat) : Prop :=
  ∃ before after_, tried = before ++ p :: after_ ∧ v.seq p = v.seq c ∧ v.Longest c p limit n ∧
    (∀ q ∈ before, ∀ m, v.seq q = v.seq c → v.Longest c q limit m → m < n) ∧
    ∀ q ∈ after_, ∀ m, v.seq q = v.seq c → v.Longest c q limit m → m ≤ n

/-- HEAD and CHAIN are what inserting the positions below NEXT_TO_UPDATE into empty tables leaves, with these bytes
(R166, R171). -/
def Index.BuiltFrom (x : Index) (v : View) : Prop :=
  let y := (List.range x.nextToUpdate).foldl (hcInsert v) (x.clear 0)
  x.head = y.head ∧ x.chain = y.chain

/-- A legal match sequence of a block [.., stop) whose matches may reach down to `low` (R198 (a), (b)). -/
structure Sequence.Legal (v : View) (low stop : Nat) (q : Sequence) : Prop where
  order : q.anchor ≤ q.ip
  long : 4 ≤ q.len
  inside : q.ip + q.len ≤ stop
  near : 1 ≤ q.off ∧ q.off ≤ 65535
  above : low + q.off ≤ q.ip
  same : ∀ j, j < q.len → v.byte (q.ip - q.off + j) = v.byte (q.ip + j)

/-- The sequences cover [a, b) in order without a gap (R198 (c)). -/
def Tiles (v : View) (low stop : Nat) : Nat → List Sequence → Nat → Prop
  | a, [], b => a = b
  | a, q :: qs, b => q.anchor = a ∧ q.Legal v low stop ∧ Tiles v low stop (q.ip + q.len) qs b

/-- The parse covers the block (R198). -/
def Parse.Covers (v : View) (low start stop : Nat) (p : Parse) : Prop :=
  Tiles v low stop start p.seqs p.anchor ∧ p.anchor ≤ stop

/-! ### Length fields of the block decoder -/

/-- A length field of nibble k at the front of the input spells n and leaves the rest (R121, R254): no extension byte below
15; at 15 every extension byte is added up to and with the first that is not 255. -/
def LengthField (k : Nat) (input : List Byte) (n : Nat) (rest : List Byte) : Prop :=
  (k ≠ 15 ∧ n = k ∧ input = rest) ∨
    (k = 15 ∧ ∃ (q : Nat) (e : Byte), e ≠ 0xFF#8 ∧ input = List.replicate q 0xFF#8 ++ e :: rest ∧
      n = 15 + 255 * q + e.toNat)

/-- The input ends inside a length field of nibble k (R256). -/
def LengthEndsEarly (k : Nat) (input : List Byte) : Prop := k = 15 ∧ ∃ q, input = List.replicate q 0xFF#8

/-! ### The match index -/

/-- Every position the head table holds is below a bound. -/
def HeadBelow (x : Index) (n : Nat) : Prop := ∀ h p, Table.get x.head h = some p → p < n

/-- The positions an HC index holds are older than NEXT_TO_UPDATE, and a chained one is older than the position it is
chained to (R166, R168). -/
def HcIndex (x : Index) : Prop :=
  (∀ h p, Table.get x.head h = some p → p < x.nextToUpdate) ∧
    ∀ k e, Table.get x.chain k = some e → e + 1 < x.nextToUpdate

/-- The index is fit to encode from position `start` at a level (R190, R214, R236). -/
def FitIndex (level : Nat) (x : Index) (start : Nat) : Prop :=
  if level = 0 then HeadBelow x start else HcIndex x ∧ x.nextToUpdate ≤ start

/-- What MATCH_FIND keeps of its index (R165, R166, R175): a FAST index holds no position above the last probe. -/
def Index.MatchOk (x : Index) : Prop :=
  match x.kind with
  | .fast => ∀ h p, Table.get x.head h = some p → ∃ l, x.lastProbe = some l ∧ p ≤ l
  | .hc => HcIndex x

/-! ### What every command keeps -/

/-- The state no command writes (R34, R38-R41, R46, R361, R362): the argument registers and their latched copy, the
interrupt enables, CMD_OVERRUN; and the command is over. -/
structure CommandFrame (s t : State) : Prop where
  args : t.args = s.args
  snap : t.snap = s.snap
  enables : t.irqEnDone = s.irqEnDone ∧ t.irqEnErr = s.irqEnErr
  overrun : t.status.overrun = s.status.overrun
  idle : t.running = none ∧ t.latency = 0
  host : t.inbox = s.inbox ∧ t.lastRead = s.lastRead

/-- The write footprint of a command (R86): MEM outside its DST is unchanged, and after a completion without error so is
everything but the first RESULT0 bytes of DST. -/
structure MemFrame (s t : State) : Prop where
  outside : ∀ a, s.snap.dst.holds a = false → t.mem.read a = s.mem.read a
  written : t.status.err = false → ∀ a, a < s.snap.dstAddr.toNat ∨ s.snap.dstAddr.toNat + t.result0.toNat ≤ a →
    t.mem.read a = s.mem.read a

/-! ### What holds of the state between steps -/

/-- STATUS says one thing at a time (R35, R37, R361, R362, R420). -/
structure StatusOk (s : State) : Prop where
  running : s.busy = true → s.status = { Status.zero with overrun := s.status.overrun }
  single : ¬ (s.status.done = true ∧ s.status.err = true)
  clean : s.status.err = false → s.status.errCode = 0#3 ∧ s.status.errCause = 0#8
  named : s.status.err = true →
    ∃ c, s.status.errCause = causeCode c ∧ s.status.errCode = classCode (causeClass c)
  flags : s.status.needInput = true ∨ s.status.frameEnd = true → s.status.done = true
  apart : ¬ (s.status.needInput = true ∧ s.status.frameEnd = true)

/-- The encoder stream and the index it owns (R48, R50, R51, R164, R280, R285, R287). -/
structure EncoderOk (e : Encoder) (x : Index) : Prop where
  owned : x.owner = .encoder ↔ e.isOpen = true
  kind : e.isOpen = true → x.kind = levelKind e.level
  level : e.isOpen = true → LevelOk e.level = true
  size : e.isOpen = true → 4 ≤ sizeCode e.bd ∧ e.blockSize = blockSizeOf (sizeCode e.bd)
  chaining : e.isOpen = true → e.chained = !e.flg.getLsbD 5
  room : e.isOpen = true → e.buf.length < e.blockSize
  count : e.hist.length + e.buf.length ≤ e.total
  shut : e.isOpen = false → e.buf = [] ∧ e.hist = []
  window : e.hist.length ≤ Config.window
  alone : e.chained = false → e.hist = []
  history : e.isOpen = true → e.chained = true → e.hist.length = min Config.window (e.total - e.buf.length)
  fit : e.isOpen = true → e.chained = true → FitIndex e.level.toNat x (e.total - e.buf.length)

/-- The header of the current frame has been read and accepted (R312). -/
def Decoder.headerDone (d : Decoder) : Bool :=
  match d.state with
  | .unopened => false
  | .opening => false
  | .headerRead => true
  | .blockLoop => true
  | .closed => true
  | .failed => false

/-- The stage is one of the header's (R314). -/
def DecStage.inHeader : DecStage → Bool
  | .magic => true
  | .flg => true
  | .bd => true
  | .csize => true
  | .dictId => true
  | .hc => true
  | .blkLen => false
  | .payload => false
  | .bcsum => false
  | .serve => false
  | .finish => false

/-- The size of the field the stage gathers (R313, R314); the last two stages gather none. -/
def Decoder.fieldSize (d : Decoder) : Nat :=
  match d.stage with
  | .magic => 4
  | .flg => 1
  | .bd => 1
  | .csize => 8
  | .dictId => 4
  | .hc => 1
  | .blkLen => 4
  | .payload => d.blkLen.toNat % 2 ^ 31
  | .bcsum => 4
  | .serve => 0
  | .finish => 0

/-- `out` is the content of a block with this payload under the length word w (R321, R322). -/
def Decoder.Decodes (d : Decoder) (w : Word) (payload out : List Byte) : Prop :=
  if w.getLsbD 31 then out = payload
  else ∃ used, decodeBlock payload d.blockSize false (if d.chained then d.hist else []) = .ok (out, used)

/-- What earlier commands gathered of the current block's next field and SRC together are the rest of that block, with
length word w, this payload and these checksum bytes, and then `rest` (R140, R143, R317): the stream stands before the
length word, or in the middle of the payload. -/
abbrev State.BlockAhead (s : State) (w : Word) (payload sum rest : List Byte) : Prop :=
  payload.length = w.toNat % 2 ^ 31 ∧ sum.length = (if s.dec.bcsum then 4 else 0) ∧
    ((s.dec.stage = .blkLen ∧ s.dec.field.length < 4 ∧ payload ≠ [] ∧ payload.length ≤ s.dec.blockSize ∧
        s.dec.field ++ s.bytes s.snap.src = leBytes 4 w.toNat ++ payload ++ sum ++ rest) ∨
      (s.dec.stage = .payload ∧ s.dec.blkLen = w ∧ s.dec.inBuf.length ≤ payload.length ∧
        s.dec.inBuf ++ s.bytes s.snap.src = payload ++ sum ++ rest))

/-- The header bytes from FLG on, without the checksum, of a frame with any descriptor (R130, R133, R314). -/
def headerFields (flg bd : Byte) (csize : BitVec 64) (dictId : Word) : List Byte :=
  [flg, bd] ++ (if flg.getLsbD 3 then leBytes 8 csize.toNat else []) ++
    (if flg.getLsbD 0 then leBytes 4 dictId.toNat else [])

/-- What earlier commands read of a header and SRC together are the header with these fields and this checksum byte, and then
`rest` (R314, R317): the stream stands at any stage of it, at the start or in the middle of a field. -/
abbrev State.HeaderAhead (s : State) (flg bd : Byte) (csize : BitVec 64) (dictId : Word) (sum : Byte) (rest : List Byte) :
    Prop :=
  let input := s.dec.field ++ s.bytes s.snap.src
  let size := if flg.getLsbD 3 then leBytes 8 csize.toNat else []
  let dict := if flg.getLsbD 0 then leBytes 4 dictId.toNat else []
  s.dec.state = .opening ∧ s.dec.field.length < s.dec.fieldSize ∧
    s.decFdesc = (0#16 ++ s.dec.bd ++ s.dec.flg : BitVec (16 + 8 + 8)) ∧
    ((s.dec.stage = .magic ∧ s.dec.hdr = [] ∧ input = magicBytes ++ ([flg, bd] ++ (size ++ (dict ++ sum :: rest)))) ∨
      (s.dec.stage = .flg ∧ s.dec.hdr = [] ∧ input = [flg, bd] ++ (size ++ (dict ++ sum :: rest))) ∨
      (s.dec.stage = .bd ∧ s.dec.flg = flg ∧ s.dec.hdr = [flg] ∧ input = bd :: (size ++ (dict ++ sum :: rest))) ∨
      (s.dec.stage = .csize ∧ s.dec.flg = flg ∧ s.dec.bd = bd ∧ s.dec.hdr = [flg, bd] ∧ flg.getLsbD 3 = true ∧
        input = size ++ (dict ++ sum :: rest)) ∨
      (s.dec.stage = .dictId ∧ s.dec.flg = flg ∧ s.dec.bd = bd ∧ s.dec.hdr = [flg, bd] ++ size ∧ flg.getLsbD 0 = true ∧
        (flg.getLsbD 3 = true → s.decCsize = csize) ∧ input = dict ++ sum :: rest) ∨
      (s.dec.stage = .hc ∧ s.dec.flg = flg ∧ s.dec.bd = bd ∧ s.dec.hdr = [flg, bd] ++ size ++ dict ∧
        (flg.getLsbD 3 = true → s.decCsize = csize) ∧ (flg.getLsbD 0 = true → s.decDictId = dictId) ∧
        input = sum :: rest))

/-- The arguments behind the first `consumed` bytes of SRC and the first `served` bytes of DST. -/
def Args.skip (a : Args) (consumed served : Nat) : Args :=
  { a with
    srcAddr := a.srcAddr + BitVec.ofNat 32 consumed, srcLen := a.srcLen - BitVec.ofNat 32 consumed
    dstAddr := a.dstAddr + BitVec.ofNat 32 served, dstCap := a.dstCap - BitVec.ofNat 32 served }

/-- FDEC_READ from s answers what FDEC_READ from s' answers, beside the bytes it consumed and served on the way from s to s'
(R313, R326). After an error the DST bytes are free in both (R367). -/
def GoesOnAs (inEof : Bool) (s s' : State) (consumed served : Nat) : Prop :=
  ∃ t t', execFdecRead inEof s = .next t ∧ execFdecRead inEof s' = .next t' ∧
    (t'.status.err = true → t = { t' with snap := s.snap, mem := t.mem, draws := t.draws }) ∧
    (t'.status.err = false → t = { t' with
      snap := s.snap
      result0 := t'.result0 + BitVec.ofNat 32 served
      result1 := t'.result1 + BitVec.ofNat 32 consumed })

/-- The decoder stream and its header registers (R43, R49, R51, R312-R316, R322). -/
structure DecoderOk (s : State) : Prop where
  idle : s.dec.state = .unopened →
    s.dec = Decoder.reset ∧ s.decFdesc = 0#32 ∧ s.decCsize = 0#64 ∧ s.decDictId = 0#32
  mirror : s.decFdesc = (0#16 ++ s.dec.bd ++ s.dec.flg : BitVec (16 + 8 + 8))
  opening : s.dec.state = .opening → s.dec.stage.inHeader = true
  versioned : s.dec.state = .opening → s.dec.stage ≠ .magic → s.dec.stage ≠ .flg → versionOf s.dec.flg = 1#2
  fresh : s.dec.state = .opening → s.dec.hist = [] ∧ s.dec.total = 0#64
  reading : s.dec.headerDone = true → s.dec.stage.inHeader = false
  ended : s.dec.state = .closed → s.dec.stage = .finish
  header : s.dec.headerDone = true →
    versionOf s.dec.flg = 1#2 ∧ descriptorReserved s.dec.flg s.dec.bd = false ∧ 4 ≤ sizeCode s.dec.bd ∧
      s.dec.flg.getLsbD 2 = false ∧ s.dec.flg.getLsbD 0 = false ∧
      s.dec.blockSize = blockSizeOf (sizeCode s.dec.bd) ∧ s.dec.chained = !s.dec.flg.getLsbD 5 ∧
      s.dec.bcsum = s.dec.flg.getLsbD 4
  served : s.dec.servePos ≤ s.dec.outBuf.length
  window : s.dec.hist.length ≤ Config.window
  alone : s.dec.chained = false → s.dec.hist = []

/-- The index while MATCH owns it (R164, R175). -/
def IndexOk (x : Index) : Prop := x.owner = .matcher → x.MatchOk

end Sys2Proof.Machine
end

