-- ==== Sys2Proof/Certificates/Slice0/Obligations.lean ====
section
/-! DEFINITION. The statements about the engine for the provers. Each docstring names the rules of spec/ it formalises;
where a clause rests on a choice of the model it names the log entry. -/

open Sys2Proof Sys2Proof.Machine

/-! ### Command words and steps -/

/-- The reference command words decode to the commands they stand for, at every legal level and decode mode (R114). -/
def Obligations.CommandWordsDecode : Prop :=
  decode 0x00000000#32 = .ok .nop ∧ decode 0x00000110#32 = .ok (.matchInit true) ∧
    decode 0x00000151#32 = .ok (.fdecRead true) ∧
    (∀ level : BitVec 4, LevelOk level = true →
      decode (0x20#32 ||| (level.setWidth 32 <<< 8)) = .ok (.blockEncode level)) ∧
    (∀ (eoo : Bool) (dmode : BitVec 2), dmode ≠ 3#2 →
      decode (0x30#32 ||| ((BitVec.ofBool eoo).setWidth 32 <<< 8) ||| (dmode.setWidth 32 <<< 9)) =
        .ok (.blockDecode eoo dmode false)) ∧
    decode 0x00000020#32 = .ok (.blockEncode 0#4) ∧ decode 0x00000920#32 = .ok (.blockEncode 9#4) ∧
    decode 0x00000C20#32 = .ok (.blockEncode 12#4) ∧ decode 0x00000030#32 = .ok (.blockDecode false 0#2 false) ∧
    decode 0x00000430#32 = .ok (.blockDecode false 2#2 false) ∧
    decode 0x00000330#32 = .ok (.blockDecode true 1#2 false)

/-- A step runs the latched command when its word decodes (R113, R420). When the host's next access comes first is the
model's choice (log 2): the command runs at once if nothing is left in the inbox, if the host waits, or if the command's
latency is used up; else the step is the host's next access, which uses up one of the latency. With no command running
every step is the host's. A word that does not decode runs in the same turns, and completes with its cause and changes
nothing else. -/
def Obligations.StepRunsDecodedCommand : Prop :=
  (∀ s w i, s.running = some w → decode w = .ok i →
    (s.inbox = [] → step s = exec i s) ∧
    (∀ rest, s.inbox = .wait :: rest → step s = exec i s) ∧
    (∀ op rest, s.inbox = op :: rest → op ≠ .wait →
      (s.latency = 0 → step s = exec i s) ∧
      (s.latency ≠ 0 → step s = hostAccess op { s with inbox := rest, latency := s.latency - 1 }))) ∧
  (∀ s : State, s.running = none →
    (s.inbox = [] → step s = .next s) ∧
    (∀ op rest, s.inbox = op :: rest →
      step s = hostAccess op { s with inbox := rest, latency := s.latency - 1 })) ∧
  ∀ s w c, s.running = some w → decode w = .error c →
    (s.inbox = [] → step s = .next (s.raise c)) ∧
    (∀ rest, s.inbox = .wait :: rest → step s = .next (s.raise c)) ∧
    ∀ op rest, s.inbox = op :: rest → op ≠ .wait →
      (s.latency = 0 → step s = .next (s.raise c)) ∧
      (s.latency ≠ 0 → step s = hostAccess op { s with inbox := rest, latency := s.latency - 1 })

/-- Decoding inverts encoding on every well-formed command (R110-R112). -/
def Obligations.DecodeEncodeRoundTrip : Prop :=
  ∀ i : Instr, i.WellFormed = true → decode (encode i) = .ok i

/-- Encoding inverts decoding: every word that decodes is the one word of a well-formed command (R110-R113). -/
def Obligations.EncodeDecodeRoundTrip : Prop :=
  ∀ w i, decode w = .ok i → encode i = w ∧ i.WellFormed = true

/-- The verdict on every command word, in the order of R113, by its bytes as numbers. -/
def Obligations.CommandWordVerdicts : Prop :=
  ∀ w : Word,
    let op := w.toNat % 256
    let m := w.toNat / 256 % 256
    let upper := w.toNat / 65536
    let reserved :=
      if op = 0x10 ∨ op = 0x50 ∨ op = 0x51 then 2 ≤ m
      else if op = 0x20 ∨ op = 0x30 ∨ op = 0x40 then 16 ≤ m else m ≠ 0
    if op ∉ [0x00, 0x01, 0x02, 0x10, 0x11, 0x12, 0x20, 0x30, 0x40, 0x41, 0x42, 0x50, 0x51] then
      decode w = .error .illegalOpcode
    else if upper ≠ 0 ∨ reserved then decode w = .error .reservedBits
    else if (op = 0x20 ∨ op = 0x40) ∧ m ∈ [1, 2, 13, 14, 15] then decode w = .error .badLevel
    else if op = 0x30 ∧ m / 2 % 4 = 3 then decode w = .error .badMode
    else if op = 0x30 ∧ 8 ≤ m then decode w = .error .partialDecode
    else ∃ i, decode w = .ok i ∧ (opcodeByte i).toNat = op ∧ (modByte i).toNat = m

/-- A command with a field value R112 does not allow: its word is refused with the cause of R113, steps 3 and 4. No word
decodes to such a command, so what `exec` does with it is the model's choice (log 18): it reports the same cause before
anything else. -/
def Obligations.IllegalFieldsTrap : Prop :=
  (∀ level, LevelOk level = false →
    decode (encode (.blockEncode level)) = .error .badLevel ∧ decode (encode (.fencOpen level)) = .error .badLevel ∧
      ∀ s : State, exec (.blockEncode level) s = .next (s.raise .badLevel) ∧
        exec (.fencOpen level) s = .next (s.raise .badLevel)) ∧
  (∀ eoo short, decode (encode (.blockDecode eoo 3#2 short)) = .error .badMode ∧
    ∀ s : State, exec (.blockDecode eoo 3#2 short) s = .next (s.raise .badMode)) ∧
  ∀ eoo dmode, dmode ≠ 3#2 → decode (encode (.blockDecode eoo dmode true)) = .error .partialDecode ∧
    ∀ s : State, exec (.blockDecode eoo dmode true) s = .next (s.raise .partialDecode)

/-! ### Reset -/

/-- The machine right after reset, state by state and register by register (R400). That MEM lists nothing is the model's
choice (log 1), and so are its own fields (log 19). -/
def Obligations.ResetLeavesListedState : Prop :=
  let s := State.reset
  s.busy = false ∧ s.irqLine = false ∧ s.snap = Args.zero ∧
    s.index = ⟨.free, .fast, [], [], 0, none, 0, 0⟩ ∧
    s.enc = ⟨.unopened, 0, 0, 0, 0, false, [], [], 0⟩ ∧
    s.dec = ⟨.unopened, .magic, [], [], 0, 0, 0, false, false, 0, [], [], 0, [], 0⟩ ∧
    s.regValue 0 = 0x4C5A3401#32 ∧ (∀ offset, 0 < offset → offset < 4096 → s.regValue offset = 0#32) ∧
    s.mem = [] ∧ s.inbox = [] ∧ s.latency = 0 ∧ s.lastRead = 0#32 ∧ s.draws = 0

/-- A hardware reset, or a write of CTRL with SOFT_RESET, puts every engine state at its reset value from any state, and
leaves MEM as it was outside the DST of a command it abandons (R400, R402). Model's choices: that the hardware reset abandons
a command as the soft reset does (log 5), and that a BUSY word R113 refuses has no DST, so that a reset leaves all of MEM as
it was under it (log 25). -/
def Obligations.ResetsClearTheEngine : Prop :=
  ∀ (s : State) (v : Word), v.getLsbD 0 = true →
    ∃ t, hostAccess .hardReset s = .next t ∧ hostAccess (.write 0x004#12 4 v) s = .next t ∧
      t = { State.reset with mem := t.mem, inbox := s.inbox, lastRead := s.lastRead, draws := t.draws } ∧
      (s.busy = false → t.mem = s.mem) ∧
      ∀ a, (∀ r ∈ s.busyWrites, r.holds a = false) → t.mem.read a = s.mem.read a

/-! ### The register port -/

/-- The register port (R31-R33, R37): a read with no command running returns the register and changes nothing else, ID is
fixed, CMD and every reserved offset read 0; a write to a read-only register or a reserved offset has no effect; an access
that is not 32 bits wide at a multiple of 4 is refused. `lastRead` is the model's own record of the value (log 9). -/
def Obligations.RegisterPortRules : Prop :=
  ∀ (s : State) (offset : BitVec 12),
    (offset.toNat % 4 = 0 → s.busy = false →
      hostAccess (.read offset 4) s = .next { s with lastRead := s.regValue offset.toNat }) ∧
    (s.regValue 0x000 = 0x4C5A3401#32 ∧ s.regValue 0x010 = 0#32 ∧ s.regValue 0x048 = 0#32 ∧
      (0x078 ≤ offset.toNat → s.regValue offset.toNat = 0#32)) ∧
    (∀ v, offset.toNat % 4 = 0 → offset.toNat ≠ 0x004 → offset.toNat ≠ 0x00C → offset.toNat ≠ 0x010 →
      (offset.toNat < 0x014 ∨ 0x044 < offset.toNat) → hostAccess (.write offset 4 v) s = .next s) ∧
    ∀ v size, (size ≠ 4 ∨ offset.toNat % 4 ≠ 0) →
      hostAccess (.write offset size v) s = .refused .registerAccess ∧
        hostAccess (.read offset size) s = .refused .registerAccess

/-- What the host reads while a command runs (R420): STATUS shows BUSY and no report, the stream registers show their value
at acceptance or at completion, every other register what it held; nothing else of the engine changes. -/
def Obligations.RegisterReadsWhileBusy : Prop :=
  ∀ (s : State) (offset : BitVec 12), offset.toNat % 4 = 0 → s.busy = true → StatusOk s →
    ∃ t, hostAccess (.read offset 4) s = .next t ∧ t = { s with lastRead := t.lastRead, draws := t.draws } ∧
      (t.lastRead = s.regValue offset.toNat ∨
        (0x058 ≤ offset.toNat ∧ offset.toNat ≤ 0x074 ∧ t.lastRead = s.atCompletion.regValue offset.toNat)) ∧
      (s.regValue 0x008).extractLsb' 0 16 = 1#16 ∧ s.regValue 0x04C = s.result0 ∧ s.regValue 0x050 = s.result1 ∧
      s.regValue 0x054 = s.result2

/-- Every argument register holds what the host last wrote, and a write of one changes no other register and no other
state, running or not (R38-R41, R46, R95). -/
def Obligations.ArgumentWriteReadsBack : Prop :=
  ∀ (s : State) (v : Word) (k : Nat), k < 13 →
    ∃ t, hostAccess (.write (BitVec.ofNat 12 (0x014 + 4 * k)) 4 v) s = .next t ∧ t = { s with args := t.args } ∧
      t.regValue (0x014 + 4 * k) = v ∧ ∀ o, o ≠ 0x014 + 4 * k → t.regValue o = s.regValue o

/-- IRQ_STATUS is write-1-to-clear: its two pending bits are set by completions, a 1 written clears one, a 0 leaves it, the
other bits read 0, and a completion sets its bit whatever it was before (R36). -/
def Obligations.IrqStatusWriteOneToClear : Prop :=
  (∀ (s : State) (v : Word),
    hostAccess (.write 0x00C#12 4 v) s =
        .next { s with donePend := s.donePend && !v.getLsbD 0, errPend := s.errPend && !v.getLsbD 1 } ∧
      s.regValue 0x00C = (0#30 ++ BitVec.ofBool s.errPend ++ BitVec.ofBool s.donePend : BitVec (30 + 1 + 1))) ∧
  (∀ i s t, exec i s = .next t →
    (t.status.err = false → t.donePend = true ∧ t.errPend = s.errPend) ∧
    (t.status.err = true → t.errPend = true ∧ t.donePend = s.donePend)) ∧
  State.reset.regValue 0x00C = 0#32

/-- A write of CTRL without SOFT_RESET sets the two interrupt enables, which read back, and changes nothing else (R34); the
interrupt output follows the pending bits and the enables as the host reads them (R370). -/
def Obligations.CtrlAndInterruptLine : Prop :=
  (∀ (s : State) (v : Word), v.getLsbD 0 = false →
    hostAccess (.write 0x004#12 4 v) s = .next { s with irqEnDone := v.getLsbD 1, irqEnErr := v.getLsbD 2 } ∧
      ({ s with irqEnDone := v.getLsbD 1, irqEnErr := v.getLsbD 2 } : State).regValue 0x004 = v &&& 6#32) ∧
  (∀ s : State, s.irqLine =
    (((s.regValue 0x00C).getLsbD 0 && (s.regValue 0x004).getLsbD 1) ||
      ((s.regValue 0x00C).getLsbD 1 && (s.regValue 0x004).getLsbD 2))) ∧
  State.reset.irqLine = false

/-- The bits of STATUS (R35, R47-R49), DEC_FDESC and DEC_DICT_ID (R43), and the content counters and DEC_CSIZE as 64-bit
pairs, low word first (R43, R44). -/
def Obligations.ReadOnlyRegisterLayout : Prop :=
  ∀ s : State,
    let w := s.regValue 0x008
    w.getLsbD 0 = s.busy ∧ w.getLsbD 1 = s.status.done ∧ w.getLsbD 2 = s.status.err ∧
      w.getLsbD 3 = s.status.needInput ∧ w.getLsbD 4 = s.status.frameEnd ∧
      w.extractLsb' 5 3 = s.status.errCode ∧ w.extractLsb' 8 8 = s.status.errCause ∧
      (w.extractLsb' 16 3).toNat =
        (match s.enc.state with | .unopened => 0 | .headerWritten => 1 | .blockLoop => 2 | .closed => 3) ∧
      w.getLsbD 19 = false ∧
      (w.extractLsb' 20 3).toNat =
        (match s.dec.state with
          | .unopened => 0 | .opening => 1 | .headerRead => 2 | .blockLoop => 3 | .closed => 4 | .failed => 5) ∧
      w.getLsbD 23 = false ∧
      (w.extractLsb' 24 2).toNat = (match s.index.owner with | .free => 0 | .matcher => 1 | .encoder => 2) ∧
      w.getLsbD 26 = s.status.overrun ∧ w.getLsbD 27 = (s.index.kind == .hc) ∧ w.extractLsb' 28 4 = 0#4 ∧
      s.regValue 0x058 = s.decFdesc ∧ s.regValue 0x064 = s.decDictId ∧
      (s.regValue 0x06C).toNat * 2 ^ 32 + (s.regValue 0x068).toNat = s.enc.total % 2 ^ 64 ∧
      (s.regValue 0x074).toNat * 2 ^ 32 + (s.regValue 0x070).toNat = s.dec.total.toNat ∧
      (s.regValue 0x060).toNat * 2 ^ 32 + (s.regValue 0x05C).toNat = s.decCsize.toNat

/-- A CMD write with no command running latches the word and the arguments, sets BUSY and clears the last report; with a
command running it is dropped and CMD_OVERRUN set (R37, R46). How long the command takes is drawn (log 2). -/
def Obligations.CmdAcceptsOrDrops : Prop :=
  ∀ (s : State) (w : Word),
    (s.busy = false → ∃ t, hostAccess (.write 0x010#12 4 w) s = .next t ∧
      t = { s with running := some w, snap := s.args, status := Status.zero, latency := t.latency, draws := t.draws }) ∧
    (s.busy = true → hostAccess (.write 0x010#12 4 w) s =
      .next { s with status := { s.status with overrun := true } })

/-! ### Completion and errors -/

/-- done(r0, r1, r2) (R361) and raise E(cause) (R362), and what they leave unchanged (R374). -/
def Obligations.CompletionEffects : Prop :=
  (∀ (s : State) (needInput frameEnd : Bool) (r0 r1 r2 : Nat),
    let t := s.finishWith needInput frameEnd r0 r1 r2
    t.regValue 0x04C = BitVec.ofNat 32 r0 ∧ t.regValue 0x050 = BitVec.ofNat 32 r1 ∧
      t.regValue 0x054 = BitVec.ofNat 32 r2 ∧ t.busy = false ∧
      t.status = ⟨true, false, needInput, frameEnd, 0#3, 0#8, s.status.overrun⟩ ∧
      t = { s with result0 := t.result0, result1 := t.result1, result2 := t.result2, status := t.status,
                   donePend := true, running := none, latency := 0 }) ∧
  ∀ (s : State) (c : Cause),
    let t := s.raise c
    t.regValue 0x04C = 0#32 ∧ t.regValue 0x050 = 0#32 ∧ t.regValue 0x054 = 0#32 ∧ t.busy = false ∧
      t.status = ⟨false, true, false, false, classCode (causeClass c), causeCode c, s.status.overrun⟩ ∧
      t = { s with result0 := 0#32, result1 := 0#32, result2 := 0#32, status := t.status, errPend := true,
                   running := none, latency := 0 }

/-- The class codes (R365), the code of each of the 32 causes (R366), that no two causes share a code, and that a code's
high nibble names its class (R366). -/
def Obligations.ErrorCodes : Prop :=
  classCode .invalidArgument = 1#3 ∧ classCode .outputTooSmall = 2#3 ∧ classCode .corruptData = 3#3 ∧
    classCode .unexpectedEndOfStream = 4#3 ∧ classCode .unsupportedFeature = 5#3 ∧
    (∀ c d, causeCode c = causeCode d → c = d) ∧
    (∀ c, causeCode c =
      (match c with
        | .illegalOpcode => 0x01#8 | .reservedBits => 0x02#8 | .badLevel => 0x03#8 | .badBlockSizeCode => 0x04#8
        | .regionWrap => 0x05#8 | .regionOverlap => 0x06#8 | .lengthTooLarge => 0x07#8 | .badState => 0x08#8
        | .indexNotReady => 0x09#8 | .badCursor => 0x0A#8 | .badMode => 0x0B#8 | .badVersion => 0x0C#8
        | .prefixUnderflow => 0x0D#8 | .indexBusy => 0x0E#8 | .dstFull => 0x20#8 | .badMagic => 0x30#8
        | .headerChecksum => 0x31#8 | .headerReserved => 0x32#8 | .headerBlockSize => 0x33#8
        | .blockTooLarge => 0x34#8 | .blockChecksum => 0x35#8 | .tokenTruncated => 0x36#8
        | .literalOverrun => 0x37#8 | .offsetZero => 0x38#8 | .offsetBeforeWindow => 0x39#8
        | .outputOverrun => 0x3A#8 | .transportEof => 0x40#8 | .version => 0x50#8 | .contentChecksum => 0x51#8
        | .blockChecksumEncode => 0x52#8 | .dictionaryId => 0x53#8 | .partialDecode => 0x54#8)) ∧
    ∀ c, (causeCode c).toNat / 16 =
      (match causeClass c with
        | .invalidArgument => 0 | .outputTooSmall => 2 | .corruptData => 3 | .unexpectedEndOfStream => 4
        | .unsupportedFeature => 5)

/-- Every command ends, whatever the state: with done or with an error, never both, its report and its pending bit set, and
results 0 after an error (R360, R361, R362). -/
def Obligations.EveryCommandCompletes : Prop :=
  ∀ i s, ∃ t, exec i s = .next t ∧ t.busy = false ∧
    ((t.status.done = true ∧ t.status.err = false ∧ t.status.errCode = 0#3 ∧ t.status.errCause = 0#8 ∧
        t.donePend = true) ∨
      (t.status.done = false ∧ t.status.err = true ∧ t.status.needInput = false ∧ t.status.frameEnd = false ∧
        t.errPend = true ∧ t.result0 = 0#32 ∧ t.result1 = 0#32 ∧ t.result2 = 0#32 ∧
        ∃ c, t.status.errCode = classCode (causeClass c) ∧ t.status.errCause = causeCode c))

/-- No command writes an argument register, its latched copy, an interrupt enable or CMD_OVERRUN (R34, R38-R41, R46, R361,
R362). -/
def Obligations.CommandsKeepHostRegisters : Prop :=
  ∀ i s t, exec i s = .next t → CommandFrame s t

/-- A command writes MEM only inside its DST, and after a completion without error only the first RESULT0 bytes of it
(R86, R367). A command without a DST, whose RESULT0 counts no bytes, writes no byte at all; that this holds of FDEC_OPEN
after an error too is log 4. -/
def Obligations.CommandsWriteOnlyDst : Prop :=
  ∀ i s t, exec i s = .next t → MemFrame s t ∧
    ((i = .nop ∨ i = .abortEnc ∨ i = .abortDec ∨ (∃ hc, i = .matchInit hc) ∨ i = .matchFind ∨ i = .matchWiden ∨
      ∃ inEof, i = .fdecOpen inEof) → t.mem = s.mem)

/-- The control commands have no error; the match and the frame encoder commands have pre-check errors only: after any of
their errors every state and every MEM byte is as it was (R363). -/
def Obligations.PreCheckErrorsChangeNothing : Prop :=
  (∀ i s t, (i = .nop ∨ i = .abortEnc ∨ i = .abortDec) → exec i s = .next t → t.status.err = false) ∧
  ∀ i s t, ((∃ hc, i = .matchInit hc) ∨ i = .matchFind ∨ i = .matchWiden ∨ (∃ level, i = .fencOpen level) ∨
      i = .fencWrite ∨ i = .fencClose) →
    exec i s = .next t → t.status.err = true → ∃ c, t = s.raise c

/-- The encoder stream, the decoder stream and the match index are independent (R50): only the encoder's commands change
the encoder context, only the decoder's the decoder context and header registers, and BLOCK_DECODE none of them; and what a
command does with the rest of the machine is the same whatever stands in a context it does not own. Of the commands that
do not change the index only MATCH_WIDEN reads it. -/
def Obligations.StreamsAreIndependent : Prop :=
  (∀ i s t, exec i s = .next t →
    (ofEncoder i = false → t.enc = s.enc) ∧
    (ofDecoder i = false →
      t.dec = s.dec ∧ t.decFdesc = s.decFdesc ∧ t.decCsize = s.decCsize ∧ t.decDictId = s.decDictId) ∧
    (ofIndex i = false → t.index = s.index)) ∧
  (∀ i s (e : Encoder), ofEncoder i = false →
    ∃ t, exec i s = .next t ∧ exec i { s with enc := e } = .next { t with enc := e }) ∧
  (∀ i s (d : Decoder) (fdesc : Word) (csize : BitVec 64) (dictId : Word), ofDecoder i = false →
    ∃ t, exec i s = .next t ∧
      exec i { s with dec := d, decFdesc := fdesc, decCsize := csize, decDictId := dictId } =
        .next { t with dec := d, decFdesc := fdesc, decCsize := csize, decDictId := dictId }) ∧
  ∀ i s (x : Index), ofIndex i = false → i ≠ .matchWiden →
    ∃ t, exec i s = .next t ∧ exec i { s with index := x } = .next { t with index := x }

/-- A command reads only the latched arguments: rewriting the argument registers while it runs changes nothing of what it
does (R46). -/
def Obligations.CommandsReadOnlyTheSnapshot : Prop :=
  ∀ i s (a : Args), ∃ t, exec i s = .next t ∧ exec i { s with args := a } = .next { t with args := a }

/-! ### Control commands -/

/-- NOP (R350). -/
def Obligations.NopResult : Prop :=
  (∀ s : State, ∃ t, exec .nop s = .next t ∧
    t = { s with result0 := 0#32, result1 := 0#32, result2 := 0#32,
                 status := ⟨true, false, false, false, 0#3, 0#8, s.status.overrun⟩, donePend := true,
                 running := none, latency := 0 } ∧
    t.statusWord.extractLsb' 0 3 = 0b010#3 ∧ (s.errPend = false → t.irqStatusWord = 1#32)) ∧
  ∀ w : Word, w.toNat % 256 = 0 → w ≠ 0#32 → decode w = .error .reservedBits

/-- ABORT_ENC (R351): an open or closed stream is dropped and its index released, MEM untouched; with no stream nothing
happens but the completion. ABORT_DEC (R352): the decoder stream and its header registers go to their reset values, MEM
untouched. -/
def Obligations.AbortResults : Prop :=
  ∀ s : State,
    (s.enc.state = .unopened → exec .abortEnc s = .next (s.complete 0 0 0)) ∧
    (s.enc.state ≠ .unopened → s.index.owner = .encoder →
      exec .abortEnc s = .next ({ s with enc := Encoder.reset, index := { s.index with owner := .free } }.complete 0 0 0)) ∧
    (s.enc.state ≠ .unopened → s.index.owner ≠ .encoder →
      exec .abortEnc s = .next ({ s with enc := Encoder.reset }.complete 0 0 0)) ∧
    exec .abortDec s =
      .next ({ s with dec := Decoder.reset, decFdesc := 0#32, decCsize := 0#64, decDictId := 0#32 }.complete 0 0 0)

/-! ### The match engine -/

/-- MATCH_INIT (R171): its two pre-checks in order, and the fresh index over SRC. -/
def Obligations.MatchInitResult : Prop :=
  ∀ (hc : Bool) (s : State),
    (s.index.owner = .encoder → exec (.matchInit hc) s = .next (s.raise .indexBusy)) ∧
    (s.index.owner ≠ .encoder → ¬ s.snap.src.Fits → exec (.matchInit hc) s = .next (s.raise .regionWrap)) ∧
    (s.index.owner ≠ .encoder → s.snap.src.Fits →
      exec (.matchInit hc) s = .next ({ s with index :=
        { owner := .matcher, kind := if hc then .hc else .fast, head := [], chain := [], nextToUpdate := 0,
          lastProbe := none, base := s.snap.srcAddr, len := s.snap.srcLen } }.complete 0 0 0))

/-- MATCH_FIND over a FAST index (R163, R165, R175): one probe, which reports its candidate with the full match length, and
the cursor inserted whatever it finds. -/
def Obligations.MatchFindFastResult : Prop :=
  ∀ s : State, s.index.owner = .matcher → s.index.kind = .fast → s.CursorOk →
    let c := s.snap.arg0.toNat
    let limit := s.snap.arg3.toNat
    let v := s.indexView limit
    let usable := fun p => s.snap.arg1.toNat ≤ p ∧ c - p ≤ 65535 ∧ v.seq p = v.seq c
    let t := { s with index := { s.index with
      head := Table.set s.index.head (v.hash .fast c) (some c), lastProbe := some c } }
    (∀ p, Table.get s.index.head (v.hash .fast c) = some p → usable p →
      ∃ n, v.Longest c p limit n ∧ 4 ≤ n ∧ exec .matchFind s = .next (t.complete n p (c - p))) ∧
    ((∀ p, Table.get s.index.head (v.hash .fast c) = some p → ¬ usable p) →
      exec .matchFind s = .next (t.complete 0 0 0))

/-- MATCH_FIND completes from every state that meets its cursor conditions, and a match it reports is real and whole: at
least 4 bytes long, 1 to 65535 bytes back, not below `low`, inside `limit`, its bytes equal in MEM as it is now, and the
bytes behind it not (R163, R169, R175). MEM is not written, and of the index only its tables and its two cursors change.
Over an HC index of the bytes as they are now, with a budget for every position of the window, it reports the longest match
of all candidates, of those the most recent, and no match only where there is no candidate; the cursor is inserted, and the
index is still one of these bytes (R166, R167, R169). Over any HC index and with any budget it inserts the cursor and every
position before it that is not inserted yet, also with budget 0, then tries the chained positions in order, at most as many
as the budget, whether they match or not, and reports the first longest match of those, or none; with budget 0, none (R166,
R167, R175). Over an HC index of the bytes as they are now, those it tries are the budget's number of most recent positions
of the window with the cursor's hash (R167, R168). -/
def Obligations.MatchFindSound : Prop :=
  (∀ s : State, s.index.owner = .matcher → s.CursorOk → s.index.MatchOk →
    ∃ t, exec .matchFind s = .next t ∧ t.status.err = false ∧ t.index.MatchOk ∧
      t = { s with index := { s.index with head := t.index.head, chain := t.index.chain,
                                           nextToUpdate := t.index.nextToUpdate, lastProbe := t.index.lastProbe }
                   result0 := t.result0, result1 := t.result1, result2 := t.result2,
                   status := t.status, donePend := true, running := none, latency := 0 } ∧
      ((t.result0 = 0#32 ∧ t.result1 = 0#32 ∧ t.result2 = 0#32) ∨
        (4 ≤ t.result0.toNat ∧ 1 ≤ t.result2.toNat ∧ t.result2.toNat ≤ 65535 ∧
          t.result1.toNat + t.result2.toNat = s.snap.arg0.toNat ∧ s.snap.arg1.toNat ≤ t.result1.toNat ∧
          s.snap.arg0.toNat + t.result0.toNat ≤ s.snap.arg3.toNat ∧
          (∀ j, j < t.result0.toNat →
            s.mem.read (s.index.base.toNat + t.result1.toNat + j) =
              s.mem.read (s.index.base.toNat + s.snap.arg0.toNat + j)) ∧
          (s.snap.arg0.toNat + t.result0.toNat < s.snap.arg3.toNat →
            s.mem.read (s.index.base.toNat + t.result1.toNat + t.result0.toNat) ≠
              s.mem.read (s.index.base.toNat + s.snap.arg0.toNat + t.result0.toNat))))) ∧
  (∀ s : State, s.index.owner = .matcher → s.index.kind = .hc → s.CursorOk →
    let c := s.snap.arg0.toNat
    let low := s.snap.arg1.toNat
    let limit := s.snap.arg3.toNat
    let v := s.indexView limit
    s.index.BuiltFrom v → min c 65535 ≤ s.snap.arg2.toNat →
    ∃ x, x.BuiltFrom v ∧ x.nextToUpdate = c + 1 ∧
      ((∀ p, ¬ v.Candidate c low p) → exec .matchFind s = .next ({ s with index := x }.complete 0 0 0)) ∧
      ∀ p n, v.Best c low limit p n → exec .matchFind s = .next ({ s with index := x }.complete n p (c - p))) ∧
  ∀ s : State, s.index.owner = .matcher → s.index.kind = .hc → s.CursorOk →
    let c := s.snap.arg0.toNat
    let low := s.snap.arg1.toNat
    let budget := s.snap.arg2.toNat
    let limit := s.snap.arg3.toNat
    let v := s.indexView limit
    let insert := fun (y : Index) (p : Nat) => { y with
      chain := Table.set y.chain (p % 65536) (match Table.get y.head (v.hash .hc p) with
        | some q => if p - q ≤ 65535 then some q else none
        | none => none)
      head := Table.set y.head (v.hash .hc p) (some p)
      nextToUpdate := p + 1 }
    let x := (List.range' s.index.nextToUpdate (c + 1 - s.index.nextToUpdate)).foldl insert s.index
    let tried := chained x.chain c low budget (Table.get x.chain (c % 65536))
    tried.length ≤ budget ∧
    (budget = 0 → exec .matchFind s = .next ({ s with index := x }.complete 0 0 0)) ∧
    ((∀ p ∈ tried, v.seq p ≠ v.seq c) → exec .matchFind s = .next ({ s with index := x }.complete 0 0 0)) ∧
    (∀ p n, v.FirstLongest c limit tried p n →
      exec .matchFind s = .next ({ s with index := x }.complete n p (c - p))) ∧
    (s.index.BuiltFrom v → tried = (v.sameHash c low).take budget)

/-- MATCH_WIDEN (R170, R180): the match grows backward over equal bytes and over nothing else, as far as its two bounds let
it; the index and MEM are not touched. -/
def Obligations.MatchWidenResult : Prop :=
  ∀ s : State, s.index.owner = .matcher → s.WidenOk →
    ∃ k, exec .matchWiden s = .next (s.complete (s.snap.arg0.toNat - k) (s.snap.arg1.toNat - k) k) ∧
      s.snap.arg2.toNat + k ≤ s.snap.arg0.toNat ∧ s.snap.arg3.toNat + k ≤ s.snap.arg1.toNat ∧
      (∀ j, j < k → s.mem.read (s.index.base.toNat + (s.snap.arg0.toNat - j - 1)) =
        s.mem.read (s.index.base.toNat + (s.snap.arg1.toNat - j - 1))) ∧
      (s.snap.arg2.toNat + k < s.snap.arg0.toNat → s.snap.arg3.toNat + k < s.snap.arg1.toNat →
        s.mem.read (s.index.base.toNat + (s.snap.arg0.toNat - k - 1)) ≠
          s.mem.read (s.index.base.toNat + (s.snap.arg1.toNat - k - 1)))

/-- The pre-checks of MATCH_FIND and MATCH_WIDEN, in order (R175, R180). -/
def Obligations.MatchCommandsTrap : Prop :=
  ∀ s : State,
    (s.index.owner ≠ .matcher →
      exec .matchFind s = .next (s.raise .indexNotReady) ∧ exec .matchWiden s = .next (s.raise .indexNotReady)) ∧
    (s.index.owner = .matcher → ¬ s.CursorOk → exec .matchFind s = .next (s.raise .badCursor)) ∧
    (s.index.owner = .matcher → ¬ s.WidenOk → exec .matchWiden s = .next (s.raise .badCursor))

/-- The index hash stays inside its table and has the spec's example values (R162). -/
def Obligations.HashValues : Prop :=
  (∀ x, hashOf .fast x < 4096 ∧ hashOf .hc x < 32768 ∧
    hashOf .fast x = x * 2654435761 % 2 ^ 32 / 2 ^ 20 ∧ hashOf .hc x = x * 2654435761 % 2 ^ 32 / 2 ^ 17) ∧
  hashOf .fast 0x61616161 = 595 ∧ hashOf .hc 0x61616161 = 4761 ∧ hashOf .fast 0x61636261 = 1280 ∧
    hashOf .hc 0x61636261 = 10246

/-! ### Block encoding -/

/-- BLOCK_ENCODE of at most 4 MiB completes at every level when DST has room for the payload, and the worst case of R195 is
always room enough (R191, R195, R200): DST receives the payload, which is within the bound and which the block decoder
turns back into SRC, and the index is left owned by no one. -/
def Obligations.BlockEncodeResult : Prop :=
  ∀ (level : BitVec 4) (s : State), LevelOk level = true → s.index.owner ≠ .encoder → s.snap.src.Fits →
    s.snap.dst.Fits → s.snap.src.Apart s.snap.dst → s.snap.srcLen.toNat ≤ 4194304 →
    ((encoded level [] (s.bytes s.snap.src)).length ≤ s.snap.dstCap.toNat ∨
      s.snap.srcLen.toNat + s.snap.srcLen.toNat / 255 + 16 ≤ s.snap.dstCap.toNat) →
    ∃ payload x, payload = encoded level [] (s.bytes s.snap.src) ∧
      exec (.blockEncode level) s =
        .next (({ s with index := x }.memWrite s.snap.dstAddr.toNat payload).complete payload.length
          s.snap.srcLen.toNat 0) ∧
      x.owner = .free ∧ x.kind = (if level = 0#4 then .fast else .hc) ∧
      payload.length ≤ s.snap.srcLen.toNat + s.snap.srcLen.toNat / 255 + 2 ∧
      decodeBlock payload s.snap.srcLen.toNat false [] = .ok (s.bytes s.snap.src, payload.length)

/-- The errors of BLOCK_ENCODE at a legal level, in order (R191): the pre-checks, and OutputTooSmall, which leaves the
index cleared of its owner, MEM outside DST as it was, and DST bytes free (R363, R367). -/
def Obligations.BlockEncodeTraps : Prop :=
  ∀ (level : BitVec 4) (s : State), LevelOk level = true →
    (s.index.owner = .encoder → exec (.blockEncode level) s = .next (s.raise .indexBusy)) ∧
    (s.index.owner ≠ .encoder → ¬ (s.snap.src.Fits ∧ s.snap.dst.Fits) →
      exec (.blockEncode level) s = .next (s.raise .regionWrap)) ∧
    (s.index.owner ≠ .encoder → s.snap.src.Fits → s.snap.dst.Fits → ¬ s.snap.src.Apart s.snap.dst →
      exec (.blockEncode level) s = .next (s.raise .regionOverlap)) ∧
    (s.index.owner ≠ .encoder → s.snap.src.Fits → s.snap.dst.Fits → s.snap.src.Apart s.snap.dst →
      4194304 < s.snap.srcLen.toNat → exec (.blockEncode level) s = .next (s.raise .lengthTooLarge)) ∧
    (s.index.owner ≠ .encoder → s.snap.src.Fits → s.snap.dst.Fits → s.snap.src.Apart s.snap.dst →
      s.snap.srcLen.toNat ≤ 4194304 → s.snap.dstCap.toNat < (encoded level [] (s.bytes s.snap.src)).length →
      ∃ t, exec (.blockEncode level) s = .next t ∧ t.status = s.status.ofError .dstFull ∧ t.index.owner = .free ∧
        t.result0 = 0#32 ∧ ∀ a, s.snap.dst.holds a = false → t.mem.read a = s.mem.read a)

/-- The output bound of every payload of R190, step by step as R199 derives it. What a match sequence takes, what its match
part and a literal length field take at most; a match sequence, a terminal sequence, and any parse that covers its block,
however it was found. Then a block of n bytes of any buffer, at any level, with any lowest position and any index fit for it
(which `StepKeepsEncoderAndIndex` says a chained stream's always is) takes at most n + n / 255 + 2 bytes (R199), which is
below the compress bound n + n / 255 + 16 (R195). In particular so does a block with a dictionary of any length before it
and a cleared index. -/
def Obligations.EncodeOutputBound : Prop :=
  (∀ n, payloadBound n = n + n / 255 + 2 ∧ compressBound n = n + n / 255 + 16) ∧
  (∀ (v : View) (q : Sequence), (emitSeq v q).length =
    (q.ip - q.anchor) + (lenExt (q.ip - q.anchor)).length + 3 + (lenExt (q.len - 4)).length) ∧
  (∀ m, 4 ≤ m → 3 + (lenExt (m - 4)).length ≤ m - 1) ∧
  (∀ l, (lenExt l).length ≤ l / 255 + 1) ∧
  (∀ (v : View) (q : Sequence), 4 ≤ q.len →
    (emitSeq v q).length ≤ (q.ip - q.anchor) + q.len + (q.ip - q.anchor) / 255) ∧
  (∀ (v : View) (anchor stop : Nat),
    (emitLast v anchor stop).length ≤ (stop - anchor) + 2 + (stop - anchor) / 255) ∧
  (∀ (v : View) (low start stop : Nat) (p : Parse), p.Covers v low start stop →
    (emitBlockBytes v p stop).length ≤ payloadBound (stop - start)) ∧
  (∀ (v : View) (x : Index) (level : BitVec 4) (start stop low : Nat), start ≤ stop → FitIndex level.toNat x start →
    let n := stop - start
    (encodeBlock v x level.toNat start stop low).1.length ≤ payloadBound n ∧
      (encodeBlock v x level.toNat start stop low).1.length < compressBound n) ∧
  ∀ (level : BitVec 4) (dict content : List Byte),
    (encoded level dict content).length ≤ payloadBound content.length ∧
      (encoded level dict content).length < compressBound content.length

/-- Decoding a block encode's output gives the input back, at both ends of input and output size, for every level and
every input (R260). -/
def Obligations.BlockRoundTrip : Prop :=
  ∀ (level : BitVec 4) (content : List Byte),
    (∀ eoo, decodeBlock (encoded level [] content) content.length eoo [] =
      .ok (content, (encoded level [] content).length)) ∧
    ∀ cap, content.length ≤ cap →
      decodeBlock (encoded level [] content) cap false [] = .ok (content, (encoded level [] content).length)

/-- Every parse covers its block once and in order, with legal matches only (R190, R198, R216, R236): a block anywhere in any
buffer, with any lowest position and any index fit for it, a cleared one or the one an earlier block of a chained stream
left; and it leaves the index fit for the block that follows. -/
def Obligations.ParsesCoverTheBlock : Prop :=
  (∀ (v : View) (x : Index) (level : BitVec 4) (start stop low : Nat), start ≤ stop → FitIndex level.toNat x start →
    (parseBlock v x level.toNat start stop low).Covers v low start stop ∧
      FitIndex level.toNat (parseBlock v x level.toNat start stop low).index stop) ∧
  ∀ (level : BitVec 4) (x : Index) (start : Nat), FitIndex level.toNat (x.clear start) start

/-- Literal and match prices, what one more literal costs (R232), and that a match sequence takes as many bytes as its
literals and its match are priced at. -/
def Obligations.Prices : Prop :=
  (∀ n, litPrice n = n + extLen n) ∧ (∀ m, 4 ≤ m → matchPrice m = 3 + extLen (m - 4)) ∧
    (∀ n, ((∃ j, n + 1 = 15 + 255 * j) → litPrice (n + 1) - litPrice n = 2) ∧
      ((¬ ∃ j, n + 1 = 15 + 255 * j) → litPrice (n + 1) - litPrice n = 1)) ∧
    ∀ (v : View) (q : Sequence), (emitSeq v q).length = litPrice (q.ip - q.anchor) + matchPrice q.len

/-- The way a length is written is the only one that reads back as it (R121, R125). -/
def Obligations.LengthFieldsAreUnique : Prop :=
  ∀ (n k : Nat) (field rest : List Byte), k ≤ 15 →
    (readLength k (field ++ rest) = some (n, rest) ↔ k = min n 15 ∧ field = lenExt n)

/-! ### Block decoding -/

/-- BLOCK_DECODE in a legal mode with legal regions: whatever SRC holds, if decodeBlock answers it with some output and a
number of bytes read, that output goes to DST and the command completes with those counts (R251); the dictionary is none, the
bytes of PREFIX or the bytes of DICT (R253). In particular, a payload made at any level with the same dictionary decodes to
its content (R258, R260). At end on output size bytes may follow the payload; they are not consumed. -/
def Obligations.BlockDecodeResult : Prop :=
  (∀ (eoo : Bool) (dmode : BitVec 2) (out : List Byte) (used : Nat) (s : State), dmode ≠ 3#2 →
    s.snap.src.Fits → s.snap.dst.Fits → (dmode = 2#2 → s.snap.dict.Fits) →
    (dmode = 1#2 → s.snap.dictLen.toNat ≤ s.snap.dstAddr.toNat) → s.snap.src.Apart s.snap.dst →
    (∀ r ∈ dictRegions s.snap dmode, s.snap.src.Apart r ∧ s.snap.dst.Apart r) →
    decodeBlock (s.bytes s.snap.src) s.snap.dstCap.toNat eoo (dictBytes s dmode) = .ok (out, used) →
    exec (.blockDecode eoo dmode false) s = .next ((s.memWrite s.snap.dstAddr.toNat out).complete out.length used 0)) ∧
  (∀ s : State, dictBytes s 0#2 = [] ∧ dictBytes s 2#2 = s.memRead s.snap.dictAddr.toNat s.snap.dictLen.toNat ∧
    (s.snap.dictLen.toNat ≤ s.snap.dstAddr.toNat →
      dictBytes s 1#2 = s.memRead (s.snap.dstAddr.toNat - s.snap.dictLen.toNat) s.snap.dictLen.toNat)) ∧
  ∀ (eoo : Bool) (dmode : BitVec 2) (level : BitVec 4) (content tail : List Byte) (s : State), dmode ≠ 3#2 →
    s.snap.src.Fits → s.snap.dst.Fits → (dmode = 2#2 → s.snap.dict.Fits) →
    (dmode = 1#2 → s.snap.dictLen.toNat ≤ s.snap.dstAddr.toNat) → s.snap.src.Apart s.snap.dst →
    (∀ r ∈ dictRegions s.snap dmode, s.snap.src.Apart r ∧ s.snap.dst.Apart r) →
    s.bytes s.snap.src = encoded level (dictBytes s dmode) content ++ tail →
    (if eoo then s.snap.dstCap.toNat = content.length else content.length ≤ s.snap.dstCap.toNat ∧ tail = []) →
    exec (.blockDecode eoo dmode false) s =
      .next ((s.memWrite s.snap.dstAddr.toNat content).complete content.length
        (encoded level (dictBytes s dmode) content).length 0)

/-- The errors of BLOCK_DECODE in a legal mode (R251, R256-R259): the pre-checks, in order; then, whatever SRC holds, the
cause decodeBlock raises on it, reported as an execution error, which leaves all but DST as it was (R363, R367); for one, an
empty SRC is truncated. -/
def Obligations.BlockDecodeTraps : Prop :=
  ∀ (eoo : Bool) (dmode : BitVec 2) (s : State), dmode ≠ 3#2 →
    let fits := s.snap.src.Fits ∧ s.snap.dst.Fits ∧ (dmode = 2#2 → s.snap.dict.Fits)
    let room := dmode = 1#2 → s.snap.dictLen.toNat ≤ s.snap.dstAddr.toNat
    let apart := s.snap.src.Apart s.snap.dst ∧
      ∀ r ∈ dictRegions s.snap dmode, s.snap.src.Apart r ∧ s.snap.dst.Apart r
    (¬ fits → exec (.blockDecode eoo dmode false) s = .next (s.raise .regionWrap)) ∧
    (fits → ¬ room → exec (.blockDecode eoo dmode false) s = .next (s.raise .prefixUnderflow)) ∧
    (fits → room → ¬ apart → exec (.blockDecode eoo dmode false) s = .next (s.raise .regionOverlap)) ∧
    (fits → room → apart → ∀ c,
      decodeBlock (s.bytes s.snap.src) s.snap.dstCap.toNat eoo (dictBytes s dmode) = .error c →
      ∃ t, exec (.blockDecode eoo dmode false) s = .next t ∧ t.status = s.status.ofError c ∧
        t = { s.raise c with mem := t.mem, draws := t.draws } ∧
        ∀ a, s.snap.dst.holds a = false → t.mem.read a = s.mem.read a) ∧
    (fits → room → apart → s.snap.srcLen = 0#32 →
      ∃ t, exec (.blockDecode eoo dmode false) s = .next t ∧ t.status = s.status.ofError .tokenTruncated ∧
        ∀ a, s.snap.dst.holds a = false → t.mem.read a = s.mem.read a)

/-- How a BLOCK_DECODE without error ends (R251, R258): RESULT0 bytes of DST written, all of SRC consumed at end on input
size, exactly DST_CAP bytes written at end on output size. -/
def Obligations.BlockDecodeEndsAtItsBoundary : Prop :=
  ∀ (eoo : Bool) (dmode : BitVec 2) (s t : State), exec (.blockDecode eoo dmode false) s = .next t →
    t.status.err = false →
    t.result0.toNat ≤ s.snap.dstCap.toNat ∧ t.result1.toNat ≤ s.snap.srcLen.toNat ∧ t.result2 = 0#32 ∧
      (eoo = false → t.result1 = s.snap.srcLen) ∧ (eoo = true → t.result0 = s.snap.dstCap)

/-- The verdicts on a sequence, with every nibble and every length extension (R121, R254, R256-R259). Its literals: truncated
where the length field ends early, then more literals than input, then output past the bound, else copied. Its match:
truncated offset, offset 0, an offset beyond the window, all before the length is read; then a truncated length field, output
past the bound, else replayed. And how sequences follow each other: a token byte, its literals, the end of the block where
the boundary is reached, else its match and the next sequence. -/
def Obligations.MatchVerdicts : Prop :=
  (∀ (cap nibble : Nat) (eoo : Bool) (input : List Byte) (out : Array Byte),
    let overflow := if eoo then Cause.outputOverrun else .dstFull
    (LengthEndsEarly nibble input → decodeLiterals cap eoo nibble input out = .error .tokenTruncated) ∧
    ∀ n rest, LengthField nibble input n rest →
      (rest.length < n → decodeLiterals cap eoo nibble input out = .error .literalOverrun) ∧
      (n ≤ rest.length → cap < out.size + n → decodeLiterals cap eoo nibble input out = .error overflow) ∧
      (n ≤ rest.length → out.size + n ≤ cap →
        decodeLiterals cap eoo nibble input out = .ok (rest.drop n, (out.toList ++ rest.take n).toArray))) ∧
  (∀ (cap nibble : Nat) (eoo : Bool) (dict out : Array Byte) (input : List Byte), input.length < 2 →
    decodeMatch cap eoo dict nibble input out = .error .tokenTruncated) ∧
  (∀ (cap nibble : Nat) (eoo : Bool) (dict out : Array Byte) (b0 b1 : Byte) (input : List Byte),
    let off := b0.toNat + 256 * b1.toNat
    let overflow := if eoo then Cause.outputOverrun else .dstFull
    (off = 0 → decodeMatch cap eoo dict nibble (b0 :: b1 :: input) out = .error .offsetZero) ∧
    (out.size + dict.size < off →
      decodeMatch cap eoo dict nibble (b0 :: b1 :: input) out = .error .offsetBeforeWindow) ∧
    (1 ≤ off → off ≤ out.size + dict.size →
      (LengthEndsEarly nibble input →
        decodeMatch cap eoo dict nibble (b0 :: b1 :: input) out = .error .tokenTruncated) ∧
      ∀ n rest, LengthField nibble input n rest →
        (cap < out.size + (n + 4) → decodeMatch cap eoo dict nibble (b0 :: b1 :: input) out = .error overflow) ∧
        (out.size + (n + 4) ≤ cap →
          decodeMatch cap eoo dict nibble (b0 :: b1 :: input) out = .ok (rest, replay dict off (n + 4) out)))) ∧
  ∀ (cap : Nat) (eoo : Bool) (dict : List Byte),
    let loop := fun (input : List Byte) (out : Array Byte) => decodeLoop cap eoo dict.toArray input.length input out
    (∀ input, decodeBlock input cap eoo dict = (loop input #[]).map fun r => (r.2.toList, input.length - r.1.length)) ∧
    (∀ out, loop [] out = .error .tokenTruncated) ∧
    ∀ (token : Byte) (input : List Byte) (out : Array Byte), loop (token :: input) out =
      match decodeLiterals cap eoo (token.toNat / 16) input out with
      | .error c => .error c
      | .ok (input1, out1) =>
        if (eoo = false ∧ input1 = []) ∨ (eoo = true ∧ out1.size = cap) then .ok (input1, out1)
        else
          match decodeMatch cap eoo dict.toArray (token.toNat % 16) input1 out1 with
          | .error c => .error c
          | .ok (input2, out2) => loop input2 out2

/-- Match replay copies forward byte by byte (R257): every new byte equals the byte `off` before it, in the dictionary
followed by the output, however far the copy runs into itself. -/
def Obligations.ReplayCopiesForward : Prop :=
  ∀ (dict out : Array Byte) (off n : Nat), 1 ≤ off → off ≤ dict.size + out.size →
    let all := dict.toList ++ (replay dict off n out).toList
    all.length = dict.size + out.size + n ∧ all.take (dict.size + out.size) = dict.toList ++ out.toList ∧
      ∀ j, j < n → all.getD (dict.size + out.size + j) 0#8 = all.getD (dict.size + out.size + j - off) 0#8

/-! ### The frame encoder -/

/-- FENC_OPEN (R281, R283): with no stream open, a legal level, a legal descriptor and room, the header goes to DST, the
stream context and the index are set up, and RESULT0 is the header length, 7 or 15. -/
def Obligations.FencOpenResult : Prop :=
  ∀ (level : BitVec 4) (s : State), LevelOk level = true → (s.enc.state = .unopened ∨ s.enc.state = .closed) →
    s.snap.dst.Fits → s.snap.DescriptorOk →
    let d := [s.snap.flg, s.snap.bd] ++ (if s.snap.flg.getLsbD 3 then leBytes 8 s.snap.csize else [])
    let h := [0x04#8, 0x22#8, 0x4D#8, 0x18#8] ++ d ++ [(xxh32 d 0#32).extractLsb' 8 8]
    h.length = (if s.snap.flg.getLsbD 3 then 15 else 7) ∧
    (h.length ≤ s.snap.dstCap.toNat →
      exec (.fencOpen level) s = .next ({ s.memWrite s.snap.dstAddr.toNat h with
        enc := { state := .headerWritten, level := level, flg := s.snap.flg, bd := s.snap.bd,
                 blockSize := 2 ^ (2 * sizeCode s.snap.bd + 8), chained := !s.snap.flg.getLsbD 5, buf := [], hist := [],
                 total := 0 }
        index := { owner := .encoder, kind := if level = 0#4 then .fast else .hc, head := [], chain := [],
                   nextToUpdate := 0, lastProbe := none, base := s.index.base, len := s.index.len } }.complete
          h.length 0 0))

/-- FENC_WRITE (R287-R289, R291): on an open stream with room for every full block, all SRC bytes are taken, every full
block is emitted to DST, the bytes behind the last full block stay pending, and the counters are right; DST, the context and
the index are those of the write loop. The write loop on content that leaves the pending block short emits nothing; on
content that just fills it, it emits the block bytes, context and index of R288's emitBlock (`WriteSplitIndependent` puts
every longer content together from these two). The block bytes of emitBlock are those of R288, of the encoding in the buffer
view of R289: compressed where that is shorter than the block, else raw. That the content count is unbounded is the model's
choice (log 13). -/
def Obligations.FencWriteResult : Prop :=
  (∀ (e : Encoder) (x : Index) (content : List Byte), e.buf.length < e.blockSize →
    let r := writeLoop e x content
    let total := e.total + content.length
    let q := emitBlock { e with buf := e.buf ++ content } x total
    (e.buf.length + content.length < e.blockSize →
      r.out = [] ∧ r.blocks = 0 ∧ r.index = x ∧
        r.context total = { e with buf := e.buf ++ content, total := total, state := .blockLoop }) ∧
    (e.buf.length + content.length = e.blockSize →
      r.out = q.1 ∧ r.blocks = 1 ∧ r.index = q.2.2 ∧
        r.context total = { q.2.1 with total := total, state := .blockLoop })) ∧
  (∀ (e : Encoder) (x : Index) (soFar : Nat), e.buf.length ≤ 4194304 →
    let start := soFar - e.buf.length
    let base := start - e.hist.length
    let r := encodeBlock (View.ofList base (e.hist ++ e.buf)) (if e.chained then x else x.clear start) e.level.toNat start
      (start + e.buf.length) (if e.chained then base else start)
    emitBlock e x soFar =
      (if r.1.length < e.buf.length then leBytes 4 r.1.length ++ r.1 else leBytes 4 (2 ^ 31 + e.buf.length) ++ e.buf,
       { e with buf := [], hist := if e.chained then lastBytes 65536 (e.hist ++ e.buf) else e.hist }, r.2)) ∧
  ∀ s : State, s.enc.isOpen = true → s.enc.buf.length < s.enc.blockSize → s.snap.src.Fits → s.snap.dst.Fits →
    s.snap.src.Apart s.snap.dst →
    (s.enc.buf.length + s.snap.srcLen.toNat) / s.enc.blockSize * (s.enc.blockSize + 4) ≤ s.snap.dstCap.toNat →
    let n := s.snap.srcLen.toNat
    let r := writeLoop s.enc s.index (s.bytes s.snap.src)
    let enc := r.context (s.enc.total + n)
    let blocks := (s.enc.buf.length + n) / s.enc.blockSize
    exec .fencWrite s =
        .next (({ s.memWrite s.snap.dstAddr.toNat r.out with enc := enc, index := r.index }).complete r.out.length n
          blocks) ∧
      r.out.length ≤ s.snap.dstCap.toNat ∧
      enc = { s.enc with state := .blockLoop, buf := (s.enc.buf ++ s.bytes s.snap.src).drop (blocks * s.enc.blockSize),
                         hist := enc.hist, total := s.enc.total + n } ∧
      (s.enc.chained = false ∨ blocks = 0 → enc.hist = s.enc.hist) ∧
      (s.enc.chained = true → blocks ≠ 0 → enc.hist =
        lastBytes 65536 (s.enc.hist ++ (s.enc.buf ++ s.bytes s.snap.src).take (blocks * s.enc.blockSize))) ∧
      r.index.owner = s.index.owner ∧ r.index.kind = s.index.kind ∧ r.index.base = s.index.base ∧
      r.index.len = s.index.len

/-- FENC_CLOSE (R291-R293): on an open stream with room, the pending block if there is one and the end marker go to DST, the
stream is closed and the index released; on no open stream it completes and does nothing. -/
def Obligations.FencCloseResult : Prop :=
  ∀ s : State,
    ((s.enc.state = .unopened ∨ s.enc.state = .closed) → exec .fencClose s = .next (s.complete 0 0 0)) ∧
    ((s.enc.state = .headerWritten ∨ s.enc.state = .blockLoop) → s.snap.dst.Fits →
      (if s.enc.buf = [] then 4 else s.enc.buf.length + 8) ≤ s.snap.dstCap.toNat →
      ∃ block enc x, exec .fencClose s =
          .next ({ s.memWrite s.snap.dstAddr.toNat (block ++ [0x00#8, 0x00#8, 0x00#8, 0x00#8]) with
            enc := enc, index := x }.complete (block.length + 4) 0 (if s.enc.buf = [] then 0 else 1)) ∧
        block = (if s.enc.buf = [] then [] else (emitBlock s.enc s.index s.enc.total).1) ∧
        enc = { s.enc with state := .closed, buf := [], hist := [] } ∧
        x.owner = .free ∧ x.kind = s.index.kind ∧ x.base = s.index.base ∧ x.len = s.index.len)

/-- The pre-checks of the frame encoder's commands, in order, at a legal level (R280-R282, R287, R291, R292). -/
def Obligations.FrameEncoderTraps : Prop :=
  ∀ (level : BitVec 4) (s : State), LevelOk level = true →
    (s.enc.isOpen = true → exec (.fencOpen level) s = .next (s.raise .badState)) ∧
    (s.enc.isOpen = false → ¬ s.snap.dst.Fits → exec (.fencOpen level) s = .next (s.raise .regionWrap)) ∧
    (s.enc.isOpen = false → s.snap.dst.Fits → ¬ s.snap.DescriptorOk →
      exec (.fencOpen level) s = .next (s.raise
        (if s.snap.fdesc.extractLsb' 16 16 ≠ 0#16 ∨ descriptorReserved s.snap.flg s.snap.bd = true then .reservedBits
         else if versionOf s.snap.flg ≠ 1#2 then .badVersion
         else if sizeCode s.snap.bd < 4 then .badBlockSizeCode
         else if s.snap.flg.getLsbD 4 = true then .blockChecksumEncode
         else if s.snap.flg.getLsbD 2 = true then .contentChecksum
         else .dictionaryId))) ∧
    (s.enc.isOpen = false → s.snap.dst.Fits → s.snap.DescriptorOk →
      s.snap.dstCap.toNat < (if s.snap.flg.getLsbD 3 then 15 else 7) →
      exec (.fencOpen level) s = .next (s.raise .dstFull)) ∧
    (s.enc.isOpen = false → exec .fencWrite s = .next (s.raise .badState)) ∧
    (s.enc.isOpen = true → ¬ (s.snap.src.Fits ∧ s.snap.dst.Fits) → exec .fencWrite s = .next (s.raise .regionWrap)) ∧
    (s.enc.isOpen = true → s.snap.src.Fits → s.snap.dst.Fits → ¬ s.snap.src.Apart s.snap.dst →
      exec .fencWrite s = .next (s.raise .regionOverlap)) ∧
    (s.enc.isOpen = true → s.snap.src.Fits → s.snap.dst.Fits → s.snap.src.Apart s.snap.dst →
      s.snap.dstCap.toNat <
        (s.enc.buf.length + s.snap.srcLen.toNat) / s.enc.blockSize * (s.enc.blockSize + 4) →
      exec .fencWrite s = .next (s.raise .dstFull)) ∧
    (s.enc.isOpen = true → ¬ s.snap.dst.Fits → exec .fencClose s = .next (s.raise .regionWrap)) ∧
    (s.enc.isOpen = true → s.snap.dst.Fits →
      s.snap.dstCap.toNat < (if s.enc.buf = [] then 4 else s.enc.buf.length + 8) →
      exec .fencClose s = .next (s.raise .dstFull))

/-- Splitting the content among FENC_WRITE commands changes neither the bytes written nor the stream they leave (R294). -/
def Obligations.WriteSplitIndependent : Prop :=
  ∀ (e : Encoder) (x : Index) (first second : List Byte),
    let r1 := writeLoop e x first
    let e1 := r1.context (e.total + first.length)
    let r2 := writeLoop e1 r1.index second
    let r := writeLoop e x (first ++ second)
    r.out = r1.out ++ r2.out ∧ r.blocks = r1.blocks + r2.blocks ∧ r.index = r2.index ∧
      r.context (e.total + (first ++ second).length) = r2.context (e1.total + second.length)

/-! ### The frame decoder -/

/-- FDEC_OPEN on a frame header this engine supports (R311, R314-R316, R133): the header is consumed and nothing behind it,
the descriptor registers show it, and the stream is ready to serve. -/
def Obligations.FdecOpenResult : Prop :=
  ∀ (inEof : Bool) (s : State) (flg bd : Byte) (csize : BitVec 64) (rest : List Byte),
    (s.dec.state = .unopened ∨ s.dec.state = .closed ∨ s.dec.state = .failed) → s.snap.src.Fits →
    versionOf flg = 1#2 → descriptorReserved flg bd = false → 4 ≤ sizeCode bd → flg.getLsbD 2 = false →
    flg.getLsbD 0 = false → s.bytes s.snap.src = frameHeader flg bd csize.toNat ++ rest →
    exec (.fdecOpen inEof) s = .next ({ s with
        dec := { state := .headerRead, stage := .blkLen, field := [],
                 hdr := [flg, bd] ++ (if flg.getLsbD 3 then leBytes 8 csize.toNat else []), flg := flg, bd := bd,
                 blockSize := 2 ^ (2 * sizeCode bd + 8), chained := !flg.getLsbD 5, bcsum := flg.getLsbD 4,
                 blkLen := 0#32, inBuf := [], outBuf := [], servePos := 0, hist := [], total := 0#64 }
        decFdesc := (0#16 ++ bd ++ flg : BitVec (16 + 8 + 8))
        decCsize := if flg.getLsbD 3 then csize else 0#64
        decDictId := 0#32 }.complete 0 (if flg.getLsbD 3 then 15 else 7) 0)

/-- Errors of the decoder's commands (R311, R312, R314-R316, R318-R323). The pre-checks, in order. Then errors that leave the
stream failed: a bad magic number, and a transport that ends inside it; a version that is not 1; the header checks in their
order behind the header checksum byte, whichever command reads it, with the header registers already showing the fields;
a block length above the block size; behind a block's checksum, one that does not fit, and a payload that does not decode;
and the same two for a block read from its length word or from the middle of its payload on, with or without a checksum. In
a header split across commands FDEC_READ raises them all: a bad magic number, a refused version, and the header checks, from
any stage and any byte of the header on.
That an error of FDEC_OPEN leaves MEM as it was is the model's choice (log 4), and so is that a FDEC_READ with DST_CAP = 0
goes on inside a block (log 23). -/
def Obligations.FrameDecoderTraps : Prop :=
  ∀ (inEof : Bool) (s : State),
    (s.dec.isOpen = true → exec (.fdecOpen inEof) s = .next (s.raise .badState)) ∧
    (s.dec.isOpen = false → ¬ s.snap.src.Fits → exec (.fdecOpen inEof) s = .next (s.raise .regionWrap)) ∧
    (s.dec.isOpen = false → s.snap.src.Fits → 4 ≤ s.snap.srcLen.toNat →
      s.memRead s.snap.srcAddr.toNat 4 ≠ [0x04#8, 0x22#8, 0x4D#8, 0x18#8] →
      ∃ t, exec (.fdecOpen inEof) s = .next t ∧ t.status = s.status.ofError .badMagic ∧ t.dec.state = .failed ∧
        t.mem = s.mem) ∧
    (s.dec.isOpen = false → s.snap.src.Fits → s.snap.srcLen.toNat < 4 → inEof = true →
      ∃ t, exec (.fdecOpen inEof) s = .next t ∧ t.status = s.status.ofError .transportEof ∧ t.dec.state = .failed ∧
        t.mem = s.mem) ∧
    ((s.dec.state = .unopened ∨ s.dec.state = .failed) → exec (.fdecRead inEof) s = .next (s.raise .badState)) ∧
    (s.dec.state ≠ .unopened → s.dec.state ≠ .failed → ¬ (s.snap.src.Fits ∧ s.snap.dst.Fits) →
      exec (.fdecRead inEof) s = .next (s.raise .regionWrap)) ∧
    (s.dec.state ≠ .unopened → s.dec.state ≠ .failed → s.snap.src.Fits → s.snap.dst.Fits →
      ¬ s.snap.src.Apart s.snap.dst → exec (.fdecRead inEof) s = .next (s.raise .regionOverlap)) ∧
    (∀ flg rest, s.dec.isOpen = false → s.snap.src.Fits →
      s.bytes s.snap.src = [0x04#8, 0x22#8, 0x4D#8, 0x18#8] ++ flg :: rest → versionOf flg ≠ 1#2 →
      ∃ t, exec (.fdecOpen inEof) s = .next t ∧ t.status = s.status.ofError .version ∧ t.dec.state = .failed ∧
        t.decFdesc = flg.setWidth 32 ∧ t.mem = s.mem) ∧
    (∀ flg bd (csize : BitVec 64) (dictId : Word) sum rest, s.dec.isOpen = false → s.snap.src.Fits →
      versionOf flg = 1#2 →
      let d := [flg, bd] ++ (if flg.getLsbD 3 then leBytes 8 csize.toNat else []) ++
        (if flg.getLsbD 0 then leBytes 4 dictId.toNat else [])
      s.bytes s.snap.src = [0x04#8, 0x22#8, 0x4D#8, 0x18#8] ++ d ++ sum :: rest →
      (sum ≠ (xxh32 d 0#32).extractLsb' 8 8 ∨ descriptorReserved flg bd = true ∨ sizeCode bd < 4 ∨
        flg.getLsbD 2 = true ∨ flg.getLsbD 0 = true) →
      ∃ t, exec (.fdecOpen inEof) s = .next t ∧ t.dec.state = .failed ∧ t.mem = s.mem ∧
        t.decFdesc = (0#16 ++ bd ++ flg : BitVec (16 + 8 + 8)) ∧
        t.decCsize = (if flg.getLsbD 3 then csize else 0#64) ∧
        t.decDictId = (if flg.getLsbD 0 then dictId else 0#32) ∧
        t.status = s.status.ofError
          (if sum ≠ (xxh32 d 0#32).extractLsb' 8 8 then .headerChecksum
           else if descriptorReserved flg bd = true then .headerReserved
           else if sizeCode bd < 4 then .headerBlockSize
           else if flg.getLsbD 2 = true then .contentChecksum
           else .dictionaryId)) ∧
    (s.snap.src.Fits → s.snap.dst.Fits → s.snap.src.Apart s.snap.dst →
      ∃ t, exec (.fdecRead inEof) s = .next t ∧
        (t.status.err = true → ∀ a, s.snap.dst.holds a = false → t.mem.read a = s.mem.read a) ∧
        (∀ sum rest, s.dec.state = .opening → s.dec.stage = .hc → s.dec.field = [] →
          s.bytes s.snap.src = sum :: rest →
          (sum ≠ (xxh32 s.dec.hdr 0#32).extractLsb' 8 8 ∨ descriptorReserved s.dec.flg s.dec.bd = true ∨
            sizeCode s.dec.bd < 4 ∨ s.dec.flg.getLsbD 2 = true ∨ s.dec.flg.getLsbD 0 = true) →
          t.dec.state = .failed ∧ t.decFdesc = s.decFdesc ∧ t.status = s.status.ofError
            (if sum ≠ (xxh32 s.dec.hdr 0#32).extractLsb' 8 8 then .headerChecksum
             else if descriptorReserved s.dec.flg s.dec.bd = true then .headerReserved
             else if sizeCode s.dec.bd < 4 then .headerBlockSize
             else if s.dec.flg.getLsbD 2 = true then .contentChecksum
             else .dictionaryId)) ∧
        (∀ (w : Word) rest, (s.dec.state = .headerRead ∨ s.dec.state = .blockLoop) → s.dec.field.length < 4 →
          s.dec.field ++ s.bytes s.snap.src = leBytes 4 w.toNat ++ rest →
          (s.dec.stage = .blkLen → s.snap.dstCap ≠ 0#32 → s.dec.blockSize < w.toNat % 2 ^ 31 →
            t.status = s.status.ofError .blockTooLarge ∧ t.dec.state = .failed ∧ t.dec.total = s.dec.total) ∧
          (s.dec.stage = .bcsum → w ≠ xxh32 s.dec.inBuf 0#32 →
            t.status = s.status.ofError .blockChecksum ∧ t.dec.state = .failed ∧ t.dec.total = s.dec.total) ∧
          (∀ c, s.dec.stage = .bcsum → w = xxh32 s.dec.inBuf 0#32 → s.dec.blkLen.getLsbD 31 = false →
            decodeBlock s.dec.inBuf s.dec.blockSize false (if s.dec.chained then s.dec.hist else []) = .error c →
            t.status = s.status.ofError (if c = .dstFull then .outputOverrun else c) ∧ t.dec.state = .failed ∧
              t.dec.total = s.dec.total)) ∧
        (∀ (w : Word) payload sum rest, (s.dec.state = .headerRead ∨ s.dec.state = .blockLoop) → s.snap.dstCap ≠ 0#32 →
          s.BlockAhead w payload sum rest →
          (s.dec.bcsum = true → sum ≠ leBytes 4 (xxh32 payload 0#32).toNat →
            t.status = s.status.ofError .blockChecksum ∧ t.dec.state = .failed ∧ t.dec.total = s.dec.total) ∧
          (∀ c, (s.dec.bcsum = true → sum = leBytes 4 (xxh32 payload 0#32).toNat) → w.getLsbD 31 = false →
            decodeBlock payload s.dec.blockSize false (if s.dec.chained then s.dec.hist else []) = .error c →
            t.status = s.status.ofError (if c = .dstFull then .outputOverrun else c) ∧ t.dec.state = .failed ∧
              t.dec.total = s.dec.total)) ∧
        (∀ f rest, s.dec.state = .opening → s.dec.stage = .magic → s.dec.field.length < 4 →
          s.dec.field ++ s.bytes s.snap.src = f ++ rest → f.length = 4 → f ≠ [0x04#8, 0x22#8, 0x4D#8, 0x18#8] →
          t.status = s.status.ofError .badMagic ∧ t.dec.state = .failed) ∧
        (∀ flg rest, s.dec.state = .opening →
          ((s.dec.stage = .magic ∧ s.dec.field.length < 4 ∧
              s.dec.field ++ s.bytes s.snap.src = [0x04#8, 0x22#8, 0x4D#8, 0x18#8] ++ flg :: rest) ∨
            (s.dec.stage = .flg ∧ s.dec.field = [] ∧ s.bytes s.snap.src = flg :: rest)) →
          versionOf flg ≠ 1#2 →
          t.status = s.status.ofError .version ∧ t.dec.state = .failed ∧ t.dec.hdr = s.dec.hdr ++ [flg] ∧
            t.decFdesc = (s.decFdesc.extractLsb' 8 24 ++ flg : BitVec (24 + 8))) ∧
        (∀ flg bd csize dictId sum rest, s.HeaderAhead flg bd csize dictId sum rest → versionOf flg = 1#2 →
          let d := headerFields flg bd csize dictId
          (sum ≠ (xxh32 d 0#32).extractLsb' 8 8 ∨ descriptorReserved flg bd = true ∨ sizeCode bd < 4 ∨
            flg.getLsbD 2 = true ∨ flg.getLsbD 0 = true) →
          t.dec.state = .failed ∧ t.decFdesc = (0#16 ++ bd ++ flg : BitVec (16 + 8 + 8)) ∧
            t.decCsize = (if flg.getLsbD 3 then csize else s.decCsize) ∧
            t.decDictId = (if flg.getLsbD 0 then dictId else s.decDictId) ∧
            t.status = s.status.ofError
              (if sum ≠ (xxh32 d 0#32).extractLsb' 8 8 then .headerChecksum
               else if descriptorReserved flg bd = true then .headerReserved
               else if sizeCode bd < 4 then .headerBlockSize
               else if flg.getLsbD 2 = true then .contentChecksum
               else .dictionaryId)))

/-- A FDEC_READ that asks for no more than the current block still holds serves exactly that, in order, and consumes no
input (R313, R325); one that meets a block's checksum consumes it, decodes the block if it fits, raw or compressed, and
serves from its start (R313, R322, R323); one that meets a block, whoever made it, at its length word or in the middle of its
payload, consumes the rest of it and serves from its start, raw or compressed, with a fitting checksum or without one
(R313, R317, R321-R323). With DST_CAP = 0 before a length word or before content to serve it does nothing (R325). With more
room it goes on, as a FDEC_READ that starts there with the rest of SRC and DST: behind a block it has served out, also one
with no bytes, at the next length word (R325, R327); behind a block it has gathered, at serving it; and behind a header it
has completed, from any stage of it on, in HEADER_READ (R312, R314, R327). One that meets the end marker, whatever its
high bit, consumes the marker, closes the frame and reports FRAME_END (R321, R324); after the end marker it serves and
consumes nothing and reports FRAME_END (R312, R324). -/
def Obligations.FdecReadServes : Prop :=
  (∀ (inEof : Bool) (s : State), (s.dec.state = .headerRead ∨ s.dec.state = .blockLoop) → s.dec.stage = .serve →
    s.snap.src.Fits → s.snap.dst.Fits → s.snap.src.Apart s.snap.dst →
    s.snap.dstCap.toNat ≤ s.dec.outBuf.length - s.dec.servePos → s.dec.servePos < s.dec.outBuf.length →
    s.snap.dstCap ≠ 0#32 →
    let n := s.snap.dstCap.toNat
    exec (.fdecRead inEof) s = .next ({ s.memWrite s.snap.dstAddr.toNat ((s.dec.outBuf.drop s.dec.servePos).take n) with
      dec := { s.dec with servePos := s.dec.servePos + n, total := s.dec.total + BitVec.ofNat 64 n,
                          stage := if s.dec.servePos + n = s.dec.outBuf.length then .blkLen else .serve } }.complete n 0 0)) ∧
  (∀ (inEof : Bool) (s : State), s.dec.state = .closed → s.dec.stage = .finish → s.snap.src.Fits → s.snap.dst.Fits →
    s.snap.src.Apart s.snap.dst → exec (.fdecRead inEof) s = .next (s.finishWith false true 0 0 0)) ∧
  (∀ (inEof : Bool) (s : State) (w : Word) (payload sum rest out : List Byte),
    (s.dec.state = .headerRead ∨ s.dec.state = .blockLoop) → s.snap.src.Fits → s.snap.dst.Fits →
    s.snap.src.Apart s.snap.dst → s.snap.dstCap ≠ 0#32 → s.BlockAhead w payload sum rest →
    sum = (if s.dec.bcsum then leBytes 4 (xxh32 payload 0#32).toNat else []) → s.dec.Decodes w payload out →
    s.snap.dstCap.toNat ≤ out.length →
    let n := s.snap.dstCap.toNat
    exec (.fdecRead inEof) s = .next ({ s.memWrite s.snap.dstAddr.toNat (out.take n) with
      dec := { s.dec with
        state := .blockLoop, stage := (if n = out.length then .blkLen else .serve), field := [], blkLen := w,
        inBuf := payload, outBuf := out, servePos := n, total := s.dec.total + BitVec.ofNat 64 n,
        hist := if s.dec.chained then lastBytes 65536 (s.dec.hist ++ out) else s.dec.hist } }.complete n
          (s.snap.srcLen.toNat - rest.length) 0)) ∧
  (∀ (inEof : Bool) (s : State), (s.dec.state = .headerRead ∨ s.dec.state = .blockLoop) →
    (s.dec.stage = .serve ∨ s.dec.stage = .blkLen) → s.snap.src.Fits → s.snap.dst.Fits → s.snap.src.Apart s.snap.dst →
    s.snap.dstCap = 0#32 → exec (.fdecRead inEof) s = .next (s.complete 0 0 0)) ∧
  (∀ (inEof : Bool) (s : State), (s.dec.state = .headerRead ∨ s.dec.state = .blockLoop) → s.dec.stage = .serve →
    s.snap.src.Fits → s.snap.dst.Fits → s.snap.src.Apart s.snap.dst → s.dec.servePos ≤ s.dec.outBuf.length →
    let n := s.dec.outBuf.length - s.dec.servePos
    n < s.snap.dstCap.toNat →
    GoesOnAs inEof s { s.memWrite s.snap.dstAddr.toNat (s.dec.outBuf.drop s.dec.servePos) with
      dec := { s.dec with servePos := s.dec.outBuf.length, total := s.dec.total + BitVec.ofNat 64 n, stage := .blkLen }
      snap := s.snap.skip 0 n } 0 n) ∧
  (∀ (inEof : Bool) (s : State) (w : Word) (payload sum rest out : List Byte),
    (s.dec.state = .headerRead ∨ s.dec.state = .blockLoop) → s.snap.src.Fits → s.snap.dst.Fits →
    s.snap.src.Apart s.snap.dst → s.snap.dstCap ≠ 0#32 → s.BlockAhead w payload sum rest →
    sum = (if s.dec.bcsum then leBytes 4 (xxh32 payload 0#32).toNat else []) → s.dec.Decodes w payload out →
    GoesOnAs inEof s { s with
      dec := { s.dec with
        state := .blockLoop, stage := .serve, field := [], blkLen := w, inBuf := payload, outBuf := out, servePos := 0,
        hist := if s.dec.chained then lastBytes 65536 (s.dec.hist ++ out) else s.dec.hist }
      snap := s.snap.skip (s.snap.srcLen.toNat - rest.length) 0 } (s.snap.srcLen.toNat - rest.length) 0) ∧
  (∀ (inEof : Bool) (s : State) (flg bd : Byte) (csize : BitVec 64) (dictId : Word) (sum : Byte) (rest : List Byte),
    s.snap.src.Fits → s.snap.dst.Fits → s.snap.src.Apart s.snap.dst → s.HeaderAhead flg bd csize dictId sum rest →
    versionOf flg = 1#2 → sum = headerChecksum (headerFields flg bd csize dictId) → descriptorReserved flg bd = false →
    4 ≤ sizeCode bd → flg.getLsbD 2 = false → flg.getLsbD 0 = false →
    GoesOnAs inEof s { s with
      dec := { s.dec with
        state := .headerRead, stage := .blkLen, field := [], hdr := headerFields flg bd csize dictId, flg := flg, bd := bd,
        blockSize := 2 ^ (2 * sizeCode bd + 8), chained := !flg.getLsbD 5, bcsum := flg.getLsbD 4 }
      decFdesc := (0#16 ++ bd ++ flg : BitVec (16 + 8 + 8))
      decCsize := if flg.getLsbD 3 then csize else s.decCsize
      snap := s.snap.skip (s.snap.srcLen.toNat - rest.length) 0 } (s.snap.srcLen.toNat - rest.length) 0) ∧
  ∀ (inEof : Bool) (s : State) (w : Word) (rest : List Byte), (s.dec.state = .headerRead ∨ s.dec.state = .blockLoop) →
    s.snap.src.Fits → s.snap.dst.Fits → s.snap.src.Apart s.snap.dst → s.snap.dstCap ≠ 0#32 → s.dec.field.length < 4 →
    s.dec.field ++ s.bytes s.snap.src = leBytes 4 w.toNat ++ rest →
    (s.dec.stage = .blkLen → w.toNat % 2 ^ 31 = 0 →
      exec (.fdecRead inEof) s = .next ({ s with
        dec := { s.dec with state := .closed, stage := .finish, field := [], blkLen := w } }.finishWith false true 0
          (4 - s.dec.field.length) 0)) ∧
    ∀ out, s.dec.stage = .bcsum → w = xxh32 s.dec.inBuf 0#32 →
      (if s.dec.blkLen.getLsbD 31 then out = s.dec.inBuf
       else ∃ used, decodeBlock s.dec.inBuf s.dec.blockSize false (if s.dec.chained then s.dec.hist else []) =
         .ok (out, used)) →
      s.snap.dstCap.toNat ≤ out.length →
      let n := s.snap.dstCap.toNat
      exec (.fdecRead inEof) s = .next ({ s.memWrite s.snap.dstAddr.toNat (out.take n) with
        dec := { s.dec with
          state := .blockLoop, stage := (if n = out.length then .blkLen else .serve), field := [], outBuf := out,
          servePos := n, total := s.dec.total + BitVec.ofNat 64 n,
          hist := if s.dec.chained then lastBytes 65536 (s.dec.hist ++ out) else s.dec.hist } }.complete n
            (4 - s.dec.field.length) 0)

/-- What happens when the input ends before the field a stage gathers is complete, in every field of the header and of a
block (R317, R318). FDEC_READ and, at a new frame, FDEC_OPEN: without IN_EOF every byte is taken and kept and NEED_INPUT
reported, with it the stream fails with TRANSPORT_EOF. For FDEC_OPEN first with fewer bytes than the magic number has, then
with any proper beginning of a header (R311, R314): the bytes stand in DEC_HDR and in the field the stage gathers, and MEM is
as it was, with IN_EOF by the model's choice (log 4). -/
def Obligations.FdecReadInputExhausted : Prop :=
  (∀ (inEof : Bool) (s : State), s.dec.state ≠ .unopened → s.dec.state ≠ .failed → s.snap.src.Fits → s.snap.dst.Fits →
    s.snap.src.Apart s.snap.dst → (s.dec.stage.inHeader = false → s.snap.dstCap ≠ 0#32) →
    let had := if s.dec.stage = .payload then s.dec.inBuf else s.dec.field
    had.length + s.snap.srcLen.toNat < s.dec.fieldSize →
    let got := had ++ s.bytes s.snap.src
    (inEof = false → exec (.fdecRead inEof) s =
      .next ({ s with dec := if s.dec.stage = DecStage.payload then { s.dec with inBuf := got }
        else { s.dec with field := got } }.finishWith true false 0 s.snap.srcLen.toNat 0)) ∧
    (inEof = true → ∃ t, exec (.fdecRead inEof) s = .next t ∧ t.status = s.status.ofError .transportEof ∧
      t.dec.state = .failed ∧ t.dec.total = s.dec.total ∧
      ∀ a, s.snap.dst.holds a = false → t.mem.read a = s.mem.read a)) ∧
  (∀ s : State, s.dec.isOpen = false → s.snap.src.Fits → s.snap.srcLen.toNat < 4 →
    exec (.fdecOpen false) s = .next ({ s with
      dec := { Decoder.reset with state := .opening, stage := .magic, field := s.bytes s.snap.src }
      decFdesc := 0#32, decCsize := 0#64, decDictId := 0#32 }.finishWith true false 0 s.snap.srcLen.toNat 0)) ∧
  ∀ (inEof : Bool) (s : State) (flg bd : Byte) (csize : BitVec 64) (dictId : Word) (sum : Byte) (more : List Byte),
    s.dec.isOpen = false → s.snap.src.Fits → versionOf flg = 1#2 →
    let d := [flg, bd] ++ (if flg.getLsbD 3 then leBytes 8 csize.toNat else []) ++
      (if flg.getLsbD 0 then leBytes 4 dictId.toNat else [])
    let magic := [0x04#8, 0x22#8, 0x4D#8, 0x18#8]
    s.bytes s.snap.src ++ more = magic ++ d ++ [sum] → more ≠ [] →
    ∃ t, exec (.fdecOpen inEof) s = .next t ∧ t.mem = s.mem ∧
      (inEof = false → t.status = s.status.ofDone true false ∧ t.result0 = 0#32 ∧ t.result1 = s.snap.srcLen ∧
        t.result2 = 0#32 ∧ t.dec.state = .opening ∧ t.dec.stage.inHeader = true ∧
        t.dec.field.length < t.dec.fieldSize ∧
        (if t.dec.stage = .magic then [] else magic) ++ t.dec.hdr ++ t.dec.field = s.bytes s.snap.src) ∧
      (inEof = true → t.status = s.status.ofError .transportEof ∧ t.dec.state = .failed)

/-- A block the frame encoder emits is served back as its content by the frame decoder, compressed or raw, chained or not
(R288-R290, R313, R321, R322). -/
def Obligations.BlockSurvivesTheTransport : Prop :=
  ∀ (inEof : Bool) (s : State) (e : Encoder) (x : Index) (soFar : Nat) (rest : List Byte),
    (s.dec.state = .headerRead ∨ s.dec.state = .blockLoop) → s.dec.stage = .blkLen → s.dec.field = [] →
    s.dec.bcsum = false → s.dec.chained = e.chained → (e.chained = true → s.dec.hist = e.hist) →
    s.dec.blockSize = e.blockSize → e.blockSize ≤ 4194304 → e.buf ≠ [] → e.buf.length ≤ e.blockSize →
    e.hist.length + e.buf.length ≤ soFar →
    (e.chained = true → FitIndex e.level.toNat x (soFar - e.buf.length)) →
    s.snap.src.Fits → s.snap.dst.Fits → s.snap.src.Apart s.snap.dst → s.snap.dstCap.toNat = e.buf.length →
    s.bytes s.snap.src = (emitBlock e x soFar).1 ++ rest →
    ∃ t, exec (.fdecRead inEof) s = .next t ∧
      t.status = s.status.ofDone false false ∧ t.result0.toNat = e.buf.length ∧
      t.result1.toNat = (emitBlock e x soFar).1.length ∧ t.mem = s.mem.writeBytes s.snap.dstAddr.toNat e.buf ∧
      t.dec.state = .blockLoop ∧ t.dec.stage = .blkLen ∧ t.dec.field = [] ∧
      t.dec.total = s.dec.total + BitVec.ofNat 64 e.buf.length ∧
      (e.chained = true → t.dec.hist = (emitBlock e x soFar).2.1.hist) ∧
      t.enc = s.enc ∧ t.index = s.index

/-- XXH32 with seed 0 has the spec's values, and so have the header checksum bytes (R341). -/
def Obligations.Xxh32Values : Prop :=
  xxh32 [] 0#32 = 0x02CC5D05#32 ∧ xxh32 [0x61#8, 0x62#8, 0x63#8] 0#32 = 0x32D153FF#32 ∧
    xxh32 [0x61#8, 0x62#8, 0x63#8, 0x64#8] 0#32 = 0xA3643705#32 ∧
    xxh32 [0x30#8, 0x31#8, 0x32#8, 0x33#8, 0x34#8, 0x35#8, 0x36#8, 0x37#8, 0x38#8, 0x39#8, 0x61#8, 0x62#8, 0x63#8,
      0x64#8, 0x65#8, 0x66#8] 0#32 = 0xC2C45B69#32 ∧
    xxh32 [0x15#8, 0x61#8, 0x01#8, 0x00#8, 0x00#8] 0#32 = 0xD3F7E818#32 ∧
    headerChecksum [0x60#8, 0x40#8] = 0x82#8 ∧ headerChecksum [0x40#8, 0x40#8] = 0xC0#8 ∧
    headerChecksum [0x70#8, 0x40#8] = 0xAD#8 ∧ headerChecksum [0x64#8, 0x40#8] = 0xA7#8 ∧
    headerChecksum [0x62#8, 0x40#8] = 0xF0#8 ∧ headerChecksum [0x60#8, 0x30#8] = 0xD4#8 ∧
    headerChecksum [0x60#8, 0x50#8] = 0xFB#8 ∧ headerChecksum [0x60#8, 0x60#8] = 0x51#8 ∧
    headerChecksum [0x60#8, 0x70#8] = 0x73#8 ∧ headerChecksum [0x40#8, 0x70#8] = 0xDF#8 ∧
    headerChecksum [0x68#8, 0x40#8, 0x0A#8, 0x00#8, 0x00#8, 0x00#8, 0x00#8, 0x00#8, 0x00#8, 0x00#8] = 0x47#8

/-! ### The host and MEM -/

/-- A host write of a byte of the running command's SRC, DICT, PREFIX or DST, or a host read of a byte of its DST, is a race
and stops the run; everywhere else the host reads and writes plain memory, the indexed buffer under a running MATCH_FIND or
MATCH_WIDEN included (R85, R96, R97). Each running command has the regions of its rule: SRC of MATCH_INIT, BLOCK_ENCODE,
BLOCK_DECODE, FENC_WRITE, FDEC_OPEN and FDEC_READ, PREFIX or DICT of BLOCK_DECODE by its mode, DST of BLOCK_ENCODE,
BLOCK_DECODE, FENC_OPEN, FENC_WRITE, FENC_CLOSE and FDEC_READ (R86). PREFIX is [DST_ADDR - DICT_LEN, DST_ADDR). Model's
choices: that PREFIX ends at address 0 where DICT_LEN is above DST_ADDR, and that a region counts with all its bytes (log 7);
that a word R113 refuses is no command here and has no region (log 25). -/
def Obligations.HostRace : Prop :=
  ∀ (s : State) (a : Word) (b : Byte),
    ((∃ r ∈ s.busyReads ++ s.busyWrites, r.holds a.toNat = true) →
      hostAccess (.memWrite a b) s = .fault .hostRace) ∧
    ((∃ r ∈ s.busyWrites, r.holds a.toNat = true) → hostAccess (.memRead a) s = .fault .hostRace) ∧
    ((∀ r ∈ s.busyReads ++ s.busyWrites, r.holds a.toNat = false) →
      ∃ t, hostAccess (.memWrite a b) s = .next t ∧ t = { s with mem := t.mem } ∧
        ∀ x, t.mem.read x = if x = a.toNat then b else s.mem.read x) ∧
    ((∀ r ∈ s.busyWrites, r.holds a.toNat = false) →
      hostAccess (.memRead a) s = .next { s with lastRead := (s.mem.read a.toNat).setWidth 32 }) ∧
    (∀ r ∈ s.busyReads, r = s.snap.src ∨ r = s.snap.dict ∨ r = s.snap.behind) ∧
    (∀ r ∈ s.busyWrites, r = s.snap.dst) ∧
    (∀ x, s.snap.behind.holds x = true ↔ s.snap.dstAddr.toNat ≤ x + s.snap.dictLen.toNat ∧ x < s.snap.dstAddr.toNat) ∧
    (s.command = none ∨ s.command = some .matchFind ∨ s.command = some .matchWiden →
      s.busyReads = [] ∧ s.busyWrites = []) ∧
    (∀ i, s.command = some i ↔ ∃ w, s.running = some w ∧ decode w = .ok i) ∧
    ∀ i, s.command = some i →
      s.busyReads = (match i with
        | .nop => []
        | .abortEnc => []
        | .abortDec => []
        | .matchInit _ => [s.snap.src]
        | .matchFind => []
        | .matchWiden => []
        | .blockEncode _ => [s.snap.src]
        | .blockDecode _ dmode _ => s.snap.src ::
            (if dmode = 1#2 then [s.snap.behind] else if dmode = 2#2 then [s.snap.dict] else [])
        | .fencOpen _ => []
        | .fencWrite => [s.snap.src]
        | .fencClose => []
        | .fdecOpen _ => [s.snap.src]
        | .fdecRead _ => [s.snap.src]) ∧
      s.busyWrites = (match i with
        | .nop => []
        | .abortEnc => []
        | .abortDec => []
        | .matchInit _ => []
        | .matchFind => []
        | .matchWiden => []
        | .blockEncode _ => [s.snap.dst]
        | .blockDecode _ _ _ => [s.snap.dst]
        | .fencOpen _ => [s.snap.dst]
        | .fencWrite => [s.snap.dst]
        | .fencClose => [s.snap.dst]
        | .fdecOpen _ => []
        | .fdecRead _ => [s.snap.dst])

/-! ### Invariants of the step -/

/-- Every step keeps MEM in its canonical form inside the address space (R80). -/
def Obligations.StepKeepsMemoryForm : Prop :=
  ∀ s t, s.mem.wf = true → step s = .next t → t.mem.wf = true

/-- Every step keeps STATUS saying one thing at a time (R35, R37, R361, R362, R420). -/
def Obligations.StepKeepsStatus : Prop :=
  ∀ s t, StatusOk s → step s = .next t → StatusOk t

/-- Every step keeps the encoder stream and the index it shares with the match commands in order (R47, R48, R50, R51, R164,
R168, R285, R287). -/
def Obligations.StepKeepsEncoderAndIndex : Prop :=
  ∀ s t, EncoderOk s.enc s.index → IndexOk s.index → step s = .next t → EncoderOk t.enc t.index ∧ IndexOk t.index

/-- Every step keeps the decoder stream and its header registers in order (R43, R49, R51, R312-R316, R322). -/
def Obligations.StepKeepsDecoder : Prop :=
  ∀ s t, DecoderOk s → step s = .next t → DecoderOk t

/-- The machine right after reset meets every invariant. -/
def Obligations.ResetMeetsInvariants : Prop :=
  State.reset.mem.wf = true ∧ StatusOk State.reset ∧ EncoderOk State.reset.enc State.reset.index ∧
    IndexOk State.reset.index ∧ DecoderOk State.reset
end

