-- ==== Sys2Proof/Laws/Memory.lean ====
section
/-! SUPPORT. Sparse lists, tables and MEM: a read after a write, and the canonical form (20_memory.md R80, R85). -/

namespace Sys2Proof.Machine

/-! ### Sparse lists -/

theorem Sparse.find_append {α : Type} (l m : List (Nat × α)) (j : Nat) :
    Sparse.find (l ++ m) j = (Sparse.find l j).or (Sparse.find m j) := by
  induction l with
  | nil => simp [Sparse.find]
  | cons c l ih =>
    obtain ⟨k, v⟩ := c
    by_cases h : k = j <;> simp [Sparse.find, h, ih]

theorem Sparse.find_filter_of_keep {α : Type} (l : List (Nat × α)) (p : Nat × α → Bool) (j : Nat)
    (h : ∀ v, p (j, v) = true) : Sparse.find (l.filter p) j = Sparse.find l j := by
  induction l with
  | nil => rfl
  | cons c l ih =>
    obtain ⟨k, v⟩ := c
    by_cases hk : k = j
    · subst hk; simp [Sparse.find, h v]
    · by_cases hp : p (k, v) = true <;> simp [Sparse.find, hk, hp, ih]

theorem Sparse.find_filter_of_drop {α : Type} (l : List (Nat × α)) (p : Nat × α → Bool) (j : Nat)
    (h : ∀ v, p (j, v) = false) : Sparse.find (l.filter p) j = none := by
  induction l with
  | nil => rfl
  | cons c l ih =>
    obtain ⟨k, v⟩ := c
    by_cases hp : p (k, v) = true
    · have hk : k ≠ j := by rintro rfl; simp [h v] at hp
      simp [hp, Sparse.find, hk, ih]
    · simp [hp, ih]

theorem Sparse.find_put {α : Type} (l : List (Nat × α)) (k j : Nat) (v : α) :
    Sparse.find (Sparse.put l k v) j = if k = j then some v else Sparse.find l j := by
  induction l with
  | nil => simp [Sparse.put, Sparse.find]
  | cons c l ih =>
    obtain ⟨i, w⟩ := c
    unfold Sparse.put
    split
    · simp [Sparse.find]
    · split
      · rename_i h; subst h
        by_cases hj : k = j <;> simp [Sparse.find, hj]
      · rename_i hlt hne
        by_cases hi : i = j
        · have : k ≠ j := by omega
          simp [Sparse.find, hi, this]
        · simp [Sparse.find, hi, ih]

theorem Sparse.find_cut {α : Type} (l : List (Nat × α)) (k j : Nat) :
    Sparse.find (Sparse.cut l k) j = if k = j then none else Sparse.find l j := by
  unfold Sparse.cut
  split
  · next h => subst h; exact Sparse.find_filter_of_drop l _ _ (by simp)
  · next h => exact Sparse.find_filter_of_keep l _ _ (by simpa using fun _ : α => Ne.symm h)

/-- A table entry after an entry is set (R47). -/
theorem Table.get_set (t : Table) (k j : Nat) (v : Option Nat) :
    Table.get (Table.set t k v) j = if k = j then v else Table.get t j := by
  cases v with
  | none => simpa [Table.get, Table.set] using Sparse.find_cut t k j
  | some p => simpa [Table.get, Table.set] using Sparse.find_put t k j p

theorem Table.get_nil (k : Nat) : Table.get [] k = none := rfl

/-! ### The rising order -/

/-- Rising order as a pairwise relation. -/
theorem Sparse.rising_iff {α : Type} (l : List (Nat × α)) :
    Sparse.rising l = true ↔ l.Pairwise (fun c d => c.1 < d.1) := by
  induction l with
  | nil => simp [Sparse.rising]
  | cons c l ih =>
    obtain ⟨k, v⟩ := c
    cases l with
    | nil => simp [Sparse.rising]
    | cons d l =>
      obtain ⟨j, w⟩ := d
      simp only [Sparse.rising, Bool.and_eq_true, decide_eq_true_eq, ih, List.pairwise_cons, List.mem_cons]
      constructor
      · rintro ⟨hkj, hrest⟩
        refine ⟨?_, hrest⟩
        rintro e (rfl | he)
        · exact hkj
        · exact lt_trans hkj (hrest.1 e he)
      · rintro ⟨hk, hrest⟩
        exact ⟨hk _ (Or.inl rfl), hrest⟩

theorem Sparse.rising_filter {α : Type} (l : List (Nat × α)) (p : Nat × α → Bool) (h : Sparse.rising l = true) :
    Sparse.rising (l.filter p) = true := by
  rw [Sparse.rising_iff] at h ⊢
  exact h.filter p

theorem Sparse.mem_put {α : Type} (l : List (Nat × α)) (k : Nat) (v : α) (e : Nat × α) (h : e ∈ Sparse.put l k v) :
    e = (k, v) ∨ e ∈ l := by
  induction l with
  | nil => simpa [Sparse.put] using h
  | cons c l ih =>
    obtain ⟨i, w⟩ := c
    unfold Sparse.put at h
    split at h
    · simpa using h
    · split at h
      · rcases List.mem_cons.1 h with h | h
        · exact Or.inl h
        · exact Or.inr (List.mem_cons_of_mem _ h)
      · rcases List.mem_cons.1 h with h | h
        · exact Or.inr (by simp [h])
        · rcases ih h with h | h
          · exact Or.inl h
          · exact Or.inr (List.mem_cons_of_mem _ h)

theorem Sparse.rising_put {α : Type} (l : List (Nat × α)) (k : Nat) (v : α) (h : Sparse.rising l = true) :
    Sparse.rising (Sparse.put l k v) = true := by
  rw [Sparse.rising_iff] at *
  induction l with
  | nil => simp [Sparse.put]
  | cons c l ih =>
    obtain ⟨i, w⟩ := c
    rw [List.pairwise_cons] at h
    unfold Sparse.put
    split
    · next hlt =>
      refine List.pairwise_cons.2 ⟨?_, List.pairwise_cons.2 h⟩
      intro e he
      rcases List.mem_cons.1 he with rfl | he
      · exact hlt
      · exact lt_trans hlt (h.1 e he)
    · split
      · next hlt heq =>
        subst heq
        exact List.pairwise_cons.2 h
      · next hlt hne =>
        refine List.pairwise_cons.2 ⟨?_, ih h.2⟩
        intro e he
        rcases Sparse.mem_put l k v e he with rfl | he
        · simp only; omega
        · exact h.1 e he

/-- Setting an entry keeps a table in order (R47). -/
theorem Table.rising_set (t : Table) (k : Nat) (v : Option Nat) (h : Sparse.rising t = true) :
    Sparse.rising (Table.set t k v) = true := by
  cases v with
  | none => exact Sparse.rising_filter t _ h
  | some p => exact Sparse.rising_put t k p h

/-! ### MEM -/

theorem Memory.cells_cons (a : Nat) (b : Byte) (bs : List Byte) :
    Memory.cells a (b :: bs) =
      if b = Memory.background then Memory.cells (a + 1) bs else (a, b) :: Memory.cells (a + 1) bs := rfl

theorem Memory.find_cells (a : Nat) (bs : List Byte) (x : Nat) :
    (Sparse.find (Memory.cells a bs) x).getD Memory.background =
      if a ≤ x ∧ x < a + bs.length then bs.getD (x - a) Memory.background else Memory.background := by
  induction bs generalizing a with
  | nil => simp [Memory.cells, Sparse.find]
  | cons b bs ih =>
    have key : (if a = x then b
        else (Sparse.find (Memory.cells (a + 1) bs) x).getD Memory.background) =
        if a ≤ x ∧ x < a + (b :: bs).length then (b :: bs).getD (x - a) Memory.background else Memory.background := by
      rw [ih (a + 1)]
      by_cases hx : a = x
      · subst hx; simp
      · by_cases h : a + 1 ≤ x ∧ x < a + 1 + bs.length
        · have h' : a ≤ x ∧ x < a + (b :: bs).length := by simp; omega
          have e : x - a = (x - (a + 1)) + 1 := by omega
          rw [if_neg hx, if_pos h, if_pos h', e]; rfl
        · have h' : ¬ (a ≤ x ∧ x < a + (b :: bs).length) := by simp; omega
          rw [if_neg hx, if_neg h, if_neg h']
    rw [← key]
    rw [Memory.cells_cons]
    split
    · next hb =>
      by_cases hx : a = x
      · rw [if_pos hx, ih (a + 1), if_neg (by omega), hb]
      · rw [if_neg hx]
    · by_cases hx : a = x <;> simp [Sparse.find, hx]

theorem Memory.find_cells_outside (a : Nat) (bs : List Byte) (x : Nat) (h : x < a ∨ a + bs.length ≤ x) :
    Sparse.find (Memory.cells a bs) x = none := by
  induction bs generalizing a with
  | nil => rfl
  | cons b bs ih =>
    have hx : a ≠ x := by simp at h; omega
    have := ih (a + 1) (by simp at h; omega)
    rw [Memory.cells_cons]
    split <;> simp [Sparse.find, hx, this]

/-- A read after a write: the written byte inside, the byte from before outside (R85). -/
theorem Memory.read_writeBytes (m : Memory) (a : Nat) (bs : List Byte) (x : Nat) :
    (m.writeBytes a bs).read x =
      if a ≤ x ∧ x < a + bs.length then bs.getD (x - a) Memory.background else m.read x := by
  unfold Memory.read Memory.writeBytes
  rw [Sparse.find_append, Sparse.find_append]
  by_cases h : a ≤ x ∧ x < a + bs.length
  · rw [if_pos h, Sparse.find_filter_of_drop m _ x (by simp; omega),
      Sparse.find_filter_of_drop m _ x (by simp; omega)]
    simpa [h] using Memory.find_cells a bs x
  · rw [if_neg h]
    rw [Memory.find_cells_outside a bs x (by omega)]
    by_cases hx : x < a
    · rw [Sparse.find_filter_of_keep m _ x (by simpa using hx),
        Sparse.find_filter_of_drop m (fun c => decide (a + bs.length ≤ c.1)) x (by simp; omega)]
      simp
    · rw [Sparse.find_filter_of_drop m (fun c => decide (c.1 < a)) x (by simpa using hx),
        Sparse.find_filter_of_keep m _ x (by simp; omega)]
      simp

theorem Memory.read_writeBytes_outside (m : Memory) (a : Nat) (bs : List Byte) (x : Nat)
    (h : x < a ∨ a + bs.length ≤ x) : (m.writeBytes a bs).read x = m.read x := by
  rw [Memory.read_writeBytes, if_neg (by omega)]

@[simp] theorem Memory.length_readBytes (m : Memory) (a n : Nat) : (m.readBytes a n).length = n := by
  simp [Memory.readBytes]

/-- Reading back what was written (R85, R90). -/
theorem Memory.readBytes_writeBytes (m : Memory) (a : Nat) (bs : List Byte) :
    (m.writeBytes a bs).readBytes a bs.length = bs := by
  unfold Memory.readBytes
  apply List.ext_getElem
  · simp
  · intro j h1 h2
    simp only [List.getElem_map, List.getElem_range', Memory.read_writeBytes]
    rw [if_pos (by simp at h1; omega)]
    simp [h2]

/-- A bulk read sees only the bytes of its region. -/
theorem Memory.readBytes_congr (m m' : Memory) (a n : Nat) (h : ∀ x, a ≤ x → x < a + n → m.read x = m'.read x) :
    m.readBytes a n = m'.readBytes a n := by
  unfold Memory.readBytes
  apply List.map_congr_left
  intro x hx
  simp only [List.mem_range'_1] at hx
  exact h x hx.1 hx.2

theorem Memory.readBytes_getD (m : Memory) (a n j : Nat) (d : Byte) (h : j < n) :
    (m.readBytes a n).getD j d = m.read (a + j) := by
  rw [List.getD_eq_getElem?_getD, Memory.readBytes, List.getElem?_map, List.getElem?_range' h]
  simp

theorem Memory.mem_cells (a : Nat) (bs : List Byte) (c : Host.Cell) (h : c ∈ Memory.cells a bs) :
    a ≤ c.1 ∧ c.1 < a + bs.length ∧ c.2 ≠ Memory.background := by
  induction bs generalizing a with
  | nil => simp [Memory.cells] at h
  | cons b bs ih =>
    rw [Memory.cells_cons] at h
    split at h
    · obtain ⟨h1, h2, h3⟩ := ih (a + 1) h
      exact ⟨by omega, by simp only [List.length_cons]; omega, h3⟩
    · next hb =>
      rcases List.mem_cons.1 h with rfl | h
      · simpa using hb
      · obtain ⟨h1, h2, h3⟩ := ih (a + 1) h
        exact ⟨by omega, by simp only [List.length_cons]; omega, h3⟩

theorem Memory.rising_cells (a : Nat) (bs : List Byte) :
    (Memory.cells a bs).Pairwise (fun c d => c.1 < d.1) := by
  induction bs generalizing a with
  | nil => simp [Memory.cells]
  | cons b bs ih =>
    rw [Memory.cells_cons]
    split
    · exact ih (a + 1)
    · refine List.pairwise_cons.2 ⟨?_, ih (a + 1)⟩
      intro c hc
      have := (Memory.mem_cells (a + 1) bs c hc).1
      simp only; omega

/-- The canonical form of MEM in its parts (R80). -/
theorem Memory.wf_iff (m : Memory) :
    m.wf = true ↔ m.Pairwise (fun c d => c.1 < d.1) ∧ ∀ c ∈ m, c.1 < 2 ^ 32 ∧ c.2 ≠ Memory.background := by
  simp [Memory.wf, Sparse.rising_iff]

/-- Every write inside the address space keeps the canonical form. -/
theorem Memory.wf_writeBytes (m : Memory) (a : Nat) (bs : List Byte) (h : m.wf = true)
    (hin : bs = [] ∨ a + bs.length ≤ 2 ^ 32) : (m.writeBytes a bs).wf = true := by
  rw [Memory.wf_iff] at h ⊢
  obtain ⟨hr, hc⟩ := h
  unfold Memory.writeBytes
  constructor
  · rw [List.pairwise_append, List.pairwise_append]
    refine ⟨⟨hr.filter _, Memory.rising_cells a bs, ?_⟩, hr.filter _, ?_⟩
    · intro c hc1 d hd
      have := (Memory.mem_cells a bs d hd).1
      have h1 := (List.mem_filter.1 hc1).2
      simp at h1; omega
    · intro c hc1 d hd
      have h2 := (List.mem_filter.1 hd).2
      simp only [decide_eq_true_eq] at h2
      rcases List.mem_append.1 hc1 with h1 | h1
      · have h1 := (List.mem_filter.1 h1).2
        simp at h1; omega
      · have := (Memory.mem_cells a bs c h1).2.1
        omega
  · intro c hcm
    rcases List.mem_append.1 hcm with h1 | h1
    · rcases List.mem_append.1 h1 with h2 | h2
      · exact hc c (List.mem_filter.1 h2).1
      · have := Memory.mem_cells a bs c h2
        refine ⟨?_, this.2.2⟩
        rcases hin with rfl | hin
        · simp at this; omega
        · omega
    · exact hc c (List.mem_filter.1 h1).1

/-- Two memories in canonical form that read the same are the same data. -/
theorem Sparse.find_of_mem {α : Type} (l : List (Nat × α)) (h : l.Pairwise (fun c d => c.1 < d.1)) (k : Nat) (v : α)
    (hm : (k, v) ∈ l) : Sparse.find l k = some v := by
  induction l with
  | nil => simp at hm
  | cons c l ih =>
    obtain ⟨i, w⟩ := c
    rw [List.pairwise_cons] at h
    rcases List.mem_cons.1 hm with e | hm
    · obtain ⟨rfl, rfl⟩ := Prod.mk.inj e
      simp [Sparse.find]
    · have : i ≠ k := by have := h.1 _ hm; simp only at this; omega
      simp [Sparse.find, this, ih h.2 hm]

/-! ### Byte order -/

@[simp] theorem length_leBytes (n v : Nat) : (leBytes n v).length = n := by
  induction n generalizing v with
  | zero => rfl
  | succ n ih => simp [leBytes, ih]

/-- The little-endian bytes of a value read back as that value (R12, R81). -/
theorem leNat_leBytes (n v : Nat) (h : v < 256 ^ n) : leNat (leBytes n v) = v := by
  induction n generalizing v with
  | zero => simp at h; simp [leBytes, leNat, h]
  | succ n ih =>
    have hd : v / 256 < 256 ^ n := by
      rw [Nat.div_lt_iff_lt_mul (by norm_num)]; rw [pow_succ] at h; exact h
    simp only [leBytes, leNat, ih _ hd, BitVec.toNat_ofNat]
    omega

/-- Keeping the last bytes twice is keeping them once (R288, R322). -/
theorem lastBytes_append (n : Nat) (a b : List Byte) : lastBytes n (lastBytes n a ++ b) = lastBytes n (a ++ b) := by
  unfold lastBytes
  apply List.ext_getElem
  · simp; omega
  · intro i h1 h2
    simp only [List.length_drop, List.length_append] at h1 h2
    rw [List.getElem_drop, List.getElem_drop, List.getElem_append, List.getElem_append]
    simp only [List.length_drop, List.length_append, List.getElem_drop]
    split <;> split <;> (try omega)
    · congr 1; omega
    · congr 1; omega

theorem length_lastBytes (n : Nat) (l : List Byte) : (lastBytes n l).length = min n l.length := by
  simp [lastBytes]; omega

end Sys2Proof.Machine
end

