-- ==== Sys2Proof/Laws/Decoder.lean ====
section
/-! SUPPORT. What the block decoder can answer (44_block_decoder.md R254-R259): how long its output is, how much input it
reads, and that the bound on its sequences never cuts it short (00_scope.md R14). -/

namespace Sys2Proof.Machine

theorem readExt_length (l : List Byte) (acc n : Nat) (rest : List Byte) (h : readExt l acc = some (n, rest)) :
    rest.length < l.length ∧ acc ≤ n := by
  induction l generalizing acc with
  | nil => simp [readExt] at h
  | cons e l ih =>
    unfold readExt at h
    split at h
    · have := ih _ h; simp only [List.length_cons]; omega
    · cases h; simp

theorem readLength_length (k : Nat) (l : List Byte) (n : Nat) (rest : List Byte)
    (h : readLength k l = some (n, rest)) : rest.length ≤ l.length := by
  unfold readLength at h
  split at h
  · exact (readExt_length l 15 n rest h).1.le
  · cases h; exact le_rfl

theorem readExt_early (q acc : Nat) : readExt (List.replicate q 0xFF#8) acc = none := by
  induction q generalizing acc with
  | zero => rfl
  | succ q ih =>
    rw [List.replicate_succ, readExt, if_pos rfl]
    exact ih _

theorem readExt_ends (q acc : Nat) (e : Byte) (he : e ≠ 0xFF#8) (rest : List Byte) :
    readExt (List.replicate q 0xFF#8 ++ e :: rest) acc = some (acc + 255 * q + e.toNat, rest) := by
  induction q generalizing acc with
  | zero =>
    simp only [List.replicate_zero, List.nil_append, readExt, if_neg he]
    rfl
  | succ q ih =>
    rw [List.replicate_succ, List.cons_append, readExt, if_pos rfl, ih]
    congr 2
    omega

/-- A length field reads as the length it spells (R121). -/
theorem readLength_field {k n : Nat} {input rest : List Byte} (h : LengthField k input n rest) :
    readLength k input = some (n, rest) := by
  rcases h with ⟨hk, rfl, rfl⟩ | ⟨rfl, q, e, he, rfl, rfl⟩
  · simp [readLength, hk]
  · simp [readLength, readExt_ends _ _ _ he]

/-- A length field the input ends in reads as none (R256). -/
theorem readLength_early {k : Nat} {input : List Byte} (h : LengthEndsEarly k input) : readLength k input = none := by
  obtain ⟨rfl, q, rfl⟩ := h
  simp [readLength, readExt_early]

@[simp] theorem size_replay (dict : Array Byte) (off n : Nat) (out : Array Byte) :
    (replay dict off n out).size = out.size + n := by
  induction n generalizing out with
  | zero => rfl
  | succ n ih => unfold replay; rw [ih]; simp; omega

/-- The byte replay reads, as a byte of the dictionary followed by the output (R253, R254). -/
theorem byteBehind_append (dict out : Array Byte) (off : Nat) (h2 : off ≤ dict.size + out.size) :
    byteBehind dict out off = (dict.toList ++ out.toList).getD (dict.size + out.size - off) 0#8 := by
  unfold byteBehind
  split
  · next h =>
    rw [List.getD_append_right _ _ _ _ (by simp; omega)]
    have e : dict.size + out.size - off - dict.toList.length = out.size - off := by simp; omega
    rw [e, Array.getD_eq_getD_getElem?, List.getD_eq_getElem?_getD, Array.getElem?_toList]
  · next h =>
    rw [List.getD_append _ _ _ _ (by simp; omega), Array.getD_eq_getD_getElem?, List.getD_eq_getElem?_getD,
      Array.getElem?_toList]

/-- The literal half (R254): it reads input, keeps the output within the bound, and appends. -/
theorem decodeLiterals_spec (cap : Nat) (eoo : Bool) (nibble : Nat) (rest : List Byte) (out : Array Byte)
    (rest1 : List Byte) (out1 : Array Byte) (h : decodeLiterals cap eoo nibble rest out = .ok (rest1, out1)) :
    rest1.length ≤ rest.length ∧ out1.size ≤ cap ∧ out.size ≤ out1.size ∧
      ∃ lits : List Byte, out1 = out ++ lits.toArray := by
  unfold decodeLiterals at h
  split at h
  · simp at h
  · next l r hr =>
    have := readLength_length _ _ _ _ hr
    split at h
    · simp at h
    · split at h
      · simp at h
      · simp only [Except.ok.injEq, Prod.mk.injEq] at h
        obtain ⟨rfl, rfl⟩ := h
        refine ⟨by simp; omega, by simp; omega, by simp, _, rfl⟩

/-- The match half (R254, R257): a legal offset, and the replayed bytes appended within the bound. -/
theorem decodeMatch_spec (cap : Nat) (eoo : Bool) (dict : Array Byte) (nibble : Nat) (rest : List Byte)
    (out : Array Byte) (rest1 : List Byte) (out1 : Array Byte)
    (h : decodeMatch cap eoo dict nibble rest out = .ok (rest1, out1)) :
    rest1.length < rest.length ∧ out1.size ≤ cap ∧
      ∃ off m, 1 ≤ off ∧ off ≤ out.size + dict.size ∧ 4 ≤ m ∧ out1 = replay dict off m out := by
  unfold decodeMatch at h
  split at h
  · next b0 b1 r1 =>
    simp only at h
    split at h
    · simp at h
    · split at h
      · simp at h
      · split at h
        · simp at h
        · next m r2 hr =>
          have := readLength_length _ _ _ _ hr
          split at h
          · simp at h
          · simp only [Except.ok.injEq, Prod.mk.injEq] at h
            obtain ⟨rfl, rfl⟩ := h
            simp only [Config.minMatch] at *
            exact ⟨by simp; omega, by simp; omega, _, _, by omega, by omega, by omega, rfl⟩
  · simp at h

/-- What a finished block decode answers (R258, R259): the output inside the bound; at end on input size all input read,
at end on output size the output exactly the declared size. -/
theorem decodeLoop_spec (cap : Nat) (eoo : Bool) (dict : Array Byte) (n : Nat) (input : List Byte) (out : Array Byte)
    (rest : List Byte) (res : Array Byte) (h : decodeLoop cap eoo dict n input out = .ok (rest, res)) :
    res.size ≤ cap ∧ rest.length < input.length ∧ (eoo = false → rest = []) ∧ (eoo = true → res.size = cap) := by
  induction n generalizing input out with
  | zero => simp [decodeLoop] at h
  | succ n ih =>
    cases input with
    | nil => simp [decodeLoop] at h
    | cons token tail =>
      unfold decodeLoop at h
      split at h
      · simp at h
      · next r1 o1 h1 =>
        obtain ⟨a1, a2, _, _⟩ := decodeLiterals_spec _ _ _ _ _ _ _ h1
        split at h
        · next hb =>
          simp only [Except.ok.injEq, Prod.mk.injEq] at h
          obtain ⟨rfl, rfl⟩ := h
          refine ⟨a2, by simp only [List.length_cons]; omega, ?_, ?_⟩
          · rintro rfl; simpa [atBoundary] using hb
          · rintro rfl; simpa [atBoundary] using hb
        · split at h
          · simp at h
          · next r2 o2 h2 =>
            obtain ⟨b1, _⟩ := decodeMatch_spec _ _ _ _ _ _ _ _ h2
            obtain ⟨c1, c2, c3, c4⟩ := ih _ _ h
            exact ⟨c1, by simp only [List.length_cons]; omega, c3, c4⟩

/-- More sequences allowed change nothing: a sequence reads at least its token byte (R14). -/
theorem decodeLoop_enough (cap : Nat) (eoo : Bool) (dict : Array Byte) (n k : Nat) (input : List Byte) (out : Array Byte)
    (hn : input.length ≤ n) :
    decodeLoop cap eoo dict (n + k) input out = decodeLoop cap eoo dict n input out := by
  induction n generalizing input out with
  | zero =>
    have : input = [] := List.length_eq_zero_iff.1 (by omega)
    subst this
    cases k <;> rfl
  | succ n ih =>
    cases input with
    | nil => rw [show n + 1 + k = (n + k) + 1 by omega]; rfl
    | cons token tail =>
      rw [show n + 1 + k = (n + k) + 1 by omega]
      simp only [decodeLoop]
      cases h1 : decodeLiterals cap eoo (token.toNat / 16) tail out with
      | error c => rfl
      | ok p =>
        obtain ⟨r1, o1⟩ := p
        obtain ⟨a1, _⟩ := decodeLiterals_spec _ _ _ _ _ _ _ h1
        simp only
        split
        · rfl
        · cases h2 : decodeMatch cap eoo dict (token.toNat % 16) r1 o1 with
          | error c => rfl
          | ok p =>
            obtain ⟨r2, o2⟩ := p
            obtain ⟨b1, _⟩ := decodeMatch_spec _ _ _ _ _ _ _ _ h2
            exact ih _ _ (by simp only [List.length_cons] at hn; omega)

/-- decodeBlock (R254, R258, R259). -/
theorem decodeBlock_spec (input : List Byte) (cap : Nat) (eoo : Bool) (dict out : List Byte) (used : Nat)
    (h : decodeBlock input cap eoo dict = .ok (out, used)) :
    out.length ≤ cap ∧ used ≤ input.length ∧ 1 ≤ used ∧ (eoo = false → used = input.length) ∧
      (eoo = true → out.length = cap) := by
  unfold decodeBlock at h
  split at h
  · simp at h
  · next r o ho =>
    obtain ⟨h1, h2, h3, h4⟩ := decodeLoop_spec _ _ _ _ _ _ _ _ ho
    simp only [Except.ok.injEq, Prod.mk.injEq] at h
    obtain ⟨rfl, rfl⟩ := h
    refine ⟨by simpa using h1, by omega, by omega, ?_, ?_⟩
    · intro he; rw [h3 he]; simp
    · intro he; simpa using h4 he

end Sys2Proof.Machine
end

