-- ==== Sys2Proof/Laws/State.lean ====
section
/-! SUPPORT. One lemma per field per update of the state, true by unfolding: what each shared operation writes and that
it writes nothing else. -/

namespace Sys2Proof.Machine

variable (s : State)

/-! ### memWrite: memWrite changes MEM only (R13) -/

@[simp] theorem State.memWrite_args (a : Nat) (bs : List Byte) : (s.memWrite a bs).args = s.args := rfl
@[simp] theorem State.memWrite_irqEnDone (a : Nat) (bs : List Byte) : (s.memWrite a bs).irqEnDone = s.irqEnDone := rfl
@[simp] theorem State.memWrite_irqEnErr (a : Nat) (bs : List Byte) : (s.memWrite a bs).irqEnErr = s.irqEnErr := rfl
@[simp] theorem State.memWrite_status (a : Nat) (bs : List Byte) : (s.memWrite a bs).status = s.status := rfl
@[simp] theorem State.memWrite_donePend (a : Nat) (bs : List Byte) : (s.memWrite a bs).donePend = s.donePend := rfl
@[simp] theorem State.memWrite_errPend (a : Nat) (bs : List Byte) : (s.memWrite a bs).errPend = s.errPend := rfl
@[simp] theorem State.memWrite_result0 (a : Nat) (bs : List Byte) : (s.memWrite a bs).result0 = s.result0 := rfl
@[simp] theorem State.memWrite_result1 (a : Nat) (bs : List Byte) : (s.memWrite a bs).result1 = s.result1 := rfl
@[simp] theorem State.memWrite_result2 (a : Nat) (bs : List Byte) : (s.memWrite a bs).result2 = s.result2 := rfl
@[simp] theorem State.memWrite_decFdesc (a : Nat) (bs : List Byte) : (s.memWrite a bs).decFdesc = s.decFdesc := rfl
@[simp] theorem State.memWrite_decCsize (a : Nat) (bs : List Byte) : (s.memWrite a bs).decCsize = s.decCsize := rfl
@[simp] theorem State.memWrite_decDictId (a : Nat) (bs : List Byte) : (s.memWrite a bs).decDictId = s.decDictId := rfl
@[simp] theorem State.memWrite_running (a : Nat) (bs : List Byte) : (s.memWrite a bs).running = s.running := rfl
@[simp] theorem State.memWrite_snap (a : Nat) (bs : List Byte) : (s.memWrite a bs).snap = s.snap := rfl
@[simp] theorem State.memWrite_index (a : Nat) (bs : List Byte) : (s.memWrite a bs).index = s.index := rfl
@[simp] theorem State.memWrite_enc (a : Nat) (bs : List Byte) : (s.memWrite a bs).enc = s.enc := rfl
@[simp] theorem State.memWrite_dec (a : Nat) (bs : List Byte) : (s.memWrite a bs).dec = s.dec := rfl
@[simp] theorem State.memWrite_mem (a : Nat) (bs : List Byte) : (s.memWrite a bs).mem = s.mem.writeBytes a bs := rfl
@[simp] theorem State.memWrite_latency (a : Nat) (bs : List Byte) : (s.memWrite a bs).latency = s.latency := rfl
@[simp] theorem State.memWrite_inbox (a : Nat) (bs : List Byte) : (s.memWrite a bs).inbox = s.inbox := rfl
@[simp] theorem State.memWrite_lastRead (a : Nat) (bs : List Byte) : (s.memWrite a bs).lastRead = s.lastRead := rfl
@[simp] theorem State.memWrite_draws (a : Nat) (bs : List Byte) : (s.memWrite a bs).draws = s.draws := rfl

/-! ### finishWith: done changes the completion registers only (R361) -/

@[simp] theorem State.finishWith_args (ni fe : Bool) (r0 r1 r2 : Nat) : (s.finishWith ni fe r0 r1 r2).args = s.args := rfl
@[simp] theorem State.finishWith_irqEnDone (ni fe : Bool) (r0 r1 r2 : Nat) : (s.finishWith ni fe r0 r1 r2).irqEnDone = s.irqEnDone := rfl
@[simp] theorem State.finishWith_irqEnErr (ni fe : Bool) (r0 r1 r2 : Nat) : (s.finishWith ni fe r0 r1 r2).irqEnErr = s.irqEnErr := rfl
@[simp] theorem State.finishWith_status (ni fe : Bool) (r0 r1 r2 : Nat) : (s.finishWith ni fe r0 r1 r2).status = s.status.ofDone ni fe := rfl
@[simp] theorem State.finishWith_donePend (ni fe : Bool) (r0 r1 r2 : Nat) : (s.finishWith ni fe r0 r1 r2).donePend = true := rfl
@[simp] theorem State.finishWith_errPend (ni fe : Bool) (r0 r1 r2 : Nat) : (s.finishWith ni fe r0 r1 r2).errPend = s.errPend := rfl
@[simp] theorem State.finishWith_result0 (ni fe : Bool) (r0 r1 r2 : Nat) : (s.finishWith ni fe r0 r1 r2).result0 = BitVec.ofNat 32 r0 := rfl
@[simp] theorem State.finishWith_result1 (ni fe : Bool) (r0 r1 r2 : Nat) : (s.finishWith ni fe r0 r1 r2).result1 = BitVec.ofNat 32 r1 := rfl
@[simp] theorem State.finishWith_result2 (ni fe : Bool) (r0 r1 r2 : Nat) : (s.finishWith ni fe r0 r1 r2).result2 = BitVec.ofNat 32 r2 := rfl
@[simp] theorem State.finishWith_decFdesc (ni fe : Bool) (r0 r1 r2 : Nat) : (s.finishWith ni fe r0 r1 r2).decFdesc = s.decFdesc := rfl
@[simp] theorem State.finishWith_decCsize (ni fe : Bool) (r0 r1 r2 : Nat) : (s.finishWith ni fe r0 r1 r2).decCsize = s.decCsize := rfl
@[simp] theorem State.finishWith_decDictId (ni fe : Bool) (r0 r1 r2 : Nat) : (s.finishWith ni fe r0 r1 r2).decDictId = s.decDictId := rfl
@[simp] theorem State.finishWith_running (ni fe : Bool) (r0 r1 r2 : Nat) : (s.finishWith ni fe r0 r1 r2).running = none := rfl
@[simp] theorem State.finishWith_snap (ni fe : Bool) (r0 r1 r2 : Nat) : (s.finishWith ni fe r0 r1 r2).snap = s.snap := rfl
@[simp] theorem State.finishWith_index (ni fe : Bool) (r0 r1 r2 : Nat) : (s.finishWith ni fe r0 r1 r2).index = s.index := rfl
@[simp] theorem State.finishWith_enc (ni fe : Bool) (r0 r1 r2 : Nat) : (s.finishWith ni fe r0 r1 r2).enc = s.enc := rfl
@[simp] theorem State.finishWith_dec (ni fe : Bool) (r0 r1 r2 : Nat) : (s.finishWith ni fe r0 r1 r2).dec = s.dec := rfl
@[simp] theorem State.finishWith_mem (ni fe : Bool) (r0 r1 r2 : Nat) : (s.finishWith ni fe r0 r1 r2).mem = s.mem := rfl
@[simp] theorem State.finishWith_latency (ni fe : Bool) (r0 r1 r2 : Nat) : (s.finishWith ni fe r0 r1 r2).latency = 0 := rfl
@[simp] theorem State.finishWith_inbox (ni fe : Bool) (r0 r1 r2 : Nat) : (s.finishWith ni fe r0 r1 r2).inbox = s.inbox := rfl
@[simp] theorem State.finishWith_lastRead (ni fe : Bool) (r0 r1 r2 : Nat) : (s.finishWith ni fe r0 r1 r2).lastRead = s.lastRead := rfl
@[simp] theorem State.finishWith_draws (ni fe : Bool) (r0 r1 r2 : Nat) : (s.finishWith ni fe r0 r1 r2).draws = s.draws := rfl

/-! ### complete: done without NEED_INPUT and FRAME_END (R361) -/

@[simp] theorem State.complete_args (r0 r1 r2 : Nat) : (s.complete r0 r1 r2).args = s.args := rfl
@[simp] theorem State.complete_irqEnDone (r0 r1 r2 : Nat) : (s.complete r0 r1 r2).irqEnDone = s.irqEnDone := rfl
@[simp] theorem State.complete_irqEnErr (r0 r1 r2 : Nat) : (s.complete r0 r1 r2).irqEnErr = s.irqEnErr := rfl
@[simp] theorem State.complete_status (r0 r1 r2 : Nat) : (s.complete r0 r1 r2).status = s.status.ofDone false false := rfl
@[simp] theorem State.complete_donePend (r0 r1 r2 : Nat) : (s.complete r0 r1 r2).donePend = true := rfl
@[simp] theorem State.complete_errPend (r0 r1 r2 : Nat) : (s.complete r0 r1 r2).errPend = s.errPend := rfl
@[simp] theorem State.complete_result0 (r0 r1 r2 : Nat) : (s.complete r0 r1 r2).result0 = BitVec.ofNat 32 r0 := rfl
@[simp] theorem State.complete_result1 (r0 r1 r2 : Nat) : (s.complete r0 r1 r2).result1 = BitVec.ofNat 32 r1 := rfl
@[simp] theorem State.complete_result2 (r0 r1 r2 : Nat) : (s.complete r0 r1 r2).result2 = BitVec.ofNat 32 r2 := rfl
@[simp] theorem State.complete_decFdesc (r0 r1 r2 : Nat) : (s.complete r0 r1 r2).decFdesc = s.decFdesc := rfl
@[simp] theorem State.complete_decCsize (r0 r1 r2 : Nat) : (s.complete r0 r1 r2).decCsize = s.decCsize := rfl
@[simp] theorem State.complete_decDictId (r0 r1 r2 : Nat) : (s.complete r0 r1 r2).decDictId = s.decDictId := rfl
@[simp] theorem State.complete_running (r0 r1 r2 : Nat) : (s.complete r0 r1 r2).running = none := rfl
@[simp] theorem State.complete_snap (r0 r1 r2 : Nat) : (s.complete r0 r1 r2).snap = s.snap := rfl
@[simp] theorem State.complete_index (r0 r1 r2 : Nat) : (s.complete r0 r1 r2).index = s.index := rfl
@[simp] theorem State.complete_enc (r0 r1 r2 : Nat) : (s.complete r0 r1 r2).enc = s.enc := rfl
@[simp] theorem State.complete_dec (r0 r1 r2 : Nat) : (s.complete r0 r1 r2).dec = s.dec := rfl
@[simp] theorem State.complete_mem (r0 r1 r2 : Nat) : (s.complete r0 r1 r2).mem = s.mem := rfl
@[simp] theorem State.complete_latency (r0 r1 r2 : Nat) : (s.complete r0 r1 r2).latency = 0 := rfl
@[simp] theorem State.complete_inbox (r0 r1 r2 : Nat) : (s.complete r0 r1 r2).inbox = s.inbox := rfl
@[simp] theorem State.complete_lastRead (r0 r1 r2 : Nat) : (s.complete r0 r1 r2).lastRead = s.lastRead := rfl
@[simp] theorem State.complete_draws (r0 r1 r2 : Nat) : (s.complete r0 r1 r2).draws = s.draws := rfl

/-! ### raise: raise changes the completion registers only (R362) -/

@[simp] theorem State.raise_args (c : Cause) : (s.raise c).args = s.args := rfl
@[simp] theorem State.raise_irqEnDone (c : Cause) : (s.raise c).irqEnDone = s.irqEnDone := rfl
@[simp] theorem State.raise_irqEnErr (c : Cause) : (s.raise c).irqEnErr = s.irqEnErr := rfl
@[simp] theorem State.raise_status (c : Cause) : (s.raise c).status = s.status.ofError c := rfl
@[simp] theorem State.raise_donePend (c : Cause) : (s.raise c).donePend = s.donePend := rfl
@[simp] theorem State.raise_errPend (c : Cause) : (s.raise c).errPend = true := rfl
@[simp] theorem State.raise_result0 (c : Cause) : (s.raise c).result0 = 0 := rfl
@[simp] theorem State.raise_result1 (c : Cause) : (s.raise c).result1 = 0 := rfl
@[simp] theorem State.raise_result2 (c : Cause) : (s.raise c).result2 = 0 := rfl
@[simp] theorem State.raise_decFdesc (c : Cause) : (s.raise c).decFdesc = s.decFdesc := rfl
@[simp] theorem State.raise_decCsize (c : Cause) : (s.raise c).decCsize = s.decCsize := rfl
@[simp] theorem State.raise_decDictId (c : Cause) : (s.raise c).decDictId = s.decDictId := rfl
@[simp] theorem State.raise_running (c : Cause) : (s.raise c).running = none := rfl
@[simp] theorem State.raise_snap (c : Cause) : (s.raise c).snap = s.snap := rfl
@[simp] theorem State.raise_index (c : Cause) : (s.raise c).index = s.index := rfl
@[simp] theorem State.raise_enc (c : Cause) : (s.raise c).enc = s.enc := rfl
@[simp] theorem State.raise_dec (c : Cause) : (s.raise c).dec = s.dec := rfl
@[simp] theorem State.raise_mem (c : Cause) : (s.raise c).mem = s.mem := rfl
@[simp] theorem State.raise_latency (c : Cause) : (s.raise c).latency = 0 := rfl
@[simp] theorem State.raise_inbox (c : Cause) : (s.raise c).inbox = s.inbox := rfl
@[simp] theorem State.raise_lastRead (c : Cause) : (s.raise c).lastRead = s.lastRead := rfl
@[simp] theorem State.raise_draws (c : Cause) : (s.raise c).draws = s.draws := rfl

/-! ### accept: accepting a command (R37, R46) -/

@[simp] theorem State.accept_args (w : Word) (n : Nat) : (s.accept w n).args = s.args := rfl
@[simp] theorem State.accept_irqEnDone (w : Word) (n : Nat) : (s.accept w n).irqEnDone = s.irqEnDone := rfl
@[simp] theorem State.accept_irqEnErr (w : Word) (n : Nat) : (s.accept w n).irqEnErr = s.irqEnErr := rfl
@[simp] theorem State.accept_status (w : Word) (n : Nat) : (s.accept w n).status = Status.zero := rfl
@[simp] theorem State.accept_donePend (w : Word) (n : Nat) : (s.accept w n).donePend = s.donePend := rfl
@[simp] theorem State.accept_errPend (w : Word) (n : Nat) : (s.accept w n).errPend = s.errPend := rfl
@[simp] theorem State.accept_result0 (w : Word) (n : Nat) : (s.accept w n).result0 = s.result0 := rfl
@[simp] theorem State.accept_result1 (w : Word) (n : Nat) : (s.accept w n).result1 = s.result1 := rfl
@[simp] theorem State.accept_result2 (w : Word) (n : Nat) : (s.accept w n).result2 = s.result2 := rfl
@[simp] theorem State.accept_decFdesc (w : Word) (n : Nat) : (s.accept w n).decFdesc = s.decFdesc := rfl
@[simp] theorem State.accept_decCsize (w : Word) (n : Nat) : (s.accept w n).decCsize = s.decCsize := rfl
@[simp] theorem State.accept_decDictId (w : Word) (n : Nat) : (s.accept w n).decDictId = s.decDictId := rfl
@[simp] theorem State.accept_running (w : Word) (n : Nat) : (s.accept w n).running = some w := rfl
@[simp] theorem State.accept_snap (w : Word) (n : Nat) : (s.accept w n).snap = s.args := rfl
@[simp] theorem State.accept_index (w : Word) (n : Nat) : (s.accept w n).index = s.index := rfl
@[simp] theorem State.accept_enc (w : Word) (n : Nat) : (s.accept w n).enc = s.enc := rfl
@[simp] theorem State.accept_dec (w : Word) (n : Nat) : (s.accept w n).dec = s.dec := rfl
@[simp] theorem State.accept_mem (w : Word) (n : Nat) : (s.accept w n).mem = s.mem := rfl
@[simp] theorem State.accept_latency (w : Word) (n : Nat) : (s.accept w n).latency = n := rfl
@[simp] theorem State.accept_inbox (w : Word) (n : Nat) : (s.accept w n).inbox = s.inbox := rfl
@[simp] theorem State.accept_lastRead (w : Word) (n : Nat) : (s.accept w n).lastRead = s.lastRead := rfl
@[simp] theorem State.accept_draws (w : Word) (n : Nat) : (s.accept w n).draws = s.draws := rfl

/-! ### scramble: free DST bytes (R367) -/

@[simp] theorem State.scramble_args (a n : Nat) : (s.scramble a n).args = s.args := rfl
@[simp] theorem State.scramble_irqEnDone (a n : Nat) : (s.scramble a n).irqEnDone = s.irqEnDone := rfl
@[simp] theorem State.scramble_irqEnErr (a n : Nat) : (s.scramble a n).irqEnErr = s.irqEnErr := rfl
@[simp] theorem State.scramble_status (a n : Nat) : (s.scramble a n).status = s.status := rfl
@[simp] theorem State.scramble_donePend (a n : Nat) : (s.scramble a n).donePend = s.donePend := rfl
@[simp] theorem State.scramble_errPend (a n : Nat) : (s.scramble a n).errPend = s.errPend := rfl
@[simp] theorem State.scramble_result0 (a n : Nat) : (s.scramble a n).result0 = s.result0 := rfl
@[simp] theorem State.scramble_result1 (a n : Nat) : (s.scramble a n).result1 = s.result1 := rfl
@[simp] theorem State.scramble_result2 (a n : Nat) : (s.scramble a n).result2 = s.result2 := rfl
@[simp] theorem State.scramble_decFdesc (a n : Nat) : (s.scramble a n).decFdesc = s.decFdesc := rfl
@[simp] theorem State.scramble_decCsize (a n : Nat) : (s.scramble a n).decCsize = s.decCsize := rfl
@[simp] theorem State.scramble_decDictId (a n : Nat) : (s.scramble a n).decDictId = s.decDictId := rfl
@[simp] theorem State.scramble_running (a n : Nat) : (s.scramble a n).running = s.running := rfl
@[simp] theorem State.scramble_snap (a n : Nat) : (s.scramble a n).snap = s.snap := rfl
@[simp] theorem State.scramble_index (a n : Nat) : (s.scramble a n).index = s.index := rfl
@[simp] theorem State.scramble_enc (a n : Nat) : (s.scramble a n).enc = s.enc := rfl
@[simp] theorem State.scramble_dec (a n : Nat) : (s.scramble a n).dec = s.dec := rfl
@[simp] theorem State.scramble_mem (a n : Nat) : (s.scramble a n).mem = s.mem.writeBytes a (freeBytes s.draws (min n (2 ^ 32 - a))) := rfl
@[simp] theorem State.scramble_latency (a n : Nat) : (s.scramble a n).latency = s.latency := rfl
@[simp] theorem State.scramble_inbox (a n : Nat) : (s.scramble a n).inbox = s.inbox := rfl
@[simp] theorem State.scramble_lastRead (a n : Nat) : (s.scramble a n).lastRead = s.lastRead := rfl
@[simp] theorem State.scramble_draws (a n : Nat) : (s.scramble a n).draws = s.draws + min n (2 ^ 32 - a) := rfl

/-! ### raiseExec: an execution error (R363, R367) -/

@[simp] theorem State.raiseExec_args (c : Cause) : (s.raiseExec c).args = s.args := rfl
@[simp] theorem State.raiseExec_irqEnDone (c : Cause) : (s.raiseExec c).irqEnDone = s.irqEnDone := rfl
@[simp] theorem State.raiseExec_irqEnErr (c : Cause) : (s.raiseExec c).irqEnErr = s.irqEnErr := rfl
@[simp] theorem State.raiseExec_status (c : Cause) : (s.raiseExec c).status = s.status.ofError c := rfl
@[simp] theorem State.raiseExec_donePend (c : Cause) : (s.raiseExec c).donePend = s.donePend := rfl
@[simp] theorem State.raiseExec_errPend (c : Cause) : (s.raiseExec c).errPend = true := rfl
@[simp] theorem State.raiseExec_result0 (c : Cause) : (s.raiseExec c).result0 = 0 := rfl
@[simp] theorem State.raiseExec_result1 (c : Cause) : (s.raiseExec c).result1 = 0 := rfl
@[simp] theorem State.raiseExec_result2 (c : Cause) : (s.raiseExec c).result2 = 0 := rfl
@[simp] theorem State.raiseExec_decFdesc (c : Cause) : (s.raiseExec c).decFdesc = s.decFdesc := rfl
@[simp] theorem State.raiseExec_decCsize (c : Cause) : (s.raiseExec c).decCsize = s.decCsize := rfl
@[simp] theorem State.raiseExec_decDictId (c : Cause) : (s.raiseExec c).decDictId = s.decDictId := rfl
@[simp] theorem State.raiseExec_running (c : Cause) : (s.raiseExec c).running = none := rfl
@[simp] theorem State.raiseExec_snap (c : Cause) : (s.raiseExec c).snap = s.snap := rfl
@[simp] theorem State.raiseExec_index (c : Cause) : (s.raiseExec c).index = s.index := rfl
@[simp] theorem State.raiseExec_enc (c : Cause) : (s.raiseExec c).enc = s.enc := rfl
@[simp] theorem State.raiseExec_dec (c : Cause) : (s.raiseExec c).dec = s.dec := rfl
@[simp] theorem State.raiseExec_mem (c : Cause) : (s.raiseExec c).mem = (s.scramble s.snap.dstAddr.toNat s.snap.dstCap.toNat).mem := rfl
@[simp] theorem State.raiseExec_latency (c : Cause) : (s.raiseExec c).latency = 0 := rfl
@[simp] theorem State.raiseExec_inbox (c : Cause) : (s.raiseExec c).inbox = s.inbox := rfl
@[simp] theorem State.raiseExec_lastRead (c : Cause) : (s.raiseExec c).lastRead = s.lastRead := rfl
@[simp] theorem State.raiseExec_draws (c : Cause) : (s.raiseExec c).draws = (s.scramble s.snap.dstAddr.toNat s.snap.dstCap.toNat).draws := rfl

/-! ### failDecoder: a failed decoder stream (R319) -/

@[simp] theorem State.failDecoder_args : (s.failDecoder).args = s.args := rfl
@[simp] theorem State.failDecoder_irqEnDone : (s.failDecoder).irqEnDone = s.irqEnDone := rfl
@[simp] theorem State.failDecoder_irqEnErr : (s.failDecoder).irqEnErr = s.irqEnErr := rfl
@[simp] theorem State.failDecoder_status : (s.failDecoder).status = s.status := rfl
@[simp] theorem State.failDecoder_donePend : (s.failDecoder).donePend = s.donePend := rfl
@[simp] theorem State.failDecoder_errPend : (s.failDecoder).errPend = s.errPend := rfl
@[simp] theorem State.failDecoder_result0 : (s.failDecoder).result0 = s.result0 := rfl
@[simp] theorem State.failDecoder_result1 : (s.failDecoder).result1 = s.result1 := rfl
@[simp] theorem State.failDecoder_result2 : (s.failDecoder).result2 = s.result2 := rfl
@[simp] theorem State.failDecoder_decFdesc : (s.failDecoder).decFdesc = s.decFdesc := rfl
@[simp] theorem State.failDecoder_decCsize : (s.failDecoder).decCsize = s.decCsize := rfl
@[simp] theorem State.failDecoder_decDictId : (s.failDecoder).decDictId = s.decDictId := rfl
@[simp] theorem State.failDecoder_running : (s.failDecoder).running = s.running := rfl
@[simp] theorem State.failDecoder_snap : (s.failDecoder).snap = s.snap := rfl
@[simp] theorem State.failDecoder_index : (s.failDecoder).index = s.index := rfl
@[simp] theorem State.failDecoder_enc : (s.failDecoder).enc = s.enc := rfl
@[simp] theorem State.failDecoder_dec : (s.failDecoder).dec = { s.dec with state := .failed } := rfl
@[simp] theorem State.failDecoder_mem : (s.failDecoder).mem = s.mem := rfl
@[simp] theorem State.failDecoder_latency : (s.failDecoder).latency = s.latency := rfl
@[simp] theorem State.failDecoder_inbox : (s.failDecoder).inbox = s.inbox := rfl
@[simp] theorem State.failDecoder_lastRead : (s.failDecoder).lastRead = s.lastRead := rfl
@[simp] theorem State.failDecoder_draws : (s.failDecoder).draws = s.draws := rfl

/-! ### dropDecoder: a dropped decoder stream (R352) -/

@[simp] theorem State.dropDecoder_args : (s.dropDecoder).args = s.args := rfl
@[simp] theorem State.dropDecoder_irqEnDone : (s.dropDecoder).irqEnDone = s.irqEnDone := rfl
@[simp] theorem State.dropDecoder_irqEnErr : (s.dropDecoder).irqEnErr = s.irqEnErr := rfl
@[simp] theorem State.dropDecoder_status : (s.dropDecoder).status = s.status := rfl
@[simp] theorem State.dropDecoder_donePend : (s.dropDecoder).donePend = s.donePend := rfl
@[simp] theorem State.dropDecoder_errPend : (s.dropDecoder).errPend = s.errPend := rfl
@[simp] theorem State.dropDecoder_result0 : (s.dropDecoder).result0 = s.result0 := rfl
@[simp] theorem State.dropDecoder_result1 : (s.dropDecoder).result1 = s.result1 := rfl
@[simp] theorem State.dropDecoder_result2 : (s.dropDecoder).result2 = s.result2 := rfl
@[simp] theorem State.dropDecoder_decFdesc : (s.dropDecoder).decFdesc = 0 := rfl
@[simp] theorem State.dropDecoder_decCsize : (s.dropDecoder).decCsize = 0 := rfl
@[simp] theorem State.dropDecoder_decDictId : (s.dropDecoder).decDictId = 0 := rfl
@[simp] theorem State.dropDecoder_running : (s.dropDecoder).running = s.running := rfl
@[simp] theorem State.dropDecoder_snap : (s.dropDecoder).snap = s.snap := rfl
@[simp] theorem State.dropDecoder_index : (s.dropDecoder).index = s.index := rfl
@[simp] theorem State.dropDecoder_enc : (s.dropDecoder).enc = s.enc := rfl
@[simp] theorem State.dropDecoder_dec : (s.dropDecoder).dec = Decoder.reset := rfl
@[simp] theorem State.dropDecoder_mem : (s.dropDecoder).mem = s.mem := rfl
@[simp] theorem State.dropDecoder_latency : (s.dropDecoder).latency = s.latency := rfl
@[simp] theorem State.dropDecoder_inbox : (s.dropDecoder).inbox = s.inbox := rfl
@[simp] theorem State.dropDecoder_lastRead : (s.dropDecoder).lastRead = s.lastRead := rfl
@[simp] theorem State.dropDecoder_draws : (s.dropDecoder).draws = s.draws := rfl

/-! ### openDecoder: a decoder stream at its open (R311) -/

@[simp] theorem State.openDecoder_args : (s.openDecoder).args = s.args := rfl
@[simp] theorem State.openDecoder_irqEnDone : (s.openDecoder).irqEnDone = s.irqEnDone := rfl
@[simp] theorem State.openDecoder_irqEnErr : (s.openDecoder).irqEnErr = s.irqEnErr := rfl
@[simp] theorem State.openDecoder_status : (s.openDecoder).status = s.status := rfl
@[simp] theorem State.openDecoder_donePend : (s.openDecoder).donePend = s.donePend := rfl
@[simp] theorem State.openDecoder_errPend : (s.openDecoder).errPend = s.errPend := rfl
@[simp] theorem State.openDecoder_result0 : (s.openDecoder).result0 = s.result0 := rfl
@[simp] theorem State.openDecoder_result1 : (s.openDecoder).result1 = s.result1 := rfl
@[simp] theorem State.openDecoder_result2 : (s.openDecoder).result2 = s.result2 := rfl
@[simp] theorem State.openDecoder_decFdesc : (s.openDecoder).decFdesc = 0 := rfl
@[simp] theorem State.openDecoder_decCsize : (s.openDecoder).decCsize = 0 := rfl
@[simp] theorem State.openDecoder_decDictId : (s.openDecoder).decDictId = 0 := rfl
@[simp] theorem State.openDecoder_running : (s.openDecoder).running = s.running := rfl
@[simp] theorem State.openDecoder_snap : (s.openDecoder).snap = s.snap := rfl
@[simp] theorem State.openDecoder_index : (s.openDecoder).index = s.index := rfl
@[simp] theorem State.openDecoder_enc : (s.openDecoder).enc = s.enc := rfl
@[simp] theorem State.openDecoder_dec : (s.openDecoder).dec = { Decoder.reset with state := .opening } := rfl
@[simp] theorem State.openDecoder_mem : (s.openDecoder).mem = s.mem := rfl
@[simp] theorem State.openDecoder_latency : (s.openDecoder).latency = s.latency := rfl
@[simp] theorem State.openDecoder_inbox : (s.openDecoder).inbox = s.inbox := rfl
@[simp] theorem State.openDecoder_lastRead : (s.openDecoder).lastRead = s.lastRead := rfl
@[simp] theorem State.openDecoder_draws : (s.openDecoder).draws = s.draws := rfl

/-! ### clearEngine: a reset engine (R400) -/

@[simp] theorem State.clearEngine_args : (s.clearEngine).args = State.reset.args := rfl
@[simp] theorem State.clearEngine_irqEnDone : (s.clearEngine).irqEnDone = State.reset.irqEnDone := rfl
@[simp] theorem State.clearEngine_irqEnErr : (s.clearEngine).irqEnErr = State.reset.irqEnErr := rfl
@[simp] theorem State.clearEngine_status : (s.clearEngine).status = State.reset.status := rfl
@[simp] theorem State.clearEngine_donePend : (s.clearEngine).donePend = State.reset.donePend := rfl
@[simp] theorem State.clearEngine_errPend : (s.clearEngine).errPend = State.reset.errPend := rfl
@[simp] theorem State.clearEngine_result0 : (s.clearEngine).result0 = State.reset.result0 := rfl
@[simp] theorem State.clearEngine_result1 : (s.clearEngine).result1 = State.reset.result1 := rfl
@[simp] theorem State.clearEngine_result2 : (s.clearEngine).result2 = State.reset.result2 := rfl
@[simp] theorem State.clearEngine_decFdesc : (s.clearEngine).decFdesc = State.reset.decFdesc := rfl
@[simp] theorem State.clearEngine_decCsize : (s.clearEngine).decCsize = State.reset.decCsize := rfl
@[simp] theorem State.clearEngine_decDictId : (s.clearEngine).decDictId = State.reset.decDictId := rfl
@[simp] theorem State.clearEngine_running : (s.clearEngine).running = State.reset.running := rfl
@[simp] theorem State.clearEngine_snap : (s.clearEngine).snap = State.reset.snap := rfl
@[simp] theorem State.clearEngine_index : (s.clearEngine).index = State.reset.index := rfl
@[simp] theorem State.clearEngine_enc : (s.clearEngine).enc = State.reset.enc := rfl
@[simp] theorem State.clearEngine_dec : (s.clearEngine).dec = State.reset.dec := rfl
@[simp] theorem State.clearEngine_mem : (s.clearEngine).mem = s.mem := rfl
@[simp] theorem State.clearEngine_latency : (s.clearEngine).latency = State.reset.latency := rfl
@[simp] theorem State.clearEngine_inbox : (s.clearEngine).inbox = s.inbox := rfl
@[simp] theorem State.clearEngine_lastRead : (s.clearEngine).lastRead = s.lastRead := rfl
@[simp] theorem State.clearEngine_draws : (s.clearEngine).draws = s.draws := rfl

end Sys2Proof.Machine
end

