-- ==== Sys2Proof/Laws/Frame.lean ====
section
/-! SUPPORT. What frameRun can do (46_frame_decoder.md R313-R323), said once: it writes the decoder context, the decoder's
header registers and the DST bytes it has served, and it never uses up its bound on stages (00_scope.md R14). -/

namespace Sys2Proof.Machine

/-- The run a frame run ends in. -/
def DecEnd.run : DecEnd → DecRun
  | .stop r _ _ => r
  | .fail r _ => r

/-- The run a stage leaves. -/
def DecStep.run : DecStep → DecRun
  | .more r => r
  | .halt e => e.run

/-- How a run that began in state s differs from s: the decoder's own registers, and the bytes served. -/
structure RunFrame (s : State) (cap : Nat) (r : DecRun) : Prop where
  rest : r.state = { s with dec := r.state.dec, decFdesc := r.state.decFdesc, decCsize := r.state.decCsize,
                            decDictId := r.state.decDictId, mem := r.state.mem }
  room : r.served ≤ cap
  used : r.ip ≤ s.snap.srcLen.toNat
  outside : ∀ a, a < s.snap.dstAddr.toNat ∨ s.snap.dstAddr.toNat + r.served ≤ a → r.state.mem.read a = s.mem.read a
  wf : s.mem.wf = true → s.snap.dstAddr.toNat + cap ≤ 2 ^ 32 → r.state.mem.wf = true
  quiet : cap = 0 → r.state.mem = s.mem

theorem RunFrame.start (s : State) (cap : Nat) : RunFrame s cap ⟨s, 0, 0⟩ :=
  ⟨rfl, Nat.zero_le _, Nat.zero_le _, fun _ _ => rfl, fun h _ => h, fun _ => rfl⟩

/-- A run whose decoder registers alone change stays in the frame. -/
theorem RunFrame.of_dec {s : State} {cap : Nat} {r q : DecRun} (h : RunFrame s cap r)
    (hq : q.state = { r.state with dec := q.state.dec, decFdesc := q.state.decFdesc, decCsize := q.state.decCsize,
                                   decDictId := q.state.decDictId })
    (hs : q.served = r.served) (hi : q.ip ≤ s.snap.srcLen.toNat) : RunFrame s cap q := by
  have hm : q.state.mem = r.state.mem := by rw [hq]
  refine ⟨?_, hs ▸ h.room, hi, ?_, ?_, fun h0 => hm.trans (h.quiet h0)⟩
  · rw [hq, h.rest]
  · intro a ha; rw [hm]; exact h.outside a (by rw [hs] at ha; exact ha)
  · intro h1 h2; rw [hm]; exact h.wf h1 h2

theorem RunFrame.snap {s : State} {cap : Nat} {r : DecRun} (h : RunFrame s cap r) : r.state.snap = s.snap := by
  rw [h.rest]

theorem gather_frame {s : State} {cap : Nat} {r : DecRun} (inEof : Bool) (k : Nat) (next : List Byte → DecRun → DecStep)
    (h : RunFrame s cap r)
    (hn : ∀ f q, RunFrame s cap q → RunFrame s cap (next f q).run) : RunFrame s cap (gather inEof k r next).run := by
  have hip : r.ip + gatherTake r k ≤ s.snap.srcLen.toNat := by
    have := h.used
    unfold gatherTake
    rw [h.snap]
    omega
  have hd : ∀ d, RunFrame s cap { (r.withDec d) with ip := r.ip + gatherTake r k } :=
    fun d => h.of_dec (by simp [DecRun.withDec]) rfl hip
  unfold gather
  simp only
  split
  · split
    · exact h.of_dec rfl rfl hip
    · exact hd _
  · exact hn _ _ (hd _)

theorem magicStage_frame {s : State} {cap : Nat} (f : List Byte) {r : DecRun} (h : RunFrame s cap r) :
    RunFrame s cap (magicStage f r).run := by
  unfold magicStage
  split
  · exact h
  · exact h.of_dec rfl rfl h.used

theorem flgStage_frame {s : State} {cap : Nat} (f : List Byte) {r : DecRun} (h : RunFrame s cap r) :
    RunFrame s cap (flgStage f r).run := by
  unfold flgStage
  simp only
  split
  · exact h.of_dec rfl rfl h.used
  · exact h.of_dec rfl rfl h.used

theorem hcStage_frame {s : State} {cap : Nat} (f : List Byte) {r : DecRun} (h : RunFrame s cap r) :
    RunFrame s cap (hcStage f r).run := by
  unfold hcStage
  simp only
  split
  · exact h
  · exact h.of_dec rfl rfl h.used

theorem blkLenStage_frame {s : State} {cap : Nat} (f : List Byte) {r : DecRun} (h : RunFrame s cap r) :
    RunFrame s cap (blkLenStage f r).run := by
  unfold blkLenStage
  simp only
  split
  · exact h.of_dec rfl rfl h.used
  · split
    · exact h.of_dec rfl rfl h.used
    · exact h.of_dec rfl rfl h.used

theorem decodeCurrent_frame {s : State} {cap : Nat} {r : DecRun} (h : RunFrame s cap r) :
    RunFrame s cap (decodeCurrent r).run := by
  unfold decodeCurrent
  simp only
  split
  · exact h
  · exact h.of_dec rfl rfl h.used

theorem payloadStage_frame {s : State} {cap : Nat} (f : List Byte) {r : DecRun} (h : RunFrame s cap r) :
    RunFrame s cap (payloadStage f r).run := by
  unfold payloadStage
  simp only
  split
  · exact h.of_dec rfl rfl h.used
  · exact decodeCurrent_frame (h.of_dec rfl rfl h.used)

theorem bcsumStage_frame {s : State} {cap : Nat} (f : List Byte) {r : DecRun} (h : RunFrame s cap r) :
    RunFrame s cap (bcsumStage f r).run := by
  unfold bcsumStage
  split
  · exact h
  · exact decodeCurrent_frame h

theorem serveStage_frame {s : State} {cap : Nat} {r : DecRun} (h : RunFrame s cap r) (hne : r.served ≠ cap) :
    RunFrame s cap (serveStage cap r).run := by
  have hr := h.room
  have hsn := h.snap
  set t := min (cap - r.served) (r.state.dec.outBuf.length - r.state.dec.servePos) with ht
  have hlen : ((r.state.dec.outBuf.drop r.state.dec.servePos).take t).length = t := by
    simp; omega
  have hmem : (serveStage cap r).run.state.mem =
      r.state.mem.writeBytes (s.snap.dstAddr.toNat + r.served)
        ((r.state.dec.outBuf.drop r.state.dec.servePos).take t) := by
    rw [← hsn]; rfl
  have hserved : (serveStage cap r).run.served = r.served + t := rfl
  refine ⟨?_, ?_, h.used, ?_, ?_, fun h0 => by omega⟩
  · have := h.rest
    unfold serveStage DecStep.run State.memWrite
    simp only
    rw [this]
  · rw [hserved]; omega
  · intro a ha
    rw [hserved] at ha
    rw [hmem, Memory.read_writeBytes]
    split
    · next hin => rw [hlen] at hin; omega
    · exact h.outside a (by omega)
  · intro h1 h2
    rw [hmem]
    refine Memory.wf_writeBytes _ _ _ (h.wf h1 h2) (Or.inr ?_)
    rw [hlen]
    omega

/-- One stage stays in the frame (R313). -/
theorem decStage_frame {s : State} {cap : Nat} (opening inEof : Bool) {r : DecRun} (h : RunFrame s cap r) :
    RunFrame s cap (decStage opening inEof cap r).run := by
  unfold decStage
  split
  · exact gather_frame _ _ _ h fun f q hq => magicStage_frame f hq
  · exact gather_frame _ _ _ h fun f q hq => flgStage_frame f hq
  · exact gather_frame _ _ _ h fun f q hq => hq.of_dec rfl rfl hq.used
  · exact gather_frame _ _ _ h fun f q hq => hq.of_dec rfl rfl hq.used
  · exact gather_frame _ _ _ h fun f q hq => hq.of_dec rfl rfl hq.used
  · exact gather_frame _ _ _ h fun f q hq => hcStage_frame f hq
  · split
    · exact h
    · exact gather_frame _ _ _ h fun f q hq => blkLenStage_frame f hq
  · exact gather_frame _ _ _ h fun f q hq => payloadStage_frame f hq
  · exact gather_frame _ _ _ h fun f q hq => bcsumStage_frame f hq
  · split
    · exact h
    · next hne => exact serveStage_frame h hne
  · exact h

theorem decLoop_frame {s : State} {cap : Nat} (opening inEof : Bool) (n : Nat) {r : DecRun} (h : RunFrame s cap r) :
    RunFrame s cap (decLoop opening inEof cap n r).run := by
  induction n generalizing r with
  | zero => exact h
  | succ n ih =>
    have hs := decStage_frame opening inEof h
    unfold decLoop
    split
    · next r1 h1 => rw [h1] at hs; exact ih hs
    · next e h1 => rw [h1] at hs; exact hs

/-- A frame run writes the decoder's own registers and the DST bytes it serves, at most `cap` of them, and takes at most
SRC_LEN input bytes (R313, R325). -/
theorem frameRun_frame (opening inEof : Bool) (cap : Nat) (s : State) :
    RunFrame s cap (frameRun opening inEof cap s).run :=
  decLoop_frame opening inEof _ (RunFrame.start s cap)

/-! ### The flags a run ends with (R318, R324) -/

/-- A run does not stop for input and at the end of the frame at once. -/
def DecEnd.FlagsOk : DecEnd → Prop
  | .stop _ needInput frameEnd => ¬ (needInput = true ∧ frameEnd = true)
  | .fail _ _ => True

/-- The stage goes on, or ends with proper flags. -/
def DecStep.FlagsOk : DecStep → Prop
  | .more _ => True
  | .halt e => e.FlagsOk

theorem gather_flags (inEof : Bool) (k : Nat) (r : DecRun) (next : List Byte → DecRun → DecStep)
    (hn : ∀ f q, (next f q).FlagsOk) : (gather inEof k r next).FlagsOk := by
  unfold gather
  simp only
  split
  · split
    · trivial
    · simp [DecStep.stop, DecStep.FlagsOk, DecEnd.FlagsOk]
  · exact hn _ _

theorem decodeCurrent_flags (r : DecRun) : (decodeCurrent r).FlagsOk := by
  unfold decodeCurrent
  simp only
  split <;> trivial

theorem decStage_flags (opening inEof : Bool) (cap : Nat) (r : DecRun) :
    (decStage opening inEof cap r).FlagsOk := by
  unfold decStage
  split
  · refine gather_flags _ _ _ _ fun f q => ?_
    unfold magicStage
    split <;> trivial
  · refine gather_flags _ _ _ _ fun f q => ?_
    unfold flgStage
    simp only
    split <;> trivial
  · exact gather_flags _ _ _ _ fun f q => trivial
  · exact gather_flags _ _ _ _ fun f q => trivial
  · exact gather_flags _ _ _ _ fun f q => trivial
  · refine gather_flags _ _ _ _ fun f q => ?_
    unfold hcStage
    simp only
    split <;> trivial
  · split
    · simp [DecStep.stop, DecStep.FlagsOk, DecEnd.FlagsOk]
    · refine gather_flags _ _ _ _ fun f q => ?_
      unfold blkLenStage
      simp only
      split
      · trivial
      · split <;> trivial
  · refine gather_flags _ _ _ _ fun f q => ?_
    unfold payloadStage
    simp only
    split
    · trivial
    · exact decodeCurrent_flags _
  · refine gather_flags _ _ _ _ fun f q => ?_
    unfold bcsumStage
    split
    · trivial
    · exact decodeCurrent_flags _
  · split
    · simp [DecStep.stop, DecStep.FlagsOk, DecEnd.FlagsOk]
    · trivial
  · simp [DecStep.stop, DecStep.FlagsOk, DecEnd.FlagsOk]

theorem decLoop_flags (opening inEof : Bool) (cap n : Nat) (r : DecRun) :
    (decLoop opening inEof cap n r).FlagsOk := by
  induction n generalizing r with
  | zero => simp [decLoop, DecEnd.FlagsOk]
  | succ n ih =>
    have h := decStage_flags opening inEof cap r
    unfold decLoop
    split
    · exact ih _
    · next e h1 => rw [h1] at h; exact h

/-! ### The bound on stages -/

/-- The weight of a stage: how many stages that read nothing may still follow it. -/
def stageWeight (full : Bool) (g : DecStage) : Nat :=
  match g with
  | .magic => 7
  | .flg => 6
  | .bd => 5
  | .csize => 4
  | .dictId => 3
  | .hc => 2
  | .blkLen => 1
  | .payload => 5
  | .bcsum => 4
  | .serve => if full then 2 else 3
  | .finish => 0

theorem weight_afterCsize (b : Bool) (flg : Byte) : stageWeight b (afterCsize flg) ≤ 3 := by
  unfold afterCsize
  split <;> simp [stageWeight]

theorem weight_afterBd (b c : Bool) (flg : Byte) : stageWeight b (if c then .csize else afterCsize flg) ≤ 4 := by
  cases c
  · exact (weight_afterCsize b flg).trans (by omega)
  · simp [stageWeight]

/-- What every stage that goes on uses up. -/
def runMeasure (cap : Nat) (r : DecRun) : Nat :=
  4 * (r.state.snap.srcLen.toNat - r.ip) + stageWeight (r.served == cap) r.state.dec.stage +
    if r.state.dec.field = [] then 0 else 8

theorem gather_more {inEof : Bool} {k : Nat} {r q : DecRun} {next : List Byte → DecRun → DecStep}
    (h : gather inEof k r next = .more q) :
    k ≤ r.state.dec.soFar.length + gatherTake r k ∧
      next (gathered r k) ({ (r.withDec { r.state.dec with field := [] }) with ip := r.ip + gatherTake r k }) = .more q := by
  unfold gather at h
  simp only at h
  split at h
  · split at h
    · simp [DecStep.fail] at h
    · simp [DecStep.stop] at h
  · next hlen =>
    refine ⟨?_, h⟩
    simpa [gathered, State.memRead] using hlen

/-- A field stage that goes on to a lighter stage uses something up. -/
theorem runMeasure_lt {cap : Nat} {r q : DecRun} {g : DecStage} (hst : r.state.dec.stage = g)
    (hs : q.state.snap = r.state.snap) (hi : r.ip ≤ q.ip) (hf : q.state.dec.field = [])
    (hw : ∀ b, stageWeight b q.state.dec.stage < stageWeight true g ∧ stageWeight true g = stageWeight false g) :
    runMeasure cap q < runMeasure cap r := by
  have h1 := hw (q.served == cap)
  have h2 : stageWeight (r.served == cap) g = stageWeight true g := by
    cases (r.served == cap)
    · exact h1.2.symm
    · rfl
  unfold runMeasure
  rw [hs, hf, hst, h2]
  simp only [if_true]
  omega

theorem decodeCurrent_measure {cap : Nat} {r r0 q : DecRun} {g : DecStage} (h : decodeCurrent r = .more q)
    (hst : r0.state.dec.stage = g) (hg : g = .payload ∨ g = .bcsum) (hs : r.state.snap = r0.state.snap)
    (hi : r0.ip ≤ r.ip) (hf : r.state.dec.field = []) : runMeasure cap q < runMeasure cap r0 := by
  unfold decodeCurrent at h
  simp only at h
  split at h
  · simp [DecStep.fail] at h
  · cases h
    refine runMeasure_lt hst hs hi hf ?_
    intro b
    rcases hg with rfl | rfl <;> cases b <;> simp [stageWeight, DecRun.withDec]

theorem blkLen_measure {inEof : Bool} {cap : Nat} {r q : DecRun} (hst : r.state.dec.stage = .blkLen)
    (h : gather inEof 4 r blkLenStage = .more q) : runMeasure cap q < runMeasure cap r := by
  obtain ⟨h1, h2⟩ := gather_more h
  have hip : gatherTake r 4 ≤ r.state.snap.srcLen.toNat - r.ip := by unfold gatherTake; omega
  have hso : r.state.dec.soFar = r.state.dec.field := by unfold Decoder.soFar; rw [hst]
  rw [hso] at h1
  have key : r.state.dec.field = [] → 4 ≤ gatherTake r 4 := by
    intro h0; rw [h0] at h1; simpa using h1
  unfold blkLenStage at h2
  simp only at h2
  split at h2
  · cases h2
    refine runMeasure_lt hst rfl (Nat.le_add_right _ _) rfl ?_
    intro b; cases b <;> simp [stageWeight, DecRun.withDec]
  · split at h2
    · simp [DecStep.fail] at h2
    · cases h2
      simp only [runMeasure, stageWeight, DecRun.withDec, hst, if_true]
      split
      · next h0 => have := key h0; omega
      · omega

theorem serve_measure {cap : Nat} {r q : DecRun} (hst : r.state.dec.stage = .serve) (hr : r.served ≤ cap)
    (hne : r.served ≠ cap) (h : serveStage cap r = .more q) : runMeasure cap q < runMeasure cap r := by
  unfold serveStage at h
  cases h
  have hb : (r.served == cap) = false := by simpa using hne
  simp only [runMeasure, hst, hb, State.memWrite_snap]
  generalize hT : min (cap - r.served) (r.state.dec.outBuf.length - r.state.dec.servePos) = t
  by_cases hd : r.state.dec.outBuf.length ≤ r.state.dec.servePos + t
  · rw [if_pos hd]
    cases (r.served + t == cap) <;> simp only [stageWeight, Bool.false_eq_true, if_false] <;> omega
  · rw [if_neg hd]
    have : (r.served + t == cap) = true := beq_iff_eq.2 (by omega)
    rw [this]
    simp only [stageWeight]
    simp only [if_true, Bool.false_eq_true, if_false]
    omega

/-- A stage that goes on uses something up. -/
theorem decStage_measure {opening inEof : Bool} {cap : Nat} {r q : DecRun} (hr : r.served ≤ cap)
    (h : decStage opening inEof cap r = .more q) : runMeasure cap q < runMeasure cap r := by
  unfold decStage at h
  split at h
  · next hst =>
    obtain ⟨_, h2⟩ := gather_more h
    unfold magicStage at h2
    split at h2
    · simp [DecStep.fail] at h2
    · cases h2
      exact runMeasure_lt hst rfl (Nat.le_add_right _ _) rfl (by intro b; cases b <;> simp [stageWeight, DecRun.withDec])
  · next hst =>
    obtain ⟨_, h2⟩ := gather_more h
    unfold flgStage at h2
    simp only at h2
    split at h2
    · simp [DecStep.fail] at h2
    · cases h2
      exact runMeasure_lt hst rfl (Nat.le_add_right _ _) rfl (by intro b; cases b <;> simp [stageWeight])
  · next hst =>
    obtain ⟨_, h2⟩ := gather_more h
    cases h2
    exact runMeasure_lt hst rfl (Nat.le_add_right _ _) rfl
      fun b => ⟨lt_of_le_of_lt (weight_afterBd b _ _) (by simp [stageWeight]), rfl⟩
  · next hst =>
    obtain ⟨_, h2⟩ := gather_more h
    cases h2
    exact runMeasure_lt hst rfl (Nat.le_add_right _ _) rfl
      fun b => ⟨lt_of_le_of_lt (weight_afterCsize b _) (by simp [stageWeight]), rfl⟩
  · next hst =>
    obtain ⟨_, h2⟩ := gather_more h
    unfold dictIdStage at h2
    cases h2
    exact runMeasure_lt hst rfl (Nat.le_add_right _ _) rfl (by intro b; cases b <;> simp [stageWeight])
  · next hst =>
    obtain ⟨_, h2⟩ := gather_more h
    unfold hcStage at h2
    simp only at h2
    split at h2
    · simp [DecStep.fail] at h2
    · cases h2
      exact runMeasure_lt hst rfl (Nat.le_add_right _ _) rfl (by intro b; cases b <;> simp [stageWeight, DecRun.withDec])
  · next hst =>
    split at h
    · simp [DecStep.stop] at h
    · exact blkLen_measure hst h
  · next hst =>
    obtain ⟨_, h2⟩ := gather_more h
    unfold payloadStage at h2
    simp only at h2
    split at h2
    · cases h2
      exact runMeasure_lt hst rfl (Nat.le_add_right _ _) rfl (by intro b; cases b <;> simp [stageWeight, DecRun.withDec])
    · exact decodeCurrent_measure h2 hst (Or.inl rfl) rfl (Nat.le_add_right _ _) rfl
  · next hst =>
    obtain ⟨_, h2⟩ := gather_more h
    unfold bcsumStage at h2
    split at h2
    · simp [DecStep.fail] at h2
    · exact decodeCurrent_measure h2 hst (Or.inr rfl) rfl (Nat.le_add_right _ _) rfl
  · next hst =>
    split at h
    · simp [DecStep.stop] at h
    · next hne => exact serve_measure hst hr hne h
  · simp [DecStep.stop] at h

/-- The bound on stages is never the limit: allowing more changes nothing (R14, log 17). -/
theorem decLoop_enough {s : State} {opening inEof : Bool} {cap : Nat} (n k : Nat) {r : DecRun} (h : RunFrame s cap r)
    (hn : runMeasure cap r < n) : decLoop opening inEof cap (n + k) r = decLoop opening inEof cap n r := by
  induction n generalizing r with
  | zero => omega
  | succ n ih =>
    rw [show n + 1 + k = (n + k) + 1 by omega]
    have hf := decStage_frame opening inEof h
    unfold decLoop
    cases hd : decStage opening inEof cap r with
    | halt e => rfl
    | more q =>
      rw [hd] at hf
      have := decStage_measure h.room hd
      exact ih hf (by omega)

theorem stageWeight_le (b : Bool) (g : DecStage) : stageWeight b g ≤ 7 := by
  cases b <;> cases g <;> decide

theorem runMeasure_bound (cap : Nat) (s : State) : runMeasure cap ⟨s, 0, 0⟩ < stageBound s.snap.srcLen.toNat := by
  have := stageWeight_le (0 == cap) s.dec.stage
  unfold runMeasure stageBound
  simp only
  split <;> omega

/-- frameRun with any larger bound is the same run. -/
theorem frameRun_enough (opening inEof : Bool) (cap k : Nat) (s : State) :
    decLoop opening inEof cap (stageBound s.snap.srcLen.toNat + k) ⟨s, 0, 0⟩ = frameRun opening inEof cap s :=
  decLoop_enough _ k (RunFrame.start s cap) (runMeasure_bound cap s)

/-- A run is known from its first few stages. -/
theorem frameRun_of_loop {opening inEof : Bool} {cap k : Nat} {s : State} {e : DecEnd} (hk : k ≤ 20)
    (h : ∀ n, decLoop opening inEof cap (n + k) ⟨s, 0, 0⟩ = e) : frameRun opening inEof cap s = e := by
  have hb : stageBound s.snap.srcLen.toNat = 4 * s.snap.srcLen.toNat + 20 - k + k := by
    unfold stageBound
    omega
  unfold frameRun
  rw [hb, h]

end Sys2Proof.Machine
end

