-- ==== Sys2Proof/Laws/Engine.lean ====
section
/-! SUPPORT. What the match engine can answer (40_match_engine.md R163-R170): a reported match is a real one, and what a
search does to the index. -/

namespace Sys2Proof.Machine

theorem Sound.none (v : View) (c low limit : Nat) : Sound v c low limit Found.none := Or.inl rfl

/-! ### Comparing bytes -/

theorem matchRun_spec (v : View) (c cand n k : Nat) :
    k ≤ matchRun v c cand n k ∧ matchRun v c cand n k ≤ k + n ∧
      (∀ j, k ≤ j → j < matchRun v c cand n k → v.byte (cand + j) = v.byte (c + j)) ∧
      (matchRun v c cand n k < k + n →
        v.byte (cand + matchRun v c cand n k) ≠ v.byte (c + matchRun v c cand n k)) := by
  induction n generalizing k with
  | zero => simp only [matchRun]; exact ⟨le_rfl, le_rfl, fun j h1 h2 => by omega, fun h => by omega⟩
  | succ n ih =>
    unfold matchRun
    split
    · next h =>
      obtain ⟨h1, h2, h3, h4⟩ := ih (k + 1)
      refine ⟨by omega, by omega, ?_, fun h => h4 (by omega)⟩
      intro j hj1 hj2
      rcases Nat.eq_or_lt_of_le hj1 with rfl | hj
      · exact h
      · exact h3 j hj hj2
    · next h => exact ⟨le_rfl, by omega, fun j h1 h2 => by omega, fun _ => h⟩

/-- matchLen is the longest agreement inside the limit (R163). -/
theorem matchLen_spec (v : View) (c cand limit : Nat) :
    matchLen v c cand limit ≤ limit - c ∧
      (∀ j, j < matchLen v c cand limit → v.byte (cand + j) = v.byte (c + j)) ∧
      (c + matchLen v c cand limit < limit →
        v.byte (cand + matchLen v c cand limit) ≠ v.byte (c + matchLen v c cand limit)) := by
  obtain ⟨_, h2, h3, h4⟩ := matchRun_spec v c cand (limit - c) 0
  refine ⟨by simpa [matchLen] using h2, fun j hj => h3 j (Nat.zero_le _) hj, fun h => h4 ?_⟩
  unfold matchLen at h
  omega

theorem widenRun_spec (v : View) (c cand n k : Nat) :
    k ≤ widenRun v c cand n k ∧ widenRun v c cand n k ≤ k + n ∧
      (∀ j, k ≤ j → j < widenRun v c cand n k → v.byte (c - j - 1) = v.byte (cand - j - 1)) ∧
      (widenRun v c cand n k < k + n →
        v.byte (c - widenRun v c cand n k - 1) ≠ v.byte (cand - widenRun v c cand n k - 1)) := by
  induction n generalizing k with
  | zero => simp only [widenRun]; exact ⟨le_rfl, le_rfl, fun j h1 h2 => by omega, fun h => by omega⟩
  | succ n ih =>
    unfold widenRun
    split
    · next h =>
      obtain ⟨h1, h2, h3, h4⟩ := ih (k + 1)
      refine ⟨by omega, by omega, ?_, fun h => h4 (by omega)⟩
      intro j hj1 hj2
      rcases Nat.eq_or_lt_of_le hj1 with rfl | hj
      · exact h
      · exact h3 j hj hj2
    · next h => exact ⟨le_rfl, by omega, fun j h1 h2 => by omega, fun _ => h⟩

/-- widen moves over equal bytes only, and not below its two bounds (R170). -/
theorem widenBy_spec (v : View) (c cand anchor low : Nat) :
    widenBy v c cand anchor low ≤ c - anchor ∧ widenBy v c cand anchor low ≤ cand - low ∧
      (∀ j, j < widenBy v c cand anchor low → v.byte (c - j - 1) = v.byte (cand - j - 1)) ∧
      (widenBy v c cand anchor low < c - anchor → widenBy v c cand anchor low < cand - low →
        v.byte (c - widenBy v c cand anchor low - 1) ≠ v.byte (cand - widenBy v c cand anchor low - 1)) := by
  obtain ⟨_, h2, h3, h4⟩ := widenRun_spec v c cand (min (c - anchor) (cand - low)) 0
  unfold widenBy
  exact ⟨by omega, by omega, fun j hj => h3 j (Nat.zero_le _) hj, fun _ _ => h4 (by omega)⟩

/-- Equal four-byte values mean four equal bytes (R161). -/
theorem View.seq_inj (v : View) (a b : Nat) (h : v.seq a = v.seq b) (j : Nat) (hj : j < 4) :
    v.byte (a + j) = v.byte (b + j) := by
  simp only [View.seq, leNat] at h
  have h0 := (v.byte a).isLt; have h1 := (v.byte (a + 1)).isLt
  have h2 := (v.byte (a + 2)).isLt; have h3 := (v.byte (a + 3)).isLt
  have g0 := (v.byte b).isLt; have g1 := (v.byte (b + 1)).isLt
  have g2 := (v.byte (b + 2)).isLt; have g3 := (v.byte (b + 3)).isLt
  apply BitVec.eq_of_toNat_eq
  interval_cases j <;> first | omega | (simp only [Nat.add_zero]; omega)

/-- Four equal bytes and the agreement behind them make a sound match. -/
theorem Sound.of_seq (v : View) (c low limit cand : Nat) (hc : c + 4 ≤ limit) (hlt : cand < c) (hlow : low ≤ cand)
    (hd : c - cand ≤ Config.maxDistance) (hs : v.seq cand = v.seq c) :
    Sound v c low limit ⟨4 + matchLen v (c + 4) (cand + 4) limit, cand⟩ := by
  obtain ⟨h1, h2, _⟩ := matchLen_spec v (c + 4) (cand + 4) limit
  refine Or.inr ⟨by simp, hlt, hlow, hd, by simp only; omega, ?_⟩
  intro j hj
  simp only at hj ⊢
  by_cases h4 : j < 4
  · exact v.seq_inj cand c hs j h4
  · have := h2 (j - 4) (by omega)
    have e1 : cand + 4 + (j - 4) = cand + j := by omega
    have e2 : c + 4 + (j - 4) = c + j := by omega
    rwa [e1, e2] at this

/-! ### The FAST index -/

theorem fastHit_spec (v : View) (c low : Nat) (o : Option Nat) (p : Nat) (h : fastHit v c low o = some p) :
    o = some p ∧ low ≤ p ∧ c - p ≤ Config.maxDistance ∧ v.seq p = v.seq c := by
  unfold fastHit at h
  cases o with
  | none => simp at h
  | some q =>
    simp only at h
    split at h
    · next h1 =>
      split at h
      · next h2 => cases h; exact ⟨rfl, h1.1, h1.2, h2⟩
      · simp at h
    · simp at h

/-- A FAST probe answers a sound match, and inserts the cursor and nothing else (R165). -/
theorem fastProbe_spec (v : View) (x : Index) (c low limit : Nat) (hc : c + 4 ≤ limit) (hx : HeadBelow x c) :
    Sound v c low limit (fastProbe v x c low limit).1 ∧ HeadBelow (fastProbe v x c low limit).2 (c + 1) := by
  have hins : HeadBelow { x with head := Table.set x.head (v.hash .fast c) (some c), lastProbe := some c } (c + 1) := by
    intro h p hp
    rw [Table.get_set] at hp
    split at hp
    · cases hp; omega
    · have := hx h p hp; omega
  unfold fastProbe
  simp only
  split
  · next p hp =>
    obtain ⟨h1, h2, h3, h4⟩ := fastHit_spec v c low _ p hp
    exact ⟨Sound.of_seq v c low limit p hc (hx _ p h1) h2 h3 h4, hins⟩
  · exact ⟨Sound.none v c low limit, hins⟩

/-- A FAST probe writes HEAD and LAST_PROBE only (R165). -/
theorem fastProbe_index (v : View) (x : Index) (c low limit : Nat) :
    (fastProbe v x c low limit).2 =
      { x with head := Table.set x.head (v.hash .fast c) (some c), lastProbe := some c } := by
  unfold fastProbe
  simp only
  split <;> rfl

/-! ### The HC index -/

/-- The index fields no search touches. -/
def SameOwner (x y : Index) : Prop :=
  y.owner = x.owner ∧ y.kind = x.kind ∧ y.base = x.base ∧ y.len = x.len

theorem SameOwner.refl (x : Index) : SameOwner x x := ⟨rfl, rfl, rfl, rfl⟩

theorem SameOwner.trans {x y z : Index} (h : SameOwner x y) (g : SameOwner y z) : SameOwner x z :=
  ⟨g.1.trans h.1, g.2.1.trans h.2.1, g.2.2.1.trans h.2.2.1, g.2.2.2.trans h.2.2.2⟩

theorem chainPrev_spec (p : Nat) (o : Option Nat) (q : Nat) (h : chainPrev p o = some q) : o = some q := by
  unfold chainPrev at h
  cases o with
  | none => simp at h
  | some r => simp only at h; split at h <;> simp_all

theorem hcInsert_spec (v : View) (x : Index) (h : HcIndex x) : HcIndex (hcInsert v x x.nextToUpdate) := by
  obtain ⟨h1, h2⟩ := h
  constructor
  · intro k p hp
    simp only [hcInsert, Table.get_set] at hp ⊢
    split at hp
    · cases hp; omega
    · have := h1 k p hp; omega
  · intro k e he
    simp only [hcInsert, Table.get_set] at he ⊢
    split at he
    · have := h1 _ e (chainPrev_spec _ _ _ he); omega
    · have := h2 k e he; omega

theorem hcInsert_fold (v : View) (n : Nat) (x : Index) (h : HcIndex x) :
    HcIndex ((List.range' x.nextToUpdate n).foldl (hcInsert v) x) ∧
      ((List.range' x.nextToUpdate n).foldl (hcInsert v) x).nextToUpdate = x.nextToUpdate + n ∧
      SameOwner x ((List.range' x.nextToUpdate n).foldl (hcInsert v) x) := by
  induction n generalizing x with
  | zero => exact ⟨by simpa using h, by simp, SameOwner.refl x⟩
  | succ n ih =>
    rw [List.range'_succ, List.foldl_cons]
    have hn : (hcInsert v x x.nextToUpdate).nextToUpdate = x.nextToUpdate + 1 := rfl
    obtain ⟨g1, g2, g3⟩ := ih (hcInsert v x x.nextToUpdate) (hcInsert_spec v x h)
    rw [hn] at g1 g2 g3
    exact ⟨g1, by omega, SameOwner.trans ⟨rfl, rfl, rfl, rfl⟩ g3⟩

/-- Insertion up to a cursor (R166): NEXT_TO_UPDATE moves to the first position not inserted. -/
theorem hcInsertUpTo_spec (v : View) (x : Index) (c limit : Nat) (h : HcIndex x) :
    HcIndex (hcInsertUpTo v x c limit) ∧
      (hcInsertUpTo v x c limit).nextToUpdate = max x.nextToUpdate (min (c + 1) (limit - 3)) ∧
      SameOwner x (hcInsertUpTo v x c limit) := by
  obtain ⟨g1, g2, g3⟩ := hcInsert_fold v (min (c + 1) (limit - 3) - x.nextToUpdate) x h
  exact ⟨g1, by unfold hcInsertUpTo; rw [g2]; omega, g3⟩

/-- The chain walk answers a sound match when every chained position is behind the cursor (R167). -/
theorem hcWalk_sound (v : View) (chain : Table) (c low limit n : Nat) (o : Option Nat) (best : Found)
    (hc : c + 4 ≤ limit) (hchain : ∀ k e, Table.get chain k = some e → e < c)
    (ho : ∀ e, o = some e → e < c) (hb : Sound v c low limit best) :
    Sound v c low limit (hcWalk v chain c low limit n o best) := by
  induction n generalizing o best with
  | zero => cases o <;> exact hb
  | succ n ih =>
    cases o with
    | none => exact hb
    | some cand =>
      unfold hcWalk
      split
      · next hw =>
        simp only
        split
        · next hs =>
          refine ih _ _ (fun e he => hchain _ e he) ?_
          split
          · exact Sound.of_seq v c low limit cand hc (ho cand rfl) hw.1 hw.2 hs
          · exact hb
        · exact ih _ _ (fun e he => hchain _ e he) hb
      · exact hb

/-- HC search from a cursor not below the last inserted position (R167, R168): a sound match; the cursor is inserted. -/
theorem hcFind_spec (v : View) (x : Index) (c low budget limit : Nat) (hx : HcIndex x) (hn : x.nextToUpdate ≤ c + 1)
    (hc : c + 4 ≤ limit) :
    Sound v c low limit (hcFind v x c low budget limit).1 ∧ HcIndex (hcFind v x c low budget limit).2 ∧
      (hcFind v x c low budget limit).2.nextToUpdate = c + 1 ∧ SameOwner x (hcFind v x c low budget limit).2 := by
  obtain ⟨g1, g2, g3⟩ := hcInsertUpTo_spec v x c limit hx
  have hnext : (hcInsertUpTo v x c limit).nextToUpdate = c + 1 := by omega
  have hchain : ∀ k e, Table.get (hcInsertUpTo v x c limit).chain k = some e → e < c := by
    intro k e he
    have := g1.2 k e he
    omega
  exact ⟨hcWalk_sound v _ c low limit budget _ _ hc hchain (fun e he => hchain _ e he) (Sound.none v c low limit),
    g1, hnext, g3⟩

/-- H(p) indexes the head table (R162). -/
theorem hashOf_lt (kind : IdxKind) (x : Nat) : hashOf kind x < 2 ^ hashLog kind := by
  have h : x * Config.hashMultiplier % 2 ^ 32 < 2 ^ 32 := Nat.mod_lt _ (by norm_num)
  unfold hashOf
  cases kind <;> simp only [hashLog, Config.fastHashLog, Config.hcHashLog] at * <;> omega

end Sys2Proof.Machine
end

