-- ==== Sys2Proof/Laws/Parse.lean ====
section
/-! SUPPORT. What every encoder's parse is (41_fast_encoder.md R198, 42_hc_encoder.md R216, 43_optimal_encoder.md R236):
legal matches and literal runs that cover the block once, in order. -/

namespace Sys2Proof.Machine

theorem Tiles.snoc {v : View} {low stop a b : Nat} {l : List Sequence} {q : Sequence}
    (h : Tiles v low stop a l b) (hq : q.Legal v low stop) (hb : q.anchor = b) :
    Tiles v low stop a (l ++ [q]) (q.ip + q.len) := by
  induction l generalizing a with
  | nil => exact ⟨hb.trans h.symm, hq, rfl⟩
  | cons r l ih => exact ⟨h.1, h.2.1, ih h.2.2⟩

theorem Tiles.le {v : View} {low stop a b : Nat} {l : List Sequence} (h : Tiles v low stop a l b) : a ≤ b := by
  induction l generalizing a with
  | nil => exact le_of_eq h
  | cons q l ih => have := ih h.2.2; have := h.2.1.order; have := h.1; omega

theorem Tiles.le_stop {v : View} {low stop a b : Nat} {l : List Sequence} (h : Tiles v low stop a l b)
    (ha : a ≤ stop) : b ≤ stop := by
  induction l generalizing a with
  | nil => exact h ▸ ha
  | cons q l ih => exact ih h.2.2 h.2.1.inside

/-- A sound match, grown by k agreeing bytes in front of it, is a legal sequence. -/
theorem Sequence.legal_of_sound {v : View} {low stop anchor c : Nat} {f : Found} {k : Nat} (hs : Sound v c low stop f)
    (hf : f.len ≠ 0) (ha : anchor ≤ c) (hk1 : k ≤ c - anchor) (hk2 : k ≤ f.cand - low)
    (hk : ∀ j, j < k → v.byte (c - j - 1) = v.byte (f.cand - j - 1)) :
    Sequence.Legal v low stop ⟨anchor, c - k, f.len + k, c - f.cand⟩ := by
  rcases hs with h0 | ⟨h1, h2, h3, h4, h5, h6⟩
  · exact absurd h0 hf
  · refine ⟨by simp only; omega, by simp only; omega, by simp only; omega, by simp only; omega, by simp only; omega, ?_⟩
    intro j hj
    simp only at hj ⊢
    by_cases hjk : j < k
    · have := hk (k - 1 - j) (by omega)
      have e1 : c - (k - 1 - j) - 1 = c - k + j := by omega
      have e2 : f.cand - (k - 1 - j) - 1 = c - k - (c - f.cand) + j := by omega
      rw [e1, e2] at this
      exact this.symm
    · have := h6 (j - k) (by omega)
      have e1 : c + (j - k) = c - k + j := by omega
      have e2 : f.cand + (j - k) = c - k - (c - f.cand) + j := by omega
      rwa [e1, e2] at this

/-- A widened match is a legal sequence (R170). -/
theorem Sequence.legal_widen {v : View} {low stop anchor c : Nat} {f : Found} (hs : Sound v c low stop f)
    (hf : f.len ≠ 0) (ha : anchor ≤ c) :
    Sequence.Legal v low stop ⟨anchor, c - widenBy v c f.cand anchor low, f.len + widenBy v c f.cand anchor low,
      c - f.cand⟩ := by
  obtain ⟨h1, h2, h3, _⟩ := widenBy_spec v c f.cand anchor low
  exact Sequence.legal_of_sound hs hf ha h1 h2 h3

/-- A match taken as it is found is a legal sequence. -/
theorem Sequence.legal_plain {v : View} {low stop anchor c : Nat} {f : Found} (hs : Sound v c low stop f)
    (hf : f.len ≠ 0) (ha : anchor ≤ c) : Sequence.Legal v low stop ⟨anchor, c, f.len, c - f.cand⟩ := by
  have := Sequence.legal_of_sound (k := 0) hs hf ha (Nat.zero_le _) (Nat.zero_le _) (by intro j hj; omega)
  simpa using this

/-- What the encoders keep true of a parse in progress: the sequences so far cover [start, anchor). -/
structure Covering (v : View) (low stop start anchor : Nat) (seqs : List Sequence) : Prop where
  tiles : Tiles v low stop start seqs.reverse anchor
  inside : anchor ≤ stop

theorem Covering.cons {v : View} {low stop start : Nat} {seqs : List Sequence} {q : Sequence}
    (h : Covering v low stop start q.anchor seqs) (hq : q.Legal v low stop) :
    Covering v low stop start (q.ip + q.len) (q :: seqs) := by
  refine ⟨?_, hq.inside⟩
  rw [List.reverse_cons]
  exact h.tiles.snoc hq rfl

/-! ### The fast encoder (R196) -/

/-- What one probe keeps true. -/
structure FastInv (v : View) (low start stop : Nat) (st : FastState) : Prop where
  cover : Covering v low stop start st.anchor st.seqs
  order : st.anchor ≤ st.ip
  tries : 64 ≤ st.attempts
  below : HeadBelow st.index st.ip
  inside : HeadBelow st.index stop

theorem fastStep_pos (n : Nat) (h : 64 ≤ n) : 1 ≤ fastStep n := by
  unfold fastStep Config.skipTrigger Config.stepCap
  have : 1 ≤ n / 2 ^ 6 := by rw [Nat.le_div_iff_mul_le (by norm_num)]; omega
  omega

theorem HeadBelow.mono {x : Index} {m n : Nat} (h : HeadBelow x m) (hmn : m ≤ n) : HeadBelow x n :=
  fun k p hp => lt_of_lt_of_le (h k p hp) hmn

theorem fastAdvance_spec {v : View} {low start stop : Nat} {st : FastState} (h : FastInv v low start stop st)
    (hip : st.ip + 4 ≤ stop) :
    FastInv v low start stop (fastAdvance v low stop st) ∧ st.ip + 1 ≤ (fastAdvance v low stop st).ip := by
  obtain ⟨hs, hb⟩ := fastProbe_spec v st.index st.ip low stop hip h.below
  unfold fastAdvance
  simp only
  split
  · have := fastStep_pos st.attempts h.tries
    refine ⟨⟨h.cover, ?_, ?_, hb.mono ?_, hb.mono (by omega)⟩, ?_⟩
    · have := h.order; simp only; omega
    · have := h.tries; simp only; omega
    · simp only; omega
    · simp only; omega
  · next hf =>
    have hl := Sequence.legal_widen hs hf h.order
    have hlen : 4 ≤ (fastProbe v st.index st.ip low stop).1.len := by
      rcases hs with h0 | h1
      · exact absurd h0 hf
      · exact h1.1
    have hcov := Covering.cons (q := ⟨st.anchor, _, _, _⟩) h.cover hl
    simp only at hcov
    obtain ⟨w1, _⟩ := widenBy_spec v st.ip (fastProbe v st.index st.ip low stop).1.cand st.anchor low
    have e : st.ip - widenBy v st.ip (fastProbe v st.index st.ip low stop).1.cand st.anchor low +
        ((fastProbe v st.index st.ip low stop).1.len +
          widenBy v st.ip (fastProbe v st.index st.ip low stop).1.cand st.anchor low) =
        st.ip + (fastProbe v st.index st.ip low stop).1.len := by omega
    rw [e] at hcov
    refine ⟨⟨hcov, le_rfl, le_of_eq rfl, hb.mono ?_, hb.mono (by omega)⟩, ?_⟩
    · simp only; omega
    · simp only; omega

theorem fastLoop_spec {v : View} {low start stop : Nat} (n : Nat) {st : FastState} (h : FastInv v low start stop st) :
    FastInv v low start stop (fastLoop v low stop n st) ∧
      (stop ≤ st.ip + n → stop < (fastLoop v low stop n st).ip + 4) := by
  induction n generalizing st with
  | zero => exact ⟨h, fun hn => by simp only [fastLoop]; omega⟩
  | succ n ih =>
    unfold fastLoop
    split
    · next hip =>
      obtain ⟨h1, h2⟩ := fastAdvance_spec h hip
      obtain ⟨g1, g2⟩ := ih h1
      exact ⟨g1, fun hn => g2 (by omega)⟩
    · exact ⟨h, fun _ => by omega⟩

theorem fastParse_inv (v : View) (x : Index) (start stop low : Nat) (hx : HeadBelow x start) (hs : start ≤ stop) :
    FastInv v low start stop (fastLoop v low stop (stop - start)
      { ip := start, anchor := start, attempts := 2 ^ Config.skipTrigger, index := x, seqs := [] }) ∧
    stop < (fastLoop v low stop (stop - start)
      { ip := start, anchor := start, attempts := 2 ^ Config.skipTrigger, index := x, seqs := [] }).ip + 4 := by
  have h0 : FastInv v low start stop
      { ip := start, anchor := start, attempts := 2 ^ Config.skipTrigger, index := x, seqs := [] } :=
    ⟨⟨rfl, hs⟩, le_rfl, le_of_eq rfl, hx, hx.mono hs⟩
  obtain ⟨h1, h2⟩ := fastLoop_spec (stop - start) h0
  exact ⟨h1, h2 (by simp only; omega)⟩

/-- The fast parse covers the block and leaves no position of the block or behind it in the head table (R196, R198). -/
theorem fastParse_covers (v : View) (x : Index) (start stop low : Nat) (hx : HeadBelow x start) (hs : start ≤ stop) :
    (fastParse v x start stop low).Covers v low start stop ∧ HeadBelow (fastParse v x start stop low).index stop := by
  obtain ⟨h, _⟩ := fastParse_inv v x start stop low hx hs
  exact ⟨⟨h.cover.tiles, h.cover.inside⟩, h.inside⟩

/-! ### The HC encoder (R211) -/

/-- What one cursor of the HC encoder keeps true. -/
structure HcInv (v : View) (low start stop : Nat) (st : HcState) : Prop where
  cover : Covering v low stop start st.anchor st.seqs
  order : st.anchor ≤ st.ip
  index : HcIndex st.index
  next : st.index.nextToUpdate ≤ st.ip + 1
  inside : st.index.nextToUpdate ≤ stop

/-- What the lazy step keeps true: the chosen match is real. -/
structure LazyInv (v : View) (low stop floor : Nat) (st : LazyState) : Prop where
  sound : Sound v st.ip low stop st.best
  some : st.best.len ≠ 0
  order : floor ≤ st.ip
  index : HcIndex st.index
  inside : st.index.nextToUpdate ≤ stop

theorem Sound.len_pos {v : View} {c low limit : Nat} {f : Found} (h : Sound v c low limit f) (hf : f.len ≠ 0) :
    4 ≤ f.len ∧ c + f.len ≤ limit := by
  rcases h with h0 | h1
  · exact absurd h0 hf
  · exact ⟨h1.1, h1.2.2.2.2.1⟩

theorem lookAt_spec {v : View} {low stop budget floor k : Nat} {st : LazyState} (h : LazyInv v low stop floor st)
    (hn : st.index.nextToUpdate ≤ st.ip + k + 1) :
    HcIndex (lookAt v low stop budget st k).2 ∧
      (lookAt v low stop budget st k).2.nextToUpdate ≤ st.ip + k + 1 ∧
      (lookAt v low stop budget st k).2.nextToUpdate ≤ stop ∧
      ∀ m, (lookAt v low stop budget st k).1 = some m → Sound v (st.ip + k) low stop m ∧ m.len ≠ 0 := by
  unfold lookAt
  split
  · next hk =>
    obtain ⟨g1, g2, g3, _⟩ := hcFind_spec v st.index (st.ip + k) low budget stop h.index hn hk
    refine ⟨g2, by simp only; omega, by simp only; omega, ?_⟩
    intro m hm
    simp only at hm
    split at hm
    · cases hm; exact ⟨g1, by omega⟩
    · simp at hm
  · exact ⟨h.index, hn, h.inside, by simp⟩

theorem lazyLoop_spec {v : View} {low stop budget floor : Nat} (n : Nat) {st : LazyState}
    (h : LazyInv v low stop floor st) (hn : st.index.nextToUpdate ≤ st.ip + 1) :
    LazyInv v low stop floor (lazyLoop v low stop budget n st) ∧
      (lazyLoop v low stop budget n st).index.nextToUpdate ≤ (lazyLoop v low stop budget n st).ip + 3 := by
  induction n generalizing st with
  | zero => exact ⟨h, by simp only [lazyLoop]; omega⟩
  | succ n ih =>
    obtain ⟨a1, a2, a3, a4⟩ := lookAt_spec (budget := budget) (k := 1) h (by omega)
    unfold lazyLoop
    split
    · next m x hm =>
      rw [hm] at a1 a2 a3 a4
      obtain ⟨s1, s2⟩ := a4 m rfl
      exact ih ⟨s1, s2, by have := h.order; simp only; omega, a1, a3⟩ (by simpa using a2)
    · next x hm =>
      rw [hm] at a1 a2 a3 a4
      have h' : LazyInv v low stop floor { st with index := x } := ⟨h.sound, h.some, h.order, a1, a3⟩
      obtain ⟨b1, b2, b3, b4⟩ := lookAt_spec (budget := budget) (k := 2) h' (by simp only at a2 ⊢; omega)
      split
      · next m y hy =>
        rw [hy] at b1 b2 b3 b4
        obtain ⟨s1, s2⟩ := b4 m rfl
        exact ih ⟨s1, s2, by have := h.order; simp only; omega, b1, b3⟩ (by simpa using b2)
      · next y hy =>
        rw [hy] at b1 b2 b3 b4
        exact ⟨⟨h.sound, h.some, h.order, b1, b3⟩, by simpa using b2⟩

theorem hcAdvance_spec {v : View} {low start stop budget : Nat} {st : HcState} (h : HcInv v low start stop st)
    (hip : st.ip + 4 ≤ stop) :
    HcInv v low start stop (hcAdvance v low stop budget st) ∧ st.ip + 1 ≤ (hcAdvance v low stop budget st).ip := by
  obtain ⟨g1, g2, g3, _⟩ := hcFind_spec v st.index st.ip low budget stop h.index h.next hip
  unfold hcAdvance
  simp only
  split
  · refine ⟨⟨h.cover, ?_, g2, ?_, ?_⟩, le_rfl⟩
    · have := h.order; simp only; omega
    · simp only; omega
    · simp only; omega
  · next hf =>
    have hl : LazyInv v low stop st.ip
        ⟨st.ip, (hcFind v st.index st.ip low budget stop).1, (hcFind v st.index st.ip low budget stop).2⟩ :=
      ⟨g1, hf, le_rfl, g2, by simp only; omega⟩
    obtain ⟨z, zn⟩ := lazyLoop_spec (budget := budget) (stop - st.ip) hl (by simp only; omega)
    generalize lazyLoop v low stop budget (stop - st.ip) _ = y at z zn
    have hord : st.anchor ≤ y.ip := le_trans h.order z.order
    obtain ⟨w1, _⟩ := widenBy_spec v y.ip y.best.cand st.anchor low
    have hcov := Covering.cons (q := ⟨st.anchor, _, _, _⟩) h.cover (Sequence.legal_widen z.sound z.some hord)
    simp only at hcov
    have e : y.ip - widenBy v y.ip y.best.cand st.anchor low +
        (y.best.len + widenBy v y.ip y.best.cand st.anchor low) = y.ip + y.best.len := by omega
    rw [e] at hcov
    have hp := z.sound.len_pos z.some
    have := z.order
    exact ⟨⟨hcov, le_rfl, z.index, by simp only; omega, z.inside⟩, by simp only; omega⟩

theorem hcLoop_spec {v : View} {low start stop budget : Nat} (n : Nat) {st : HcState}
    (h : HcInv v low start stop st) :
    HcInv v low start stop (hcLoop v low stop budget n st) ∧
      (stop ≤ st.ip + n → stop < (hcLoop v low stop budget n st).ip + 4) := by
  induction n generalizing st with
  | zero => exact ⟨h, fun hn => by simp only [hcLoop]; omega⟩
  | succ n ih =>
    unfold hcLoop
    split
    · next hip =>
      obtain ⟨h1, h2⟩ := hcAdvance_spec (budget := budget) h hip
      obtain ⟨g1, g2⟩ := ih h1
      exact ⟨g1, fun hn => g2 (by omega)⟩
    · exact ⟨h, fun _ => by omega⟩

/-- The HC parse covers the block and keeps the index in order (R211, R214, R216). -/
theorem hcParse_covers (v : View) (x : Index) (level start stop low : Nat) (hx : HcIndex x)
    (hn : x.nextToUpdate ≤ start) (hs : start ≤ stop) :
    (hcParse v x level start stop low).Covers v low start stop ∧
      HcIndex (hcParse v x level start stop low).index ∧
      (hcParse v x level start stop low).index.nextToUpdate ≤ stop := by
  have h0 : HcInv v low start stop { ip := start, anchor := start, index := x, seqs := [] } :=
    ⟨⟨rfl, hs⟩, le_rfl, hx, by simp only; omega, by simp only; omega⟩
  obtain ⟨h, _⟩ := hcLoop_spec (budget := Config.nbSearches level) (stop - start) h0
  exact ⟨⟨h.cover.tiles, h.cover.inside⟩, h.index, h.inside⟩

end Sys2Proof.Machine
end

