-- ==== Sys2Proof/Laws/ParseOpt.lean ====
section
/-! SUPPORT. The optimal parse covers the block (43_optimal_encoder.md R231, R236), and with it every parse of
41_fast_encoder.md R190. -/

namespace Sys2Proof.Machine

/-- A match from node i of a table whose node 0 is position ip is real (R231). -/
def EdgeOk (v : View) (ip low stop i len off : Nat) : Prop :=
  4 ≤ len ∧ ip + i + len ≤ stop ∧ 1 ≤ off ∧ off ≤ 65535 ∧ low + off ≤ ip + i ∧
    ∀ j, j < len → v.byte (ip + i - off + j) = v.byte (ip + i + j)

/-- The entry of node i says truly how it was reached (R231). -/
def NodeOk (v : View) (ip low stop i : Nat) (e : Node) : Prop :=
  match e.origin with
  | .start => True
  | .literal j => j + 1 = i
  | .copy j len off => j + len = i ∧ EdgeOk v ip low stop j len off

/-- Every entry of the table is true. -/
def TableOk (v : View) (ip low stop : Nat) (t : Prices) : Prop :=
  ∀ i e, t.at i = some e → NodeOk v ip low stop i e

theorem Prices.at_set (t : Prices) (i j : Nat) (x : Option Node) (e : Node)
    (h : Prices.at (t.setIfInBounds i x) j = some e) : (i = j ∧ x = some e) ∨ t.at j = some e := by
  unfold Prices.at at *
  rw [Array.getD_eq_getD_getElem?] at *
  rw [Array.getElem?_setIfInBounds] at h
  split at h
  · next hij =>
    split at h
    · exact Or.inl ⟨hij, by simpa using h⟩
    · simp at h
  · exact Or.inr h

theorem TableOk.offer {v : View} {ip low stop : Nat} {t : Prices} (h : TableOk v ip low stop t) (i : Nat) (n : Node)
    (hn : NodeOk v ip low stop i n) : TableOk v ip low stop (t.offer i n) := by
  have hset : TableOk v ip low stop (t.setIfInBounds i (some n)) := by
    intro j e he
    rcases t.at_set i j _ e he with ⟨rfl, h1⟩ | h1
    · cases h1; exact hn
    · exact h j e h1
  unfold Prices.offer
  split
  · exact hset
  · split
    · exact hset
    · exact h

theorem TableOk.relaxLit {v : View} {ip low stop : Nat} {t : Prices} (h : TableOk v ip low stop t) (i : Nat) :
    TableOk v ip low stop (relaxLit t i) := by
  unfold Machine.relaxLit
  split
  · exact h
  · exact h.offer (i + 1) _ rfl

theorem EdgeOk.shorter {v : View} {ip low stop i len off m : Nat} (h : EdgeOk v ip low stop i len off) (hm : 4 ≤ m)
    (hml : m ≤ len) : EdgeOk v ip low stop i m off := by
  obtain ⟨_, h2, h3, h4, h5, h6⟩ := h
  exact ⟨hm, by omega, h3, h4, h5, fun j hj => h6 j (by omega)⟩

theorem TableOk.relaxMatch {v : View} {ip low stop : Nat} {t : Prices} (h : TableOk v ip low stop t) (i len off : Nat)
    (he : EdgeOk v ip low stop i len off) : TableOk v ip low stop (relaxMatch t i len off) := by
  unfold Machine.relaxMatch
  split
  · exact h
  · next n _ =>
    have key : ∀ (l : List Nat) (u : Prices), (∀ m ∈ l, 4 ≤ m ∧ m ≤ len) → TableOk v ip low stop u →
        TableOk v ip low stop
          (l.foldl (fun u m => u.offer (i + m) ⟨n.price + matchPrice m, 0, .copy i m off⟩) u) := by
      intro l
      induction l with
      | nil => intro u _ hu; exact hu
      | cons m l ih =>
        intro u hl hu
        have hm := hl m (List.mem_cons_self ..)
        exact ih _ (fun k hk => hl k (List.mem_cons_of_mem _ hk))
          (hu.offer (i + m) _ ⟨rfl, he.shorter hm.1 hm.2⟩)
    refine key _ t ?_ h
    intro m hm
    simp only [List.mem_range'_1] at hm
    have := he.1
    omega

/-- A sound match found at node i is a real edge. -/
theorem EdgeOk.of_sound {v : View} {ip low stop i : Nat} {f : Found} (hs : Sound v (ip + i) low stop f)
    (hf : f.len ≠ 0) : EdgeOk v ip low stop i f.len (ip + i - f.cand) := by
  have := Sequence.legal_plain (anchor := ip + i) hs hf le_rfl
  exact ⟨this.long, this.inside, this.near.1, this.near.2, this.above, this.same⟩

theorem firstTable_ok {v : View} {ip anchor low stop len off : Nat} (he : EdgeOk v ip low stop 0 len off) :
    TableOk v ip low stop (firstTable ip anchor stop len off) := by
  unfold firstTable
  simp only
  refine TableOk.relaxMatch (TableOk.relaxLit ?_ 0) 0 len off he
  intro j e h
  rcases Prices.at_set _ 0 j _ e h with ⟨_, h1⟩ | h1
  · cases h1; trivial
  · unfold Prices.at at h1
    rw [Array.getD_eq_getD_getElem?, Array.getElem?_replicate] at h1
    split at h1 <;> simp at h1

/-! ### The fill loop -/

/-- What the fill loop keeps true (R231, R236). -/
structure FillInv (v : View) (ip low stop : Nat) (f : FillState) : Prop where
  table : TableOk v ip low stop f.table
  index : HcIndex f.index
  inside : f.index.nextToUpdate ≤ stop
  order : f.node ≤ f.last
  size : 4 ≤ f.last ∧ ip + f.last ≤ stop
  next : f.forced = none → f.index.nextToUpdate ≤ ip + f.node
  taken : ∀ i m, f.forced = some (i, m) → Sound v (ip + i) low stop m ∧ m.len ≠ 0 ∧ f.index.nextToUpdate ≤ ip + i + 1

theorem fillNode_spec {v : View} {ip low stop budget suff : Nat} {f : FillState} (h : FillInv v ip low stop f)
    (hf : f.forced = none) (hlt : f.node < f.last) : FillInv v ip low stop (fillNode v ip low stop budget suff f) := by
  have hnext := h.next hf
  have hs := h.size
  unfold fillNode
  simp only
  split
  · next hc =>
    obtain ⟨g1, g2, g3, _⟩ := hcFind_spec v f.index (ip + f.node) low budget stop h.index (by omega) hc
    split
    · exact ⟨h.table.relaxLit _, g2, by simp only; omega, by simp only; omega, hs, fun _ => by simp only; omega,
        fun i m hm => by simp [hf] at hm⟩
    · next hlen =>
      split
      · refine ⟨h.table.relaxLit _, g2, by simp only; omega, h.order, hs, fun hn => by simp at hn, ?_⟩
        intro i m hm
        simp only [Option.some.injEq, Prod.mk.injEq] at hm
        obtain ⟨rfl, rfl⟩ := hm
        exact ⟨g1, hlen, by simp only; omega⟩
      · have hp := g1.len_pos hlen
        exact ⟨(h.table.relaxLit _).relaxMatch _ _ _ (EdgeOk.of_sound g1 hlen), g2, by simp only; omega,
          by simp only; omega, by simp only; omega, fun _ => by simp only; omega, fun i m hm => by simp [hf] at hm⟩
  · exact ⟨h.table.relaxLit _, h.index, h.inside, by simp only; omega, hs, fun _ => by simp only; omega,
      fun i m hm => by simp [hf] at hm⟩

theorem fillLoop_spec {v : View} {ip low stop budget suff : Nat} (n : Nat) {f : FillState}
    (h : FillInv v ip low stop f) : FillInv v ip low stop (fillLoop v ip low stop budget suff n f) := by
  induction n generalizing f with
  | zero => exact h
  | succ n ih =>
    unfold fillLoop
    split
    · next hc => exact ih (fillNode_spec h hc.1 hc.2)
    · exact h

/-! ### Walking back and emitting -/

/-- The matches of a path are real and in order between two nodes. -/
def PathOk (v : View) (ip low stop : Nat) : Nat → List (Nat × Nat × Nat) → Nat → Prop
  | a, [], b => a ≤ b
  | a, (i, len, off) :: rest, b => a ≤ i ∧ EdgeOk v ip low stop i len off ∧ PathOk v ip low stop (i + len) rest b

theorem PathOk.weaken {v : View} {ip low stop a a' b : Nat} {l : List (Nat × Nat × Nat)}
    (h : PathOk v ip low stop a l b) (ha : a' ≤ a) : PathOk v ip low stop a' l b := by
  cases l with
  | nil => exact le_trans ha h
  | cons q l =>
    obtain ⟨i, len, off⟩ := q
    exact ⟨le_trans ha h.1, h.2⟩

theorem tracePath_ok {v : View} {ip low stop b : Nat} {t : Prices} (ht : TableOk v ip low stop t) (n : Nat) {i : Nat}
    {acc : List (Nat × Nat × Nat)} (h : PathOk v ip low stop i acc b) :
    PathOk v ip low stop 0 (tracePath t n i acc) b := by
  induction n generalizing i acc with
  | zero => exact h.weaken (Nat.zero_le _)
  | succ n ih =>
    unfold tracePath
    split
    · exact h.weaken (Nat.zero_le _)
    · next e he =>
      have hn := ht i e he
      unfold NodeOk at hn
      split
      · exact h.weaken (Nat.zero_le _)
      · next j ho =>
        rw [ho] at hn
        simp only at hn
        exact ih (h.weaken (by omega))
      · next j len off ho =>
        rw [ho] at hn
        obtain ⟨h1, h2⟩ := hn
        exact ih ⟨le_rfl, h2, by rw [h1]; exact h⟩

theorem emitPath_spec {v : View} {ip low start stop a b : Nat} (l : List (Nat × Nat × Nat)) {st : OptState}
    (h : Covering v low stop start st.anchor st.seqs) (ha : st.anchor ≤ ip + a) (hl : PathOk v ip low stop a l b) :
    Covering v low stop start (emitPath ip l st).anchor (emitPath ip l st).seqs ∧
      (emitPath ip l st).anchor ≤ ip + b ∧ (emitPath ip l st).index = st.index := by
  induction l generalizing a st with
  | nil => exact ⟨h, by have : a ≤ b := hl; simp only [emitPath]; omega, rfl⟩
  | cons q l ih =>
    obtain ⟨i, len, off⟩ := q
    obtain ⟨h1, ⟨e1, e2, e3, e4, e5, e6⟩, h2⟩ := hl
    have hq : Sequence.Legal v low stop ⟨st.anchor, ip + i, len, off⟩ :=
      ⟨by simp only; omega, e1, e2, ⟨e3, e4⟩, e5, e6⟩
    have hc := Covering.cons (q := ⟨st.anchor, ip + i, len, off⟩) h hq
    unfold emitPath
    exact ih (st := { st with anchor := ip + i + len, seqs := ⟨st.anchor, ip + i, len, off⟩ :: st.seqs }) hc
      (by simp only; omega) h2

/-! ### The encoder -/

/-- What one cursor of the optimal encoder keeps true. -/
structure OptInv (v : View) (low start stop : Nat) (st : OptState) : Prop where
  cover : Covering v low stop start st.anchor st.seqs
  order : st.anchor ≤ st.ip
  index : HcIndex st.index
  next : st.index.nextToUpdate ≤ st.ip + 1
  inside : st.index.nextToUpdate ≤ stop

theorem optTable_spec {v : View} {low start stop budget suff : Nat} {st : OptState} {m0 : Found}
    (h : OptInv v low start stop st) (hs : Sound v st.ip low stop m0) (hm : m0.len ≠ 0) :
    OptInv v low start stop (optTable v low stop budget suff st m0) ∧
      st.ip + 1 ≤ (optTable v low stop budget suff st m0).ip := by
  have hp := hs.len_pos hm
  have he : EdgeOk v st.ip low stop 0 m0.len (st.ip - m0.cand) := by
    have := EdgeOk.of_sound (ip := st.ip) (i := 0) (by simpa using hs) hm
    simpa using this
  have h0 : FillInv v st.ip low stop
      { node := 1, last := m0.len, table := firstTable st.ip st.anchor stop m0.len (st.ip - m0.cand),
        index := st.index, forced := none } :=
    ⟨firstTable_ok he, h.index, h.inside, by simp only; omega, by simp only; omega,
      fun _ => h.next, fun i m hm => by simp at hm⟩
  have hf := fillLoop_spec (budget := budget) (suff := suff) Config.optNum h0
  unfold optTable
  simp only
  generalize fillLoop v st.ip low stop budget suff Config.optNum _ = f at hf ⊢
  split
  · next s m hfm =>
    obtain ⟨t1, t2, t3⟩ := hf.taken s m hfm
    have hpath : PathOk v st.ip low stop 0 (tracePath f.table s s []) s :=
      tracePath_ok hf.table s (show PathOk v st.ip low stop s [] s from le_rfl)
    obtain ⟨c1, c2, c3⟩ := emitPath_spec (st := { st with index := f.index }) _ h.cover
      (by have := h.order; simp only; omega) hpath
    have hl := Sequence.legal_plain t1 t2 c2
    have hc := Covering.cons (q := ⟨_, st.ip + s, m.len, st.ip + s - m.cand⟩) c1 hl
    have hpm := t1.len_pos t2
    refine ⟨⟨hc, le_rfl, ?_, ?_, ?_⟩, by simp only; omega⟩
    · simp only [c3]; exact hf.index
    · simp only [c3]; omega
    · simp only [c3]; exact hf.inside
  · next hfm =>
    have hpath : PathOk v st.ip low stop 0 (tracePath f.table f.last f.last []) f.last :=
      tracePath_ok hf.table f.last (show PathOk v st.ip low stop f.last [] f.last from le_rfl)
    obtain ⟨c1, c2, c3⟩ := emitPath_spec (st := { st with index := f.index }) _ h.cover
      (by have := h.order; simp only; omega) hpath
    have hn := hf.next hfm
    have ho := hf.order
    have hsz := hf.size
    refine ⟨⟨c1, c2, ?_, ?_, ?_⟩, by simp only; omega⟩
    · simp only [c3]; exact hf.index
    · simp only [c3]; omega
    · simp only [c3]; exact hf.inside

theorem optAdvance_spec {v : View} {low start stop budget suff : Nat} {st : OptState} (h : OptInv v low start stop st)
    (hip : st.ip + 4 ≤ stop) :
    OptInv v low start stop (optAdvance v low stop budget suff st) ∧
      st.ip + 1 ≤ (optAdvance v low stop budget suff st).ip := by
  obtain ⟨g1, g2, g3, _⟩ := hcFind_spec v st.index st.ip low budget stop h.index h.next hip
  unfold optAdvance
  simp only
  split
  · refine ⟨⟨h.cover, ?_, g2, ?_, ?_⟩, le_rfl⟩
    · have := h.order; simp only; omega
    · simp only; omega
    · simp only; omega
  · next hf =>
    have hp := g1.len_pos hf
    split
    · have hc := Covering.cons (q := ⟨st.anchor, st.ip, _, _⟩) h.cover (Sequence.legal_plain g1 hf h.order)
      exact ⟨⟨hc, le_rfl, g2, by simp only; omega, by simp only; omega⟩, by simp only; omega⟩
    · exact optTable_spec
        (st := { st with index := (hcFind v st.index st.ip low budget stop).2 })
        ⟨h.cover, h.order, g2, by simp only; omega, by simp only; omega⟩ g1 hf

theorem optLoop_spec {v : View} {low start stop budget suff : Nat} (n : Nat) {st : OptState}
    (h : OptInv v low start stop st) :
    OptInv v low start stop (optLoop v low stop budget suff n st) ∧
      (stop ≤ st.ip + n → stop < (optLoop v low stop budget suff n st).ip + 4) := by
  induction n generalizing st with
  | zero => exact ⟨h, fun hn => by simp only [optLoop]; omega⟩
  | succ n ih =>
    unfold optLoop
    split
    · next hip =>
      obtain ⟨h1, h2⟩ := optAdvance_spec (budget := budget) (suff := suff) h hip
      obtain ⟨g1, g2⟩ := ih h1
      exact ⟨g1, fun hn => g2 (by omega)⟩
    · exact ⟨h, fun _ => by omega⟩

/-- The optimal parse covers the block and keeps the index in order (R231, R236). -/
theorem optParse_covers (v : View) (x : Index) (level start stop low : Nat) (hx : HcIndex x)
    (hn : x.nextToUpdate ≤ start) (hs : start ≤ stop) :
    (optParse v x level start stop low).Covers v low start stop ∧
      HcIndex (optParse v x level start stop low).index ∧
      (optParse v x level start stop low).index.nextToUpdate ≤ stop := by
  have h0 : OptInv v low start stop { ip := start, anchor := start, index := x, seqs := [] } :=
    ⟨⟨rfl, hs⟩, le_rfl, hx, by simp only; omega, by simp only; omega⟩
  obtain ⟨h, _⟩ := optLoop_spec (budget := Config.nbSearches level) (suff := Config.sufficientLen level) (stop - start) h0
  exact ⟨⟨h.cover.tiles, h.cover.inside⟩, h.index, h.inside⟩

/-! ### Every level -/

theorem FitIndex.clear (level : Nat) (x : Index) (start : Nat) : FitIndex level (x.clear start) start := by
  unfold FitIndex
  split
  · intro h p hp; simp [Index.clear, Table.get_nil] at hp
  · refine ⟨⟨fun h p hp => ?_, fun k e he => ?_⟩, le_rfl⟩
    · simp [Index.clear, Table.get_nil] at hp
    · simp [Index.clear, Table.get_nil] at he

/-- Every encoder's parse covers the block, and leaves the index fit for the next block (R190, R198). -/
theorem parseBlock_covers (v : View) (x : Index) (level start stop low : Nat) (hx : FitIndex level x start)
    (hs : start ≤ stop) :
    (parseBlock v x level start stop low).Covers v low start stop ∧
      FitIndex level (parseBlock v x level start stop low).index stop := by
  unfold FitIndex parseBlock at *
  split
  · next h0 =>
    rw [if_pos h0] at hx
    exact fastParse_covers v x start stop low hx hs
  · next h0 =>
    rw [if_neg h0] at hx
    split
    · exact hcParse_covers v x level start stop low hx.1 hx.2 hs
    · exact optParse_covers v x level start stop low hx.1 hx.2 hs

end Sys2Proof.Machine
end

