-- ==== Sys2Proof/Laws/Emit.lean ====
section
/-! SUPPORT. The emitted bytes (30_encoding.md R120-R126, 41_fast_encoder.md R192): their size (R195, R199), and what the
block decoder makes of them (R198, 44_block_decoder.md R260). -/

namespace Sys2Proof.Machine

/-! ### Slices of a view -/

@[simp] theorem View.length_slice (v : View) (lo hi : Nat) : (v.slice lo hi).length = hi - lo := by
  simp [View.slice]

theorem View.slice_self (v : View) (a : Nat) : v.slice a a = [] := by simp [View.slice]

theorem View.slice_append (v : View) (a b c : Nat) (h1 : a ≤ b) (h2 : b ≤ c) :
    v.slice a b ++ v.slice b c = v.slice a c := by
  unfold View.slice
  rw [← List.map_append]
  congr 1
  have := List.range'_append (s := a) (m := b - a) (n := c - b) (step := 1)
  have e1 : a + 1 * (b - a) = b := by omega
  have e2 : (b - a) + (c - b) = c - a := by omega
  rw [e1, e2] at this
  exact this

theorem View.slice_succ (v : View) (a b : Nat) (h : a ≤ b) : v.slice a (b + 1) = v.slice a b ++ [v.byte b] := by
  rw [← v.slice_append a b (b + 1) h (Nat.le_succ b)]
  have : b + 1 - b = 1 := by omega
  simp [View.slice, this, List.range'_succ]

theorem View.slice_getD (v : View) (a b i : Nat) (d : Byte) (h : i < b - a) : (v.slice a b).getD i d = v.byte (a + i) := by
  rw [List.getD_eq_getElem?_getD, View.slice, List.getElem?_map, List.getElem?_range' h]
  simp

/-- The view of a byte string shows that string. -/
theorem View.slice_ofList (base : Nat) (bs : List Byte) :
    (View.ofList base bs).slice base (base + bs.length) = bs := by
  apply List.ext_getElem
  · simp
  · intro i h1 h2
    simp only [View.slice, List.getElem_map, List.getElem_range']
    simp [View.byte, View.ofList, h2]

/-- A part of the view of a byte string is that part of the string. -/
theorem View.slice_ofList_mid (base : Nat) (bs : List Byte) (a b : Nat) (ha : base ≤ a) (hb : b ≤ base + bs.length) :
    (View.ofList base bs).slice a b = (bs.drop (a - base)).take (b - a) := by
  apply List.ext_getElem
  · simp; omega
  · intro i h1 h2
    simp only [View.length_slice] at h1
    have h3 : a + i - base < bs.length := by omega
    have h4 : a - base + i < bs.length := by omega
    have e : a + i - base = a - base + i := by omega
    simp only [View.slice, List.getElem_map, List.getElem_range', List.getElem_take, List.getElem_drop]
    simp [View.byte, View.ofList, show base ≤ a + i by omega, e, h4]

/-! ### Length fields -/

theorem readExt_run (q r acc : Nat) (rest : List Byte) (hr : r < 255) :
    readExt (List.replicate q 0xFF#8 ++ BitVec.ofNat 8 r :: rest) acc = some (acc + 255 * q + r, rest) := by
  induction q generalizing acc with
  | zero =>
    have h : BitVec.ofNat 8 r ≠ 0xFF#8 := by
      intro h
      have := congrArg BitVec.toNat h
      simp only [BitVec.toNat_ofNat] at this
      omega
    have h2 : (BitVec.ofNat 8 r).toNat = r := by simp only [BitVec.toNat_ofNat]; omega
    simp [readExt, h]
    omega
  | succ q ih =>
    rw [List.replicate_succ, List.cons_append]
    unfold readExt
    rw [if_pos rfl, ih]
    congr 2
    omega

/-- A length field reads back as the length it was written for (R121, R125). -/
theorem readLength_lenExt (n : Nat) (rest : List Byte) : readLength (min n 15) (lenExt n ++ rest) = some (n, rest) := by
  unfold readLength lenExt
  by_cases h : n < 15
  · rw [if_pos h, if_neg (by omega), List.nil_append]
    congr 2
    omega
  · rw [if_neg h, if_pos (by omega), List.append_assoc, List.singleton_append,
      readExt_run _ _ _ _ (Nat.mod_lt _ (by norm_num))]
    congr 2
    have := Nat.div_add_mod (n - 15) 255
    omega

theorem length_lenExt (n : Nat) : (lenExt n).length = extLen n := by
  unfold lenExt extLen
  split
  · rfl
  · simp; omega

theorem tokenByte_toNat (a b : Nat) : (tokenByte a b).toNat = min a 15 * 16 + min b 15 := by
  unfold tokenByte
  simp only [BitVec.toNat_ofNat]
  omega

/-! ### Sizes (R126, R199) -/

theorem length_emitSeq (v : View) (q : Sequence) :
    (emitSeq v q).length = 1 + extLen (q.ip - q.anchor) + (q.ip - q.anchor) + 2 + extLen (q.len - 4) := by
  simp [emitSeq, length_lenExt]
  omega

theorem length_emitLast (v : View) (anchor stop : Nat) :
    (emitLast v anchor stop).length = 1 + extLen (stop - anchor) + (stop - anchor) := by
  simp [emitLast, length_lenExt]
  omega

theorem extLen_literals (n : Nat) : extLen n ≤ n / 255 + 1 := by
  unfold extLen
  split
  · omega
  · have : (n - 15) / 255 ≤ n / 255 := Nat.div_le_div_right (by omega)
    omega

theorem extLen_match (m : Nat) (h : 4 ≤ m) : 3 + extLen (m - 4) ≤ m - 1 := by
  unfold extLen
  split
  · omega
  · have := Nat.div_mul_le_self (m - 4 - 15) 255
    omega

theorem length_emitSeq_le (v : View) (q : Sequence) (h : 4 ≤ q.len) :
    (emitSeq v q).length ≤ (q.ip - q.anchor) + q.len + (q.ip - q.anchor) / 255 := by
  rw [length_emitSeq]
  have h1 := extLen_literals (q.ip - q.anchor)
  have h2 := extLen_match q.len h
  omega

/-- The output bound of R199, for any parse that covers the block. -/
theorem length_emit_le {v : View} {low stop a b : Nat} {seqs : List Sequence} (h : Tiles v low stop a seqs b)
    (hb : b ≤ stop) :
    (seqs.flatMap (emitSeq v) ++ emitLast v b stop).length ≤ (stop - a) + (stop - a) / 255 + 2 := by
  induction seqs generalizing a with
  | nil =>
    have hab : a = b := h
    subst hab
    have := extLen_literals (stop - a)
    simp only [List.flatMap_nil, List.nil_append, length_emitLast]
    omega
  | cons q qs ih =>
    obtain ⟨h1, h2, h3⟩ := h
    have h4 := ih h3
    have h5 := length_emitSeq_le v q h2.long
    have h6 := h3.le
    have h7 := h2.order
    simp only [List.flatMap_cons, List.append_assoc, List.length_append] at h4 ⊢
    have h8 : (q.ip - q.anchor) / 255 + (stop - (q.ip + q.len)) / 255 ≤ (stop - a) / 255 := by omega
    omega

/-- Any parse that covers its block takes at most the bound of R199, however it was found. -/
theorem length_emitBlockBytes_le {v : View} {low start stop : Nat} {p : Parse} (h : p.Covers v low start stop) :
    (emitBlockBytes v p stop).length ≤ payloadBound (stop - start) := length_emit_le h.1 h.2

/-- The bound of R199 is below the compress bound of R195. -/
theorem payloadBound_lt_compressBound (n : Nat) : payloadBound n < compressBound n := by
  unfold payloadBound compressBound
  omega

/-- A terminal sequence takes at most two bytes more than its literals and a byte for each 255 of them (R199). -/
theorem length_emitLast_le (v : View) (anchor stop : Nat) :
    (emitLast v anchor stop).length ≤ (stop - anchor) + 2 + (stop - anchor) / 255 := by
  rw [length_emitLast]
  have := extLen_literals (stop - anchor)
  omega

/-- The block payload of every level meets the bound of R199. -/
theorem length_encodeBlock_le (v : View) (x : Index) (level start stop low : Nat) (hx : FitIndex level x start)
    (hs : start ≤ stop) :
    (encodeBlock v x level start stop low).1.length ≤ payloadBound (stop - start) :=
  length_emitBlockBytes_le (parseBlock_covers v x level start stop low hx hs).1

/-! ### Decoding what was emitted -/

theorem byteBehind_slice (v : View) (low start a off : Nat) (h1 : low ≤ start) (h2 : start ≤ a) (h3 : 1 ≤ off)
    (h4 : low + off ≤ a) :
    byteBehind (v.slice low start).toArray (v.slice start a).toArray off = v.byte (a - off) := by
  unfold byteBehind
  simp only [List.size_toArray, View.length_slice]
  split
  · next h =>
    have := v.slice_getD start a (a - start - off) 0#8 (by omega)
    have e : start + (a - start - off) = a - off := by omega
    rw [e] at this
    simpa [Array.getD_eq_getD_getElem?, List.getD_eq_getElem?_getD] using this
  · next h =>
    have := v.slice_getD low start (start - low + (a - start) - off) 0#8 (by omega)
    have e : low + (start - low + (a - start) - off) = a - off := by omega
    rw [e] at this
    simpa [Array.getD_eq_getD_getElem?, List.getD_eq_getElem?_getD] using this

/-- Match replay copies forward, byte by byte (R257). -/
theorem replay_slice (v : View) (low start a off n : Nat) (h1 : low ≤ start) (h2 : start ≤ a) (h3 : 1 ≤ off)
    (h4 : low + off ≤ a) (hs : ∀ j, j < n → v.byte (a - off + j) = v.byte (a + j)) :
    replay (v.slice low start).toArray off n (v.slice start a).toArray = (v.slice start (a + n)).toArray := by
  induction n generalizing a with
  | zero => rfl
  | succ n ih =>
    unfold replay
    rw [byteBehind_slice v low start a off h1 h2 h3 h4]
    have h0 := hs 0 (Nat.succ_pos n)
    simp only [Nat.add_zero] at h0
    rw [h0, List.push_toArray, ← v.slice_succ start a h2]
    have := ih (a + 1) (by omega) (by omega) (by
      intro j hj
      have := hs (j + 1) (by omega)
      have e1 : a - off + (j + 1) = a + 1 - off + j := by omega
      have e2 : a + (j + 1) = a + 1 + j := by omega
      rwa [e1, e2] at this)
    rw [this]
    congr 2
    omega

theorem decodeLiterals_emit (cap : Nat) (eoo : Bool) (v : View) (start a b m : Nat) (rest : List Byte) (h1 : start ≤ a)
    (h2 : a ≤ b) (hcap : b - start ≤ cap) :
    decodeLiterals cap eoo ((tokenByte (b - a) m).toNat / 16) (lenExt (b - a) ++ (v.slice a b ++ rest))
        (v.slice start a).toArray = .ok (rest, (v.slice start b).toArray) := by
  unfold decodeLiterals
  rw [tokenByte_toNat]
  have e : (min (b - a) 15 * 16 + min m 15) / 16 = min (b - a) 15 := by omega
  rw [e, readLength_lenExt]
  simp only [List.length_append, View.length_slice, List.size_toArray]
  rw [if_neg (by omega), if_neg (by omega)]
  have hl : (v.slice a b).length = b - a := by simp
  rw [List.drop_append_of_le_length (by omega), List.take_append_of_le_length (by omega), ← hl, List.drop_length,
    List.take_length, List.nil_append, List.append_toArray, v.slice_append start a b h1 h2]

theorem decodeMatch_emit (cap : Nat) (eoo : Bool) (v : View) (low start : Nat) (q : Sequence) (stop : Nat)
    (rest : List Byte) (hq : q.Legal v low stop) (h1 : low ≤ start) (h2 : start ≤ q.ip) (hcap : stop - start ≤ cap)
    (l : Nat) :
    decodeMatch cap eoo (v.slice low start).toArray ((tokenByte l (q.len - 4)).toNat % 16)
        (leBytes 2 q.off ++ (lenExt (q.len - 4) ++ rest)) (v.slice start q.ip).toArray =
      .ok (rest, (v.slice start (q.ip + q.len)).toArray) := by
  have e1 : leBytes 2 q.off = [BitVec.ofNat 8 q.off, BitVec.ofNat 8 (q.off / 256)] := rfl
  have hoff : leNat [BitVec.ofNat 8 q.off, BitVec.ofNat 8 (q.off / 256)] = q.off := by
    rw [← e1]; exact leNat_leBytes 2 q.off (by have := hq.near.2; norm_num; omega)
  rw [e1]
  unfold decodeMatch
  simp only [List.cons_append, List.nil_append, hoff, List.size_toArray, View.length_slice, Config.minMatch]
  have hn := hq.near
  have ha := hq.above
  have hi := hq.inside
  have hl := hq.long
  rw [if_neg (by omega), if_neg (by omega), tokenByte_toNat]
  have e2 : (min l 15 * 16 + min (q.len - 4) 15) % 16 = min (q.len - 4) 15 := by omega
  have e3 : q.len - 4 + 4 = q.len := by omega
  rw [e2, readLength_lenExt]
  simp only [e3]
  rw [if_neg (by omega), replay_slice v low start q.ip q.off q.len h1 h2 hn.1 (by omega) hq.same]

/-- The decoder turns the emitted bytes of a covering parse back into the block (R198 (c), R260): at end on input size
nothing follows the block; at end on output size anything may follow it, and is left. -/
theorem decodeLoop_emit (cap : Nat) (eoo : Bool) (v : View) (low start stop : Nat) (tail : List Byte)
    (hcap : stop - start ≤ cap) (hin : eoo = false → tail = []) (hout : eoo = true → cap = stop - start)
    (h1 : low ≤ start) (seqs : List Sequence) (n a b : Nat) (h : Tiles v low stop a seqs b) (h2 : start ≤ a)
    (hb : b ≤ stop) (hn : seqs.length < n) :
    decodeLoop cap eoo (v.slice low start).toArray n (seqs.flatMap (emitSeq v) ++ emitLast v b stop ++ tail)
        (v.slice start a).toArray = .ok (tail, (v.slice start stop).toArray) := by
  induction seqs generalizing n a with
  | nil =>
    have hab : a = b := h
    subst hab
    obtain ⟨k, rfl⟩ : ∃ k, n = k + 1 := ⟨n - 1, by simp at hn; omega⟩
    simp only [List.flatMap_nil, List.nil_append, emitLast, List.cons_append, List.append_assoc]
    unfold decodeLoop
    rw [decodeLiterals_emit cap eoo v start a stop 0 tail h2 hb (by omega)]
    have hbd : atBoundary cap eoo tail (v.slice start stop).toArray = true := by
      unfold atBoundary
      cases eoo with
      | false => simp [hin rfl]
      | true => simp [hout rfl]
    simp only [hbd, if_true]
  | cons q qs ih =>
    obtain ⟨hqa, hq, hqs⟩ := h
    have ho := hq.order
    have hle := hqs.le
    obtain ⟨k, rfl⟩ : ∃ k, n = k + 1 := ⟨n - 1, by simp at hn; omega⟩
    simp only [List.flatMap_cons, emitSeq, List.cons_append, List.append_assoc]
    unfold decodeLoop
    subst hqa
    rw [decodeLiterals_emit cap eoo v start q.anchor q.ip (q.len - 4) _ h2 ho
      (by have := hq.inside; omega)]
    have hbd : ∀ r, atBoundary cap eoo (leBytes 2 q.off ++ r) (v.slice start q.ip).toArray = false := by
      intro r
      unfold atBoundary
      cases eoo with
      | false => simp [leBytes]
      | true =>
        have := hq.inside
        have := hq.long
        have := hout rfl
        simp
        omega
    simp only [hbd, Bool.false_eq_true, if_false]
    rw [decodeMatch_emit cap eoo v low start q stop _ hq h1 (by omega) hcap]
    simp only
    have := ih k (q.ip + q.len) hqs (by omega) (by simp at hn; omega)
    simpa [List.append_assoc] using this

theorem length_seqs_lt (v : View) (seqs : List Sequence) (b stop : Nat) :
    seqs.length < (seqs.flatMap (emitSeq v) ++ emitLast v b stop).length := by
  induction seqs with
  | nil => simp [emitLast]
  | cons q qs ih =>
    simp only [List.flatMap_cons, List.append_assoc, List.length_append, List.length_cons] at ih ⊢
    have : 1 ≤ (emitSeq v q).length := by simp [emitSeq]
    omega

/-- The payload of every level decodes to the block, with the bytes below the block as dictionary (R198 (c), R260). -/
theorem decodeBlock_encodeBlock (v : View) (x : Index) (level start stop low cap : Nat) (eoo : Bool) (tail : List Byte)
    (hx : FitIndex level x start) (hs : start ≤ stop) (hlow : low ≤ start) (hcap : stop - start ≤ cap)
    (hin : eoo = false → tail = []) (hout : eoo = true → cap = stop - start) :
    decodeBlock ((encodeBlock v x level start stop low).1 ++ tail) cap eoo (v.slice low start) =
      .ok (v.slice start stop, (encodeBlock v x level start stop low).1.length) := by
  obtain ⟨⟨h1, h2⟩, _⟩ := parseBlock_covers v x level start stop low hx hs
  unfold decodeBlock encodeBlock emitBlockBytes
  simp only
  have hlen := length_seqs_lt v (parseBlock v x level start stop low).seqs
    (parseBlock v x level start stop low).anchor stop
  have key := decodeLoop_emit cap eoo v low start stop tail hcap hin hout hlow
    (parseBlock v x level start stop low).seqs
    ((parseBlock v x level start stop low).seqs.flatMap (emitSeq v) ++
      emitLast v (parseBlock v x level start stop low).anchor stop ++ tail).length
    start (parseBlock v x level start stop low).anchor h1 le_rfl h2
    (lt_of_lt_of_le hlen (by simp only [List.length_append]; omega))
  rw [v.slice_self] at key
  rw [key]
  simp only [List.length_append]
  congr 2
  omega

end Sys2Proof.Machine
end

