-- ==== Sys2Proof/Laws/Owner.lean ====
section
/-! SUPPORT. No search and no encoder touches the index's owner, kind, base or length (10_state.md R47). -/

namespace Sys2Proof.Machine

theorem fastProbe_owner (v : View) (x : Index) (c low limit : Nat) : SameOwner x (fastProbe v x c low limit).2 := by
  rw [fastProbe_index]
  exact ⟨rfl, rfl, rfl, rfl⟩

theorem hcInsertUpTo_owner (v : View) (x : Index) (c limit : Nat) : SameOwner x (hcInsertUpTo v x c limit) := by
  unfold hcInsertUpTo
  generalize List.range' x.nextToUpdate _ = l
  induction l generalizing x with
  | nil => exact SameOwner.refl x
  | cons p l ih => exact SameOwner.trans ⟨rfl, rfl, rfl, rfl⟩ (ih (hcInsert v x p))

theorem hcFind_owner (v : View) (x : Index) (c low budget limit : Nat) :
    SameOwner x (hcFind v x c low budget limit).2 := hcInsertUpTo_owner v x c limit

theorem indexClear_owner (x : Index) (n : Nat) : SameOwner x (x.clear n) := ⟨rfl, rfl, rfl, rfl⟩

theorem fastLoop_owner (v : View) (low stop n : Nat) (st : FastState) :
    SameOwner st.index (fastLoop v low stop n st).index := by
  induction n generalizing st with
  | zero => exact SameOwner.refl _
  | succ n ih =>
    unfold fastLoop
    split
    · refine SameOwner.trans ?_ (ih _)
      unfold fastAdvance
      simp only
      split <;> exact fastProbe_owner v st.index st.ip low stop
    · exact SameOwner.refl _

theorem lookAt_owner (v : View) (low stop budget : Nat) (st : LazyState) (k : Nat) :
    SameOwner st.index (lookAt v low stop budget st k).2 := by
  unfold lookAt
  split
  · exact hcFind_owner v st.index _ low budget stop
  · exact SameOwner.refl _

theorem lazyLoop_owner (v : View) (low stop budget n : Nat) (st : LazyState) :
    SameOwner st.index (lazyLoop v low stop budget n st).index := by
  induction n generalizing st with
  | zero => exact SameOwner.refl _
  | succ n ih =>
    have h1 := lookAt_owner v low stop budget st 1
    unfold lazyLoop
    split
    · next m x hm => rw [hm] at h1; exact h1.trans (ih ⟨st.ip + 1, m, x⟩)
    · next x hm =>
      rw [hm] at h1
      have h2 := lookAt_owner v low stop budget { st with index := x } 2
      split
      · next m y hy => rw [hy] at h2; exact (h1.trans h2).trans (ih ⟨st.ip + 2, m, y⟩)
      · next y hy => rw [hy] at h2; exact h1.trans h2

theorem hcLoop_owner (v : View) (low stop budget n : Nat) (st : HcState) :
    SameOwner st.index (hcLoop v low stop budget n st).index := by
  induction n generalizing st with
  | zero => exact SameOwner.refl _
  | succ n ih =>
    unfold hcLoop
    split
    · refine SameOwner.trans ?_ (ih _)
      have h1 := hcFind_owner v st.index st.ip low budget stop
      unfold hcAdvance
      simp only
      split
      · exact h1
      · exact h1.trans (lazyLoop_owner v low stop budget (stop - st.ip) ⟨st.ip, _, _⟩)
    · exact SameOwner.refl _

theorem emitPath_index (ip : Nat) (l : List (Nat × Nat × Nat)) (st : OptState) :
    (emitPath ip l st).index = st.index := by
  induction l generalizing st with
  | nil => rfl
  | cons q l ih => obtain ⟨i, len, off⟩ := q; exact ih _

theorem fillLoop_owner (v : View) (ip low stop budget suff n : Nat) (f : FillState) :
    SameOwner f.index (fillLoop v ip low stop budget suff n f).index := by
  induction n generalizing f with
  | zero => exact SameOwner.refl _
  | succ n ih =>
    unfold fillLoop
    split
    · refine SameOwner.trans ?_ (ih _)
      have h1 := hcFind_owner v f.index (ip + f.node) low budget stop
      unfold fillNode
      simp only
      split
      · split
        · exact h1
        · split <;> exact h1
      · exact SameOwner.refl _
    · exact SameOwner.refl _

theorem optLoop_owner (v : View) (low stop budget suff n : Nat) (st : OptState) :
    SameOwner st.index (optLoop v low stop budget suff n st).index := by
  induction n generalizing st with
  | zero => exact SameOwner.refl _
  | succ n ih =>
    unfold optLoop
    split
    · refine SameOwner.trans ?_ (ih _)
      have h1 := hcFind_owner v st.index st.ip low budget stop
      unfold optAdvance
      simp only
      split
      · exact h1
      · split
        · exact h1
        · unfold optTable
          simp only
          have h2 := fillLoop_owner v st.ip low stop budget suff Config.optNum
            { node := 1, last := (hcFind v st.index st.ip low budget stop).1.len,
              table := firstTable st.ip st.anchor stop (hcFind v st.index st.ip low budget stop).1.len
                (st.ip - (hcFind v st.index st.ip low budget stop).1.cand),
              index := (hcFind v st.index st.ip low budget stop).2, forced := none }
          generalize fillLoop v st.ip low stop budget suff Config.optNum _ = f at h2 ⊢
          split <;> simp only [emitPath_index] <;> exact h1.trans h2
    · exact SameOwner.refl _

/-- An encoder leaves the index's owner, kind, base and length (R190). -/
theorem encodeBlock_owner (v : View) (x : Index) (level start stop low : Nat) :
    SameOwner x (encodeBlock v x level start stop low).2 := by
  unfold encodeBlock parseBlock
  simp only
  split
  · exact fastLoop_owner v low stop _ _
  · split
    · exact hcLoop_owner v low stop _ _ _
    · exact optLoop_owner v low stop _ _ _ _

end Sys2Proof.Machine
end

