-- ==== Sys2Proof/Laws/Stream.lean ====
section
/-! SUPPORT. The frame encoder's block stream (45_frame_encoder.md R287-R294): what emitting a block and taking content
bytes do to the stream context and the index, and how long the output is. -/

namespace Sys2Proof.Machine

/-! ### One block (R288) -/

/-- The payload of the pending block (R288). -/
def blockPayload (e : Encoder) (x : Index) (soFar : Nat) : List Byte × Index :=
  encodeBlock (View.ofList (soFar - e.buf.length - e.hist.length) (e.hist ++ e.buf))
    (if e.chained then x else x.clear (soFar - e.buf.length)) e.level.toNat (soFar - e.buf.length)
    (soFar - e.buf.length + e.buf.length)
    (if e.chained then soFar - e.buf.length - e.hist.length else soFar - e.buf.length)

/-- The history behind the pending block (R288). -/
def nextHistory (e : Encoder) : List Byte :=
  if e.chained then lastBytes Config.window (e.hist ++ e.buf) else e.hist

theorem emitBlock_eq (e : Encoder) (x : Index) (soFar : Nat) :
    emitBlock e x soFar =
      (blockBytes (blockPayload e x soFar).1 e.buf, { e with buf := [], hist := nextHistory e },
        (blockPayload e x soFar).2) := rfl

theorem length_blockBytes (payload c : List Byte) : (blockBytes payload c).length ≤ c.length + 4 := by
  unfold blockBytes
  split <;> simp <;> omega

/-- A block takes at most four bytes more than its content (R291). -/
theorem length_emitBlock (e : Encoder) (x : Index) (soFar : Nat) :
    (emitBlock e x soFar).1.length ≤ e.buf.length + 4 := length_blockBytes _ _

theorem emitBlock_owner (e : Encoder) (x : Index) (soFar : Nat) : SameOwner x (emitBlock e x soFar).2.2 := by
  rw [emitBlock_eq]
  unfold blockPayload
  split
  · exact encodeBlock_owner _ _ _ _ _ _
  · exact (indexClear_owner x _).trans (encodeBlock_owner _ _ _ _ _ _)

theorem length_nextHistory (e : Encoder) :
    (nextHistory e).length ≤ e.hist.length + e.buf.length ∧
      (e.hist.length ≤ Config.window → (nextHistory e).length ≤ Config.window) ∧
      (e.chained = false → nextHistory e = e.hist) := by
  unfold nextHistory
  cases e.chained <;> simp [length_lastBytes]

/-- The index the payload's encoder starts from is fit for its position. -/
theorem startIndex_fit (e : Encoder) (x : Index) (n : Nat) (h : e.chained = true → FitIndex e.level.toNat x n) :
    FitIndex e.level.toNat (if e.chained then x else x.clear n) n := by
  split
  · next hc => exact h hc
  · exact FitIndex.clear _ x n

/-- A chained stream's index stays fit for the next block (R214, R289). -/
theorem emitBlock_fit (e : Encoder) (x : Index) (soFar : Nat) (hc : e.buf.length ≤ soFar)
    (h : e.chained = true → FitIndex e.level.toNat x (soFar - e.buf.length)) :
    FitIndex e.level.toNat (emitBlock e x soFar).2.2 soFar := by
  rw [emitBlock_eq]
  unfold blockPayload encodeBlock
  simp only
  have := (parseBlock_covers (View.ofList (soFar - e.buf.length - e.hist.length) (e.hist ++ e.buf))
    (if e.chained then x else x.clear (soFar - e.buf.length)) e.level.toNat (soFar - e.buf.length)
    (soFar - e.buf.length + e.buf.length)
    (if e.chained then soFar - e.buf.length - e.hist.length else soFar - e.buf.length)
    (startIndex_fit e x _ h) (by omega)).2
  have e1 : soFar - e.buf.length + e.buf.length = soFar := by omega
  rw [e1] at this ⊢
  exact this

/-- The payload of a block decodes to the block, with the stream's history as dictionary in chained mode (R290, R322). -/
theorem blockPayload_decodes (e : Encoder) (x : Index) (soFar cap : Nat) (hc : e.hist.length + e.buf.length ≤ soFar)
    (hcap : e.buf.length ≤ cap) (h : e.chained = true → FitIndex e.level.toNat x (soFar - e.buf.length)) :
    decodeBlock (blockPayload e x soFar).1 cap false (if e.chained then e.hist else []) =
      .ok (e.buf, (blockPayload e x soFar).1.length) := by
  have key := decodeBlock_encodeBlock (View.ofList (soFar - e.buf.length - e.hist.length) (e.hist ++ e.buf))
    (if e.chained then x else x.clear (soFar - e.buf.length)) e.level.toNat (soFar - e.buf.length)
    (soFar - e.buf.length + e.buf.length)
    (if e.chained then soFar - e.buf.length - e.hist.length else soFar - e.buf.length) cap false []
    (startIndex_fit e x _ h) (by omega) (by split <;> omega) (by omega) (fun _ => rfl) (by simp)
  have hblock : (View.ofList (soFar - e.buf.length - e.hist.length) (e.hist ++ e.buf)).slice (soFar - e.buf.length)
      (soFar - e.buf.length + e.buf.length) = e.buf := by
    rw [View.slice_ofList_mid _ _ _ _ (by omega) (by simp; omega)]
    have e1 : soFar - e.buf.length - (soFar - e.buf.length - e.hist.length) = e.hist.length := by omega
    have e2 : soFar - e.buf.length + e.buf.length - (soFar - e.buf.length) = e.buf.length := by omega
    rw [e1, e2]
    simp
  have hdict : (View.ofList (soFar - e.buf.length - e.hist.length) (e.hist ++ e.buf)).slice
      (if e.chained then soFar - e.buf.length - e.hist.length else soFar - e.buf.length) (soFar - e.buf.length) =
      if e.chained then e.hist else [] := by
    split
    · rw [View.slice_ofList_mid _ _ _ _ (by omega) (by simp; omega)]
      have e1 : soFar - e.buf.length - (soFar - e.buf.length - e.hist.length) = e.hist.length := by omega
      rw [e1]
      simp
    · exact View.slice_self _ _
  rw [hblock, hdict, List.append_nil] at key
  exact key

/-! ### The content bytes (R287) -/

/-- What taking content bytes keeps true, k bytes after a write began in context e with index x. -/
structure WriteInv (e : Encoder) (x : Index) (k : Nat) (r : WriteRun) : Prop where
  same : r.enc.level = e.level ∧ r.enc.flg = e.flg ∧ r.enc.bd = e.bd ∧ r.enc.blockSize = e.blockSize ∧
    r.enc.chained = e.chained ∧ r.enc.state = e.state ∧ r.enc.total = e.total
  size : r.size = r.held.length
  count : r.blocks * e.blockSize + r.size = e.buf.length + k
  room : e.buf.length < e.blockSize → r.size < e.blockSize
  out : r.out.length ≤ r.blocks * (e.blockSize + 4)
  soFar : r.soFar = e.total + k
  owner : SameOwner x r.index
  total : e.hist.length + e.buf.length ≤ e.total → r.enc.hist.length + r.size ≤ r.soFar
  window : e.hist.length ≤ Config.window → r.enc.hist.length ≤ Config.window
  alone : e.chained = false → r.enc.hist = e.hist
  history : e.hist.length + e.buf.length ≤ e.total → e.chained = true →
    e.hist.length = min Config.window (e.total - e.buf.length) →
    r.enc.hist.length = min Config.window (r.soFar - r.size)
  fit : e.hist.length + e.buf.length ≤ e.total → e.chained = true →
    FitIndex e.level.toNat x (e.total - e.buf.length) → FitIndex e.level.toNat r.index (r.soFar - r.size)

theorem writeStart_inv (e : Encoder) (x : Index) : WriteInv e x 0 (writeStart e x) := by
  refine ⟨⟨rfl, rfl, rfl, rfl, rfl, rfl, rfl⟩, by simp [writeStart], by simp [writeStart], fun h => h, by simp [writeStart],
    rfl, SameOwner.refl x, fun h => h, fun h => h, fun _ => rfl, fun _ _ h => h, fun _ _ h => h⟩

theorem takeByte_inv {e : Encoder} {x : Index} {k : Nat} {r : WriteRun} (h : WriteInv e x k r) (b : Byte) :
    WriteInv e x (k + 1) (takeByte r b) := by
  obtain ⟨s1, s2, s3, s4, s5, s6, s7⟩ := h.same
  have hsize := h.size
  have hcount := h.count
  have hsf := h.soFar
  unfold takeByte
  rw [s4]
  split
  · next hb =>
    have hlen : ({ r.enc with buf := (b :: r.held).reverse } : Encoder).buf.length = r.size + 1 := by
      simp [hsize]
    have hout := length_emitBlock { r.enc with buf := (b :: r.held).reverse } r.index (r.soFar + 1)
    have hown := emitBlock_owner { r.enc with buf := (b :: r.held).reverse } r.index (r.soFar + 1)
    have hhist := length_nextHistory { r.enc with buf := (b :: r.held).reverse }
    have hfit := emitBlock_fit { r.enc with buf := (b :: r.held).reverse } r.index (r.soFar + 1)
    rw [hlen] at hout hhist hfit
    simp only
    have hmul : (r.blocks + 1) * e.blockSize = r.blocks * e.blockSize + e.blockSize := by ring
    refine ⟨⟨s1, s2, s3, s4, s5, s6, s7⟩, rfl, ?_, fun hr => by simp only; omega, ?_, by simp only; omega,
      h.owner.trans hown, ?_, ?_, ?_, ?_, ?_⟩
    · simp only
      omega
    · simp only [List.length_append]
      have hm : (r.blocks + 1) * (e.blockSize + 4) = r.blocks * (e.blockSize + 4) + (e.blockSize + 4) := by ring
      rw [hm]
      exact Nat.add_le_add h.out (hout.trans (by omega))
    · intro ht
      have := h.total ht
      have := hhist.1
      rw [emitBlock_eq]
      simp only at this ⊢
      omega
    · intro hw
      rw [emitBlock_eq]
      exact hhist.2.1 (h.window hw)
    · intro hc
      rw [emitBlock_eq]
      simp only
      rw [hhist.2.2 (by simpa [s5] using hc)]
      exact h.alone hc
    · intro ht hc hh
      have h1 := h.history ht hc hh
      have h2 := h.total ht
      rw [emitBlock_eq]
      simp only [nextHistory, s5, hc, if_true, length_lastBytes, List.length_append, List.length_reverse,
        List.length_cons, ← hsize]
      omega
    · intro ht hc hx
      have h1 := h.fit ht hc hx
      have h2 := h.total ht
      have h3 := hfit (by omega) (fun _ => by
        have e1 : r.soFar + 1 - (r.size + 1) = r.soFar - r.size := by omega
        rw [e1]
        show FitIndex r.enc.level.toNat _ _
        rw [s1]
        exact h1)
      have e2 : FitIndex r.enc.level.toNat _ (r.soFar + 1) := h3
      rw [s1] at e2
      exact e2
  · next hb =>
    refine ⟨⟨s1, s2, s3, s4, s5, s6, s7⟩, by simp [hsize], by simp only; omega, ?_, h.out, by simp only; omega,
      h.owner, ?_, h.window, h.alone, ?_, ?_⟩
    · intro hr
      have := h.room hr
      simp only
      omega
    · intro ht
      have := h.total ht
      simp only
      omega
    · intro ht hc hh
      have := h.history ht hc hh
      have e1 : r.soFar + 1 - (r.size + 1) = r.soFar - r.size := by omega
      simp only [e1]
      exact this
    · intro ht hc hx
      have := h.fit ht hc hx
      have e1 : r.soFar + 1 - (r.size + 1) = r.soFar - r.size := by omega
      simp only [e1]
      exact this

theorem writeFold_inv {e : Encoder} {x : Index} (content : List Byte) {k : Nat} {r : WriteRun} (h : WriteInv e x k r) :
    WriteInv e x (k + content.length) (content.foldl takeByte r) := by
  induction content generalizing k r with
  | nil => exact h
  | cons b content ih =>
    have := ih (takeByte_inv h b)
    rw [List.length_cons, show k + (content.length + 1) = k + 1 + content.length by omega]
    exact this

/-- What FENC_WRITE's loop does (R287). -/
theorem writeLoop_inv (e : Encoder) (x : Index) (content : List Byte) :
    WriteInv e x content.length (writeLoop e x content) := by
  have := writeFold_inv content (writeStart_inv e x)
  simpa [writeLoop] using this

/-- Where the content bytes go (R287, R288): the full blocks are emitted, the rest stays pending, and a chained stream's
history is the last 65536 bytes of what has been emitted. -/
theorem writeLoop_taken (e : Encoder) (x : Index) (content : List Byte) (hb : e.buf.length < e.blockSize) :
    let r := writeLoop e x content
    let all := e.buf ++ content
    r.held.reverse = all.drop (r.blocks * e.blockSize) ∧ r.enc.chained = e.chained ∧ r.enc.blockSize = e.blockSize ∧
      r.size = r.held.length ∧ r.size < e.blockSize ∧ r.blocks * e.blockSize + r.size = all.length ∧
      (e.chained = false ∨ r.blocks = 0 → r.enc.hist = e.hist) ∧
      (e.chained = true → r.blocks ≠ 0 →
        r.enc.hist = lastBytes Config.window (e.hist ++ all.take (r.blocks * e.blockSize))) := by
  induction content using List.reverseRecOn with
  | nil => simp [writeLoop, writeStart]; omega
  | append_singleton l b ih =>
    simp only [writeLoop, List.foldl_append, List.foldl_cons, List.foldl_nil] at ih ⊢
    obtain ⟨i1, i2, i3, i4, i5, i6, i7, i8⟩ := ih
    generalize List.foldl takeByte (writeStart e x) l = r at *
    have hdrop : (b :: r.held).reverse = (e.buf ++ (l ++ [b])).drop (r.blocks * e.blockSize) := by
      rw [List.reverse_cons, i1, ← List.append_assoc, List.drop_append_of_le_length (l₁ := e.buf ++ l) (by omega)]
    have htake : (e.buf ++ l).take (r.blocks * e.blockSize) = (e.buf ++ (l ++ [b])).take (r.blocks * e.blockSize) := by
      rw [← List.append_assoc e.buf l [b], List.take_append_of_le_length (l₁ := e.buf ++ l) (by omega)]
    unfold takeByte
    rw [i3]
    split
    · next hf =>
      have e1 : (r.blocks + 1) * e.blockSize = (e.buf ++ (l ++ [b])).length := by
        simp only [List.length_append, List.length_cons, List.length_nil, Nat.add_mul] at i6 ⊢
        omega
      refine ⟨by rw [e1]; simp, i2, i3, rfl, by simp only; omega, by simp only; omega, ?_, ?_⟩
      · rintro (h | h)
        · simp only [emitBlock, i2, h]
          simpa using i7 (Or.inl h)
        · simp at h
      · intro h _
        simp only [emitBlock, i2, h, if_true]
        rw [hdrop, e1, List.take_length]
        by_cases h0 : r.blocks = 0
        · rw [i7 (Or.inr h0), h0]
          simp
        · rw [i8 h h0, lastBytes_append, List.append_assoc, htake, List.take_append_drop]
    · refine ⟨hdrop, i2, i3, by simp [i4], by simp only; omega, ?_, i7, fun h h0 => ?_⟩
      · simp only [List.length_append, List.length_cons, List.length_nil] at i6 ⊢
        omega
      · simp only
        rw [i8 h h0, htake]

/-- While the pending block stays short, content bytes are only taken (R287). -/
theorem takeBytes_short (content : List Byte) (r : WriteRun) (h : r.size + content.length < r.enc.blockSize) :
    content.foldl takeByte r =
      { r with held := content.reverse ++ r.held, size := r.size + content.length, soFar := r.soFar + content.length } := by
  induction content generalizing r with
  | nil => rfl
  | cons b l ih =>
    rw [List.length_cons] at h
    have ht : takeByte r b = { r with held := b :: r.held, size := r.size + 1, soFar := r.soFar + 1 } := by
      unfold takeByte
      rw [if_neg (by omega)]
    rw [List.foldl_cons, ht, ih _ (by simp only; omega)]
    simp [Nat.add_assoc, Nat.add_comm 1]

/-- FENC_WRITE of content that leaves the pending block short emits nothing (R287). -/
theorem writeLoop_short (e : Encoder) (x : Index) (content : List Byte)
    (h : e.buf.length + content.length < e.blockSize) :
    writeLoop e x content =
      { enc := e, index := x, held := (e.buf ++ content).reverse, size := e.buf.length + content.length,
        soFar := e.total + content.length, out := [], blocks := 0 } := by
  unfold writeLoop
  rw [takeBytes_short _ _ h]
  simp [writeStart]

/-- FENC_WRITE of content that just fills the pending block emits that block (R287, R288). -/
theorem writeLoop_full (e : Encoder) (x : Index) (content : List Byte) (hb : e.buf.length < e.blockSize)
    (h : e.buf.length + content.length = e.blockSize) :
    writeLoop e x content =
      let q := emitBlock { e with buf := e.buf ++ content } x (e.total + content.length)
      { enc := q.2.1, index := q.2.2, held := [], size := 0, soFar := e.total + content.length, out := q.1,
        blocks := 1 } := by
  obtain ⟨l, b, rfl⟩ : ∃ l b, content = l ++ [b] := by
    rcases List.eq_nil_or_concat content with rfl | ⟨l, b, hl⟩
    · simp at h
      omega
    · exact ⟨l, b, by simpa using hl⟩
  have h1 := writeLoop_short e x l (by simp at h; omega)
  unfold writeLoop at h1 ⊢
  rw [List.foldl_append, h1, List.foldl_cons, List.foldl_nil]
  simp only [List.length_append, List.length_cons, List.length_nil, Nat.zero_add] at h ⊢
  unfold takeByte
  rw [if_pos (by simp only; omega)]
  simp only [List.reverse_cons, List.reverse_reverse, List.append_assoc, List.nil_append, Nat.zero_add, Nat.add_assoc]

/-- The output of FENC_WRITE fits the capacity it asks for (R291). -/
theorem length_writeLoop (e : Encoder) (x : Index) (content : List Byte) :
    (writeLoop e x content).out.length ≤ writeNeed e content.length := by
  have h := writeLoop_inv e x content
  have h1 := h.out
  have h2 := h.count
  unfold writeNeed
  rcases Nat.eq_zero_or_pos e.blockSize with h0 | h0
  · have hout : ∀ (l : List Byte) (r : WriteRun), r.enc.blockSize = 0 → (l.foldl takeByte r).out = r.out := by
      intro l
      induction l with
      | nil => intro r _; rfl
      | cons b l ih =>
        intro r hr
        rw [List.foldl_cons]
        have ht : takeByte r b = { r with held := b :: r.held, size := r.size + 1, soFar := r.soFar + 1 } := by
          unfold takeByte
          rw [if_neg (by omega)]
        rw [ht, ih _ (by simpa using hr)]
    have := hout content (writeStart e x) h0
    unfold writeLoop
    rw [this]
    simp [writeStart]
  · have h3 : (writeLoop e x content).blocks ≤ (e.buf.length + content.length) / e.blockSize := by
      rw [Nat.le_div_iff_mul_le h0]
      omega
    exact h1.trans (Nat.mul_le_mul_right _ h3)

/-- The output of FENC_CLOSE fits the capacity it asks for (R291). -/
theorem length_close (e : Encoder) (x : Index) : ((flushBlock e x).1 ++ leBytes 4 0).length ≤ closeNeed e := by
  have := length_emitBlock e x e.total
  unfold flushBlock closeNeed
  split <;> simp
  omega

end Sys2Proof.Machine
end

