-- ==== Sys2Proof/Laws/Commands.lean ====
section
/-! SUPPORT. What each command answers, said once per command: it always completes (60_exceptions.md R360), it keeps what
no command writes, and it writes MEM only inside DST (20_memory.md R86), keeping MEM's canonical form. -/

namespace Sys2Proof.Machine

/-- How a command ends: with done (R361) or with one error (R362). -/
def Ended (s t : State) : Prop :=
  (∃ needInput frameEnd, ¬ (needInput = true ∧ frameEnd = true) ∧ t.status = s.status.ofDone needInput frameEnd ∧
      t.donePend = true ∧ t.errPend = s.errPend) ∨
    (∃ c, t.status = s.status.ofError c ∧ t.errPend = true ∧ t.donePend = s.donePend ∧ t.result0 = 0#32 ∧
      t.result1 = 0#32 ∧ t.result2 = 0#32)

/-- A command's answer: a next state in the frame of every command. -/
def Answers (s : State) (r : Result) : Prop :=
  ∃ t, r = .next t ∧ CommandFrame s t ∧ MemFrame s t ∧ (s.mem.wf = true → t.mem.wf = true) ∧ Ended s t

/-! ### Regions (R84) -/

theorem Region.wraps_false (r : Region) : r.wraps = false ↔ r.start + r.len ≤ 2 ^ 32 := by
  unfold Region.wraps
  rw [decide_eq_false_iff_not]
  omega

theorem Region.holds_false (r : Region) (a : Nat) : r.holds a = false ↔ a < r.start ∨ r.start + r.len ≤ a := by
  unfold Region.holds
  rw [decide_eq_false_iff_not]
  omega

theorem Region.overlaps_false (r q : Region) :
    r.overlaps q = false ↔ r.len = 0 ∨ q.len = 0 ∨ q.start + q.len ≤ r.start ∨ r.start + r.len ≤ q.start := by
  unfold Region.overlaps
  rw [decide_eq_false_iff_not]
  omega

/-! ### The two ways to end -/

theorem answers_raise (s : State) (c : Cause) : Answers s (.next (s.raise c)) :=
  ⟨_, rfl, ⟨rfl, rfl, ⟨rfl, rfl⟩, rfl, ⟨rfl, rfl⟩, ⟨rfl, rfl⟩⟩, ⟨fun _ _ => rfl, fun _ _ _ => rfl⟩, fun h => h,
    Or.inr ⟨c, rfl, rfl, rfl, rfl, rfl, rfl⟩⟩

/-- An error after another state change that keeps MEM. -/
theorem answers_raise_of {s u : State} (c : Cause) (ha : u.args = s.args) (hs : u.snap = s.snap)
    (hd : u.irqEnDone = s.irqEnDone) (he : u.irqEnErr = s.irqEnErr) (ho : u.status = s.status) (hdp : u.donePend = s.donePend)
    (_hep : u.errPend = s.errPend)
    (hi : u.inbox = s.inbox) (hl : u.lastRead = s.lastRead)
    (hm : ∀ a, s.snap.dst.holds a = false → u.mem.read a = s.mem.read a) (hw : s.mem.wf = true → u.mem.wf = true) :
    Answers s (.next (u.raise c)) :=
  ⟨_, rfl, ⟨ha, hs, ⟨hd, he⟩, (congrArg Status.overrun ho : u.status.overrun = s.status.overrun), ⟨rfl, rfl⟩, ⟨hi, hl⟩⟩,
    ⟨hm, fun h => by simp [State.raise, Status.ofError] at h⟩, hw,
    Or.inr ⟨c, congrArg (Status.ofError · c) ho, rfl, hdp, rfl, rfl, rfl⟩⟩

theorem length_freeBytes (d n : Nat) : (freeBytes d n).length = n := by simp [freeBytes]

/-- An execution error changes MEM inside DST only (R367). -/
theorem answers_raiseExec {s u : State} (c : Cause) (ha : u.args = s.args) (hs : u.snap = s.snap)
    (hd : u.irqEnDone = s.irqEnDone) (he : u.irqEnErr = s.irqEnErr) (ho : u.status = s.status) (hdp : u.donePend = s.donePend)
    (hep : u.errPend = s.errPend)
    (hi : u.inbox = s.inbox) (hl : u.lastRead = s.lastRead)
    (hm : ∀ a, s.snap.dst.holds a = false → u.mem.read a = s.mem.read a) (hw : s.mem.wf = true → u.mem.wf = true) :
    Answers s (.next (u.raiseExec c)) := by
  have hlt := s.snap.dstAddr.isLt
  refine answers_raise_of (s := s) (u := u.scramble u.snap.dstAddr.toNat u.snap.dstCap.toNat) c ha hs hd he ho hdp hep hi hl ?_ ?_
  · intro a h
    have := hm a h
    unfold State.scramble
    simp only
    rw [Memory.read_writeBytes_outside, this]
    rw [length_freeBytes, hs]
    simp only [Region.holds_false, Args.dst] at h
    omega
  · intro h
    unfold State.scramble
    simp only
    refine Memory.wf_writeBytes _ _ _ (hw h) (Or.inr ?_)
    rw [length_freeBytes, hs]
    omega

/-- A completion that writes the bytes it counts in RESULT0 to the start of DST. -/
theorem answers_write {s u : State} (out : List Byte) (r1 r2 : Nat) (hcap : out.length ≤ s.snap.dstCap.toNat)
    (hwrap : s.snap.dst.wraps = false) (ha : u.args = s.args) (hs : u.snap = s.snap) (hd : u.irqEnDone = s.irqEnDone)
    (he : u.irqEnErr = s.irqEnErr) (ho : u.status = s.status) (_hdp : u.donePend = s.donePend)
    (hep : u.errPend = s.errPend) (hi : u.inbox = s.inbox)
    (hl : u.lastRead = s.lastRead) (hm : u.mem = s.mem.writeBytes s.snap.dstAddr.toNat out) :
    Answers s (.next (u.complete out.length r1 r2)) := by
  have hlt := s.snap.dstCap.isLt
  have hres : (u.complete out.length r1 r2).result0.toNat = out.length := by
    show (BitVec.ofNat 32 out.length).toNat = out.length
    simp only [BitVec.toNat_ofNat]
    omega
  simp only [Region.wraps_false, Args.dst] at hwrap
  refine ⟨_, rfl, ⟨ha, hs, ⟨hd, he⟩, (congrArg Status.overrun ho : u.status.overrun = s.status.overrun), ⟨rfl, rfl⟩, ⟨hi, hl⟩⟩, ⟨?_, ?_⟩, ?_,
    Or.inl ⟨false, false, by simp, congrArg (Status.ofDone · false false) ho, rfl, hep⟩⟩
  · intro a h
    simp only [Region.holds_false, Args.dst] at h
    show u.mem.read a = _
    rw [hm, Memory.read_writeBytes_outside _ _ _ _ (by omega)]
  · intro _ a h
    rw [hres] at h
    show u.mem.read a = _
    rw [hm, Memory.read_writeBytes_outside _ _ _ _ h]
  · intro h
    show u.mem.wf = true
    rw [hm]
    exact Memory.wf_writeBytes _ _ _ h (Or.inr (by omega))

/-- A completion that leaves MEM alone. -/
theorem answers_complete {s u : State} (r0 r1 r2 : Nat) (ha : u.args = s.args) (hs : u.snap = s.snap)
    (hd : u.irqEnDone = s.irqEnDone) (he : u.irqEnErr = s.irqEnErr) (ho : u.status = s.status) (_hdp : u.donePend = s.donePend)
    (hep : u.errPend = s.errPend)
    (hi : u.inbox = s.inbox) (hl : u.lastRead = s.lastRead) (hm : u.mem = s.mem) :
    Answers s (.next (u.complete r0 r1 r2)) := by
  refine ⟨_, rfl, ⟨ha, hs, ⟨hd, he⟩, (congrArg Status.overrun ho : u.status.overrun = s.status.overrun), ⟨rfl, rfl⟩, ⟨hi, hl⟩⟩,
    ⟨fun a _ => ?_, fun _ a _ => ?_⟩, fun h => ?_,
    Or.inl ⟨false, false, by simp, congrArg (Status.ofDone · false false) ho, rfl, hep⟩⟩
  · show u.mem.read a = _
    rw [hm]
  · show u.mem.read a = _
    rw [hm]
  · show u.mem.wf = true
    rw [hm]
    exact h

/-! ### Checks -/

/-- No check of a list applied. -/
theorem firstCause_none (l : List (Bool × Cause)) : firstCause l = none ↔ ∀ q ∈ l, q.1 = false := by
  induction l with
  | nil => simp [firstCause]
  | cons q l ih =>
    obtain ⟨b, c⟩ := q
    cases b <;> simp [firstCause, ih]

theorem anyWraps_false (rs : List Region) : anyWraps rs = false ↔ ∀ r ∈ rs, r.wraps = false := by
  simp [anyWraps]

theorem or_none {α : Type} (a b : Option α) : a.or b = none ↔ a = none ∧ b = none := by
  cases a <;> simp

/-! ### The commands -/

theorem nop_answers (s : State) : Answers s (execNop s) :=
  answers_complete 0 0 0 rfl rfl rfl rfl rfl rfl rfl rfl rfl rfl

theorem abortEnc_answers (s : State) : Answers s (execAbortEnc s) := by
  unfold execAbortEnc State.dropEncoder
  split <;> exact answers_complete 0 0 0 rfl rfl rfl rfl rfl rfl rfl rfl rfl rfl

theorem abortDec_answers (s : State) : Answers s (execAbortDec s) :=
  answers_complete 0 0 0 rfl rfl rfl rfl rfl rfl rfl rfl rfl rfl

theorem matchInit_answers (hc : Bool) (s : State) : Answers s (execMatchInit hc s) := by
  unfold execMatchInit
  split
  · exact answers_raise s _
  · exact answers_complete 0 0 0 rfl rfl rfl rfl rfl rfl rfl rfl rfl rfl

theorem matchFind_answers (s : State) : Answers s (execMatchFind s) := by
  unfold execMatchFind
  split
  · exact answers_raise s _
  · exact answers_complete _ _ _ rfl rfl rfl rfl rfl rfl rfl rfl rfl rfl

theorem matchWiden_answers (s : State) : Answers s (execMatchWiden s) := by
  unfold execMatchWiden
  split
  · exact answers_raise s _
  · exact answers_complete _ _ _ rfl rfl rfl rfl rfl rfl rfl rfl rfl rfl

theorem blockEncode_answers (level : BitVec 4) (s : State) : Answers s (execBlockEncode level s) := by
  unfold execBlockEncode
  split
  · exact answers_raise s _
  · next h =>
    rw [or_none, firstCause_none] at h
    have hw := h.2 _ (List.mem_cons_of_mem _ (List.mem_cons_self ..))
    simp only
    split
    · exact answers_raiseExec _ rfl rfl rfl rfl rfl rfl rfl rfl rfl (fun _ _ => rfl) (fun h => h)
    · next hlen =>
      exact answers_write _ _ _ (by omega) ((anyWraps_false _).1 hw _ (by simp)) rfl rfl rfl rfl rfl rfl rfl rfl rfl rfl

theorem blockDecode_answers (eoo : Bool) (dmode : BitVec 2) (short : Bool) (s : State) :
    Answers s (execBlockDecode eoo dmode short s) := by
  unfold execBlockDecode
  split
  · exact answers_raise s _
  · next h =>
    rw [or_none, firstCause_none] at h
    have hw := h.2 _ (List.mem_cons_self ..)
    simp only [Bool.or_eq_false_iff] at hw
    split
    · exact answers_raiseExec _ rfl rfl rfl rfl rfl rfl rfl rfl rfl (fun _ _ => rfl) (fun h => h)
    · next out used hd =>
      exact answers_write _ _ _ (decodeBlock_spec _ _ _ _ _ _ hd).1 ((anyWraps_false _).1 hw.1 _ (by simp))
        rfl rfl rfl rfl rfl rfl rfl rfl rfl rfl

theorem fencOpen_answers (level : BitVec 4) (s : State) : Answers s (execFencOpen level s) := by
  unfold execFencOpen
  split
  · exact answers_raise s _
  · next h =>
    rw [or_none, firstCause_none] at h
    have hw := h.2 (anyWraps [s.snap.dst], .regionWrap) (by simp [fencOpenChecks])
    have hc := h.2 (decide (s.snap.dstCap.toNat < (openHeader s.snap).length), .dstFull) (by simp [fencOpenChecks])
    simp only [decide_eq_false_iff_not] at hc
    exact answers_write _ _ _ (by omega) ((anyWraps_false _).1 hw _ (by simp)) rfl rfl rfl rfl rfl rfl rfl rfl rfl rfl

theorem fencWrite_answers (s : State) : Answers s (execFencWrite s) := by
  unfold execFencWrite
  split
  · exact answers_raise s _
  · next h =>
    rw [firstCause_none] at h
    have hw := h (anyWraps [s.snap.src, s.snap.dst], .regionWrap) (by simp [fencWriteChecks])
    have hc := h (decide (s.snap.dstCap.toNat < writeNeed s.enc s.snap.srcLen.toNat), .dstFull)
      (by simp [fencWriteChecks])
    simp only [decide_eq_false_iff_not] at hc
    have hl := length_writeLoop s.enc s.index (s.memRead s.snap.srcAddr.toNat s.snap.srcLen.toNat)
    have hr : (s.memRead s.snap.srcAddr.toNat s.snap.srcLen.toNat).length = s.snap.srcLen.toNat := by
      simp [State.memRead]
    rw [hr] at hl
    exact answers_write _ _ _ (by omega) ((anyWraps_false _).1 hw _ (by simp)) rfl rfl rfl rfl rfl rfl rfl rfl rfl rfl

theorem fencClose_answers (s : State) : Answers s (execFencClose s) := by
  unfold execFencClose
  split
  · split
    · exact answers_raise s _
    · next h =>
      rw [firstCause_none] at h
      have hw := h (anyWraps [s.snap.dst], .regionWrap) (by simp [fencCloseChecks])
      have hc := h (decide (s.snap.dstCap.toNat < closeNeed s.enc), .dstFull) (by simp [fencCloseChecks])
      simp only [decide_eq_false_iff_not] at hc
      have hl := length_close s.enc s.index
      exact answers_write _ _ _ (by omega) ((anyWraps_false _).1 hw _ (by simp)) rfl rfl rfl rfl rfl rfl rfl rfl rfl rfl
  · exact answers_complete 0 0 0 rfl rfl rfl rfl rfl rfl rfl rfl rfl rfl

theorem fdecOpen_answers (inEof : Bool) (s : State) : Answers s (execFdecOpen inEof s) := by
  unfold execFdecOpen
  split
  · exact answers_raise s _
  · next h =>
    have hf := frameRun_frame true inEof 0 s.openDecoder
    have hfl := decLoop_flags true inEof 0 (stageBound s.openDecoder.snap.srcLen.toNat) ⟨s.openDecoder, 0, 0⟩
    change (frameRun true inEof 0 s.openDecoder).FlagsOk at hfl
    have h0 : ∀ r : DecRun, RunFrame s.openDecoder 0 r → ∀ a, r.state.mem.read a = s.mem.read a := by
      intro r hr a
      have := hr.room
      exact hr.outside a (by omega)
    have hwf : ∀ r : DecRun, RunFrame s.openDecoder 0 r → s.mem.wf = true → r.state.mem.wf = true := by
      intro r hr h1
      exact hr.wf h1 (by have := s.openDecoder.snap.dstAddr.isLt; omega)
    split
    · next r ni fe hr =>
      rw [hr] at hf hfl
      have e := hf.rest
      have hres : r.served = 0 := by have := hf.room; simp only [DecEnd.run] at this; omega
      simp only [DecEnd.run] at e
      refine ⟨_, rfl, ⟨?_, ?_, ⟨?_, ?_⟩, ?_, ⟨rfl, rfl⟩, ⟨?_, ?_⟩⟩, ⟨fun a _ => h0 r hf a, fun _ a _ => h0 r hf a⟩,
        hwf r hf, Or.inl ⟨ni, fe, hfl, ?_, rfl, ?_⟩⟩
      all_goals (simp only [State.finishWith, Status.ofDone]; rw [e]; rfl)
    · next r c hr =>
      rw [hr] at hf
      have e := hf.rest
      simp only [DecEnd.run] at e
      refine answers_raise_of c ?_ ?_ ?_ ?_ ?_ ?_ ?_ ?_ ?_ (fun a _ => h0 r hf a) (hwf r hf)
      all_goals (simp only [State.failDecoder]; rw [e]; rfl)

theorem fdecRead_answers (inEof : Bool) (s : State) : Answers s (execFdecRead inEof s) := by
  unfold execFdecRead
  split
  · exact answers_raise s _
  · next h =>
    rw [firstCause_none] at h
    have hw := h (anyWraps [s.snap.src, s.snap.dst], .regionWrap) (by simp [fdecReadChecks])
    have hw2 := (anyWraps_false _).1 hw s.snap.dst (by simp)
    simp only [Region.wraps_false, Args.dst] at hw2
    have hf := frameRun_frame false inEof s.snap.dstCap.toNat s
    have hfl := decLoop_flags false inEof s.snap.dstCap.toNat (stageBound s.snap.srcLen.toNat) ⟨s, 0, 0⟩
    change (frameRun false inEof s.snap.dstCap.toNat s).FlagsOk at hfl
    have hout : ∀ r : DecRun, RunFrame s s.snap.dstCap.toNat r → ∀ a, s.snap.dst.holds a = false →
        r.state.mem.read a = s.mem.read a := by
      intro r hr a ha
      have := hr.room
      simp only [Region.holds_false, Args.dst] at ha
      exact hr.outside a (by omega)
    split
    · next r ni fe hr =>
      rw [hr] at hf hfl
      have e := hf.rest
      simp only [DecEnd.run] at e hf
      have hres : (r.state.finishWith ni fe r.served r.ip 0).result0.toNat = r.served := by
        have := hf.room
        have := s.snap.dstCap.isLt
        show (BitVec.ofNat 32 r.served).toNat = r.served
        simp only [BitVec.toNat_ofNat]
        omega
      refine ⟨_, rfl, ⟨?_, ?_, ⟨?_, ?_⟩, ?_, ⟨rfl, rfl⟩, ⟨?_, ?_⟩⟩, ⟨hout r hf, ?_⟩, fun h1 => hf.wf h1 (by omega),
        Or.inl ⟨ni, fe, hfl, ?_, rfl, ?_⟩⟩
      case refine_8 =>
        intro _ a ha
        rw [hres] at ha
        exact hf.outside a ha
      all_goals (simp only [State.finishWith, Status.ofDone]; rw [e])
    · next r c hr =>
      rw [hr] at hf
      have e := hf.rest
      simp only [DecEnd.run] at e hf
      refine answers_raiseExec c ?_ ?_ ?_ ?_ ?_ ?_ ?_ ?_ ?_ (hout r hf) (fun h1 => hf.wf h1 (by omega))
      all_goals (simp only [State.failDecoder]; rw [e])

end Sys2Proof.Machine
end

