-- ==== Sys2Proof/Laws/Stages.lean ====
section
/-! SUPPORT. The stages of the frame decoder (46_frame_decoder.md R313-R323): what gather does when SRC has enough bytes and
when it has not, that no stage reads the argument registers, the encoder context or the index (10_state.md R46, R50), and
that every stage keeps the decoder stream in order (R312). -/

namespace Sys2Proof.Machine

/-! ### gather (R317, R318) -/

/-- A read inside a region is that part of the region's bytes. -/
theorem memRead_part (s : State) (a n i k : Nat) (h : i + k ≤ n) :
    s.memRead (a + i) k = ((s.memRead a n).drop i).take k := by
  apply List.ext_getElem
  · simp [State.memRead]; omega
  · intro j h1 h2
    simp [State.memRead, Memory.readBytes, Nat.add_assoc]

/-- With the whole field in SRC, gather takes it and goes on. -/
theorem gather_full (inEof : Bool) (k : Nat) (r : DecRun) (next : List Byte → DecRun → DecStep)
    (h0 : r.state.dec.soFar = []) (h : r.ip + k ≤ r.state.snap.srcLen.toNat) :
    gather inEof k r next =
      next (r.state.memRead (r.state.snap.srcAddr.toNat + r.ip) k)
        ({ r with ip := r.ip + k }.withDec { r.state.dec with field := [] }) := by
  have ht : gatherTake r k = k := by
    unfold gatherTake
    rw [h0]
    simp only [List.length_nil]
    omega
  unfold gather gathered
  simp only [ht, h0, List.nil_append]
  rw [if_neg (by simp [State.memRead])]

/-- With the rest of the field in SRC behind the bytes earlier commands gathered, gather takes just that rest. -/
theorem gather_field (inEof : Bool) (k : Nat) (r : DecRun) (next : List Byte → DecRun → DecStep) (f rest : List Byte)
    (hk : r.state.dec.soFar.length ≤ k) (hf : f.length = k)
    (h : r.state.dec.soFar ++ r.state.memRead (r.state.snap.srcAddr.toNat + r.ip) (r.state.snap.srcLen.toNat - r.ip) =
      f ++ rest) :
    gather inEof k r next =
      next f ({ r with ip := r.ip + (k - r.state.dec.soFar.length) }.withDec { r.state.dec with field := [] }) := by
  have hlen := congrArg List.length h
  simp only [List.length_append, State.memRead, Memory.length_readBytes] at hlen
  have ht : gatherTake r k = k - r.state.dec.soFar.length := by
    unfold gatherTake
    omega
  have hg : gathered r k = f := by
    unfold gathered
    rw [ht]
    have h2 := congrArg (List.take k) h
    rw [List.take_left' hf, List.take_append, List.take_of_length_le hk] at h2
    rw [← h2]
    congr 1
    have := memRead_part r.state (r.state.snap.srcAddr.toNat + r.ip) (r.state.snap.srcLen.toNat - r.ip) 0
      (k - r.state.dec.soFar.length) (by omega)
    simpa using this
  unfold gather
  simp only [hg, ht]
  rw [if_neg (by omega)]

/-- With SRC too short, gather keeps the bytes, or fails at the end of the transport. -/
theorem gather_short (inEof : Bool) (k : Nat) (r : DecRun) (next : List Byte → DecRun → DecStep)
    (hip : r.ip ≤ r.state.snap.srcLen.toNat)
    (h : r.state.dec.soFar.length + (r.state.snap.srcLen.toNat - r.ip) < k) :
    gather inEof k r next =
      if inEof then .fail { r with ip := r.state.snap.srcLen.toNat } .transportEof
      else .stop ({ r with ip := r.state.snap.srcLen.toNat }.withDec (r.state.dec.keep (r.state.dec.soFar ++
        r.state.memRead (r.state.snap.srcAddr.toNat + r.ip) (r.state.snap.srcLen.toNat - r.ip)))) true false := by
  have ht : gatherTake r k = r.state.snap.srcLen.toNat - r.ip := by
    unfold gatherTake
    omega
  unfold gather gathered
  simp only [ht]
  rw [if_pos (by simp [State.memRead]; omega)]
  have e : r.ip + (r.state.snap.srcLen.toNat - r.ip) = r.state.snap.srcLen.toNat := by omega
  simp only [e]

/-- The bytes of SRC a run has not taken yet. -/
def DecRun.ahead (r : DecRun) : List Byte :=
  r.state.memRead (r.state.snap.srcAddr.toNat + r.ip) (r.state.snap.srcLen.toNat - r.ip)

theorem DecRun.length_ahead (r : DecRun) : r.ahead.length = r.state.snap.srcLen.toNat - r.ip := by
  simp [DecRun.ahead, State.memRead]

/-- At the start of a command all of SRC is ahead. -/
theorem DecRun.ahead_start (s : State) (n : Nat) : (DecRun.mk s 0 n).ahead = s.bytes s.snap.src := rfl

/-- Behind k more bytes of SRC the rest is ahead, whatever became of the decoder stream. -/
theorem DecRun.ahead_drop (r : DecRun) (d : Decoder) (k : Nat) (h : r.ip + k ≤ r.state.snap.srcLen.toNat) :
    ({ r with ip := r.ip + k }.withDec d).ahead = r.ahead.drop k := by
  show r.state.memRead (r.state.snap.srcAddr.toNat + (r.ip + k)) (r.state.snap.srcLen.toNat - (r.ip + k)) = _
  unfold DecRun.ahead
  have := memRead_part r.state (r.state.snap.srcAddr.toNat + r.ip) (r.state.snap.srcLen.toNat - r.ip) k
    (r.state.snap.srcLen.toNat - (r.ip + k)) (by omega)
  rw [← Nat.add_assoc, this, List.take_of_length_le (by simp [State.memRead]; omega)]

/-- A field that stands in the bytes gathered before and those ahead is gathered, and what follows it is ahead then. -/
theorem gather_ahead (inEof : Bool) (k : Nat) (r : DecRun) (next : List Byte → DecRun → DecStep) (f rest : List Byte)
    (hk : r.state.dec.soFar.length ≤ k) (hf : f.length = k) (hip : r.ip ≤ r.state.snap.srcLen.toNat)
    (h : r.state.dec.soFar ++ r.ahead = f ++ rest) :
    ∃ q : DecRun, gather inEof k r next = next f q ∧ q.ahead = rest ∧ q.ip + rest.length = r.state.snap.srcLen.toNat ∧
      q.served = r.served ∧ q.state = { r.state with dec := { r.state.dec with field := [] } } := by
  have hlen := congrArg List.length h
  have ha := r.length_ahead
  simp only [List.length_append] at hlen
  refine ⟨_, gather_field inEof k r next f rest hk hf h, ?_, ?_, rfl, rfl⟩
  · rw [DecRun.ahead_drop r _ _ (by omega)]
    have h2 := congrArg (List.drop k) h
    rw [List.drop_left' hf, List.drop_append, List.drop_of_length_le hk, List.nil_append] at h2
    exact h2
  · simp only [DecRun.withDec]
    omega

/-- A field longer than the bytes gathered before and those ahead is kept, or fails at the end of the transport. -/
theorem gather_starved (inEof : Bool) (k : Nat) (r : DecRun) (next : List Byte → DecRun → DecStep)
    (hip : r.ip ≤ r.state.snap.srcLen.toNat) (h : (r.state.dec.soFar ++ r.ahead).length < k) :
    gather inEof k r next =
      if inEof then .fail { r with ip := r.state.snap.srcLen.toNat } .transportEof
      else .stop ({ r with ip := r.state.snap.srcLen.toNat }.withDec (r.state.dec.keep (r.state.dec.soFar ++ r.ahead)))
        true false :=
  gather_short inEof k r next hip (by simpa [DecRun.length_ahead] using h)

/-- The HC stage with every check passed (R314); cite it rather than unfold the stage, or the checksum is evaluated. -/
theorem hcStage_pass {f : List Byte} {r : DecRun} (h : firstCause (headerChecks r.state.dec f) = none) :
    hcStage f r = .more (r.withDec { r.state.dec with
      blockSize := blockSizeOf (sizeCode r.state.dec.bd), chained := !r.state.dec.flg.getLsbD 5,
      bcsum := r.state.dec.flg.getLsbD 4, state := .headerRead, stage := .blkLen }) := by
  unfold hcStage
  simp only
  split
  · next c hc => rw [h] at hc; cases hc
  · rfl

/-- The HC stage with a check that fails (R315, R316). -/
theorem hcStage_refuse {f : List Byte} {r : DecRun} {c : Cause} (h : firstCause (headerChecks r.state.dec f) = some c) :
    hcStage f r = .fail r c := by
  unfold hcStage
  simp only
  split
  · next d hd => rw [h] at hd; cases hd; rfl
  · next hd => rw [h] at hd; cases hd

/-! ### One stage of a run (R313) -/

theorem decLoop_more {opening inEof : Bool} {cap n : Nat} {r q : DecRun} (h : decStage opening inEof cap r = .more q) :
    decLoop opening inEof cap (n + 1) r = decLoop opening inEof cap n q := by
  simp [decLoop, h]

theorem decLoop_halt {opening inEof : Bool} {cap n : Nat} {r : DecRun} {e : DecEnd}
    (h : decStage opening inEof cap r = .halt e) : decLoop opening inEof cap (n + 1) r = e := by
  simp [decLoop, h]

/-- How a run ends that goes on from a stage's answer. -/
def DecStep.andThen (d : DecStep) (go : DecRun → DecEnd) : DecEnd :=
  match d with
  | .more q => go q
  | .halt e => e

@[simp] theorem DecStep.andThen_more (q : DecRun) (go : DecRun → DecEnd) : (DecStep.more q).andThen go = go q := rfl

@[simp] theorem DecStep.andThen_fail (q : DecRun) (c : Cause) (go : DecRun → DecEnd) :
    (DecStep.fail q c).andThen go = .fail q c := rfl

/-- What a run does after one stage. -/
theorem decLoop_step {opening inEof : Bool} {cap n : Nat} {r : DecRun} {d : DecStep}
    (h : decStage opening inEof cap r = d) :
    decLoop opening inEof cap (n + 1) r = d.andThen (decLoop opening inEof cap n) := by
  cases d with
  | more q => exact decLoop_more h
  | halt e => exact decLoop_halt h

/-! ### No stage reads the argument registers, the encoder context or the index (R46, R50) -/

/-- The run with other argument registers, another encoder context and another index. -/
def DecRun.withOthers (r : DecRun) (a : Args) (e : Encoder) (x : Index) : DecRun :=
  { r with state := { r.state with args := a, enc := e, index := x } }

/-- The end of a run with other argument registers, another encoder context and another index. -/
def DecEnd.withOthers (q : DecEnd) (a : Args) (e : Encoder) (x : Index) : DecEnd :=
  match q with
  | .stop r n f => .stop (r.withOthers a e x) n f
  | .fail r c => .fail (r.withOthers a e x) c

/-- A stage's answer with other argument registers, another encoder context and another index. -/
def DecStep.withOthers (q : DecStep) (a : Args) (e : Encoder) (x : Index) : DecStep :=
  match q with
  | .more r => .more (r.withOthers a e x)
  | .halt d => .halt (d.withOthers a e x)

theorem gather_others (inEof : Bool) (k : Nat) (r : DecRun) (next : List Byte → DecRun → DecStep) (a : Args)
    (e : Encoder) (x : Index) (hn : ∀ f r, next f (r.withOthers a e x) = (next f r).withOthers a e x) :
    gather inEof k (r.withOthers a e x) next = (gather inEof k r next).withOthers a e x := by
  unfold gather
  have h1 : gathered (r.withOthers a e x) k = gathered r k := rfl
  have h2 : gatherTake (r.withOthers a e x) k = gatherTake r k := rfl
  simp only [h1, h2]
  split
  · split <;> rfl
  · rw [← hn]; rfl

theorem decodeCurrent_others (r : DecRun) (a : Args) (e : Encoder) (x : Index) :
    decodeCurrent (r.withOthers a e x) = (decodeCurrent r).withOthers a e x := by
  unfold decodeCurrent
  simp only [show (r.withOthers a e x).state.dec = r.state.dec from rfl]
  split <;> rfl

theorem decStage_others (opening inEof : Bool) (cap : Nat) (r : DecRun) (a : Args) (e : Encoder) (x : Index) :
    decStage opening inEof cap (r.withOthers a e x) = (decStage opening inEof cap r).withOthers a e x := by
  have h : ∀ r : DecRun, (r.withOthers a e x).state.dec = r.state.dec := fun _ => rfl
  have hs : ∀ r : DecRun, (r.withOthers a e x).served = r.served := fun _ => rfl
  unfold decStage
  rw [h]
  split
  · refine gather_others _ _ _ _ _ _ _ fun f r => ?_
    unfold magicStage; split <;> rfl
  · refine gather_others _ _ _ _ _ _ _ fun f r => ?_
    unfold flgStage; simp only; split <;> rfl
  · exact gather_others _ _ _ _ _ _ _ fun f r => rfl
  · exact gather_others _ _ _ _ _ _ _ fun f r => rfl
  · exact gather_others _ _ _ _ _ _ _ fun f r => rfl
  · refine gather_others _ _ _ _ _ _ _ fun f r => ?_
    unfold hcStage; simp only [h]; split <;> rfl
  · simp only [hs]
    split
    · rfl
    · refine gather_others _ _ _ _ _ _ _ fun f r => ?_
      unfold blkLenStage; simp only [h]; split
      · rfl
      · split <;> rfl
  · refine gather_others _ _ _ _ _ _ _ fun f r => ?_
    unfold payloadStage; simp only [h]; split
    · rfl
    · exact decodeCurrent_others (r.withDec { r.state.dec with inBuf := f }) a e x
  · refine gather_others _ _ _ _ _ _ _ fun f r => ?_
    unfold bcsumStage; simp only [h]; split
    · rfl
    · exact decodeCurrent_others r a e x
  · simp only [hs]
    split <;> rfl
  · rfl

/-- A frame run reads the latched arguments, the decoder stream and MEM only (R46, R50). -/
theorem decLoop_others (opening inEof : Bool) (cap n : Nat) (r : DecRun) (a : Args) (e : Encoder) (x : Index) :
    decLoop opening inEof cap n (r.withOthers a e x) = (decLoop opening inEof cap n r).withOthers a e x := by
  induction n generalizing r with
  | zero => rfl
  | succ n ih =>
    unfold decLoop
    rw [decStage_others]
    cases decStage opening inEof cap r with
    | more q => exact ih q
    | halt d => rfl

/-! ### Every stage keeps the stream in order (R312) -/

/-- The stream is in order and neither unopened nor failed. -/
def InOrder (s : State) : Prop := DecoderOk s ∧ s.dec.state ≠ .unopened ∧ s.dec.state ≠ .failed

theorem DecoderOk.of_kept {s t : State} (h : DecoderOk s) (hf : t.decFdesc = s.decFdesc) (hc : t.decCsize = s.decCsize)
    (hi : t.decDictId = s.decDictId) (hd : t.dec = s.dec) : DecoderOk t := by
  have h2 := h
  obtain ⟨a, b, c, d, e, f, g, i, j, k, l⟩ := h2
  constructor <;> simp only [hd, hf, hc, hi] <;> assumption

theorem InOrder.gather {r : DecRun} (inEof : Bool) (k : Nat) (next : List Byte → DecRun → DecStep)
    (h : InOrder r.state)
    (hn : ∀ f q, InOrder q.state → q.state.dec.stage = r.state.dec.stage → InOrder (next f q).run.state) :
    InOrder (gather inEof k r next).run.state := by
  have hkeep : ∀ q : DecRun, q.state = { r.state with dec := q.state.dec } →
      (∃ f b, q.state.dec = { r.state.dec with field := f, inBuf := b }) → InOrder q.state := by
    rintro q hq ⟨f, b, hd⟩
    obtain ⟨⟨h1, h2, h3, h4, h5, h6, h7, h8, h9, h10, h11⟩, hu, hfail⟩ := h
    rw [hq, hd]
    exact ⟨⟨fun hx => absurd hx hu, h2, h3, h4, h5, h6, h7, h8, h9, h10, h11⟩, hu, hfail⟩
  unfold Machine.gather
  simp only
  split
  · split
    · exact h
    · refine hkeep _ rfl ?_
      show ∃ f b, r.state.dec.keep _ = _
      unfold Decoder.keep
      split <;> exact ⟨_, _, rfl⟩
  · exact hn _ _ (hkeep _ rfl ⟨_, _, rfl⟩) rfl

/-- A stage of the header means the stream is opening. -/
theorem InOrder.opening_of {s : State} (h : InOrder s) (hs : s.dec.stage.inHeader = true) : s.dec.state = .opening := by
  obtain ⟨h1, h2, h3⟩ := h
  have := h1.reading
  cases hst : s.dec.state <;> simp_all [Decoder.headerDone]

/-- A stage of the blocks means the header is done. -/
theorem InOrder.header_of {s : State} (h : InOrder s) (hs : s.dec.stage.inHeader = false) : s.dec.headerDone = true := by
  obtain ⟨h1, h2, h3⟩ := h
  have := h1.opening
  cases hst : s.dec.state <;> simp_all [Decoder.headerDone]

theorem magicStage_ok (f : List Byte) {r : DecRun} (h : InOrder r.state) (hs : r.state.dec.stage = .magic) :
    InOrder (magicStage f r).run.state := by
  have ho := h.opening_of (by rw [hs]; rfl)
  obtain ⟨h1, h2, h3⟩ := h
  unfold magicStage
  split
  · exact ⟨h1, h2, h3⟩
  · refine ⟨⟨fun hx => absurd hx h2, h1.mirror, fun _ => rfl, fun _ _ hx => absurd rfl hx, h1.fresh, ?_, ?_, ?_, h1.served,
      h1.window, h1.alone⟩, h2, h3⟩
    all_goals (intro hx; simp [DecStep.run, DecRun.withDec, Decoder.headerDone, ho] at hx)

/-- DEC_FDESC without its low byte. -/
theorem extract_upper (x : BitVec (16 + 8)) (y : Byte) : (x ++ y : BitVec (16 + 8 + 8)).extractLsb' 8 24 = x := by
  apply BitVec.eq_of_getLsbD_eq
  intro i hi
  rw [BitVec.getLsbD_extractLsb', BitVec.getLsbD_append]
  simp [hi]

/-- DEC_FDESC with another high byte. -/
theorem extract_outer (x : BitVec 16) (y z : Byte) :
    (x ++ y ++ z : BitVec (16 + 8 + 8)).extractLsb' 16 16 = x ∧ (x ++ y ++ z : BitVec (16 + 8 + 8)).extractLsb' 0 8 = z := by
  constructor
  · apply BitVec.eq_of_getLsbD_eq
    intro i hi
    rw [BitVec.getLsbD_extractLsb', BitVec.getLsbD_append, BitVec.getLsbD_append]
    have e : 16 + i - 8 - 8 = i := by omega
    simp [hi, e, show ¬ 16 + i < 8 by omega, show ¬ 16 + i - 8 < 8 by omega]
  · apply BitVec.eq_of_getLsbD_eq
    intro i hi
    rw [BitVec.getLsbD_extractLsb', BitVec.getLsbD_append]
    simp [hi]

theorem flgStage_ok (f : List Byte) {r : DecRun} (h : InOrder r.state) (hs : r.state.dec.stage = .flg) :
    InOrder (flgStage f r).run.state := by
  have ho := h.opening_of (by rw [hs]; rfl)
  obtain ⟨h1, h2, h3⟩ := h
  have hm : (r.state.decFdesc.extractLsb' 8 24 ++ f.headD 0#8 : BitVec (24 + 8)) =
      (0#16 ++ r.state.dec.bd ++ f.headD 0#8 : BitVec (16 + 8 + 8)) := by
    rw [h1.mirror, extract_upper]
  unfold flgStage
  simp only
  split
  · refine ⟨⟨fun hx => absurd hx h2, hm, fun _ => by show r.state.dec.stage.inHeader = true; rw [hs]; rfl,
      fun _ _ hx => absurd hs hx, h1.fresh, ?_, ?_, ?_, h1.served, h1.window, h1.alone⟩, h2, h3⟩
    all_goals (intro hx; simp [DecStep.fail, DecStep.run, DecEnd.run, Decoder.headerDone, ho] at hx)
  · next hv =>
    refine ⟨⟨fun hx => absurd hx h2, hm, fun _ => rfl, fun _ _ _ => not_not.1 hv, h1.fresh, ?_, ?_, ?_,
      h1.served, h1.window, h1.alone⟩, h2, h3⟩
    all_goals (intro hx; simp [DecStep.run, Decoder.headerDone, ho] at hx)

theorem bdStage_ok (f : List Byte) {r : DecRun} (h : InOrder r.state) (hs : r.state.dec.stage = .bd) :
    InOrder (bdStage f r).run.state := by
  have ho := h.opening_of (by rw [hs]; rfl)
  obtain ⟨h1, h2, h3⟩ := h
  have hv := h1.versioned ho (by rw [hs]; decide) (by rw [hs]; decide)
  have hm : (r.state.decFdesc.extractLsb' 16 16 ++ f.headD 0#8 ++ r.state.decFdesc.extractLsb' 0 8 : BitVec (16 + 8 + 8)) =
      (0#16 ++ f.headD 0#8 ++ r.state.dec.flg : BitVec (16 + 8 + 8)) := by
    rw [h1.mirror, (extract_outer _ _ _).1, (extract_outer _ _ _).2]
  unfold bdStage
  refine ⟨⟨fun hx => absurd hx h2, hm, fun _ => ?_, fun _ _ _ => hv, h1.fresh, ?_, ?_, ?_, h1.served, h1.window,
    h1.alone⟩, h2, h3⟩
  · show DecStage.inHeader (if r.state.dec.flg.getLsbD 3 then .csize else afterCsize r.state.dec.flg) = true
    unfold afterCsize
    split
    · rfl
    · split <;> rfl
  all_goals (intro hx; simp [DecStep.run, Decoder.headerDone, ho] at hx)

theorem csizeStage_ok (f : List Byte) {r : DecRun} (h : InOrder r.state) (hs : r.state.dec.stage = .csize) :
    InOrder (csizeStage f r).run.state := by
  have ho := h.opening_of (by rw [hs]; rfl)
  obtain ⟨h1, h2, h3⟩ := h
  have hv := h1.versioned ho (by rw [hs]; decide) (by rw [hs]; decide)
  unfold csizeStage
  refine ⟨⟨fun hx => absurd hx h2, h1.mirror, fun _ => ?_, fun _ _ _ => hv, h1.fresh, ?_, ?_, ?_, h1.served, h1.window,
    h1.alone⟩, h2, h3⟩
  · show DecStage.inHeader (afterCsize r.state.dec.flg) = true
    unfold afterCsize
    split <;> rfl
  all_goals (intro hx; simp [DecStep.run, Decoder.headerDone, ho] at hx)

theorem dictIdStage_ok (f : List Byte) {r : DecRun} (h : InOrder r.state) (hs : r.state.dec.stage = .dictId) :
    InOrder (dictIdStage f r).run.state := by
  have ho := h.opening_of (by rw [hs]; rfl)
  obtain ⟨h1, h2, h3⟩ := h
  have hv := h1.versioned ho (by rw [hs]; decide) (by rw [hs]; decide)
  unfold dictIdStage
  refine ⟨⟨fun hx => absurd hx h2, h1.mirror, fun _ => rfl, fun _ _ _ => hv, h1.fresh, ?_, ?_, ?_, h1.served, h1.window,
    h1.alone⟩, h2, h3⟩
  all_goals (intro hx; simp [DecStep.run, Decoder.headerDone, ho] at hx)

theorem hcStage_ok (f : List Byte) {r : DecRun} (h : InOrder r.state) (hs : r.state.dec.stage = .hc) :
    InOrder (hcStage f r).run.state := by
  have ho := h.opening_of (by rw [hs]; rfl)
  have hh := h
  obtain ⟨h1, h2, h3⟩ := h
  have hv := h1.versioned ho (by rw [hs]; decide) (by rw [hs]; decide)
  have hf := h1.fresh ho
  unfold hcStage
  simp only
  split
  · exact hh
  · next hc =>
    have hok : ∀ q ∈ headerChecks r.state.dec f, q.1 = false := by
      intro q hq
      generalize headerChecks r.state.dec f = l at hc hq
      induction l with
      | nil => cases hq
      | cons p l ih =>
        obtain ⟨b, c⟩ := p
        cases b with
        | true => simp [firstCause] at hc
        | false =>
          rcases List.mem_cons.1 hq with rfl | hq
          · rfl
          · exact ih (by simpa [firstCause] using hc) hq
    have c2 := hok (descriptorReserved r.state.dec.flg r.state.dec.bd, .headerReserved) (by simp [headerChecks])
    have c3 := hok (decide (sizeCode r.state.dec.bd < 4), .headerBlockSize) (by simp [headerChecks])
    have c4 := hok (r.state.dec.flg.getLsbD 2, .contentChecksum) (by simp [headerChecks])
    have c5 := hok (r.state.dec.flg.getLsbD 0, .dictionaryId) (by simp [headerChecks])
    simp only [decide_eq_false_iff_not, not_lt] at c3
    refine ⟨⟨?_, h1.mirror, ?_, ?_, ?_, fun _ => rfl, ?_, fun _ => ⟨hv, c2, c3, c4, c5, rfl, rfl, rfl⟩, h1.served, h1.window,
      fun _ => hf.1⟩, ?_, ?_⟩
    all_goals simp [DecStep.run, DecRun.withDec]

theorem blkLenStage_ok (f : List Byte) {r : DecRun} (h : InOrder r.state) (hs : r.state.dec.stage = .blkLen) :
    InOrder (blkLenStage f r).run.state := by
  have hd := h.header_of (by rw [hs]; rfl)
  obtain ⟨h1, h2, h3⟩ := h
  have hno : r.state.dec.state ≠ .opening := by intro hx; simp [Decoder.headerDone, hx] at hd
  have hnc : r.state.dec.state ≠ .closed := by intro hx; have := h1.ended hx; rw [hs] at this; cases this
  unfold blkLenStage
  simp only
  split
  · refine ⟨⟨?_, h1.mirror, ?_, ?_, ?_, fun _ => rfl, fun _ => rfl, fun _ => h1.header hd, h1.served, h1.window, h1.alone⟩,
      ?_, ?_⟩
    all_goals simp [DecStep.run, DecRun.withDec]
  · split
    · exact ⟨⟨fun hx => absurd hx h2, h1.mirror, fun hx => absurd hx hno, fun hx => absurd hx hno, fun hx => absurd hx hno,
        h1.reading, h1.ended, h1.header, h1.served, h1.window, h1.alone⟩, h2, h3⟩
    · exact ⟨⟨fun hx => absurd hx h2, h1.mirror, fun hx => absurd hx hno, fun hx => absurd hx hno, fun hx => absurd hx hno,
        fun _ => rfl, fun hx => absurd hx hnc, h1.header, h1.served, h1.window, h1.alone⟩, h2, h3⟩

theorem decodeCurrent_ok {r : DecRun} (h : InOrder r.state) (hs : r.state.dec.stage.inHeader = false) :
    InOrder (decodeCurrent r).run.state := by
  have hd := h.header_of hs
  have hh := h
  obtain ⟨h1, h2, h3⟩ := h
  unfold decodeCurrent
  simp only
  split
  · exact hh
  · next out _ =>
    refine ⟨⟨?_, h1.mirror, ?_, ?_, ?_, fun _ => rfl, ?_, fun _ => h1.header hd, Nat.zero_le _, ?_, ?_⟩, ?_, ?_⟩
    · simp [DecStep.run, DecRun.withDec]
    · simp [DecStep.run, DecRun.withDec]
    · simp [DecStep.run, DecRun.withDec]
    · simp [DecStep.run, DecRun.withDec]
    · simp [DecStep.run, DecRun.withDec]
    · show (if r.state.dec.chained then lastBytes Config.window (r.state.dec.hist ++ out) else r.state.dec.hist).length ≤ _
      split
      · rw [length_lastBytes]; exact Nat.min_le_left _ _
      · exact h1.window
    · intro hc
      show (if r.state.dec.chained then lastBytes Config.window (r.state.dec.hist ++ out) else r.state.dec.hist) = []
      have hc' : r.state.dec.chained = false := hc
      rw [hc', if_neg (by simp)]
      exact h1.alone hc'
    · simp [DecStep.run, DecRun.withDec]
    · simp [DecStep.run, DecRun.withDec]

theorem payloadStage_ok (f : List Byte) {r : DecRun} (h : InOrder r.state) (hs : r.state.dec.stage = .payload) :
    InOrder (payloadStage f r).run.state := by
  have hd := h.header_of (by rw [hs]; rfl)
  obtain ⟨h1, h2, h3⟩ := h
  have hno : r.state.dec.state ≠ .opening := by intro hx; simp [Decoder.headerDone, hx] at hd
  have hnc : r.state.dec.state ≠ .closed := by intro hx; have := h1.ended hx; rw [hs] at this; cases this
  unfold payloadStage
  simp only
  split
  · exact ⟨⟨fun hx => absurd hx h2, h1.mirror, fun hx => absurd hx hno, fun hx => absurd hx hno, fun hx => absurd hx hno,
      fun _ => rfl, fun hx => absurd hx hnc, h1.header, h1.served, h1.window, h1.alone⟩, h2, h3⟩
  · refine decodeCurrent_ok (r := r.withDec { r.state.dec with inBuf := f }) ⟨⟨fun hx => absurd hx h2, h1.mirror,
      fun hx => absurd hx hno, fun hx => absurd hx hno, fun hx => absurd hx hno, h1.reading, h1.ended, h1.header, h1.served,
      h1.window, h1.alone⟩, h2, h3⟩ ?_
    show r.state.dec.stage.inHeader = false
    rw [hs]
    rfl

theorem bcsumStage_ok (f : List Byte) {r : DecRun} (h : InOrder r.state) (hs : r.state.dec.stage = .bcsum) :
    InOrder (bcsumStage f r).run.state := by
  unfold bcsumStage
  split
  · exact h
  · exact decodeCurrent_ok h (by rw [hs]; rfl)

theorem serveStage_ok (cap : Nat) {r : DecRun} (h : InOrder r.state) (hs : r.state.dec.stage = .serve) :
    InOrder (serveStage cap r).run.state := by
  have hd := h.header_of (by rw [hs]; rfl)
  obtain ⟨h1, h2, h3⟩ := h
  have hno : r.state.dec.state ≠ .opening := by intro hx; simp [Decoder.headerDone, hx] at hd
  have hnc : r.state.dec.state ≠ .closed := by intro hx; have := h1.ended hx; rw [hs] at this; cases this
  have hsv := h1.served
  unfold serveStage
  refine ⟨⟨fun hx => absurd hx h2, h1.mirror, fun hx => absurd hx hno, fun hx => absurd hx hno, fun hx => absurd hx hno,
    fun _ => ?_, fun hx => absurd hx hnc, h1.header, ?_, h1.window, h1.alone⟩, h2, h3⟩
  · simp only [DecStep.run]
    split <;> rfl
  · simp only [DecStep.run]
    omega

/-- Every stage keeps the decoder stream in order (R312). -/
theorem decStage_ok (opening inEof : Bool) (cap : Nat) {r : DecRun} (h : InOrder r.state) :
    InOrder (decStage opening inEof cap r).run.state := by
  unfold decStage
  split
  · next hs => exact h.gather _ _ _ fun f q hq he => magicStage_ok f hq (he.trans hs)
  · next hs => exact h.gather _ _ _ fun f q hq he => flgStage_ok f hq (he.trans hs)
  · next hs => exact h.gather _ _ _ fun f q hq he => bdStage_ok f hq (he.trans hs)
  · next hs => exact h.gather _ _ _ fun f q hq he => csizeStage_ok f hq (he.trans hs)
  · next hs => exact h.gather _ _ _ fun f q hq he => dictIdStage_ok f hq (he.trans hs)
  · next hs => exact h.gather _ _ _ fun f q hq he => hcStage_ok f hq (he.trans hs)
  · next hs =>
    split
    · exact h
    · exact h.gather _ _ _ fun f q hq he => blkLenStage_ok f hq (he.trans hs)
  · next hs => exact h.gather _ _ _ fun f q hq he => payloadStage_ok f hq (he.trans hs)
  · next hs => exact h.gather _ _ _ fun f q hq he => bcsumStage_ok f hq (he.trans hs)
  · next hs =>
    split
    · exact h
    · exact serveStage_ok cap h hs
  · exact h

/-- A frame run keeps the decoder stream in order (R312). -/
theorem decLoop_ok (opening inEof : Bool) (cap n : Nat) {r : DecRun} (h : InOrder r.state) :
    InOrder (decLoop opening inEof cap n r).run.state := by
  induction n generalizing r with
  | zero => exact h
  | succ n ih =>
    have hs := decStage_ok opening inEof cap h
    unfold decLoop
    split
    · next q hq => rw [hq] at hs; exact ih hs
    · next e he => rw [he] at hs; exact hs

end Sys2Proof.Machine
end

