-- ==== Sys2Proof/Laws/Fields.lean ====
section
/-! SUPPORT. Runs of the frame decoder over whole fields (46_frame_decoder.md R313-R317, R321-R323): from a new frame through
the header up to its checksum byte, and through a block's length word, payload and checksum up to its decoding. -/

namespace Sys2Proof.Machine

theorem le32_leBytes (w : Word) : le32 (leBytes 4 w.toNat) = w := by
  unfold le32
  rw [List.take_of_length_le (by simp), leNat_leBytes _ _ (by have := w.isLt; omega)]
  simp

/-- Four bytes are the word they spell. -/
theorem leBytes_le32 {f : List Byte} (h : f.length = 4) (w : Word) : le32 f = w ↔ f = leBytes 4 w.toNat := by
  constructor
  · rintro rfl
    match f, h with
    | [a, b, c, d], _ =>
      simp only [le32, List.take, leNat, leBytes, BitVec.toNat_ofNat]
      have := a.isLt
      have := b.isLt
      have := c.isLt
      have := d.isLt
      refine congrArg₂ _ ?_ (congrArg₂ _ ?_ (congrArg₂ _ ?_ (congrArg₂ _ ?_ rfl)))
      all_goals
        apply BitVec.eq_of_toNat_eq
        simp
        omega
  · rintro rfl
    exact le32_leBytes w

/-! ### The header (R314) -/

/-- A run from s on that stands at a stage of the header, with these header bytes, FLG, BD and header registers; what earlier
commands and stages left of the stage's field and SRC behind it are `ahead`. -/
structure AtHeader (s : State) (stage : DecStage) (hdr : List Byte) (flg bd : Byte) (fdesc : Word) (csize : BitVec 64)
    (dictId : Word) (r : DecRun) (ahead : List Byte) : Prop where
  state : r.state = { s with
    dec := { s.dec with stage := stage, field := r.state.dec.field, hdr := hdr, flg := flg, bd := bd }
    decFdesc := fdesc, decCsize := csize, decDictId := dictId }
  left : r.state.dec.field ++ r.ahead = ahead
  short : r.state.dec.field.length < r.state.dec.fieldSize
  served : r.served = 0
  ip : r.ip ≤ s.snap.srcLen.toNat

section
variable {s : State} {stage : DecStage} {hdr : List Byte} {flg bd : Byte} {fdesc : Word} {csize : BitVec 64}
  {dictId : Word} {r : DecRun} {rest : List Byte} (opening inEof : Bool) (cap : Nat)

theorem AtHeader.start (s : State) (h : s.dec.field.length < s.dec.fieldSize) :
    AtHeader s s.dec.stage s.dec.hdr s.dec.flg s.dec.bd s.decFdesc s.decCsize s.decDictId ⟨s, 0, 0⟩
      (s.dec.field ++ s.bytes s.snap.src) :=
  ⟨rfl, rfl, h, rfl, Nat.zero_le _⟩

theorem AtHeader.stage_eq {ahead : List Byte} (h : AtHeader s stage hdr flg bd fdesc csize dictId r ahead) :
    r.state.dec.stage = stage := by rw [h.state]

/-- The stage's field is gathered and the rest is ahead then. -/
theorem AtHeader.gather {f : List Byte} {k : Nat} {next : List Byte → DecRun → DecStep}
    (h : AtHeader s stage hdr flg bd fdesc csize dictId r (f ++ rest)) (hs : stage.inHeader = true)
    (hk : r.state.dec.fieldSize = k) (hf : f.length = k)
    (hstep : decStage opening inEof cap r = gather inEof k r next) :
    ∃ q, decStage opening inEof cap r = next f q ∧ q.ahead = rest ∧ q.ip + rest.length = s.snap.srcLen.toNat ∧
      q.served = 0 ∧ q.state = { s with
        dec := { s.dec with stage := stage, field := [], hdr := hdr, flg := flg, bd := bd }
        decFdesc := fdesc, decCsize := csize, decDictId := dictId } := by
  have hst := h.stage_eq
  have hsf : r.state.dec.soFar = r.state.dec.field := by
    unfold Decoder.soFar
    rw [hst]
    cases stage <;> first | rfl | cases hs
  have hsn : r.state.snap = s.snap := by rw [h.state]
  have hsh := h.short
  obtain ⟨q, h1, h2, h3, h4, h5⟩ := gather_ahead inEof k r next f rest (by rw [hsf]; omega) hf
    (by rw [hsn]; exact h.ip) (by rw [hsf]; exact h.left)
  exact ⟨q, hstep.trans h1, h2, hsn ▸ h3, h4.trans h.served, by rw [h5, h.state]⟩

/-- A run at a stage of the header that has nothing of its field yet. -/
theorem AtHeader.fresh {q : DecRun} (hq : q.state = { s with
      dec := { s.dec with stage := stage, field := [], hdr := hdr, flg := flg, bd := bd }
      decFdesc := fdesc, decCsize := csize, decDictId := dictId }) (hs : stage.inHeader = true)
    (ha : q.ahead = rest) (hv : q.served = 0) (hi : q.ip + rest.length = s.snap.srcLen.toNat) :
    AtHeader s stage hdr flg bd fdesc csize dictId q rest := by
  refine ⟨by rw [hq], by rw [hq, ha]; rfl, ?_, hv, by omega⟩
  rw [hq]
  cases stage <;> first | exact absurd hs (by decide) | exact Nat.zero_lt_succ _

theorem AtHeader.magic (h : AtHeader s .magic hdr flg bd fdesc csize dictId r (magicBytes ++ rest)) :
    ∃ q, AtHeader s .flg hdr flg bd fdesc csize dictId q rest ∧
      ∀ n, decLoop opening inEof cap (n + 1) r = decLoop opening inEof cap n q := by
  obtain ⟨q, h1, h2, h3, h4, h5⟩ := h.gather opening inEof cap rfl (k := 4) (next := magicStage)
    (by simp only [Decoder.fieldSize, h.stage_eq]) rfl (by simp only [decStage, h.stage_eq])
  simp only [magicStage, ne_eq, not_true_eq_false, if_false] at h1
  refine ⟨_, ?_, fun n => decLoop_more h1⟩
  exact .fresh (by simp only [DecRun.withDec, h5]) rfl h2 h4 h3

/-- A magic number that is none is refused (R314). -/
theorem AtHeader.badMagic {f : List Byte} (h : AtHeader s .magic hdr flg bd fdesc csize dictId r (f ++ rest))
    (hf : f.length = 4) (hm : f ≠ magicBytes) :
    ∃ q, q.state = { s with
        dec := { s.dec with stage := .magic, field := [], hdr := hdr, flg := flg, bd := bd }
        decFdesc := fdesc, decCsize := csize, decDictId := dictId } ∧
      ∀ n, decLoop opening inEof cap (n + 1) r = .fail q .badMagic := by
  obtain ⟨q, h1, _, _, _, h5⟩ := h.gather opening inEof cap rfl (k := 4) (next := magicStage)
    (by simp only [Decoder.fieldSize, h.stage_eq]) hf (by simp only [decStage, h.stage_eq])
  simp only [magicStage, hm, ne_eq, not_false_eq_true, if_true, DecStep.fail] at h1
  exact ⟨q, h5, fun n => decLoop_halt h1⟩

theorem AtHeader.version {b : Byte} (h : AtHeader s .flg hdr flg bd fdesc csize dictId r (b :: rest))
    (hv : versionOf b = 1#2) :
    ∃ q, AtHeader s .bd (hdr ++ [b]) b bd (fdesc.extractLsb' 8 24 ++ b : BitVec (24 + 8)) csize dictId q rest ∧
      ∀ n, decLoop opening inEof cap (n + 1) r = decLoop opening inEof cap n q := by
  obtain ⟨q, h1, h2, h3, h4, h5⟩ := AtHeader.gather (f := [b]) opening inEof cap h rfl (k := 1) (next := flgStage)
    (by simp only [Decoder.fieldSize, h.stage_eq]) rfl (by simp only [decStage, h.stage_eq])
  simp only [flgStage, List.headD_cons, hv, ne_eq, not_true_eq_false, if_false] at h1
  refine ⟨_, ?_, fun n => decLoop_more h1⟩
  exact .fresh (by simp only [h5]) rfl h2 h4 h3

/-- A version that is not 1 is refused, with the byte in DEC_HDR and DEC_FDESC (R314). -/
theorem AtHeader.refused {b : Byte} (h : AtHeader s .flg hdr flg bd fdesc csize dictId r (b :: rest))
    (hv : versionOf b ≠ 1#2) :
    ∃ q, q.state = { s with
        dec := { s.dec with stage := .flg, field := [], hdr := hdr ++ [b], flg := b, bd := bd }
        decFdesc := (fdesc.extractLsb' 8 24 ++ b : BitVec (24 + 8)), decCsize := csize, decDictId := dictId } ∧
      ∀ n, decLoop opening inEof cap (n + 1) r = .fail q .version := by
  obtain ⟨q, h1, h2, h3, h4, h5⟩ := AtHeader.gather (f := [b]) opening inEof cap h rfl (k := 1) (next := flgStage)
    (by simp only [Decoder.fieldSize, h.stage_eq]) rfl (by simp only [decStage, h.stage_eq])
  simp only [flgStage, List.headD_cons, hv, ne_eq, not_false_eq_true, if_true, DecStep.fail] at h1
  refine ⟨_, ?_, fun n => decLoop_halt h1⟩
  simp only [h5]

theorem inHeader_afterCsize (flg : Byte) : (afterCsize flg).inHeader = true := by
  unfold afterCsize
  split <;> rfl

theorem AtHeader.descriptor {b : Byte} (h : AtHeader s .bd hdr flg bd fdesc csize dictId r (b :: rest)) :
    ∃ q, AtHeader s (if flg.getLsbD 3 then .csize else afterCsize flg) (hdr ++ [b]) flg b
        (fdesc.extractLsb' 16 16 ++ b ++ fdesc.extractLsb' 0 8 : BitVec (16 + 8 + 8)) csize dictId q rest ∧
      ∀ n, decLoop opening inEof cap (n + 1) r = decLoop opening inEof cap n q := by
  obtain ⟨q, h1, h2, h3, h4, h5⟩ := AtHeader.gather (f := [b]) opening inEof cap h rfl (k := 1) (next := bdStage)
    (by simp only [Decoder.fieldSize, h.stage_eq]) rfl (by simp only [decStage, h.stage_eq])
  simp only [bdStage, List.headD_cons] at h1
  refine ⟨_, ?_, fun n => decLoop_more h1⟩
  refine .fresh (by simp only [h5]) ?_ h2 h4 h3
  split
  · rfl
  · exact inHeader_afterCsize flg

theorem AtHeader.contentSize {v : BitVec 64}
    (h : AtHeader s .csize hdr flg bd fdesc csize dictId r (leBytes 8 v.toNat ++ rest)) :
    ∃ q, AtHeader s (afterCsize flg) (hdr ++ leBytes 8 v.toNat) flg bd fdesc v dictId q rest ∧
      ∀ n, decLoop opening inEof cap (n + 1) r = decLoop opening inEof cap n q := by
  obtain ⟨q, h1, h2, h3, h4, h5⟩ := h.gather opening inEof cap rfl (k := 8) (next := csizeStage)
    (by simp only [Decoder.fieldSize, h.stage_eq]) (by simp) (by simp only [decStage, h.stage_eq])
  have hv : BitVec.ofNat 64 (leNat ((leBytes 8 v.toNat).take 8)) = v := by
    rw [List.take_of_length_le (by simp), leNat_leBytes _ _ (by have := v.isLt; omega)]
    simp
  simp only [csizeStage, hv] at h1
  refine ⟨_, ?_, fun n => decLoop_more h1⟩
  exact .fresh (by simp only [h5]) (inHeader_afterCsize flg) h2 h4 h3

theorem AtHeader.dictionary {v : Word} (h : AtHeader s .dictId hdr flg bd fdesc csize dictId r (leBytes 4 v.toNat ++ rest)) :
    ∃ q, AtHeader s .hc (hdr ++ leBytes 4 v.toNat) flg bd fdesc csize v q rest ∧
      ∀ n, decLoop opening inEof cap (n + 1) r = decLoop opening inEof cap n q := by
  obtain ⟨q, h1, h2, h3, h4, h5⟩ := h.gather opening inEof cap rfl (k := 4) (next := dictIdStage)
    (by simp only [Decoder.fieldSize, h.stage_eq]) (by simp) (by simp only [decStage, h.stage_eq])
  simp only [dictIdStage, le32_leBytes] at h1
  refine ⟨_, ?_, fun n => decLoop_more h1⟩
  exact .fresh (by simp only [h5]) rfl h2 h4 h3

/-- From the DICTID stage on, if the header has one, up to the checksum byte (R314). -/
theorem AtHeader.toChecksum {v : Word}
    (h : AtHeader s (afterCsize flg) hdr flg bd fdesc csize dictId r
      ((if flg.getLsbD 0 then leBytes 4 v.toNat else []) ++ rest)) :
    ∃ k q, k ≤ 1 ∧ AtHeader s .hc (hdr ++ if flg.getLsbD 0 then leBytes 4 v.toNat else []) flg bd fdesc csize
        (if flg.getLsbD 0 then v else dictId) q rest ∧
      ∀ n, decLoop opening inEof cap (n + k) r = decLoop opening inEof cap n q := by
  unfold afterCsize at h
  cases hf : flg.getLsbD 0 with
  | false =>
    simp only [hf, Bool.false_eq_true, if_false, List.nil_append, List.append_nil] at h ⊢
    exact ⟨0, r, by omega, h, fun n => rfl⟩
  | true =>
    simp only [hf, if_true] at h ⊢
    obtain ⟨q, h1, h2⟩ := h.dictionary opening inEof cap
    exact ⟨1, q, le_rfl, h1, h2⟩

/-- From the CSIZE stage on, if the header has one, up to the checksum byte (R314). -/
theorem AtHeader.sizeToChecksum {z : BitVec 64} {v : Word}
    (h : AtHeader s (if flg.getLsbD 3 then .csize else afterCsize flg) hdr flg bd fdesc csize dictId r
      ((if flg.getLsbD 3 then leBytes 8 z.toNat else []) ++ ((if flg.getLsbD 0 then leBytes 4 v.toNat else []) ++ rest))) :
    ∃ k q, k ≤ 2 ∧ AtHeader s .hc (hdr ++ (if flg.getLsbD 3 then leBytes 8 z.toNat else []) ++
        if flg.getLsbD 0 then leBytes 4 v.toNat else []) flg bd fdesc (if flg.getLsbD 3 then z else csize)
        (if flg.getLsbD 0 then v else dictId) q rest ∧
      ∀ n, decLoop opening inEof cap (n + k) r = decLoop opening inEof cap n q := by
  cases hf : flg.getLsbD 3 with
  | false =>
    simp only [hf, Bool.false_eq_true, if_false, List.nil_append, List.append_nil] at h ⊢
    obtain ⟨k, q, hk, hq, e⟩ := h.toChecksum opening inEof cap
    exact ⟨k, q, by omega, hq, e⟩
  | true =>
    simp only [hf, if_true] at h ⊢
    obtain ⟨p, hp, ep⟩ := h.contentSize opening inEof cap
    obtain ⟨k, q, hk, hq, e⟩ := hp.toChecksum opening inEof cap
    exact ⟨k + 1, q, by omega, hq, fun n => by rw [← Nat.add_assoc, ep, e]⟩

/-- From the BD stage on up to the checksum byte (R314). -/
theorem AtHeader.bdToChecksum {b : Byte} {z : BitVec 64} {v : Word}
    (h : AtHeader s .bd [flg] flg bd (0#16 ++ bd ++ flg : BitVec (16 + 8 + 8)) csize dictId r
      (b :: ((if flg.getLsbD 3 then leBytes 8 z.toNat else []) ++
        ((if flg.getLsbD 0 then leBytes 4 v.toNat else []) ++ rest)))) :
    ∃ k q, k ≤ 3 ∧ AtHeader s .hc (headerFields flg b z v) flg b (0#16 ++ b ++ flg : BitVec (16 + 8 + 8))
        (if flg.getLsbD 3 then z else csize) (if flg.getLsbD 0 then v else dictId) q rest ∧
      ∀ n, decLoop opening inEof cap (n + k) r = decLoop opening inEof cap n q := by
  obtain ⟨p, hp, ep⟩ := h.descriptor opening inEof cap
  rw [(extract_outer _ _ _).1, (extract_outer _ _ _).2] at hp
  obtain ⟨k, q, hk, hq, e⟩ := hp.sizeToChecksum opening inEof cap
  exact ⟨k + 1, q, by omega, hq, fun n => by rw [← Nat.add_assoc, ep, e]⟩

/-- From the FLG stage on up to the checksum byte (R314). -/
theorem AtHeader.flgToChecksum {b c d : Byte} {z : BitVec 64} {v : Word} (hv : versionOf b = 1#2)
    (h : AtHeader s .flg [] flg bd (0#16 ++ bd ++ d : BitVec (16 + 8 + 8)) csize dictId r
      (b :: c :: ((if b.getLsbD 3 then leBytes 8 z.toNat else []) ++
        ((if b.getLsbD 0 then leBytes 4 v.toNat else []) ++ rest)))) :
    ∃ k q, k ≤ 4 ∧ AtHeader s .hc (headerFields b c z v) b c (0#16 ++ c ++ b : BitVec (16 + 8 + 8))
        (if b.getLsbD 3 then z else csize) (if b.getLsbD 0 then v else dictId) q rest ∧
      ∀ n, decLoop opening inEof cap (n + k) r = decLoop opening inEof cap n q := by
  obtain ⟨p, hp, ep⟩ := h.version opening inEof cap hv
  rw [extract_upper] at hp
  obtain ⟨k, q, hk, hq, e⟩ := hp.bdToChecksum opening inEof cap
  exact ⟨k + 1, q, by omega, hq, fun n => by rw [← Nat.add_assoc, ep, e]⟩

/-- A run reads a header of version 1 up to its checksum byte, from any stage of it on, and shows its fields (R314). -/
theorem decLoop_header {flg bd : Byte} {csize : BitVec 64} {dictId : Word} {sum : Byte}
    (h : s.HeaderAhead flg bd csize dictId sum rest) (hv : versionOf flg = 1#2) :
    ∃ k q, k ≤ 5 ∧
      AtHeader s .hc (headerFields flg bd csize dictId) flg bd (0#16 ++ bd ++ flg : BitVec (16 + 8 + 8))
        (if flg.getLsbD 3 then csize else s.decCsize) (if flg.getLsbD 0 then dictId else s.decDictId) q (sum :: rest) ∧
      ∀ n, decLoop opening inEof cap (n + k) ⟨s, 0, 0⟩ = decLoop opening inEof cap n q := by
  obtain ⟨_, hsh, hm, h⟩ := h
  have h0 := AtHeader.start s hsh
  rw [hm] at h0
  rcases h with ⟨e1, e2, e3⟩ | ⟨e1, e2, e3⟩ | ⟨e1, rfl, e2, e3⟩ | ⟨e1, rfl, rfl, e2, e4, e3⟩ |
    ⟨e1, rfl, rfl, e2, e4, e5, e3⟩ | ⟨e1, rfl, rfl, e2, e4, e5, e3⟩
  · rw [e1, e2, e3] at h0
    obtain ⟨p, hp, ep⟩ := h0.magic opening inEof cap
    obtain ⟨k, q, hk, hq, e⟩ := hp.flgToChecksum opening inEof cap hv
    exact ⟨k + 1, q, by omega, hq, fun n => by rw [← Nat.add_assoc, ep, e]⟩
  · rw [e1, e2, e3] at h0
    obtain ⟨k, q, hk, hq, e⟩ := h0.flgToChecksum opening inEof cap hv
    exact ⟨k, q, by omega, hq, e⟩
  · rw [e1, e2, e3] at h0
    obtain ⟨k, q, hk, hq, e⟩ := h0.bdToChecksum opening inEof cap
    exact ⟨k, q, by omega, hq, e⟩
  · rw [e1, e2, e3, if_pos e4] at h0
    obtain ⟨p, hp, ep⟩ := h0.contentSize opening inEof cap
    obtain ⟨k, q, hk, hq, e⟩ := hp.toChecksum opening inEof cap
    refine ⟨k + 1, q, by omega, ?_, fun n => by rw [← Nat.add_assoc, ep, e]⟩
    unfold headerFields
    rw [if_pos e4, if_pos e4]
    exact hq
  · rw [e1, e2, e3, if_pos e4] at h0
    obtain ⟨q, hq, e⟩ := h0.dictionary opening inEof cap
    refine ⟨1, q, by omega, ?_, e⟩
    unfold headerFields
    rw [if_pos e4, if_pos e4]
    split
    · next h3 => rw [e5 h3, if_pos h3] at hq; exact hq
    · next h3 => rw [if_neg h3] at hq; exact hq
  · rw [e1, e2, e3] at h0
    refine ⟨0, _, by omega, ?_, fun n => rfl⟩
    have g1 : (if s.dec.flg.getLsbD 3 then csize else s.decCsize) = s.decCsize := by
      split
      · next h3 => exact (e4 h3).symm
      · rfl
    have g2 : (if s.dec.flg.getLsbD 0 then dictId else s.decDictId) = s.decDictId := by
      split
      · next h3 => exact (e5 h3).symm
      · rfl
    rw [g1, g2]
    exact h0

/-- A new frame whose header is all in SRC (R311). -/
theorem openDecoder_headerAhead (s : State) {flg bd : Byte} {csize : BitVec 64} {dictId : Word} {sum : Byte}
    (h : s.bytes s.snap.src = magicBytes ++ (headerFields flg bd csize dictId ++ sum :: rest)) :
    s.openDecoder.HeaderAhead flg bd csize dictId sum rest := by
  have hm : s.openDecoder.decFdesc = (0#16 ++ s.openDecoder.dec.bd ++ s.openDecoder.dec.flg : BitVec (16 + 8 + 8)) := by
    simp only [State.openDecoder, State.dropDecoder, Decoder.reset]
    decide
  refine ⟨rfl, ?_, hm, Or.inl ⟨rfl, rfl, ?_⟩⟩
  · simp only [State.openDecoder, Decoder.reset, Decoder.fieldSize, List.length_nil]
    omega
  · have e : s.openDecoder.dec.field ++ s.openDecoder.bytes s.openDecoder.snap.src = s.bytes s.snap.src := rfl
    rw [e, h]
    simp only [headerFields, List.append_assoc, List.cons_append, List.nil_append]

/-- The checksum byte and what follows it: the checks, and with all of them passed the stream in HEADER_READ (R314-R316). -/
theorem decLoop_checked {b : Byte} (h : AtHeader s .hc hdr flg bd fdesc csize dictId r (b :: rest)) :
    ∃ q, q.ahead = rest ∧ q.ip + rest.length = s.snap.srcLen.toNat ∧ q.served = 0 ∧ q.state = { s with
        dec := { s.dec with stage := .hc, field := [], hdr := hdr, flg := flg, bd := bd }
        decFdesc := fdesc, decCsize := csize, decDictId := dictId } ∧
      ∀ n, decLoop opening inEof cap (n + 1) r = (hcStage [b] q).andThen (decLoop opening inEof cap n) := by
  obtain ⟨q, h1, h2, h3, h4, h5⟩ := AtHeader.gather (f := [b]) opening inEof cap h rfl (k := 1) (next := hcStage)
    (by simp only [Decoder.fieldSize, h.stage_eq]) rfl (by simp only [decStage, h.stage_eq])
  exact ⟨q, h2, h3, h4, h5, fun n => decLoop_step h1⟩

end

/-! ### A block (R313, R321-R323) -/

/-- What follows a block's payload and checksum bytes: the decoding of the block, unless the checksum does not fit (R323). -/
def behindBlock (bcsum : Bool) (payload sum : List Byte) (q : DecRun) : DecStep :=
  if bcsum = true ∧ sum ≠ leBytes 4 (xxh32 payload 0#32).toNat then .fail q .blockChecksum else decodeCurrent q

/-- A run that stands in front of the decoding of a block with length word w and this payload. -/
structure AtBlock (s : State) (w : Word) (payload rest : List Byte) (q : DecRun) : Prop where
  state : ∃ stage, q.state = { s with
    dec := { s.dec with stage := stage, field := [], blkLen := w, inBuf := payload } }
  ip : q.ip + rest.length = s.snap.srcLen.toNat
  served : q.served = 0

/-- From the middle of a payload on. -/
theorem decLoop_payload (inEof : Bool) (cap : Nat) (s : State) (w : Word) (payload sum rest : List Byte) (r : DecRun)
    (hp : payload.length = w.toNat % 2 ^ 31) (hs : sum.length = if s.dec.bcsum then 4 else 0)
    (hr : r.state = { s with
      dec := { s.dec with stage := .payload, field := r.state.dec.field, blkLen := w, inBuf := r.state.dec.inBuf } })
    (hle : r.state.dec.inBuf.length ≤ payload.length) (hsv : r.served = 0) (hip : r.ip ≤ s.snap.srcLen.toNat)
    (ha : r.state.dec.inBuf ++ r.ahead = payload ++ sum ++ rest) :
    ∃ k q, k ≤ 1 ∧ AtBlock s w payload rest q ∧ ∀ n, decLoop false inEof cap (n + 1 + k) r =
      (behindBlock s.dec.bcsum payload sum q).andThen (decLoop false inEof cap n) := by
  have hsg : r.state.dec.stage = .payload := by rw [hr]
  have hw : r.state.dec.blkLen = w := by rw [hr]
  have hsn : r.state.snap = s.snap := by rw [hr]
  have hsf : r.state.dec.soFar = r.state.dec.inBuf := by simp [Decoder.soFar, hsg]
  obtain ⟨q, hq, qa, qi, qs, qst⟩ := gather_ahead inEof (payloadLen w) r payloadStage payload (sum ++ rest)
    (by rw [hsf]; simp only [payloadLen]; omega) (by simp [payloadLen, hp]) (by rw [hsn]; exact hip)
    (by rw [hsf, ha, List.append_assoc])
  rw [hsn] at qi
  have h1 : decStage false inEof cap r = payloadStage payload q := by
    simp only [decStage, hsg, hw]
    exact hq
  have hq2 : q.state = { s with
      dec := { s.dec with stage := .payload, field := [], blkLen := w, inBuf := r.state.dec.inBuf } } := by
    rw [qst, hr]
  have hb : q.state.dec.bcsum = s.dec.bcsum := by rw [hq2]
  unfold payloadStage at h1
  unfold behindBlock
  cases hbc : s.dec.bcsum with
  | false =>
    have hs0 : sum = [] := by simpa [hbc] using hs
    subst hs0
    rw [if_neg (by simp [hb, hbc])] at h1
    simp only [Bool.false_eq_true, if_false, false_and]
    refine ⟨0, q.withDec { q.state.dec with inBuf := payload }, Nat.zero_le _, ⟨⟨.payload, ?_⟩, qi, qs.trans hsv⟩,
      fun n => ?_⟩
    · simp only [DecRun.withDec, hq2]
    · exact decLoop_step h1
  | true =>
    have hs4 : sum.length = 4 := by simpa [hbc] using hs
    rw [if_pos (hb.trans hbc)] at h1
    simp only [true_and]
    generalize hz : DecRun.withDec (q.withDec { q.state.dec with inBuf := payload }) _ = z at h1
    have hz2 : z.state = { s with
        dec := { s.dec with stage := .bcsum, field := [], blkLen := w, inBuf := payload } } := by
      rw [← hz]
      simp only [DecRun.withDec, hq2]
    have hzi : z.ip = q.ip := by rw [← hz]; rfl
    have hza : z.ahead = q.ahead := by rw [← hz]; rfl
    obtain ⟨p, hp1, pa, pi, ps, pst⟩ := gather_ahead inEof 4 z bcsumStage sum rest
      (by simp [Decoder.soFar, hz2]) hs4 (by rw [hz2, hzi]; simp only; omega)
      (by rw [hza, qa]; simp [Decoder.soFar, hz2])
    have h2 : decStage false inEof cap z = bcsumStage sum p := by
      simp only [decStage, hz2]
      exact hp1
    have hpi : p.state.dec.inBuf = payload := by rw [pst, hz2]
    unfold bcsumStage at h2
    rw [hpi] at h2
    simp only [ne_eq, leBytes_le32 hs4] at h2
    refine ⟨1, p, le_rfl, ⟨⟨.bcsum, ?_⟩, ?_, ?_⟩, fun n => ?_⟩
    · rw [pst, hz2]
    · rw [pi, hz2]
    · rw [ps, ← hz]
      exact qs.trans hsv
    · rw [decLoop_more h1]
      exact decLoop_step h2

/-- From the block's length word or the middle of its payload on, FDEC_READ takes all of the block (R313, R317, R321). -/
theorem decLoop_block (inEof : Bool) (cap : Nat) (s : State) (w : Word) (payload sum rest : List Byte) (hc : cap ≠ 0)
    (h : s.BlockAhead w payload sum rest) :
    ∃ k q, k ≤ 2 ∧ AtBlock s w payload rest q ∧ ∀ n, decLoop false inEof cap (n + 1 + k) ⟨s, 0, 0⟩ =
      (behindBlock s.dec.bcsum payload sum q).andThen (decLoop false inEof cap n) := by
  obtain ⟨hp, hs, ⟨hsg, hf, hne, hle, ha⟩ | ⟨hsg, hw, hle, ha⟩⟩ := h
  · have hsf : s.dec.soFar = s.dec.field := by simp [Decoder.soFar, hsg]
    have hpl : payload.length ≠ 0 := by simpa using hne
    obtain ⟨q, hq, qa, qi, qs, qst⟩ := gather_ahead inEof 4 ⟨s, 0, 0⟩ blkLenStage (leBytes 4 w.toNat)
      (payload ++ sum ++ rest) (by simp only [hsf]; omega) (by simp) (Nat.zero_le _)
      (by rw [DecRun.ahead_start]; simp only [hsf]; rw [ha]; simp)
    have h1 : decStage false inEof cap ⟨s, 0, 0⟩ =
        .more (q.withDec { q.state.dec with blkLen := w, inBuf := [], stage := .payload }) := by
      simp only [decStage, hsg]
      rw [if_neg (by simp; omega), hq]
      unfold blkLenStage
      simp only [le32_leBytes, payloadLen]
      rw [if_neg (by omega), if_neg (by rw [qst]; simp only; omega)]
    obtain ⟨k, p, hk, hat, hrun⟩ := decLoop_payload inEof cap s w payload sum rest
      (q.withDec { q.state.dec with blkLen := w, inBuf := [], stage := .payload }) hp hs
      (by simp only [DecRun.withDec, qst]) (Nat.zero_le _) qs
      (by simp only at qi; show q.ip ≤ _; omega) qa
    refine ⟨k + 1, p, by omega, hat, fun n => ?_⟩
    rw [← Nat.add_assoc, decLoop_more h1, hrun]
  · obtain ⟨k, p, hk, hat, hrun⟩ := decLoop_payload inEof cap s w payload sum rest ⟨s, 0, 0⟩ hp hs
      (by simp [← hsg, ← hw]) hle rfl (Nat.zero_le _) ha
    exact ⟨k, p, by omega, hat, hrun⟩

end Sys2Proof.Machine
end

