-- ==== Sys2Proof/Laws/PerInstr.lean ====
section
/-! SUPPORT. Per-constructor statements about the commands as encodings: the fields of the word an encoder writes
(30_encoding.md R110-R112). -/

namespace Sys2Proof.Laws.EncodeFields

/-- The word of a command has the command's opcode in bits 7:0, its modifier byte in bits 15:8 and zero above (R110). -/
def Statement (i : Instr) : Prop :=
  opcodeOf (encode i) = opcodeByte i ∧ modOf (encode i) = modByte i ∧ upperOf (encode i) = 0#16

theorem nop : Statement .nop := by unfold Statement; decide
theorem abortEnc : Statement .abortEnc := by unfold Statement; decide
theorem abortDec : Statement .abortDec := by unfold Statement; decide
theorem matchInit (hc : Bool) : Statement (.matchInit hc) := by revert hc; unfold Statement; decide
theorem matchFind : Statement .matchFind := by unfold Statement; decide
theorem matchWiden : Statement .matchWiden := by unfold Statement; decide
theorem blockEncode (level : BitVec 4) : Statement (.blockEncode level) := by revert level; unfold Statement; decide
theorem blockDecode (eoo : Bool) (dmode : BitVec 2) (short : Bool) : Statement (.blockDecode eoo dmode short) := by
  revert eoo dmode short; unfold Statement; decide
theorem fencOpen (level : BitVec 4) : Statement (.fencOpen level) := by revert level; unfold Statement; decide
theorem fencWrite : Statement .fencWrite := by unfold Statement; decide
theorem fencClose : Statement .fencClose := by unfold Statement; decide
theorem fdecOpen (inEof : Bool) : Statement (.fdecOpen inEof) := by revert inEof; unfold Statement; decide
theorem fdecRead (inEof : Bool) : Statement (.fdecRead inEof) := by revert inEof; unfold Statement; decide

end Sys2Proof.Laws.EncodeFields
end

