-- ==== Sys2Proof/Laws/Relabel.lean ====
section
/-! SUPPORT. The index's owner, kind, base and length steer no search and no encoder (40_match_engine.md R164, 10_state.md
R47): what an encoder writes is the same whoever owned the index before. -/

namespace Sys2Proof.Machine

/-- The index with the owner, kind, base and length of another. -/
def Index.labelled (x y : Index) : Index := { x with owner := y.owner, kind := y.kind, base := y.base, len := y.len }

/-- A cleared index keeps nothing but those four fields. -/
theorem clear_labelled (x y : Index) (n : Nat) : (x.clear n).labelled y = y.clear n := rfl

theorem fastProbe_labelled (v : View) (x y : Index) (c low limit : Nat) :
    fastProbe v (x.labelled y) c low limit =
      ((fastProbe v x c low limit).1, (fastProbe v x c low limit).2.labelled y) := by
  unfold fastProbe
  have h : (x.labelled y).head = x.head := rfl
  simp only [h]
  split <;> rfl

theorem hcInsertUpTo_labelled (v : View) (x y : Index) (c limit : Nat) :
    hcInsertUpTo v (x.labelled y) c limit = (hcInsertUpTo v x c limit).labelled y := by
  unfold hcInsertUpTo
  have h : (x.labelled y).nextToUpdate = x.nextToUpdate := rfl
  rw [h]
  generalize List.range' x.nextToUpdate _ = l
  induction l generalizing x with
  | nil => rfl
  | cons p l ih => exact ih (hcInsert v x p) rfl

theorem hcFind_labelled (v : View) (x y : Index) (c low budget limit : Nat) :
    hcFind v (x.labelled y) c low budget limit =
      ((hcFind v x c low budget limit).1, (hcFind v x c low budget limit).2.labelled y) := by
  unfold hcFind
  simp only [hcInsertUpTo_labelled]
  rfl

/-! ### Level 0 -/

def FastState.labelled (st : FastState) (y : Index) : FastState := { st with index := st.index.labelled y }

theorem fastLoop_labelled (v : View) (low stop n : Nat) (st : FastState) (y : Index) :
    fastLoop v low stop n (st.labelled y) = (fastLoop v low stop n st).labelled y := by
  induction n generalizing st with
  | zero => rfl
  | succ n ih =>
    have h1 : fastAdvance v low stop (st.labelled y) = (fastAdvance v low stop st).labelled y := by
      unfold fastAdvance FastState.labelled
      simp only [fastProbe_labelled]
      split <;> rfl
    unfold fastLoop
    have h2 : (st.labelled y).ip = st.ip := rfl
    rw [h2, h1, ih]
    split <;> rfl

/-! ### Levels 3 to 9 -/

def LazyState.labelled (st : LazyState) (y : Index) : LazyState := { st with index := st.index.labelled y }

def HcState.labelled (st : HcState) (y : Index) : HcState := { st with index := st.index.labelled y }

theorem lookAt_labelled (v : View) (low stop budget : Nat) (st : LazyState) (y : Index) (k : Nat) :
    lookAt v low stop budget (st.labelled y) k =
      ((lookAt v low stop budget st k).1, (lookAt v low stop budget st k).2.labelled y) := by
  unfold lookAt LazyState.labelled
  simp only [hcFind_labelled]
  split <;> rfl

theorem lazyLoop_labelled (v : View) (low stop budget n : Nat) (st : LazyState) (y : Index) :
    lazyLoop v low stop budget n (st.labelled y) = (lazyLoop v low stop budget n st).labelled y := by
  induction n generalizing st with
  | zero => rfl
  | succ n ih =>
    unfold lazyLoop
    rw [lookAt_labelled]
    obtain ⟨m, x⟩ := lookAt v low stop budget st 1
    cases m with
    | some m => exact ih ⟨st.ip + 1, m, x⟩
    | none =>
      have h := lookAt_labelled v low stop budget { st with index := x } y 2
      simp only [LazyState.labelled] at h ⊢
      rw [h]
      obtain ⟨m, z⟩ := lookAt v low stop budget { st with index := x } 2
      cases m with
      | some m => exact ih ⟨st.ip + 2, m, z⟩
      | none => rfl

theorem hcLoop_labelled (v : View) (low stop budget n : Nat) (st : HcState) (y : Index) :
    hcLoop v low stop budget n (st.labelled y) = (hcLoop v low stop budget n st).labelled y := by
  induction n generalizing st with
  | zero => rfl
  | succ n ih =>
    have h1 : hcAdvance v low stop budget (st.labelled y) = (hcAdvance v low stop budget st).labelled y := by
      unfold hcAdvance HcState.labelled
      simp only [hcFind_labelled]
      split
      · rfl
      · have h := lazyLoop_labelled v low stop budget (stop - st.ip)
          ⟨st.ip, (hcFind v st.index st.ip low budget stop).1, (hcFind v st.index st.ip low budget stop).2⟩ y
        simp only [LazyState.labelled] at h
        rw [h]
    unfold hcLoop
    have h2 : (st.labelled y).ip = st.ip := rfl
    rw [h2, h1, ih]
    split <;> rfl

/-! ### Levels 10 to 12 -/

def FillState.labelled (f : FillState) (y : Index) : FillState := { f with index := f.index.labelled y }

def OptState.labelled (st : OptState) (y : Index) : OptState := { st with index := st.index.labelled y }

theorem fillLoop_labelled (v : View) (ip low stop budget suff n : Nat) (f : FillState) (y : Index) :
    fillLoop v ip low stop budget suff n (f.labelled y) = (fillLoop v ip low stop budget suff n f).labelled y := by
  induction n generalizing f with
  | zero => rfl
  | succ n ih =>
    have h1 : fillNode v ip low stop budget suff (f.labelled y) =
        (fillNode v ip low stop budget suff f).labelled y := by
      unfold fillNode FillState.labelled
      simp only [hcFind_labelled]
      split
      · split
        · rfl
        · split <;> rfl
      · rfl
    unfold fillLoop
    have h2 : (f.labelled y).forced = f.forced := rfl
    have h3 : (f.labelled y).node = f.node := rfl
    have h4 : (f.labelled y).last = f.last := rfl
    rw [h1, ih, h2, h3, h4]
    split <;> rfl

theorem emitPath_labelled (ip : Nat) (l : List (Nat × Nat × Nat)) (st : OptState) (y : Index) :
    emitPath ip l (st.labelled y) = (emitPath ip l st).labelled y := by
  induction l generalizing st with
  | nil => rfl
  | cons q l ih => 
    obtain ⟨i, len, off⟩ := q
    exact ih { st with anchor := ip + i + len, seqs := ⟨st.anchor, ip + i, len, off⟩ :: st.seqs }

theorem optTable_labelled (v : View) (low stop budget suff : Nat) (st : OptState) (m0 : Found) (y : Index) :
    optTable v low stop budget suff (st.labelled y) m0 = (optTable v low stop budget suff st m0).labelled y := by
  unfold optTable
  have h := fillLoop_labelled v st.ip low stop budget suff Config.optNum
    { node := 1, last := m0.len, table := firstTable st.ip st.anchor stop m0.len (st.ip - m0.cand),
      index := st.index, forced := none } y
  have h2 : (st.labelled y).ip = st.ip := rfl
  have h3 : (st.labelled y).anchor = st.anchor := rfl
  simp only [FillState.labelled] at h
  have h4 : (st.labelled y).index = st.index.labelled y := rfl
  simp only [h2, h3, h4, h]
  generalize fillLoop v st.ip low stop budget suff Config.optNum _ = f
  cases f.forced with
  | none =>
    have e := emitPath_labelled st.ip (tracePath f.table f.last f.last []) { st with index := f.index } y
    simp only [OptState.labelled] at e ⊢
    rw [e]
  | some q =>
    obtain ⟨s, m⟩ := q
    have e := emitPath_labelled st.ip (tracePath f.table s s []) { st with index := f.index } y
    simp only [OptState.labelled] at e ⊢
    rw [e]

theorem optLoop_labelled (v : View) (low stop budget suff n : Nat) (st : OptState) (y : Index) :
    optLoop v low stop budget suff n (st.labelled y) = (optLoop v low stop budget suff n st).labelled y := by
  induction n generalizing st with
  | zero => rfl
  | succ n ih =>
    have h1 : optAdvance v low stop budget suff (st.labelled y) = (optAdvance v low stop budget suff st).labelled y := by
      unfold optAdvance
      have h := optTable_labelled v low stop budget suff
        { st with index := (hcFind v st.index st.ip low budget stop).2 }
        (hcFind v st.index st.ip low budget stop).1 y
      simp only [OptState.labelled] at h ⊢
      simp only [hcFind_labelled]
      split
      · rfl
      · split
        · rfl
        · exact h
    unfold optLoop
    have h2 : (st.labelled y).ip = st.ip := rfl
    rw [h2, h1, ih]
    split <;> rfl

/-! ### Every level -/

/-- What an encoder writes depends on the index's tables and cursors only (R190). -/
theorem encodeBlock_labelled (v : View) (x y : Index) (level start stop low : Nat) :
    encodeBlock v (x.labelled y) level start stop low =
      ((encodeBlock v x level start stop low).1, (encodeBlock v x level start stop low).2.labelled y) := by
  have key : parseBlock v (x.labelled y) level start stop low =
      { parseBlock v x level start stop low with index := (parseBlock v x level start stop low).index.labelled y } := by
    unfold parseBlock
    split
    · have h := fastLoop_labelled v low stop (stop - start)
        { ip := start, anchor := start, attempts := 2 ^ Config.skipTrigger, index := x, seqs := [] } y
      simp only [FastState.labelled] at h
      unfold fastParse
      simp only [h]
    · split
      · have h := hcLoop_labelled v low stop (Config.nbSearches level) (stop - start)
          { ip := start, anchor := start, index := x, seqs := [] } y
        simp only [HcState.labelled] at h
        unfold hcParse
        simp only [h]
      · have h := optLoop_labelled v low stop (Config.nbSearches level) (Config.sufficientLen level) (stop - start)
          { ip := start, anchor := start, index := x, seqs := [] } y
        simp only [OptState.labelled] at h
        unfold optParse
        simp only [h]
  unfold encodeBlock
  simp only [key]
  rfl

end Sys2Proof.Machine
end

