-- ==== Sys2Proof/Laws/Resume.lean ====
section
/-! SUPPORT. A frame run that stands somewhere inside SRC and DST goes on like a run that starts there, with what is left of
both (46_frame_decoder.md R313, R325, R326). -/

namespace Sys2Proof.Machine

section
variable (a : Args) (i v : Nat)

/-- The run as the command with the arguments a sees it, i bytes into its SRC and v bytes into its DST. -/
def DecRun.inside (r : DecRun) : DecRun := ⟨{ r.state with snap := a }, r.ip + i, r.served + v⟩

/-- The end of a run as the command with the arguments a sees it. -/
def DecEnd.inside : DecEnd → DecEnd
  | .stop r n f => .stop (r.inside a i v) n f
  | .fail r c => .fail (r.inside a i v) c

/-- A stage's answer as the command with the arguments a sees it. -/
def DecStep.inside : DecStep → DecStep
  | .more r => .more (r.inside a i v)
  | .halt e => .halt (e.inside a i v)

end

/-- The rest of SRC and DST behind i bytes of one and v bytes of the other. -/
structure Args.Splits (a : Args) (i v : Nat) : Prop where
  src : a.srcAddr.toNat + a.srcLen.toNat ≤ 2 ^ 32
  dst : a.dstAddr.toNat + a.dstCap.toNat ≤ 2 ^ 32
  used : i ≤ a.srcLen.toNat
  served : v = 0 ∨ v < a.dstCap.toNat

variable {a : Args} {i v : Nat}

theorem Args.Splits.srcLen (h : a.Splits i v) : (a.skip i v).srcLen.toNat = a.srcLen.toNat - i := by
  have := h.used
  have := a.srcLen.isLt
  simp only [Args.skip, BitVec.toNat_sub, BitVec.toNat_ofNat]
  omega

theorem Args.Splits.dstCap (h : a.Splits i v) : (a.skip i v).dstCap.toNat = a.dstCap.toNat - v := by
  have := h.served
  have := a.dstCap.isLt
  simp only [Args.skip, BitVec.toNat_sub, BitVec.toNat_ofNat]
  omega

theorem Args.Splits.dstAddr (h : a.Splits i v) : (a.skip i v).dstAddr.toNat = a.dstAddr.toNat + v := by
  have := h.served
  have := h.dst
  have := a.dstAddr.isLt
  simp only [Args.skip, BitVec.toNat_add, BitVec.toNat_ofNat]
  omega

/-- The address of the rest of SRC, unless nothing is left of it. -/
theorem Args.Splits.srcAddr (h : a.Splits i v) :
    (a.skip i v).srcAddr.toNat = a.srcAddr.toNat + i ∨ (a.skip i v).srcLen.toNat = 0 := by
  have := h.srcLen
  have := h.used
  have := h.src
  have := a.srcAddr.isLt
  have e : (a.skip i v).srcAddr.toNat = (a.srcAddr.toNat + i % 2 ^ 32) % 2 ^ 32 := by
    simp only [Args.skip, BitVec.toNat_add, BitVec.toNat_ofNat]
  omega

theorem gather_inside (h : a.Splits i v) (inEof : Bool) (k : Nat) (r : DecRun) (next : List Byte → DecRun → DecStep)
    (hr : r.state.snap = a.skip i v)
    (hn : ∀ f q, q.state.snap = a.skip i v → q.served = r.served → next f (q.inside a i v) = (next f q).inside a i v) :
    gather inEof k (r.inside a i v) next = (gather inEof k r next).inside a i v := by
  have hl := h.srcLen
  have hu := h.used
  have ht : gatherTake (r.inside a i v) k = gatherTake r k := by
    show min (k - r.state.dec.soFar.length) (a.srcLen.toNat - (r.ip + i)) = min _ (r.state.snap.srcLen.toNat - r.ip)
    rw [hr, hl]
    omega
  have hg : gathered (r.inside a i v) k = gathered r k := by
    unfold gathered
    rw [ht]
    show r.state.dec.soFar ++ r.state.memRead (a.srcAddr.toNat + (r.ip + i)) (gatherTake r k) = _
    rw [hr]
    rcases h.srcAddr with e | e
    · rw [e]
      congr 2
      omega
    · have : gatherTake r k = 0 := by
        unfold gatherTake
        rw [hr, e]
        simp
      rw [this]
      rfl
  unfold gather
  simp only [hg, ht]
  have e : r.ip + i + gatherTake r k = r.ip + gatherTake r k + i := by omega
  split
  · split
    · show DecStep.fail ⟨_, r.ip + i + gatherTake r k, _⟩ _ = _
      rw [e]
      rfl
    · show DecStep.stop ⟨_, r.ip + i + gatherTake r k, _⟩ _ _ = _
      rw [e]
      rfl
  · rw [← hn _ _ (by exact hr) (by rfl)]
    show next _ ⟨_, r.ip + i + gatherTake r k, _⟩ = _
    rw [e]
    rfl

theorem decodeCurrent_inside (r : DecRun) : decodeCurrent (r.inside a i v) = (decodeCurrent r).inside a i v := by
  unfold decodeCurrent
  simp only [show (r.inside a i v).state.dec = r.state.dec from rfl]
  split <;> rfl

theorem decStage_inside (h : a.Splits i v) (opening inEof : Bool) (cap : Nat) (hc : v ≤ cap) (r : DecRun)
    (hr : r.state.snap = a.skip i v) :
    decStage opening inEof cap (r.inside a i v) = (decStage opening inEof (cap - v) r).inside a i v := by
  have hd : ∀ r : DecRun, (r.inside a i v).state.dec = r.state.dec := fun _ => rfl
  have hs : (r.inside a i v).served = r.served + v := rfl
  have g : ∀ k next, (∀ f q, q.state.snap = a.skip i v → q.served = r.served →
      next f (q.inside a i v) = (next f q).inside a i v) →
      gather inEof k (r.inside a i v) next = (gather inEof k r next).inside a i v :=
    fun k next => gather_inside h inEof k r next hr
  unfold decStage
  rw [hd]
  split
  · refine g _ _ fun f q _ _ => ?_
    unfold magicStage; split <;> rfl
  · refine g _ _ fun f q _ _ => ?_
    unfold flgStage; simp only; split <;> rfl
  · exact g _ _ fun f q _ _ => rfl
  · exact g _ _ fun f q _ _ => rfl
  · exact g _ _ fun f q _ _ => rfl
  · refine g _ _ fun f q _ _ => ?_
    unfold hcStage; simp only [hd]; split <;> rfl
  · have e : (r.served + v == cap) = (r.served == cap - v) := by
      rw [Bool.eq_iff_iff, beq_iff_eq, beq_iff_eq]
      omega
    simp only [hs, e]
    split
    · rfl
    · refine g _ _ fun f q _ _ => ?_
      unfold blkLenStage; simp only [hd]; split
      · rfl
      · split <;> rfl
  · refine g _ _ fun f q _ _ => ?_
    unfold payloadStage; simp only [hd]; split
    · rfl
    · exact decodeCurrent_inside (q.withDec { q.state.dec with inBuf := f })
  · refine g _ _ fun f q _ _ => ?_
    unfold bcsumStage; simp only [hd]; split
    · rfl
    · exact decodeCurrent_inside q
  · have e : (r.served + v = cap) = (r.served = cap - v) := by
      apply propext
      omega
    simp only [hs, e]
    split
    · rfl
    · have e1 : cap - (r.served + v) = cap - v - r.served := by omega
      have e2 : a.dstAddr.toNat + (r.served + v) = (a.skip i v).dstAddr.toNat + r.served := by
        rw [h.dstAddr]
        omega
      unfold serveStage
      simp only [hd, hs, e1, hr]
      rw [show (r.inside a i v).state.snap.dstAddr.toNat + (r.served + v) =
        (a.skip i v).dstAddr.toNat + r.served from e2]
      simp only [DecStep.inside, DecRun.inside, State.memWrite, Nat.add_right_comm]
  · rfl

theorem decLoop_inside (h : a.Splits i v) (opening inEof : Bool) (cap n : Nat) (hc : v ≤ cap) {s : State}
    (hs : s.snap = a.skip i v) {r : DecRun} (hr : RunFrame s (cap - v) r) :
    decLoop opening inEof cap n (r.inside a i v) = (decLoop opening inEof (cap - v) n r).inside a i v := by
  induction n generalizing r with
  | zero => rfl
  | succ n ih =>
    have hf := decStage_frame opening inEof hr
    unfold decLoop
    rw [decStage_inside h opening inEof cap hc r (hr.snap.trans hs)]
    cases hd : decStage opening inEof (cap - v) r with
    | more q =>
      rw [hd] at hf
      exact ih hf
    | halt e => rfl

/-- The pre-checks of FDEC_READ pass (R320). -/
theorem fdecReadChecks_pass {s : State} (h0 : s.dec.unreadable = false) (h1 : s.snap.src.Fits) (h2 : s.snap.dst.Fits)
    (h3 : s.snap.src.Apart s.snap.dst) : firstCause (fdecReadChecks s) = none := by
  have f1 : s.snap.src.wraps = false := (Region.wraps_false _).2 h1
  have f2 : s.snap.dst.wraps = false := (Region.wraps_false _).2 h2
  have f3 : s.snap.src.overlaps s.snap.dst = false := by
    rw [Region.overlaps_false]
    unfold Region.Apart at h3
    tauto
  rw [firstCause_none]
  simp [fdecReadChecks, anyWraps, anyOverlap, h0, f1, f2, f3]

/-- A FDEC_READ whose run comes to stand in the machine u, i bytes into SRC and v bytes into DST, goes on like one that starts
there (R313, R326). -/
theorem goesOnAs (inEof : Bool) {s u : State} (k : Nat) (hu : u.snap = s.snap) (hsplit : s.snap.Splits i v)
    (hap : s.snap.src.Apart s.snap.dst) (hs : s.dec.unreadable = false) (hur : u.dec.unreadable = false)
    (hrun : ∀ n, decLoop false inEof s.snap.dstCap.toNat (n + k) ⟨s, 0, 0⟩ =
      decLoop false inEof s.snap.dstCap.toNat n ⟨u, i, v⟩) :
    GoesOnAs inEof s { u with snap := s.snap.skip i v } i v := by
  have hlen := hsplit.srcLen
  have hcap := hsplit.dstCap
  have hadr := hsplit.dstAddr
  have hsrc := hsplit.srcAddr
  have hused := hsplit.used
  have hserved := hsplit.served
  have b1 := hsplit.src
  have b2 := hsplit.dst
  have b3 := (s.snap.skip i v).srcAddr.isLt
  have c1 := fdecReadChecks_pass hs b1 b2 hap
  have c2 : firstCause (fdecReadChecks { u with snap := s.snap.skip i v }) = none := by
    refine fdecReadChecks_pass hur ?_ ?_ ?_
    · show (s.snap.skip i v).srcAddr.toNat + (s.snap.skip i v).srcLen.toNat ≤ 2 ^ 32
      omega
    · show (s.snap.skip i v).dstAddr.toNat + (s.snap.skip i v).dstCap.toNat ≤ 2 ^ 32
      omega
    · unfold Region.Apart Args.src Args.dst at hap ⊢
      simp only at hap ⊢
      omega
  have hfr : frameRun false inEof s.snap.dstCap.toNat s =
      (frameRun false inEof (s.snap.dstCap.toNat - v) { u with snap := s.snap.skip i v }).inside s.snap i v := by
    rw [← frameRun_enough false inEof _ k, hrun]
    have e : (⟨u, i, v⟩ : DecRun) = (DecRun.mk { u with snap := s.snap.skip i v } 0 0).inside s.snap i v := by
      simp only [DecRun.inside, ← hu, Nat.zero_add]
    rw [e, decLoop_inside hsplit false inEof _ _ (by omega) (s := { u with snap := s.snap.skip i v }) rfl
      (RunFrame.start _ _)]
    have hb : stageBound s.snap.srcLen.toNat =
        stageBound (s.snap.skip i v).srcLen.toNat + (4 * i) := by
      unfold stageBound
      omega
    rw [hb]
    exact congrArg (DecEnd.inside s.snap i v) 
      (frameRun_enough false inEof _ (4 * i) { u with snap := s.snap.skip i v })
  unfold GoesOnAs execFdecRead
  rw [c1, c2]
  simp only
  rw [hfr, hcap]
  have hsn := (frameRun_frame false inEof (s.snap.dstCap.toNat - v) { u with snap := s.snap.skip i v })
  cases hrn : frameRun false inEof (s.snap.dstCap.toNat - v) { u with snap := s.snap.skip i v } with
  | stop r n f =>
    refine ⟨_, _, rfl, rfl, fun h => ?_, fun _ => ?_⟩
    · simp [State.finishWith, Status.ofDone] at h
    · simp only [DecRun.inside, State.finishWith, BitVec.ofNat_add]
  | fail r c =>
    refine ⟨_, _, rfl, rfl, fun _ => ?_, fun h => ?_⟩
    · rfl
    · simp [State.raiseExec, State.raise, Status.ofError] at h

end Sys2Proof.Machine
end

