-- ==== Sys2Proof/Laws/Search.lean ====
section
/-! SUPPORT. What a search finds: match lengths are maximal (40_match_engine.md R163), and over an HC index of the buffer as
it is now an HC search with an unbounded budget finds the longest match, and of those the most recent (R166-R169). -/

namespace Sys2Proof.Machine

/-- Equal four bytes and the match length behind them are a match length (R163). -/
theorem View.longest_of_seq (v : View) (c cand limit : Nat) (hc : c + 4 ≤ limit) (hs : v.seq cand = v.seq c) :
    v.Longest c cand limit (4 + matchLen v (c + 4) (cand + 4) limit) := by
  obtain ⟨h1, h2, h3⟩ := matchLen_spec v (c + 4) (cand + 4) limit
  refine ⟨by omega, fun j hj => ?_, fun h => ?_⟩
  · by_cases h4 : j < 4
    · exact v.seq_inj cand c hs j h4
    · have := h2 (j - 4) (by omega)
      have e1 : cand + 4 + (j - 4) = cand + j := by omega
      have e2 : c + 4 + (j - 4) = c + j := by omega
      rwa [e1, e2] at this
  · have := h3 (by omega)
    rwa [Nat.add_assoc, Nat.add_assoc] at this

/-- A position pair has one match length. -/
theorem View.Longest.unique {v : View} {c cand limit k m : Nat} (h : v.Longest c cand limit k)
    (g : v.Longest c cand limit m) : k = m := by
  rcases Nat.lt_trichotomy k m with hlt | heq | hlt
  · have := g.inside
    exact absurd (g.agree k hlt) (h.ends (by omega))
  · exact heq
  · have := h.inside
    exact absurd (h.agree m hlt) (g.ends (by omega))

/-- At most one candidate is the best. -/
theorem View.Best.unique {v : View} {c low limit p n q m : Nat} (h : v.Best c low limit p n)
    (g : v.Best c low limit q m) : p = q ∧ n = m := by
  have h1 := h.most q m g.candidate g.longest
  have h2 := g.most p n h.candidate h.longest
  omega

/-- A reported match has its full length (R163, R165). -/
theorem fastProbe_longest (v : View) (x : Index) (c low limit : Nat) (hc : c + 4 ≤ limit) :
    (fastProbe v x c low limit).1.len = 0 ∨
      v.Longest c (fastProbe v x c low limit).1.cand limit (fastProbe v x c low limit).1.len := by
  unfold fastProbe
  simp only
  split
  · next p hp => exact Or.inr (v.longest_of_seq c p limit hc (fastHit_spec v c low _ p hp).2.2.2)
  · exact Or.inl rfl

/-- A reported match has its full length (R163, R167). -/
theorem hcWalk_longest (v : View) (chain : Table) (c low limit n : Nat) (o : Option Nat) (best : Found)
    (hc : c + 4 ≤ limit) (hb : best.len = 0 ∨ v.Longest c best.cand limit best.len) :
    (hcWalk v chain c low limit n o best).len = 0 ∨
      v.Longest c (hcWalk v chain c low limit n o best).cand limit (hcWalk v chain c low limit n o best).len := by
  induction n generalizing o best with
  | zero => cases o <;> exact hb
  | succ n ih =>
    cases o with
    | none => exact hb
    | some cand =>
      unfold hcWalk
      split
      · simp only
        split
        · next hs =>
          refine ih _ _ ?_
          split
          · exact Or.inr (v.longest_of_seq c cand limit hc hs)
          · exact hb
        · exact ih _ _ hb
      · exact hb

/-- What MATCH_FIND reports has its full length, whatever the index holds (R163, R175). -/
theorem indexFind_longest (v : View) (x : Index) (c low budget limit : Nat) (hc : c + 4 ≤ limit) :
    (indexFind v x c low budget limit).1.len = 0 ∨
      v.Longest c (indexFind v x c low budget limit).1.cand limit (indexFind v x c low budget limit).1.len := by
  unfold indexFind
  cases x.kind with
  | fast => exact fastProbe_longest v x c low limit hc
  | hc => exact hcWalk_longest v _ c low limit budget _ _ hc (Or.inl rfl)

/-! ### The tables of a built index (R166) -/

/-- The last position below n with hash h. -/
def lastHash (v : View) (h : Nat) : Nat → Option Nat
  | 0 => none
  | n + 1 => if v.hash .hc n = h then some n else lastHash v h n

theorem lastHash_some {v : View} {h n p : Nat} (e : lastHash v h n = some p) :
    p < n ∧ v.hash .hc p = h ∧ ∀ q, p < q → q < n → v.hash .hc q ≠ h := by
  induction n with
  | zero => simp [lastHash] at e
  | succ n ih =>
    unfold lastHash at e
    split at e
    · next hn => cases e; exact ⟨by omega, hn, fun q h1 h2 => by omega⟩
    · next hn =>
      obtain ⟨h1, h2, h3⟩ := ih e
      refine ⟨by omega, h2, fun q g1 g2 => ?_⟩
      rcases Nat.lt_or_ge q n with g | g
      · exact h3 q g1 g
      · have : q = n := by omega
        exact this ▸ hn

theorem lastHash_none {v : View} {h n : Nat} (e : lastHash v h n = none) (q : Nat) (hq : q < n) : v.hash .hc q ≠ h := by
  induction n with
  | zero => omega
  | succ n ih =>
    unfold lastHash at e
    split at e
    · cases e
    · next hn =>
      rcases Nat.lt_or_ge q n with g | g
      · exact ih e g
      · have : q = n := by omega
        exact this ▸ hn

/-- The index after inserting the positions below n into empty tables (R166, R171). -/
def built (v : View) (x : Index) (n : Nat) : Index := (List.range n).foldl (hcInsert v) (x.clear 0)

theorem built_succ (v : View) (x : Index) (n : Nat) : built v x (n + 1) = hcInsert v (built v x n) n := by
  simp [built, List.range_succ]

theorem built_head (v : View) (x : Index) (n h : Nat) : Table.get (built v x n).head h = lastHash v h n := by
  induction n with
  | zero => rfl
  | succ n ih =>
    rw [built_succ]
    simp only [hcInsert, Table.get_set, lastHash, ih]

/-- The chain entries of the last 65536 positions: none of them has been overwritten (R168). -/
theorem built_chain (v : View) (x : Index) (n p : Nat) (hp : p < n) (hn : n ≤ p + Config.chainSize) :
    Table.get (built v x n).chain (p % Config.chainSize) = chainPrev p (lastHash v (v.hash .hc p) p) := by
  induction n with
  | zero => omega
  | succ n ih =>
    rw [built_succ]
    simp only [hcInsert, Table.get_set, built_head]
    rcases Nat.lt_or_ge p n with h | h
    · rw [if_neg, ih h (by omega)]
      unfold Config.chainSize at *
      omega
    · have : p = n := by omega
      subst this
      rw [if_pos rfl]

/-- HEAD and CHAIN after more insertions depend on HEAD and CHAIN alone. -/
theorem hcInsert_tables (v : View) (l : List Nat) (x y : Index) (hh : x.head = y.head) (hc : x.chain = y.chain) :
    (l.foldl (hcInsert v) x).head = (l.foldl (hcInsert v) y).head ∧
      (l.foldl (hcInsert v) x).chain = (l.foldl (hcInsert v) y).chain := by
  induction l generalizing x y with
  | nil => exact ⟨hh, hc⟩
  | cons p l ih =>
    simp only [List.foldl_cons]
    refine ih _ _ ?_ ?_ <;> simp [hcInsert, hh, hc]

theorem hcInsert_clear (v : View) (l : List Nat) (x y : Index) :
    (l.foldl (hcInsert v) (x.clear 0)).head = (l.foldl (hcInsert v) (y.clear 0)).head ∧
      (l.foldl (hcInsert v) (x.clear 0)).chain = (l.foldl (hcInsert v) (y.clear 0)).chain :=
  hcInsert_tables v l _ _ rfl rfl

/-- Inserting up to a hashable cursor keeps the tables those of the buffer. -/
theorem Index.BuiltFrom.insert {x : Index} {v : View} (h : x.BuiltFrom v) (c limit : Nat) (hn : x.nextToUpdate ≤ c + 1)
    (hc : c + 4 ≤ limit) :
    (hcInsertUpTo v x c limit).head = (built v x (c + 1)).head ∧
      (hcInsertUpTo v x c limit).chain = (built v x (c + 1)).chain := by
  have e : min (c + 1) (limit - 3) - x.nextToUpdate = c + 1 - x.nextToUpdate := by omega
  have hl : List.range (c + 1) = List.range x.nextToUpdate ++ List.range' x.nextToUpdate (c + 1 - x.nextToUpdate) := by
    have := List.range'_append (s := 0) (m := x.nextToUpdate) (n := c + 1 - x.nextToUpdate) (step := 1)
    rw [List.range_eq_range', List.range_eq_range']
    simp only [Nat.one_mul, Nat.zero_add] at this
    rw [this]
    congr 1
    omega
  unfold hcInsertUpTo built
  rw [e, hl, List.foldl_append]
  exact hcInsert_tables v _ _ _ h.1 h.2

/-! ### The chain walk (R167) -/

/-- What the walk has found among the candidates from `from` on. -/
def Visited (v : View) (c low limit start : Nat) (f : Found) : Prop :=
  (f = Found.none ∧ ∀ q, start ≤ q → ¬ v.Candidate c low q) ∨
    (v.Candidate c low f.cand ∧ start ≤ f.cand ∧ v.Longest c f.cand limit f.len ∧
      ∀ q m, start ≤ q → v.Candidate c low q → v.Longest c q limit m → m < f.len ∨ (m = f.len ∧ q ≤ f.cand))

/-- No candidate below: the walk has seen them all. -/
theorem Visited.all {v : View} {c low limit start : Nat} {f : Found} (h : Visited v c low limit start f)
    (hn : ∀ q, q < start → ¬ v.Candidate c low q) : Visited v c low limit 0 f := by
  rcases h with ⟨h1, h2⟩ | ⟨h1, _, h3, h4⟩
  · refine Or.inl ⟨h1, fun q _ hq => ?_⟩
    rcases Nat.lt_or_ge q start with g | g
    · exact hn q g hq
    · exact h2 q g hq
  · refine Or.inr ⟨h1, Nat.zero_le _, h3, fun q m _ hq hm => ?_⟩
    rcases Nat.lt_or_ge q start with g | g
    · exact absurd hq (hn q g)
    · exact h4 q m g hq hm

/-- Going down to a position with no candidate in between but perhaps itself. -/
theorem Visited.down {v : View} {c low limit start p : Nat} {f : Found} (h : Visited v c low limit start f)
    (hp : p < start) (hn : ∀ q, p < q → q < start → ¬ v.Candidate c low q) (hc : ¬ v.Candidate c low p) :
    Visited v c low limit p f := by
  have key : ∀ q, p ≤ q → v.Candidate c low q → start ≤ q := by
    intro q h1 h2
    by_contra hlt
    rcases Nat.eq_or_lt_of_le h1 with rfl | g
    · exact hc h2
    · exact hn q g (by omega) h2
  rcases h with ⟨h1, h2⟩ | ⟨h1, h2, h3, h4⟩
  · exact Or.inl ⟨h1, fun q hq hqc => h2 q (key q hq hqc) hqc⟩
  · exact Or.inr ⟨h1, by omega, h3, fun q m hq hqc hm => h4 q m (key q hq hqc) hqc hm⟩

/-- Visiting a candidate: strictly longer only (R167). -/
theorem Visited.visit {v : View} {c low limit start p len : Nat} {f : Found} (h : Visited v c low limit start f)
    (hp : p < start) (hn : ∀ q, p < q → q < start → ¬ v.Candidate c low q) (hc : v.Candidate c low p)
    (hl : v.Longest c p limit len) (hlen : 0 < len) :
    Visited v c low limit p (if f.len < len then ⟨len, p⟩ else f) := by
  have key : ∀ q, p ≤ q → v.Candidate c low q → q = p ∨ start ≤ q := by
    intro q h1 h2
    rcases Nat.eq_or_lt_of_le h1 with g | g
    · exact Or.inl g.symm
    · by_contra hlt
      push Not at hlt
      exact hn q g hlt.2 h2
  rcases h with ⟨rfl, h2⟩ | ⟨h1, h2, h3, h4⟩
  · rw [if_pos (by simpa [Found.none] using hlen)]
    refine Or.inr ⟨hc, le_rfl, hl, fun q m hq hqc hm => ?_⟩
    rcases key q hq hqc with rfl | g
    · exact Or.inr ⟨hm.unique hl, le_rfl⟩
    · exact absurd hqc (h2 q g)
  · split
    · next hlt =>
      refine Or.inr ⟨hc, le_rfl, hl, fun q m hq hqc hm => ?_⟩
      rcases key q hq hqc with rfl | g
      · exact Or.inr ⟨hm.unique hl, le_rfl⟩
      · left
        simp only
        rcases h4 q m g hqc hm with g1 | ⟨g1, _⟩ <;> omega
    · next hlt =>
      refine Or.inr ⟨h1, by omega, h3, fun q m hq hqc hm => ?_⟩
      rcases key q hq hqc with rfl | g
      · have := hm.unique hl
        omega
      · exact h4 q m g hqc hm

/-- A candidate has the cursor's hash. -/
theorem View.Candidate.hash {v : View} {c low q : Nat} (h : v.Candidate c low q) : v.hash .hc q = v.hash .hc c := by
  unfold View.hash
  rw [h.2.2.2]

/-- Following the chain from a position with the cursor's hash, with an attempt for every position of the window left, the
walk sees every candidate (R167-R169). -/
theorem hcWalk_visits (v : View) (chain : Table) (c low limit : Nat) (hc : c + 4 ≤ limit)
    (hchain : ∀ p, p ≤ c → c - p ≤ Config.maxDistance →
      Table.get chain (p % Config.chainSize) = chainPrev p (lastHash v (v.hash .hc p) p))
    (n at_ : Nat) (best : Found) (ha : at_ ≤ c) (hd : c - at_ ≤ Config.maxDistance)
    (hh : v.hash .hc at_ = v.hash .hc c) (hn : at_ - (c - Config.maxDistance) ≤ n)
    (hb : Visited v c low limit at_ best) :
    Visited v c low limit 0
      (hcWalk v chain c low limit n (Table.get chain (at_ % Config.chainSize)) best) := by
  induction n generalizing at_ best with
  | zero =>
    unfold hcWalk
    refine hb.all fun q hq hqc => ?_
    have := hqc.2.2.1
    have := hqc.2.1
    unfold Config.maxDistance at *
    omega
  | succ n ih =>
    rw [hchain at_ ha hd, hh]
    cases hl : lastHash v (v.hash .hc c) at_ with
    | none =>
      simp only [chainPrev, hcWalk]
      exact hb.all fun q hq hqc => lastHash_none hl q hq hqc.hash
    | some p =>
      obtain ⟨h1, h2, h3⟩ := lastHash_some hl
      have hbetween : ∀ q, p < q → q < at_ → ¬ v.Candidate c low q := fun q g1 g2 hq => h3 q g1 g2 hq.hash
      have hbelow : ∀ q, q < at_ → v.Candidate c low q → q ≤ p := by
        intro q g1 g2
        by_contra hlt
        exact hbetween q (by omega) g1 g2
      unfold chainPrev
      simp only
      split
      · next hnear =>
        unfold hcWalk
        split
        · next hw =>
          simp only
          by_cases hs : v.seq p = v.seq c
          · rw [if_pos hs]
            refine ih p _ (by omega) hw.2 h2 (by omega) ?_
            exact hb.visit h1 hbetween ⟨hw.1, by omega, by simpa [Config.maxDistance] using hw.2, hs⟩
              (v.longest_of_seq c p limit hc hs) (by omega)
          · rw [if_neg hs]
            exact ih p _ (by omega) hw.2 h2 (by omega) (hb.down h1 hbetween fun hq => hs hq.2.2.2)
        · next hw =>
          refine hb.all fun q hq hqc => hw ?_
          have := hbelow q hq hqc
          have := hqc.1
          have := hqc.2.2.1
          unfold Config.maxDistance
          omega
      · next hfar =>
        simp only [hcWalk]
        refine hb.all fun q hq hqc => hfar ?_
        have := hbelow q hq hqc
        have := hqc.2.2.1
        unfold Config.maxDistance
        omega

/-- R169, second sentence: over an index of the buffer as it is now, with a budget for every position of the window, an HC
search answers the longest match, and of those the most recent; it answers no match only where no candidate is. -/
theorem hcFind_best (v : View) (x : Index) (c low budget limit : Nat) (hx : x.BuiltFrom v) (hn : x.nextToUpdate ≤ c + 1)
    (hc : c + 4 ≤ limit) (hb : min c 65535 ≤ budget) :
    ((∀ p, ¬ v.Candidate c low p) → (hcFind v x c low budget limit).1 = Found.none) ∧
      (∀ p n, v.Best c low limit p n → (hcFind v x c low budget limit).1 = ⟨n, p⟩) ∧
      (hcFind v x c low budget limit).2.head = (built v x (c + 1)).head ∧
      (hcFind v x c low budget limit).2.chain = (built v x (c + 1)).chain := by
  obtain ⟨g1, g2⟩ := hx.insert c limit hn hc
  have hw := hcWalk_visits v (hcInsertUpTo v x c limit).chain c low limit hc
    (fun p hp hd => by
      rw [g2]
      exact built_chain v x (c + 1) p (by omega) (by unfold Config.chainSize; unfold Config.maxDistance at hd; omega))
    budget c Found.none le_rfl (by omega) rfl (by unfold Config.maxDistance; omega)
    (Or.inl ⟨rfl, fun q hq hqc => by have := hqc.2.1; omega⟩)
  refine ⟨fun h => ?_, fun p n h => ?_, g1, g2⟩
  · rcases hw with ⟨e, _⟩ | ⟨h1, _⟩
    · exact e
    · exact absurd h1 (h _)
  · rcases hw with ⟨_, h2⟩ | ⟨h1, _, h3, h4⟩
    · exact absurd h.candidate (h2 p (Nat.zero_le _))
    · have hbest : v.Best c low limit _ _ := ⟨h1, h3, fun q m => h4 q m (Nat.zero_le _)⟩
      obtain ⟨e1, e2⟩ := h.unique hbest
      rw [e1, e2]
      rfl

/-! ### The positions a search tries (R167) -/

/-- One attempt of the walk (R167): a strictly longer match replaces the best. -/
def visit (v : View) (c limit : Nat) (best : Found) (p : Nat) : Found :=
  if v.seq p = v.seq c ∧ best.len < 4 + matchLen v (c + 4) (p + 4) limit then
    ⟨4 + matchLen v (c + 4) (p + 4) limit, p⟩ else best

/-- The walk tries at most one position an attempt (R167). -/
theorem chained_length (chain : Table) (c low n : Nat) (o : Option Nat) : (chained chain c low n o).length ≤ n := by
  induction n generalizing o with
  | zero => cases o <;> simp [chained]
  | succ n ih =>
    cases o with
    | none => simp [chained]
    | some p =>
      unfold chained
      split
      · simpa using ih _
      · simp

/-- The walk tries the chained positions in order (R167). -/
theorem hcWalk_eq_chained (v : View) (chain : Table) (c low limit n : Nat) (o : Option Nat) (best : Found) :
    hcWalk v chain c low limit n o best = (chained chain c low n o).foldl (visit v c limit) best := by
  induction n generalizing o best with
  | zero => cases o <;> rfl
  | succ n ih =>
    cases o with
    | none => rfl
    | some p =>
      unfold hcWalk chained
      by_cases hw : low ≤ p ∧ c - p ≤ Config.maxDistance
      · rw [if_pos hw, if_pos (show low ≤ p ∧ c - p ≤ 65535 from hw), List.foldl_cons, ← ih]
        unfold visit Config.chainSize
        by_cases h : v.seq p = v.seq c <;> simp only [h, if_true, if_false, true_and, false_and]
      · rw [if_neg hw, if_neg (show ¬ (low ≤ p ∧ c - p ≤ 65535) from hw)]
        rfl

/-- A walk past positions without the cursor's four bytes finds nothing. -/
theorem visit_none (v : View) (c limit : Nat) (l : List Nat) (best : Found) (h : ∀ p ∈ l, v.seq p ≠ v.seq c) :
    l.foldl (visit v c limit) best = best := by
  induction l generalizing best with
  | nil => rfl
  | cons p l ih =>
    have hp : visit v c limit best p = best := by unfold visit; rw [if_neg]; exact fun g => h p (by simp) g.1
    rw [List.foldl_cons, hp]
    exact ih _ fun q hq => h q (by simp [hq])

/-- The best stays below a bound no try reaches. -/
theorem visit_below (v : View) (c limit : Nat) (hc : c + 4 ≤ limit) (l : List Nat) (best : Found) (n : Nat)
    (hb : best.len < n)
    (h : ∀ q ∈ l, ∀ m, v.seq q = v.seq c → v.Longest c q limit m → m < n) :
    (l.foldl (visit v c limit) best).len < n := by
  induction l generalizing best with
  | nil => exact hb
  | cons p l ih =>
    refine ih _ ?_ fun q hq => h q (by simp [hq])
    unfold visit
    split
    · next g => exact h p (by simp) _ g.1 (v.longest_of_seq c p limit hc g.1)
    · exact hb

/-- The best stays where no try is longer. -/
theorem visit_stays (v : View) (c limit : Nat) (hc : c + 4 ≤ limit) (l : List Nat) (best : Found)
    (h : ∀ q ∈ l, ∀ m, v.seq q = v.seq c → v.Longest c q limit m → m ≤ best.len) :
    l.foldl (visit v c limit) best = best := by
  induction l with
  | nil => rfl
  | cons p l ih =>
    have hp : visit v c limit best p = best := by
      unfold visit
      rw [if_neg]
      rintro ⟨h1, h2⟩
      have := h p (by simp) _ h1 (v.longest_of_seq c p limit hc h1)
      omega
    rw [List.foldl_cons, hp]
    exact ih fun q hq => h q (by simp [hq])

/-- The first longest match tried is what the walk finds (R167). -/
theorem View.FirstLongest.found {v : View} {c limit p n : Nat} {tried : List Nat} (h : v.FirstLongest c limit tried p n)
    (hc : c + 4 ≤ limit) : tried.foldl (visit v c limit) Found.none = ⟨n, p⟩ ∧ 0 < n := by
  obtain ⟨before, after_, rfl, hs, hl, hb, ha⟩ := h
  have hn := hl.unique (v.longest_of_seq c p limit hc hs)
  have h1 := visit_below v c limit hc before Found.none n (by simp [Found.none]; omega) hb
  rw [List.foldl_append, List.foldl_cons]
  have h2 : visit v c limit (before.foldl (visit v c limit) Found.none) p = ⟨n, p⟩ := by
    generalize before.foldl (visit v c limit) Found.none = best at h1 ⊢
    unfold visit
    rw [if_pos ⟨hs, by omega⟩, ← hn]
  rw [h2]
  exact ⟨visit_stays v c limit hc after_ _ ha, by omega⟩

/-- Below the last position that meets it, a predicate's positions are those of a shorter range. -/
theorem window_down (P : Nat → Prop) [DecidablePred P] (n p : Nat) (hp : p < n) (h : ∀ q, p < q → q < n → ¬ P q) :
    (List.range n).filter P = (List.range (p + 1)).filter P := by
  induction n with
  | zero => omega
  | succ n ih =>
    rcases Nat.lt_or_ge p n with g | g
    · rw [List.range_succ, List.filter_append, ih g fun q a b => h q a (by omega)]
      simp [h n g (by omega)]
    · have : p = n := by omega
      subst this; rfl

/-- In an index of the buffer as it is now the chain leads through the window's positions with the cursor's hash (R168). -/
theorem chained_built (v : View) (chain : Table) (c low : Nat)
    (hchain : ∀ p, p ≤ c → c - p ≤ Config.maxDistance →
      Table.get chain (p % Config.chainSize) = chainPrev p (lastHash v (v.hash .hc p) p))
    (n at_ : Nat) (ha : at_ ≤ c) (hd : c - at_ ≤ Config.maxDistance) (hh : v.hash .hc at_ = v.hash .hc c) :
    chained chain c low n (Table.get chain (at_ % Config.chainSize)) =
      (((List.range at_).filter fun p => low ≤ p ∧ c - p ≤ 65535 ∧ v.hash .hc p = v.hash .hc c).reverse).take n := by
  induction n generalizing at_ with
  | zero => cases Table.get chain (at_ % Config.chainSize) <;> rfl
  | succ n ih =>
    rw [hchain at_ ha hd, hh]
    cases hl : lastHash v (v.hash .hc c) at_ with
    | none =>
      have : (List.range at_).filter (fun p => low ≤ p ∧ c - p ≤ 65535 ∧ v.hash .hc p = v.hash .hc c) = [] := by
        rw [List.filter_eq_nil_iff]
        intro q hq
        have := lastHash_none hl q (by simpa using hq)
        simp [this]
      rw [this]
      rfl
    | some p =>
      obtain ⟨h1, h2, h3⟩ := lastHash_some hl
      rw [window_down _ at_ p h1 (fun q a b => by simp [h3 q a b]), List.range_succ, List.filter_append]
      have hnil : ∀ (_ : ¬ (low ≤ p ∧ c - p ≤ 65535)),
          (List.range p).filter (fun p => low ≤ p ∧ c - p ≤ 65535 ∧ v.hash .hc p = v.hash .hc c) = [] := by
        intro hw
        rw [List.filter_eq_nil_iff]
        intro q hq
        have : q < p := by simpa using hq
        simp only [decide_eq_true_eq]
        omega
      unfold chainPrev
      simp only
      split
      · next hnear =>
        unfold chained
        split
        · next hw =>
          have := ih p (by omega) (by unfold Config.maxDistance; omega) h2
          unfold Config.chainSize at this
          rw [this]
          have hp : low ≤ p ∧ c - p ≤ 65535 ∧ v.hash .hc p = v.hash .hc c := ⟨hw.1, hw.2, h2⟩
          simp only [List.filter_cons, hp, and_self, decide_true, if_true, List.filter_nil, List.reverse_append,
            List.reverse_singleton, List.singleton_append, List.take_succ_cons]
        · next hw =>
          rw [hnil hw]
          have : ¬ (low ≤ p ∧ c - p ≤ 65535 ∧ v.hash .hc p = v.hash .hc c) := fun g => hw ⟨g.1, g.2.1⟩
          simp only [List.filter_cons, this, decide_false, Bool.false_eq_true, if_false, List.filter_nil]
          rfl
      · next hfar =>
        unfold Config.maxDistance at hfar
        have hw : ¬ (low ≤ p ∧ c - p ≤ 65535) := by omega
        rw [hnil hw]
        have : ¬ (low ≤ p ∧ c - p ≤ 65535 ∧ v.hash .hc p = v.hash .hc c) := fun g => hw ⟨g.1, g.2.1⟩
        simp only [List.filter_cons, this, decide_false, Bool.false_eq_true, if_false, List.filter_nil]
        rfl

/-- An HC search, whatever the index and the budget: what it inserts, and what it tries (R166, R167). -/
theorem hcFind_tried (v : View) (x : Index) (c low budget limit : Nat) (hc : c + 4 ≤ limit) :
    let y := (hcFind v x c low budget limit).2
    (hcFind v x c low budget limit).1 =
      (chained y.chain c low budget (Table.get y.chain (c % 65536))).foldl (visit v c limit) Found.none ∧
    y = (List.range' x.nextToUpdate (c + 1 - x.nextToUpdate)).foldl (hcInsert v) x := by
  refine ⟨hcWalk_eq_chained _ _ _ _ _ _ _ _, ?_⟩
  unfold hcFind hcInsertUpTo
  simp only
  congr 2
  omega

end Sys2Proof.Machine
end

