-- ==== Sys2Proof/Tests/Slice0.lean ====
section
/-! SUPPORT. The model's own tests: ill-formed commands, decoded words written out field by field, the spec's worked
examples, and for every statement a state and operands that meet its hypotheses. -/

namespace Sys2Proof.Tests

open Sys2Proof.Machine

/-! ### Helpers -/

/-- A byte string. -/
def bytesOf (l : List Nat) : List Byte := l.map (BitVec.ofNat 8)

/-- SRC and DST. -/
def regions (a n b c : Nat) : Args :=
  { Args.zero with srcAddr := BitVec.ofNat 32 a, srcLen := BitVec.ofNat 32 n, dstAddr := BitVec.ofNat 32 b,
                   dstCap := BitVec.ofNat 32 c }

/-- ARG0 to ARG3. -/
def cursors (a b c d : Nat) : Args :=
  { Args.zero with arg0 := BitVec.ofNat 32 a, arg1 := BitVec.ofNat 32 b, arg2 := BitVec.ofNat 32 c,
                   arg3 := BitVec.ofNat 32 d }

/-- The reset machine with these arguments latched and these bytes at 0x1000. -/
def loaded (a : Args) (bs : List Nat) : State :=
  { State.reset with args := a, snap := a, mem := Memory.writeBytes [] 0x1000 (bytesOf bs) }

/-- A field of the next state an answer holds. -/
def seen {α : Type} (r : Result) (f : State → α) : Option α :=
  match r with
  | .next t => some (f t)
  | .fault _ => none
  | .refused _ => none

/-- The fault an answer stops with. -/
def faulted (r : Result) : Option Fault :=
  match r with
  | .next _ => none
  | .fault c => some c
  | .refused _ => none

/-- The three results. -/
def results (t : State) : List Nat := [t.result0.toNat, t.result1.toNat, t.result2.toNat]

/-- The state after a command, or the state before it if the command does not end. -/
def after (i : Instr) (s : State) : State :=
  match exec i s with
  | .next t => t
  | .fault _ => s
  | .refused _ => s

/-- The state with other latched arguments. -/
def withSnap (s : State) (a : Args) : State := { s with args := a, snap := a }

/-- Ten times "a". -/
def tenA : List Nat := [0x61, 0x61, 0x61, 0x61, 0x61, 0x61, 0x61, 0x61, 0x61, 0x61]

/-- "abcabcabcabc". -/
def abc4 : List Nat := [0x61, 0x62, 0x63, 0x61, 0x62, 0x63, 0x61, 0x62, 0x63, 0x61, 0x62, 0x63]

/-- The frame header FLG 0x60, BD 0x40 and the block of ten "a" (45_frame_encoder.md R295). -/
def frameA : List Nat :=
  [0x04, 0x22, 0x4D, 0x18, 0x60, 0x40, 0x82, 0x05, 0x00, 0x00, 0x00, 0x15, 0x61, 0x01, 0x00, 0x00, 0x00, 0x00, 0x00, 0x00]

/-- FDESC for FLG 0x60, BD 0x40. -/
def fdescA (a : Args) : Args := { a with fdesc := 0x00004060#32 }

/-- A machine with an open encoder stream at level 0. -/
def encoding : State := after (.fencOpen 0#4) (loaded (fdescA (regions 0x1000 10 0x2000 64)) tenA)

/-- A machine whose index MATCH owns: HC over "abcabcabcabc". -/
def indexed : State := after (.matchInit true) (loaded (regions 0x1000 12 0x2000 0) abc4)

/-- The same with a FAST index. -/
def indexedFast : State := after (.matchInit false) (loaded (regions 0x1000 12 0x2000 0) abc4)

/-- A machine that has read the header of frame A; SRC is the rest of the frame. -/
def decoding : State := withSnap (after (.fdecOpen false) (loaded (regions 0x1000 20 0x2000 0) frameA)) (regions 0x1007 13 0x3000 100)

/-- The same with four of ten content bytes served. -/
def serving : State := withSnap (after (.fdecRead false) (withSnap decoding (regions 0x1007 9 0x3000 4))) (regions 0x1010 0 0x3004 6)

/-- The same at its end. -/
def finished : State := withSnap (after (.fdecRead false) decoding) (regions 0x1000 4 0x3000 4)

/-- A machine running a command word, with the host idle. -/
def running (w : Word) : State := { State.reset with running := some w }

/-- An HC index over "abcdeabcdfabcde" that has inserted the positions up to 5: at cursor 10 five bytes match at 0 and four
at 5. -/
def repeated : State :=
  after .matchFind (withSnap (after (.matchInit true) (loaded (regions 0x1000 15 0x2000 0)
    [0x61, 0x62, 0x63, 0x64, 0x65, 0x61, 0x62, 0x63, 0x64, 0x66, 0x61, 0x62, 0x63, 0x64, 0x65])) (cursors 5 0 0 15))

/-- A header with a content size and a dictionary id, and a checksum byte 0. -/
def longHeader : List Nat := [0x04, 0x22, 0x4D, 0x18, 0x69, 0x40, 1, 0, 0, 0, 0, 0, 0, 0, 2, 0, 0, 0, 0]

/-- The decoder after FDEC_OPEN has had the first n of these bytes; SRC is the rest of them, DST has no room. -/
def cut (n : Nat) (bs : List Nat) : State :=
  withSnap (after (.fdecOpen false) (loaded (regions 0x1000 n 0x2000 0) bs)) (regions (0x1000 + n) (bs.length - n) 0x3000 0)

/-! ### Ill-formed commands (30_encoding.md R112) -/

theorem test_illformed_levels :
    ([1#4, 2#4, 13#4, 14#4, 15#4].all fun l => !(Instr.blockEncode l).WellFormed && !(Instr.fencOpen l).WellFormed) = true := by
  decide

theorem test_wellformed_levels :
    ([0#4, 3#4, 9#4, 12#4].all fun l => (Instr.blockEncode l).WellFormed && (Instr.fencOpen l).WellFormed) = true := by decide

theorem test_illformed_mode : (Instr.blockDecode false 3#2 false).WellFormed = false := by decide

theorem test_illformed_partial : (Instr.blockDecode false 0#2 true).WellFormed = false := by decide

/-! ### Command words, written out as w[31:16], MOD, OPCODE (30_encoding.md R110-R112) -/

theorem test_decode_control :
    decode (0x0000#16 ++ 0x00#8 ++ 0x00#8 : BitVec (16 + 8 + 8)) = .ok .nop ∧
      decode (0x0000#16 ++ 0x00#8 ++ 0x01#8 : BitVec (16 + 8 + 8)) = .ok .abortEnc ∧
      decode (0x0000#16 ++ 0x00#8 ++ 0x02#8 : BitVec (16 + 8 + 8)) = .ok .abortDec := by decide

theorem test_decode_match :
    decode (0x0000#16 ++ 0b00000000#8 ++ 0x10#8 : BitVec (16 + 8 + 8)) = .ok (.matchInit false) ∧
      decode (0x0000#16 ++ 0b00000001#8 ++ 0x10#8 : BitVec (16 + 8 + 8)) = .ok (.matchInit true) ∧
      decode (0x0000#16 ++ 0x00#8 ++ 0x11#8 : BitVec (16 + 8 + 8)) = .ok .matchFind ∧
      decode (0x0000#16 ++ 0x00#8 ++ 0x12#8 : BitVec (16 + 8 + 8)) = .ok .matchWiden := by decide

theorem test_decode_block :
    decode (0x0000#16 ++ 0b0000#4 ++ 0b1001#4 ++ 0x20#8 : BitVec (16 + 4 + 4 + 8)) = .ok (.blockEncode 9#4) ∧
      decode (0x0000#16 ++ 0b0000#4 ++ 0b0#1 ++ 0b10#2 ++ 0b1#1 ++ 0x30#8 : BitVec (16 + 4 + 1 + 2 + 1 + 8)) =
        .ok (.blockDecode true 2#2 false) := by decide

theorem test_decode_frame_encoder :
    decode (0x0000#16 ++ 0b0000#4 ++ 0b1100#4 ++ 0x40#8 : BitVec (16 + 4 + 4 + 8)) = .ok (.fencOpen 12#4) ∧
      decode (0x0000#16 ++ 0x00#8 ++ 0x41#8 : BitVec (16 + 8 + 8)) = .ok .fencWrite ∧
      decode (0x0000#16 ++ 0x00#8 ++ 0x42#8 : BitVec (16 + 8 + 8)) = .ok .fencClose := by decide

theorem test_decode_frame_decoder :
    decode (0x0000#16 ++ 0b00000001#8 ++ 0x50#8 : BitVec (16 + 8 + 8)) = .ok (.fdecOpen true) ∧
      decode (0x0000#16 ++ 0b00000000#8 ++ 0x51#8 : BitVec (16 + 8 + 8)) = .ok (.fdecRead false) := by decide

/-- Refused words, in the order of R113. -/
theorem test_decode_refused :
    decode 0x00000013#32 = .error .illegalOpcode ∧ decode 0x00010000#32 = .error .reservedBits ∧
      decode 0x00000210#32 = .error .reservedBits ∧ decode 0x00001020#32 = .error .reservedBits ∧
      decode 0x00000120#32 = .error .badLevel ∧ decode 0x00000E30#32 = .error .badMode ∧
      decode 0x00000830#32 = .error .partialDecode := by decide

/-! ### The spec's worked examples -/

/-- 47_control.md R350: STATUS[2:0] = 0b010 and IRQ_STATUS = 1 after a NOP. -/
theorem test_nop :
    seen (step (State.reset.withFetchWord 32 0)) (fun t => (t.statusWord.extractLsb' 0 3, t.irqStatusWord)) =
      some (0b010#3, 1#32) := by decide

/-- 47_control.md R351: the stream is dropped and the index released. -/
theorem test_abort_enc :
    seen (exec .abortEnc encoding) (fun t => (t.enc.state, t.index.owner, results t)) =
      some (.unopened, .free, [0, 0, 0]) := by decide

/-- 47_control.md R352: the decoder registers read 0. -/
theorem test_abort_dec :
    seen (exec .abortDec decoding) (fun t => (t.dec.state, t.decFdesc)) = some (.unopened, 0#32) := by decide

/-- 40_match_engine.md R171. -/
theorem test_match_init :
    (indexed.index.owner, indexed.index.kind, indexed.index.base, indexed.index.len) =
      (.matcher, .hc, 0x1000#32, 12#32) := by decide

/-- 40_match_engine.md R175: cursor 3, budget 4, limit 12 gives (9, 0, 3); then cursor 6 gives (6, 3, 3). -/
theorem test_match_find :
    seen (exec .matchFind (withSnap indexed (cursors 3 0 4 12))) results = some [9, 0, 3] ∧
      seen (exec .matchFind (withSnap (after .matchFind (withSnap indexed (cursors 3 0 4 12))) (cursors 6 0 4 12))) results =
        some [6, 3, 3] := by decide

/-- 40_match_engine.md R175: with budget 0 an HC index answers no match. -/
theorem test_match_find_no_budget :
    seen (exec .matchFind (withSnap indexed (cursors 3 0 0 12))) results = some [0, 0, 0] := by decide

/-- 40_match_engine.md R167, R175: of the candidates 5 (four bytes) and 0 (five bytes) budget 1 tries the first alone, budget
2 both, and budget 0 none. -/
theorem test_match_find_budget :
    seen (exec .matchFind (withSnap repeated (cursors 10 0 1 15))) results = some [4, 5, 5] ∧
      seen (exec .matchFind (withSnap repeated (cursors 10 0 2 15))) results = some [5, 0, 10] ∧
      seen (exec .matchFind (withSnap repeated (cursors 10 0 0 15))) (fun t => (results t, t.index.nextToUpdate)) =
        some ([0, 0, 0], 11) := by decide

/-- 40_match_engine.md R180: in "zabcdzabcd", (6, 1) widens to (5, 0) by 1, and with low 1 not at all. -/
theorem test_match_widen :
    let s := after (.matchInit true) (loaded (regions 0x1000 10 0x2000 0)
      [0x7A, 0x61, 0x62, 0x63, 0x64, 0x7A, 0x61, 0x62, 0x63, 0x64])
    seen (exec .matchWiden (withSnap s (cursors 6 1 0 0))) results = some [5, 0, 1] ∧
      seen (exec .matchWiden (withSnap s (cursors 6 1 0 1))) results = some [6, 1, 0] := by decide

/-- 41_fast_encoder.md R201: ten "a" encode to 15 61 01 00 00. -/
theorem test_block_encode_fast :
    seen (exec (.blockEncode 0#4) (loaded (regions 0x1000 10 0x2000 26) tenA)) (fun t => (t.memRead 0x2000 5, results t)) =
      some (bytesOf [0x15, 0x61, 0x01, 0x00, 0x00], [5, 10, 0]) := by decide

/-- 43_optimal_encoder.md R237: at level 10 "abcabcabcabc" encodes to 35 61 62 63 03 00 00. -/
theorem test_block_encode_optimal :
    seen (exec (.blockEncode 10#4) (loaded (regions 0x1000 12 0x2000 28) abc4)) (fun t => t.memRead 0x2000 7) =
      some (bytesOf [0x35, 0x61, 0x62, 0x63, 0x03, 0x00, 0x00]) := by decide

/-- 44_block_decoder.md R261: at end on output size a byte behind the payload is not consumed. -/
theorem test_block_decode :
    seen (exec (.blockDecode true 0#2 false) (loaded (regions 0x1000 6 0x2000 10) [0x15, 0x61, 0x01, 0x00, 0x00, 0xFF]))
      (fun t => (t.memRead 0x2000 10, results t)) = some (bytesOf tenA, [10, 5, 0]) := by decide

/-- 44_block_decoder.md R261: the causes of a token cut off, an offset 0 and a full DST. -/
theorem test_block_decode_errors :
    decodeBlock (bytesOf [0xF0]) 10 false [] = .error .tokenTruncated ∧
      decodeBlock (bytesOf [0x10, 0x61, 0x00, 0x00, 0x00]) 10 false [] = .error .offsetZero ∧
      decodeBlock (bytesOf [0x15, 0x61, 0x01, 0x00, 0x00]) 9 false [] = .error .dstFull := by decide

/-- 45_frame_encoder.md R295: the header of FLG 0x60, BD 0x40. -/
theorem test_fenc_open :
    (encoding.memRead 0x2000 7, results encoding) = (bytesOf [0x04, 0x22, 0x4D, 0x18, 0x60, 0x40, 0x82], [7, 0, 0]) := by
  decide

/-- 45_frame_encoder.md R295: a write that fills no block emits nothing. -/
theorem test_fenc_write :
    seen (exec .fencWrite (withSnap encoding (regions 0x1000 10 0x2007 0))) (fun t => (results t, t.enc.total)) =
      some ([0, 10, 0], 10) := by decide

/-- 45_frame_encoder.md R295: closing emits the pending block and the end marker. -/
theorem test_fenc_close :
    seen (exec .fencClose (withSnap (after .fencWrite (withSnap encoding (regions 0x1000 10 0x2007 0)))
      (regions 0 0 0x2007 18))) (fun t => (t.memRead 0x2007 13, results t)) =
      some (bytesOf [0x05, 0x00, 0x00, 0x00, 0x15, 0x61, 0x01, 0x00, 0x00, 0x00, 0x00, 0x00, 0x00], [13, 0, 1]) := by decide

/-- 46_frame_decoder.md R327: opening frame A consumes its 7 header bytes. -/
theorem test_fdec_open :
    (results decoding, decoding.dec.state, decoding.decFdesc) = ([0, 7, 0], .headerRead, 0x00004060#32) := by decide

/-- 46_frame_decoder.md R327: reading the rest serves ten "a" and reports FRAME_END. -/
theorem test_fdec_read :
    seen (exec (.fdecRead true) decoding) (fun t => (t.memRead 0x3000 10, results t, t.status.frameEnd, t.dec.state)) =
      some (bytesOf tenA, [10, 13, 0], true, .closed) := by decide

/-- 40_match_engine.md R162: the hash of "aaaa". -/
theorem test_hash : hashOf .fast 0x61616161 = 595 ∧ hashOf .hc 0x61616161 = 4761 := by decide

/-- 46_frame_decoder.md R341: XXH32 of "abc", and a header checksum. -/
theorem test_xxh32 :
    xxh32 (bytesOf [0x61, 0x62, 0x63]) 0#32 = 0x32D153FF#32 ∧ headerChecksum (bytesOf [0x60, 0x40]) = 0x82#8 := by decide

/-- 20_memory.md R96: a host write into SRC of the running command is a race; beside it, it is not. -/
theorem test_host_race :
    let s := { loaded (regions 0x1000 10 0x2000 26) tenA with running := some 0x20#32 }
    faulted (hostAccess (.memWrite 0x1009#32 0#8) s) = some .hostRace ∧
      seen (hostAccess (.memWrite 0x100A#32 5#8) s) (fun t => t.mem.read 0x100A) = some 5#8 := by decide

/-- 20_memory.md R96, R97: while MATCH_FIND runs the host may write the indexed buffer, and the command sees the write. -/
theorem test_host_writes_indexed :
    let s := { withSnap indexed (cursors 3 0 4 12) with running := some 0x11#32 }
    seen (hostAccess (.memWrite 0x100B#32 0#8) s) (fun t => results (after .matchFind t)) = some [8, 0, 3] := by decide

/-- 20_memory.md R96: PREFIX ends at DST_ADDR, even for a command that R251 refuses because DICT_LEN is above DST_ADDR. -/
theorem test_host_race_prefix :
    let s := { loaded { regions 0x1000 5 0x0010 0 with dictLen := 0x20#32 } [] with running := some 0x230#32 }
    faulted (hostAccess (.memWrite 0x000F#32 1#8) s) = some .hostRace ∧
      seen (hostAccess (.memWrite 0x0010#32 1#8) s) (fun t => t.mem.read 0x0010) = some 1#8 := by decide

/-- 46_frame_decoder.md R327: the verdicts on a header whose checksum, reserved bit, block size, content checksum or
dictionary id is refused, and on version 0. -/
theorem test_fdec_open_errors :
    let verdict := fun header => seen (exec (.fdecOpen true) (loaded (regions 0x1000 11 0x2000 0)
      ([0x04, 0x22, 0x4D, 0x18] ++ header))) (fun t => (t.status.errCause, t.dec.state))
    verdict [0x60, 0x40, 0x83] = some (0x31#8, .failed) ∧ verdict [0x62, 0x40, 0xF0] = some (0x32#8, .failed) ∧
      verdict [0x60, 0x30, 0xD4] = some (0x33#8, .failed) ∧ verdict [0x64, 0x40, 0xA7] = some (0x51#8, .failed) ∧
      verdict [0x61, 0x40, 0x00, 0x00, 0x00, 0x00, 0xA0] = some (0x53#8, .failed) ∧
      verdict [0x20] = some (0x50#8, .failed) := by decide

/-! ### Witnesses: for every clause of a statement that has hypotheses, a state and operands that meet them -/

/-- A machine about to encode "abcabcabcabc" with the worst-case room. -/
def toEncode : State := loaded (regions 0x1000 12 0x2000 28) abc4

/-- A machine about to decode frame A's payload, a byte behind it. -/
def toDecode : State := loaded (regions 0x1000 6 0x2000 10) [0x15, 0x61, 0x01, 0x00, 0x00, 0xFF]

/-- A machine whose SRC and DST are at the two ends of the address space (R84). -/
def edges : State := loaded (regions 0x00000000 16 0xFFFFFFF0 16) []

/-- A machine whose SRC wraps. -/
def wrapping : State := loaded (regions 0xFFFFFFF0 17 0x2000 16) []

/-- A machine whose SRC and DST share one byte. -/
def sharing : State := loaded (regions 0x1000 17 0x1010 64) []

/-- With an open stream and a block of one byte short of full (a state no run needs to reach). -/
def nearlyFull : State :=
  withSnap { encoding with enc := { encoding.enc with blockSize := 4, buf := bytesOf [1, 2, 3], total := 3 } }
    (regions 0x1000 1 0x2000 8)

theorem witness_CommandWordsDecode :
    LevelOk 0#4 = true ∧ LevelOk 3#4 = true ∧ LevelOk 12#4 = true ∧ (2#2 : BitVec 2) ≠ 3#2 := by decide

theorem witness_StepRunsDecodedCommand :
    ((running 0x20#32).running = some 0x20#32 ∧ decode 0x20#32 = .ok (.blockEncode 0#4) ∧ (running 0x20#32).inbox = []) ∧
      (let s := { running 0x20#32 with inbox := [.wait] }; s.running = some 0x20#32 ∧ s.inbox = .wait :: []) ∧
      (let s := { running 0x20#32 with inbox := [.hardReset] };
        s.running = some 0x20#32 ∧ s.inbox = .hardReset :: [] ∧ HostOp.hardReset ≠ .wait ∧ s.latency = 0) ∧
      (let s := { running 0x20#32 with inbox := [.hardReset], latency := 1 };
        s.running = some 0x20#32 ∧ s.inbox = .hardReset :: [] ∧ s.latency ≠ 0) ∧
      (State.reset.running = none ∧ State.reset.inbox = []) ∧
      (let s := { State.reset with inbox := [.wait] }; s.running = none ∧ s.inbox = .wait :: []) ∧
      ((running 0x03#32).running = some 0x03#32 ∧ decode 0x03#32 = .error .illegalOpcode ∧ (running 0x03#32).inbox = []) ∧
      (let s := { running 0x03#32 with inbox := [.wait], latency := 1 };
        s.running = some 0x03#32 ∧ s.inbox = .wait :: []) ∧
      (let s := { running 0x03#32 with inbox := [.hardReset] };
        s.running = some 0x03#32 ∧ s.inbox = .hardReset :: [] ∧ HostOp.hardReset ≠ .wait ∧ s.latency = 0) ∧
      (let s := { running 0x03#32 with inbox := [.hardReset], latency := 1 };
        s.running = some 0x03#32 ∧ s.inbox = .hardReset :: [] ∧ s.latency ≠ 0) := by decide

theorem witness_DecodeEncodeRoundTrip :
    (Instr.blockEncode 12#4).WellFormed = true ∧ (Instr.blockDecode true 2#2 false).WellFormed = true := by decide

theorem witness_EncodeDecodeRoundTrip : decode 0x00000C20#32 = .ok (.blockEncode 12#4) := by decide

theorem witness_IllegalFieldsTrap :
    LevelOk 1#4 = false ∧ LevelOk 2#4 = false ∧ LevelOk 13#4 = false ∧ LevelOk 15#4 = false ∧
      (2#2 : BitVec 2) ≠ 3#2 := by decide

theorem witness_ResetLeavesListedState : (0 < 1 ∧ 1 < 4096) ∧ 0 < 4095 ∧ 4095 < 4096 := by decide

theorem witness_ResetsClearTheEngine :
    (0x00000001#32).getLsbD 0 = true ∧ State.reset.busy = false ∧
      (∀ r ∈ ({ toEncode with running := some 0x20#32 } : State).busyWrites, r.holds 0x1FFF = false) := by decide

theorem witness_RegisterPortRules :
    ((0xFFC#12).toNat % 4 = 0 ∧ State.reset.busy = false) ∧ 0x078 ≤ (0x078#12).toNat ∧
      ((0x000#12).toNat % 4 = 0 ∧ (0x000#12).toNat ≠ 0x004 ∧ (0x000#12).toNat ≠ 0x00C ∧ (0x000#12).toNat ≠ 0x010 ∧
        (0x000#12).toNat < 0x014) ∧
      ((0x048#12).toNat % 4 = 0 ∧ 0x044 < (0x048#12).toNat) ∧ (1 ≠ 4 ∨ (0x000#12).toNat % 4 ≠ 0) ∧
      (0x001#12).toNat % 4 ≠ 0 := by decide

theorem statusOk_running (w : Word) : StatusOk (running w) :=
  ⟨fun _ => rfl, by simp [running, State.reset, Status.zero], fun _ => ⟨rfl, rfl⟩,
    fun h => by simp [running, State.reset, Status.zero] at h, fun h => by simp [running, State.reset, Status.zero] at h,
    by simp [running, State.reset, Status.zero]⟩

theorem witness_RegisterReadsWhileBusy :
    (0x058#12).toNat % 4 = 0 ∧ (0x074#12).toNat % 4 = 0 ∧ (running 0x151#32).busy = true ∧ StatusOk (running 0x151#32) :=
  ⟨by decide, by decide, by decide, statusOk_running _⟩

theorem witness_ArgumentWriteReadsBack : 0 < 13 ∧ 12 < 13 ∧ 0x018 ≠ 0x014 + 4 * 0 := by decide

theorem witness_IrqStatusWriteOneToClear :
    (∃ t, exec .nop State.reset = .next t ∧ t.status.err = false) ∧
      ∃ t, exec .matchFind State.reset = .next t ∧ t.status.err = true :=
  ⟨⟨_, rfl, by decide⟩, ⟨_, rfl, by decide⟩⟩

theorem witness_CtrlAndInterruptLine : (0xFFFFFFFE#32).getLsbD 0 = false := by decide

theorem witness_CmdAcceptsOrDrops : State.reset.busy = false ∧ (running 0x20#32).busy = true := by decide

theorem witness_ErrorCodes : causeCode .badMagic = causeCode .badMagic := rfl

theorem witness_CommandsKeepHostRegisters : ∃ t, exec .nop State.reset = .next t := ⟨_, rfl⟩

theorem witness_CommandsWriteOnlyDst :
    ∃ t, exec (.blockEncode 0#4) toEncode = .next t ∧ t.status.err = false ∧ toEncode.snap.dst.holds 0x1FFF = false ∧
      0x1FFF < toEncode.snap.dstAddr.toNat ∧ toEncode.snap.dstAddr.toNat + t.result0.toNat ≤ 0x2007 :=
  ⟨after (.blockEncode 0#4) toEncode, rfl, by decide, by decide, by decide, by decide⟩

/-- A command without a DST, after an error and without one. -/
theorem witness_CommandsWriteOnlyDst_none :
    (∃ t, exec (.fdecOpen true) State.reset = .next t ∧ t.status.err = true) ∧
      ∃ t, exec .matchFind (withSnap indexed (cursors 3 0 4 12)) = .next t ∧ t.status.err = false :=
  ⟨⟨after (.fdecOpen true) State.reset, rfl, by decide⟩,
    ⟨after .matchFind (withSnap indexed (cursors 3 0 4 12)), rfl, by decide⟩⟩

theorem witness_PreCheckErrorsChangeNothing :
    (∃ t, exec .abortEnc State.reset = .next t) ∧
      (∃ t, exec (.matchInit true) encoding = .next t ∧ t.status.err = true) ∧
      (∃ t, exec .matchFind State.reset = .next t ∧ t.status.err = true) ∧
      (∃ t, exec .matchWiden State.reset = .next t ∧ t.status.err = true) ∧
      (∃ t, exec (.fencOpen 1#4) State.reset = .next t ∧ t.status.err = true) ∧
      (∃ t, exec .fencWrite State.reset = .next t ∧ t.status.err = true) ∧
      ∃ t, exec .fencClose encoding = .next t ∧ t.status.err = false :=
  ⟨⟨_, rfl⟩, ⟨after (.matchInit true) encoding, rfl, by decide⟩, ⟨_, rfl, by decide⟩, ⟨_, rfl, by decide⟩,
    ⟨after (.fencOpen 1#4) State.reset, rfl, by decide⟩, ⟨_, rfl, by decide⟩,
    ⟨after .fencClose encoding, rfl, by decide⟩⟩

/-- FENC_CLOSE with no room for the end marker. -/
theorem witness_PreCheckErrorsChangeNothing_close :
    ∃ t, exec .fencClose (withSnap encoding (regions 0 0 0x2000 3)) = .next t ∧ t.status.err = true :=
  ⟨after .fencClose (withSnap encoding (regions 0 0 0x2000 3)), rfl, by decide⟩

theorem witness_StreamsAreIndependent :
    (∃ t, exec (.blockDecode true 0#2 false) toDecode = .next t) ∧ ofEncoder (.blockDecode true 0#2 false) = false ∧
      ofDecoder (.blockDecode true 0#2 false) = false ∧ ofIndex (.blockDecode true 0#2 false) = false ∧
      (Instr.blockDecode true 0#2 false) ≠ .matchWiden :=
  ⟨⟨after (.blockDecode true 0#2 false) toDecode, rfl⟩, by decide, by decide, by decide, by decide⟩

theorem witness_NopResult :
    State.reset.errPend = false ∧ (0x00000100#32).toNat % 256 = 0 ∧ (0x00000100#32 : Word) ≠ 0#32 := by decide

/-- A closed stream beside an index that MATCH owns (R353). -/
def closedBeside : State := after (.matchInit true) (after .fencClose encoding)

theorem witness_AbortResults :
    State.reset.enc.state = .unopened ∧ (encoding.enc.state ≠ .unopened ∧ encoding.index.owner = .encoder) ∧
      (closedBeside.enc.state ≠ .unopened ∧ closedBeside.index.owner = .matcher) := by decide

theorem witness_MatchInitResult :
    encoding.index.owner = .encoder ∧ (wrapping.index.owner ≠ .encoder ∧ ¬ wrapping.snap.src.Fits) ∧
      (edges.index.owner ≠ .encoder ∧ edges.snap.dst.Fits ∧ edges.snap.src.Fits) := by decide

theorem cursorOk_hc (a : Args) (h : a.arg3.toNat ≤ 12 ∧ a.arg0.toNat + 4 ≤ a.arg3.toNat ∧ a.arg1.toNat ≤ a.arg0.toNat) :
    (withSnap indexed a).CursorOk := by
  refine ⟨h.1, h.2.1, h.2.2, fun hk => ?_, fun _ => Nat.zero_le _⟩
  have : (withSnap indexed a).index.kind = .hc := by
    show indexed.index.kind = .hc
    decide
  rw [this] at hk
  cases hk

theorem witness_MatchFindFastResult :
    indexedFast.index.owner = .matcher ∧ indexedFast.index.kind = .fast ∧
      (withSnap indexedFast (cursors 8 0 0 12)).CursorOk := by
  refine ⟨by decide, by decide, by decide, by decide, by decide, ?_, ?_⟩
  · intro _ p hp
    have : (withSnap indexedFast (cursors 8 0 0 12)).index.lastProbe = none := by decide
    rw [this] at hp
    cases hp
  · intro hk
    have : (withSnap indexedFast (cursors 8 0 0 12)).index.kind = .fast := by decide
    rw [this] at hk
    cases hk

/-- A FAST index that has seen "abca" at 0, at cursor 3 where it comes again, and at cursor 1 where nothing has come. -/
theorem witness_MatchFindFastResult_found :
    let s := withSnap (after .matchFind (withSnap indexedFast (cursors 0 0 0 12))) (cursors 3 0 0 12);
    let v := s.indexView 12;
    Table.get s.index.head (v.hash .fast 3) = some 0 ∧ (0 ≤ 0 ∧ 3 - 0 ≤ 65535 ∧ v.seq 0 = v.seq 3) ∧
      Table.get s.index.head (v.hash .fast 1) = none := by decide

theorem witness_MatchFindSound :
    indexed.index.owner = .matcher ∧ (withSnap indexed (cursors 8 0 4 12)).CursorOk ∧ indexed.index.MatchOk := by
  refine ⟨by decide, cursorOk_hc _ (by decide), ?_⟩
  have hk : indexed.index.kind = .hc := by decide
  have hh : indexed.index.head = [] := by decide
  have hc : indexed.index.chain = [] := by decide
  unfold Index.MatchOk
  rw [hk]
  refine ⟨fun h p hp => ?_, fun k e he => ?_⟩
  · rw [hh] at hp
    simp [Table.get, Sparse.find] at hp
  · rw [hc] at he
    simp [Table.get, Sparse.find] at he

/-- Over "abcabcabcabc", after a find at 3: cursor 6 has the candidates 0 and 3, both with six bytes, and 3 is the best;
cursor 4 of a buffer without a repeat has none. -/
theorem witness_MatchFindSound_best :
    (let s := withSnap (after .matchFind (withSnap indexed (cursors 3 0 4 12))) (cursors 6 0 6 12);
      s.index.owner = .matcher ∧ s.index.kind = .hc ∧ s.CursorOk ∧ s.index.BuiltFrom (s.indexView 12) ∧
        min 6 65535 ≤ s.snap.arg2.toNat ∧ (s.indexView 12).Best 6 0 12 3 6) ∧
      (let s := withSnap (after (.matchInit true) (loaded (regions 0x1000 8 0x2000 0) [1, 2, 3, 4, 5, 6, 7, 8]))
          (cursors 4 0 4 8);
        s.index.owner = .matcher ∧ s.index.kind = .hc ∧ s.CursorOk ∧ s.index.BuiltFrom (s.indexView 8) ∧
          min 4 65535 ≤ s.snap.arg2.toNat ∧ ∀ p, ¬ (s.indexView 8).Candidate 4 0 p) := by
  refine ⟨⟨by decide, by decide, ⟨by decide, by decide, by decide, ?_, by decide⟩, ⟨by decide, by decide⟩, by decide, ?_⟩,
    ⟨by decide, by decide, ⟨by decide, by decide, by decide, ?_, by decide⟩, ⟨by decide, by decide⟩, by decide, ?_⟩⟩
  · intro h
    exact absurd h (by decide)
  · refine ⟨⟨by decide, by decide, by decide, by decide⟩, ⟨by decide, by decide, by decide⟩, ?_⟩
    rintro q m ⟨_, hq, _, hs⟩ ⟨h1, _, _⟩
    have : q ≤ 3 := by
      revert hs
      interval_cases q <;> decide
    omega
  · intro h
    exact absurd h (by decide)
  · rintro p ⟨_, hp, _, hs⟩
    revert hs
    interval_cases p <;> decide

/-- A search at cursor 10 with each budget: what it tries, and the first longest match among that; and cursor 1 of a fresh
index, where it tries nothing. -/
theorem witness_MatchFindSound_budget :
    (repeated.index.owner = .matcher ∧ repeated.index.kind = .hc ∧ (withSnap repeated (cursors 10 0 2 15)).CursorOk) ∧
      (let v := repeated.indexView 15;
        let x := hcInsertUpTo v repeated.index 10 15;
        let tried := fun budget => chained x.chain 10 0 budget (Table.get x.chain (10 % 65536));
        tried 0 = [] ∧ tried 1 = [5] ∧ tried 2 = [5, 0] ∧ tried 3 = [5, 0] ∧
          v.FirstLongest 10 15 [5] 5 4 ∧ v.FirstLongest 10 15 [5, 0] 0 5 ∧ repeated.index.BuiltFrom v) ∧
      (let v := indexed.indexView 12;
        let x := hcInsertUpTo v indexed.index 1 12;
        ∀ p ∈ chained x.chain 1 0 4 (Table.get x.chain (1 % 65536)), v.seq p ≠ v.seq 1) := by
  refine ⟨⟨by decide, by decide, ⟨by decide, by decide, by decide, fun h => absurd h (by decide), by decide⟩⟩,
    ⟨by decide, by decide, by decide, by decide, ?_, ?_, ⟨by decide, by decide⟩⟩, by decide⟩
  · exact ⟨[], [], rfl, by decide, ⟨by decide, by decide, by decide⟩, by simp, by simp⟩
  · refine ⟨[5], [], rfl, by decide, ⟨by decide, by decide, by decide⟩, ?_, by simp⟩
    intro q hq m _ hm
    have h5 : q = 5 := by simpa using hq
    subst h5
    by_contra h
    exact absurd (hm.agree 4 (by omega)) (by decide)

theorem witness_MatchWidenResult :
    let s := withSnap indexed (cursors 4 1 0 0);
    s.index.owner = .matcher ∧ s.WidenOk ∧ s.snap.arg2.toNat + 1 < s.snap.arg0.toNat ∧
      s.snap.arg3.toNat + 0 < s.snap.arg1.toNat := by decide

theorem witness_MatchCommandsTrap :
    State.reset.index.owner ≠ .matcher ∧
      ((withSnap indexed (cursors 9 0 4 12)).index.owner = .matcher ∧ ¬ (withSnap indexed (cursors 9 0 4 12)).CursorOk) ∧
      (withSnap indexed (cursors 4 4 0 0)).index.owner = .matcher ∧ ¬ (withSnap indexed (cursors 4 4 0 0)).WidenOk := by
  refine ⟨by decide, ⟨by decide, ?_⟩, by decide, by decide⟩
  rintro ⟨_, h, _⟩
  revert h
  decide

/-- Room for exactly the payload, below the worst case. -/
theorem witness_BlockEncodeResult_exact :
    let s := loaded (regions 0x1000 12 0x2000 7) abc4;
    LevelOk 12#4 = true ∧ s.index.owner ≠ .encoder ∧ s.snap.src.Fits ∧ s.snap.dst.Fits ∧ s.snap.src.Apart s.snap.dst ∧
      s.snap.srcLen.toNat ≤ 4194304 ∧ (encoded 12#4 [] (s.bytes s.snap.src)).length ≤ s.snap.dstCap.toNat ∧
      s.snap.dstCap.toNat < s.snap.srcLen.toNat + s.snap.srcLen.toNat / 255 + 16 := by decide

theorem witness_BlockEncodeResult :
    LevelOk 12#4 = true ∧ toEncode.index.owner ≠ .encoder ∧ toEncode.snap.src.Fits ∧ toEncode.snap.dst.Fits ∧
      toEncode.snap.src.Apart toEncode.snap.dst ∧ toEncode.snap.srcLen.toNat ≤ 4194304 ∧
      toEncode.snap.srcLen.toNat + toEncode.snap.srcLen.toNat / 255 + 16 ≤ toEncode.snap.dstCap.toNat := by decide

theorem encoded_empty : encoded 0#4 [] [] = [0x00#8] := by decide

theorem witness_BlockEncodeTraps :
    LevelOk 0#4 = true ∧ encoding.index.owner = .encoder ∧
      (wrapping.index.owner ≠ .encoder ∧ ¬ (wrapping.snap.src.Fits ∧ wrapping.snap.dst.Fits)) ∧
      (sharing.index.owner ≠ .encoder ∧ sharing.snap.src.Fits ∧ sharing.snap.dst.Fits ∧
        ¬ sharing.snap.src.Apart sharing.snap.dst) ∧
      (let s := loaded (regions 0x1000 4194305 0x800000 0) [];
        s.index.owner ≠ .encoder ∧ s.snap.src.Fits ∧ s.snap.dst.Fits ∧ s.snap.src.Apart s.snap.dst ∧
          4194304 < s.snap.srcLen.toNat) ∧
      (let s := loaded (regions 0x1000 0 0x2000 0) [];
        s.index.owner ≠ .encoder ∧ s.snap.src.Fits ∧ s.snap.dst.Fits ∧ s.snap.src.Apart s.snap.dst ∧
          s.snap.srcLen.toNat ≤ 4194304 ∧
          s.snap.dstCap.toNat < (encoded 0#4 [] (s.bytes s.snap.src)).length) := by decide

theorem witness_BlockRoundTrip : ([] : List Byte).length ≤ 0 ∧ (bytesOf tenA).length ≤ 10 := by decide

/-- The index a first block left is fit for the second. -/
theorem fit_after_first :
    FitIndex 9 (parseBlock (View.ofList 0 (bytesOf abc4)) (Index.reset.clear 0) 9 0 6 0).index 6 := by
  have hn : (parseBlock (View.ofList 0 (bytesOf abc4)) (Index.reset.clear 0) 9 0 6 0).index.nextToUpdate = 3 := by decide
  have hh : ∀ c ∈ (parseBlock (View.ofList 0 (bytesOf abc4)) (Index.reset.clear 0) 9 0 6 0).index.head, c.2 < 3 := by decide
  have hc : (parseBlock (View.ofList 0 (bytesOf abc4)) (Index.reset.clear 0) 9 0 6 0).index.chain = [] := by decide
  have hfind : ∀ (l : Table) (k p : Nat), (∀ c ∈ l, c.2 < 3) → Table.get l k = some p → p < 3 := by
    intro l k p hl
    induction l with
    | nil => simp [Table.get, Sparse.find]
    | cons c l ih =>
      simp only [Table.get, Sparse.find]
      split
      · intro h
        cases h
        exact hl c (by simp)
      · exact ih fun c hc => hl c (by simp [hc])
  unfold FitIndex
  rw [if_neg (by decide)]
  refine ⟨⟨fun h p hp => ?_, fun k e he => ?_⟩, by rw [hn]; decide⟩
  · rw [hn]
    exact hfind _ h p hh hp
  · rw [hc] at he
    simp [Table.get, Sparse.find] at he

theorem witness_EncodeOutputBound :
    6 ≤ 12 ∧ FitIndex (9#4).toNat (parseBlock (View.ofList 0 (bytesOf abc4)) (Index.reset.clear 0) 9 0 6 0).index 6 :=
  ⟨by decide, fit_after_first⟩

/-- Each step of the bound at its first value, and a parse that covers a block of three bytes. -/
theorem witness_EncodeOutputBound_steps :
    4 ≤ 4 ∧ (let q : Sequence := ⟨0, 1, 4, 1⟩; 4 ≤ q.len) ∧
      (⟨[], 0, Index.reset⟩ : Parse).Covers (View.ofList 0 (bytesOf [1, 2, 3])) 0 0 3 :=
  ⟨by decide, by decide, rfl, by decide⟩

/-- The spec's example of R199: 300 unmatched bytes give 303 bytes, the bound itself, and CompressBound(300) = 317. -/
theorem test_output_bound :
    1 + (lenExt 300).length + 300 = 303 ∧ payloadBound 300 = 303 ∧ compressBound 300 = 317 := by decide

theorem witness_ParsesCoverTheBlock :
    6 ≤ 12 ∧ FitIndex (9#4).toNat (parseBlock (View.ofList 0 (bytesOf abc4)) (Index.reset.clear 0) 9 0 6 0).index 6 :=
  ⟨by decide, fit_after_first⟩

theorem witness_Prices :
    4 ≤ 4 ∧ (∃ j, 14 + 1 = 15 + 255 * j) ∧ (∃ j, 269 + 1 = 15 + 255 * j) ∧ ¬ ∃ j, 15 + 1 = 15 + 255 * j :=
  ⟨le_rfl, ⟨0, rfl⟩, ⟨1, rfl⟩, by rintro ⟨j, hj⟩; omega⟩

theorem witness_LengthFieldsAreUnique : 15 ≤ 15 ∧ 0 ≤ 15 := by decide

/-- At end on output size with all the bytes below DST as dictionary and a byte behind the payload; at end on input size
with the dictionary at the top of the address space; and with no dictionary. -/
theorem witness_BlockDecodeResult :
    (let s := loaded { regions 0x1000 2 0x0002 0 with dictLen := 2#32 } [0x00, 0xFF];
      (1#2 : BitVec 2) ≠ 3#2 ∧ s.snap.src.Fits ∧ s.snap.dst.Fits ∧ ((1#2 : BitVec 2) = 2#2 → s.snap.dict.Fits) ∧
        ((1#2 : BitVec 2) = 1#2 → s.snap.dictLen.toNat ≤ s.snap.dstAddr.toNat) ∧ s.snap.src.Apart s.snap.dst ∧
        (∀ r ∈ dictRegions s.snap 1#2, s.snap.src.Apart r ∧ s.snap.dst.Apart r) ∧
        s.bytes s.snap.src = encoded 0#4 (dictBytes s 1#2) [] ++ [0xFF#8] ∧
        s.snap.dstCap.toNat = ([] : List Byte).length) ∧
      (let s := loaded { regions 0x1000 2 0x2000 9 with dictAddr := 0xFFFFFFFE#32, dictLen := 2#32 } [0x10, 0x61];
        (2#2 : BitVec 2) ≠ 3#2 ∧ s.snap.src.Fits ∧ s.snap.dst.Fits ∧ ((2#2 : BitVec 2) = 2#2 → s.snap.dict.Fits) ∧
          ((2#2 : BitVec 2) = 1#2 → s.snap.dictLen.toNat ≤ s.snap.dstAddr.toNat) ∧ s.snap.src.Apart s.snap.dst ∧
          (∀ r ∈ dictRegions s.snap 2#2, s.snap.src.Apart r ∧ s.snap.dst.Apart r) ∧
          s.bytes s.snap.src = encoded 0#4 (dictBytes s 2#2) [0x61#8] ++ [] ∧
          [0x61#8].length ≤ s.snap.dstCap.toNat) ∧
      (let s := loaded (regions 0x1000 2 0x2000 1) [0x10, 0x61];
        s.snap.src.Fits ∧ s.snap.dst.Fits ∧ s.snap.src.Apart s.snap.dst ∧
          (∀ r ∈ dictRegions s.snap 0#2, s.snap.src.Apart r ∧ s.snap.dst.Apart r) ∧
          s.bytes s.snap.src = encoded 12#4 (dictBytes s 0#2) [0x61#8] ++ [] ∧
          [0x61#8].length ≤ s.snap.dstCap.toNat) := by decide

/-- Payloads no encoder made: a terminal token with a match nibble, at both ends, and a match that starts in a PREFIX at the
bottom of memory (R253, R258, R261). -/
theorem witness_BlockDecodeResult_any :
    (let s := loaded (regions 0x1000 5 0x2000 4) [0x4F, 0x61, 0x62, 0x63, 0x64];
      s.snap.src.Fits ∧ s.snap.dst.Fits ∧ s.snap.src.Apart s.snap.dst ∧
        (∀ r ∈ dictRegions s.snap 0#2, s.snap.src.Apart r ∧ s.snap.dst.Apart r) ∧
        ∀ eoo, decodeBlock (s.bytes s.snap.src) s.snap.dstCap.toNat eoo (dictBytes s 0#2) =
          .ok (bytesOf [0x61, 0x62, 0x63, 0x64], 5)) ∧
      (let s := loaded { regions 0x1000 4 0x0004 4 with dictLen := 4#32 } [0x00, 0x04, 0x00, 0x00];
        s.snap.src.Fits ∧ s.snap.dst.Fits ∧ s.snap.dictLen.toNat ≤ s.snap.dstAddr.toNat ∧ s.snap.src.Apart s.snap.dst ∧
          (∀ r ∈ dictRegions s.snap 1#2, s.snap.src.Apart r ∧ s.snap.dst.Apart r) ∧
          decodeBlock (s.bytes s.snap.src) s.snap.dstCap.toNat false (dictBytes s 1#2) = .ok (dictBytes s 1#2, 4)) := by
  decide

/-- 44_block_decoder.md R261: a SRC for each cause, with regions as the hypotheses ask. -/
theorem witness_BlockDecodeTraps_causes :
    (let s := fun n cap bs => loaded (regions 0x1000 n 0x2000 cap) bs;
      (∀ n ∈ [1, 2, 5, 5], (s n 10 []).snap.src.Fits ∧ (s n 10 []).snap.dst.Fits ∧
        (s n 10 []).snap.src.Apart (s n 10 []).snap.dst ∧ dictRegions (s n 10 []).snap 0#2 = []) ∧
      (let verdict := fun eoo cap bs => let t := s bs.length cap bs;
        decodeBlock (t.bytes t.snap.src) t.snap.dstCap.toNat eoo (dictBytes t 0#2);
        verdict false 10 [0xF0] = .error .tokenTruncated ∧ verdict true 10 [0x20, 0x61] = .error .literalOverrun ∧
          verdict false 10 [0x10, 0x61, 0x00, 0x00, 0x00] = .error .offsetZero ∧
          verdict false 10 [0x10, 0x61, 0x02, 0x00, 0x00] = .error .offsetBeforeWindow ∧
          verdict false 9 [0x15, 0x61, 0x01, 0x00, 0x00] = .error .dstFull ∧
          verdict true 9 [0x15, 0x61, 0x01, 0x00, 0x00] = .error .outputOverrun)) := by decide

theorem witness_BlockDecodeTraps :
    (0#2 : BitVec 2) ≠ 3#2 ∧ ¬ (wrapping.snap.src.Fits ∧ wrapping.snap.dst.Fits) ∧
      (let s := loaded { regions 0x1000 5 0x2000 10 with dictLen := 0x2001#32 } [];
        s.snap.src.Fits ∧ s.snap.dst.Fits ∧ ((1#2 : BitVec 2) = 2#2 → s.snap.dict.Fits) ∧
          ¬ ((1#2 : BitVec 2) = 1#2 → s.snap.dictLen.toNat ≤ s.snap.dstAddr.toNat)) ∧
      (sharing.snap.src.Fits ∧ sharing.snap.dst.Fits ∧ ¬ sharing.snap.src.Apart sharing.snap.dst) ∧
      (let s := loaded (regions 0x1000 0 0x2000 10) [];
        s.snap.src.Fits ∧ s.snap.dst.Fits ∧ s.snap.src.Apart s.snap.dst ∧ s.snap.srcLen = 0#32 ∧
          ∀ r ∈ dictRegions s.snap 0#2, s.snap.src.Apart r ∧ s.snap.dst.Apart r) := by decide

theorem witness_BlockDecodeEndsAtItsBoundary :
    ∃ t, exec (.blockDecode true 0#2 false) toDecode = .next t ∧ t.status.err = false :=
  ⟨after (.blockDecode true 0#2 false) toDecode, rfl, by decide⟩

/-- Each verdict at the value where it ends: offset 0; one past the window; the last byte of room missing; just room. -/
theorem witness_MatchVerdicts :
    (0x00#8).toNat + 256 * (0x00#8).toNat = 0 ∧ 1 + 0 < (0x02#8).toNat + 256 * (0x00#8).toNat ∧
      (1 ≤ (0x01#8).toNat ∧ (0x01#8).toNat ≤ 1 + 0 ∧ 14 < 15 ∧ 18 < 1 + (14 + 4)) ∧ 1 + (14 + 4) ≤ 19 := by decide

/-- Length fields at their edges: nibble 14 without an extension byte, 15 with one of 0, 15 with 255 first, and 15 with its
extension cut off before and behind a byte 255; literals one too many for the input and for the room, and just fitting; fewer
than two offset bytes. -/
theorem witness_MatchVerdicts_lengths :
    LengthField 14 [0x61#8] 14 [0x61#8] ∧ LengthField 15 [0x00#8, 0x61#8] 15 [0x61#8] ∧
      LengthField 15 [0xFF#8, 0xFE#8, 0x61#8] 524 [0x61#8] ∧ LengthEndsEarly 15 [] ∧ LengthEndsEarly 15 [0xFF#8] ∧
      (LengthField 2 [0x61#8] 2 [0x61#8] ∧ [0x61#8].length < 2) ∧
      (LengthField 1 [0x61#8] 1 [0x61#8] ∧ 1 ≤ [0x61#8].length ∧ 0 < (#[] : Array Byte).size + 1 ∧
        (#[] : Array Byte).size + 1 ≤ 1) ∧ [0x01#8].length < 2 :=
  ⟨.inl ⟨by decide, rfl, rfl⟩, .inr ⟨rfl, 0, 0x00#8, by decide, rfl, rfl⟩, .inr ⟨rfl, 1, 0xFE#8, by decide, rfl, rfl⟩,
    ⟨rfl, 0, rfl⟩, ⟨rfl, 1, rfl⟩, ⟨.inl ⟨by decide, rfl, rfl⟩, by decide⟩,
    ⟨.inl ⟨by decide, rfl, rfl⟩, by decide, by decide, by decide⟩, by decide⟩

theorem witness_ReplayCopiesForward : 1 ≤ 1 ∧ 1 ≤ 0 + 1 := by decide

theorem witness_FencOpenResult :
    (let s := loaded (fdescA (regions 0 0 0xFFFFFFF9 7)) [];
      LevelOk 0#4 = true ∧ s.enc.state = .unopened ∧ s.snap.dst.Fits ∧ s.snap.DescriptorOk ∧
        (if s.snap.flg.getLsbD 3 then 15 else 7) ≤ s.snap.dstCap.toNat) ∧
      (let s := after .fencClose encoding;
        s.enc.state = .closed ∧ s.snap.dst.Fits ∧ s.snap.DescriptorOk) := by decide

theorem witness_FencWriteResult :
    nearlyFull.enc.isOpen = true ∧ nearlyFull.enc.buf.length < nearlyFull.enc.blockSize ∧ nearlyFull.snap.src.Fits ∧
      nearlyFull.snap.dst.Fits ∧ nearlyFull.snap.src.Apart nearlyFull.snap.dst ∧
      (nearlyFull.enc.buf.length + nearlyFull.snap.srcLen.toNat) / nearlyFull.enc.blockSize *
        (nearlyFull.enc.blockSize + 4) ≤ nearlyFull.snap.dstCap.toNat := by decide

/-- Each clause on the history: an independent stream, no full block, and a chained stream with one. -/
theorem witness_FencWriteResult_history :
    nearlyFull.enc.chained = false ∧
      (let s := withSnap encoding (regions 0x1000 10 0x2007 0);
        (s.enc.buf.length + s.snap.srcLen.toNat) / s.enc.blockSize = 0) ∧
      (let s := { nearlyFull with enc := { nearlyFull.enc with chained := true } };
        s.enc.isOpen = true ∧ s.enc.buf.length < s.enc.blockSize ∧ s.enc.chained = true ∧
          (s.enc.buf.length + s.snap.srcLen.toNat) / s.enc.blockSize ≠ 0) := by decide

/-- Content that leaves the pending block short, by one byte too, and content that just fills it; a block emitBlock takes. -/
theorem witness_FencWriteResult_block :
    nearlyFull.enc.buf.length < nearlyFull.enc.blockSize ∧
      nearlyFull.enc.buf.length + ([] : List Byte).length < nearlyFull.enc.blockSize ∧
      nearlyFull.enc.buf.length + [0x04#8].length = nearlyFull.enc.blockSize ∧
      nearlyFull.enc.buf.length ≤ 4194304 := by decide

theorem witness_FencCloseResult :
    State.reset.enc.state = .unopened ∧ (after .fencClose encoding).enc.state = .closed ∧
      (let s := withSnap encoding (regions 0 0 0xFFFFFFFC 4);
        s.enc.state = .headerWritten ∧ s.snap.dst.Fits ∧
          (if s.enc.buf = [] then 4 else s.enc.buf.length + 8) ≤ s.snap.dstCap.toNat) ∧
      (let s := withSnap (after .fencWrite (withSnap encoding (regions 0x1000 10 0x2000 0))) (regions 0 0 0x2000 18);
        s.enc.state = .blockLoop ∧ s.snap.dst.Fits ∧
          (if s.enc.buf = [] then 4 else s.enc.buf.length + 8) ≤ s.snap.dstCap.toNat) := by decide

theorem witness_FrameEncoderTraps :
    LevelOk 0#4 = true ∧ encoding.enc.isOpen = true ∧
      (let s := loaded (regions 0 0 0xFFFFFFFF 2) []; s.enc.isOpen = false ∧ ¬ s.snap.dst.Fits) ∧
      (State.reset.enc.isOpen = false ∧ State.reset.snap.dst.Fits ∧ ¬ State.reset.snap.DescriptorOk) ∧
      (let s := loaded (fdescA (regions 0 0 0x2000 6)) [];
        s.enc.isOpen = false ∧ s.snap.dst.Fits ∧ s.snap.DescriptorOk ∧
          s.snap.dstCap.toNat < (if s.snap.flg.getLsbD 3 then 15 else 7)) ∧
      (let s := withSnap encoding (regions 0xFFFFFFFF 2 0x2000 0);
        s.enc.isOpen = true ∧ ¬ (s.snap.src.Fits ∧ s.snap.dst.Fits)) ∧
      (let s := withSnap encoding (regions 0x1000 17 0x1010 64);
        s.enc.isOpen = true ∧ s.snap.src.Fits ∧ s.snap.dst.Fits ∧ ¬ s.snap.src.Apart s.snap.dst) ∧
      (let s := withSnap nearlyFull (regions 0x1000 1 0x2000 7);
        s.enc.isOpen = true ∧ s.snap.src.Fits ∧ s.snap.dst.Fits ∧ s.snap.src.Apart s.snap.dst ∧
          s.snap.dstCap.toNat <
            (s.enc.buf.length + s.snap.srcLen.toNat) / s.enc.blockSize * (s.enc.blockSize + 4)) ∧
      (let s := withSnap encoding (regions 0 0 0xFFFFFFFF 2); s.enc.isOpen = true ∧ ¬ s.snap.dst.Fits) ∧
      (let s := withSnap encoding (regions 0 0 0x2000 3);
        s.enc.isOpen = true ∧ s.snap.dst.Fits ∧
          s.snap.dstCap.toNat < (if s.enc.buf = [] then 4 else s.enc.buf.length + 8)) := by decide

theorem witness_FdecOpenResult :
    let s := loaded (regions 0x1000 20 0x2000 0) frameA;
    s.dec.state = .unopened ∧ s.snap.src.Fits ∧ versionOf 0x60#8 = 1#2 ∧ descriptorReserved 0x60#8 0x40#8 = false ∧
      4 ≤ sizeCode 0x40#8 ∧ (0x60#8).getLsbD 2 = false ∧ (0x60#8).getLsbD 0 = false ∧
      s.bytes s.snap.src = frameHeader 0x60#8 0x40#8 (0#64).toNat ++ bytesOf (frameA.drop 7) ∧
      finished.dec.state = .closed := by decide

theorem witness_FrameDecoderTraps :
    decoding.dec.isOpen = true ∧ (wrapping.dec.isOpen = false ∧ ¬ wrapping.snap.src.Fits) ∧
      (let s := loaded (regions 0x1000 4 0 0) [0x05, 0x22, 0x4D, 0x18];
        s.dec.isOpen = false ∧ s.snap.src.Fits ∧ 4 ≤ s.snap.srcLen.toNat ∧
          s.memRead s.snap.srcAddr.toNat 4 ≠ [0x04#8, 0x22#8, 0x4D#8, 0x18#8]) ∧
      (let s := loaded (regions 0x1000 3 0 0) [];
        s.dec.isOpen = false ∧ s.snap.src.Fits ∧ s.snap.srcLen.toNat < 4) ∧
      State.reset.dec.state = .unopened ∧
      (let s := withSnap decoding (regions 0xFFFFFFFF 2 0x2000 0);
        s.dec.state ≠ .unopened ∧ s.dec.state ≠ .failed ∧ ¬ (s.snap.src.Fits ∧ s.snap.dst.Fits)) ∧
      (let s := withSnap decoding (regions 0x1000 17 0x1010 64);
        s.dec.state ≠ .unopened ∧ s.dec.state ≠ .failed ∧ s.snap.src.Fits ∧ s.snap.dst.Fits ∧
          ¬ s.snap.src.Apart s.snap.dst) := by decide

/-- A refused version; a header with a content size, a dictionary id and a wrong checksum; and one whose checksum fits (R327)
and whose dictionary id is refused. -/
theorem witness_FrameDecoderTraps_header :
    (let s := loaded (regions 0x1000 5 0x2000 0) [0x04, 0x22, 0x4D, 0x18, 0x20];
      s.dec.isOpen = false ∧ s.snap.src.Fits ∧
        s.bytes s.snap.src = [0x04#8, 0x22#8, 0x4D#8, 0x18#8] ++ 0x20#8 :: [] ∧ versionOf 0x20#8 ≠ 1#2) ∧
      (let s := loaded (regions 0x1000 19 0x2000 0) ([0x04, 0x22, 0x4D, 0x18, 0x69, 0x40] ++ [1, 0, 0, 0, 0, 0, 0, 0] ++
          [2, 0, 0, 0] ++ [0x00]);
        let d := [0x69#8, 0x40#8] ++ leBytes 8 (1#64).toNat ++ leBytes 4 (2#32).toNat;
        s.dec.isOpen = false ∧ s.snap.src.Fits ∧ versionOf 0x69#8 = 1#2 ∧
          s.bytes s.snap.src = [0x04#8, 0x22#8, 0x4D#8, 0x18#8] ++ d ++ 0x00#8 :: [] ∧
          0x00#8 ≠ (xxh32 d 0#32).extractLsb' 8 8) ∧
      (let s := loaded (regions 0x1000 11 0x2000 0) [0x04, 0x22, 0x4D, 0x18, 0x61, 0x40, 0, 0, 0, 0, 0xA0];
        let d := [0x61#8, 0x40#8] ++ leBytes 4 (0#32).toNat;
        s.bytes s.snap.src = [0x04#8, 0x22#8, 0x4D#8, 0x18#8] ++ d ++ 0xA0#8 :: [] ∧
          0xA0#8 = (xxh32 d 0#32).extractLsb' 8 8 ∧ (0x61#8).getLsbD 0 = true) := by decide

/-- A header whose checksum byte FDEC_READ meets, a block length above the block size, a checksum that does not fit, and one
that fits a payload that does not decode. -/
theorem witness_FrameDecoderTraps_read :
    (let s := withSnap (after (.fdecOpen false) (loaded (regions 0x1000 6 0x2000 0) frameA)) (regions 0x1000 1 0x3000 0);
      s.snap.src.Fits ∧ s.snap.dst.Fits ∧ s.snap.src.Apart s.snap.dst ∧ s.dec.state = .opening ∧ s.dec.stage = .hc ∧
        s.dec.field = [] ∧ s.bytes s.snap.src = 0x04#8 :: [] ∧ 0x04#8 ≠ (xxh32 s.dec.hdr 0#32).extractLsb' 8 8) ∧
      (let s := withSnap (loaded (regions 0x1000 4 0x3000 1) [0x01, 0x00, 0x01, 0x80]) (regions 0x1000 4 0x3000 1);
        let t := { s with dec := decoding.dec };
        t.dec.state = .headerRead ∧ t.dec.field.length < 4 ∧ t.dec.stage = .blkLen ∧ t.snap.dstCap ≠ 0#32 ∧
          t.dec.field ++ t.bytes t.snap.src = leBytes 4 (0x80010001#32).toNat ++ [] ∧
          t.dec.blockSize < (0x80010001#32).toNat % 2 ^ 31) ∧
      (let s := loaded (regions 0x1000 4 0x3000 0) [0x00, 0x00, 0x00, 0x00];
        let t := { s with dec := { decoding.dec with stage := .bcsum, bcsum := true, inBuf := bytesOf [0xF0] } };
        t.dec.state = .headerRead ∧ t.dec.field.length < 4 ∧
          t.dec.field ++ t.bytes t.snap.src = leBytes 4 (0#32).toNat ++ [] ∧ 0#32 ≠ xxh32 t.dec.inBuf 0#32) ∧
      (let d := { decoding.dec with stage := .bcsum, bcsum := true, inBuf := bytesOf [0xF0], blkLen := 1#32 };
        d.blkLen.getLsbD 31 = false ∧
          decodeBlock d.inBuf d.blockSize false (if d.chained then d.hist else []) = .error .tokenTruncated) := by decide

/-- The end marker with its high bit set, half of it gathered before; and a block checksum that fits, behind a raw block and
behind a compressed one (R327). -/
theorem witness_FdecReadServes_fields :
    (let s := loaded (regions 0x1000 2 0x3000 1) [0x00, 0x80];
      let t := { s with dec := { decoding.dec with field := bytesOf [0x00, 0x00] } };
      t.dec.state = .headerRead ∧ t.snap.src.Fits ∧ t.snap.dst.Fits ∧ t.snap.src.Apart t.snap.dst ∧
        t.snap.dstCap ≠ 0#32 ∧ t.dec.field.length < 4 ∧
        t.dec.field ++ t.bytes t.snap.src = leBytes 4 (0x80000000#32).toNat ++ [] ∧ t.dec.stage = .blkLen ∧
        (0x80000000#32).toNat % 2 ^ 31 = 0) ∧
      (let s := loaded (regions 0x1000 4 0x3000 4) [0x05, 0x37, 0x64, 0xA3];
        let t := { s with dec := { decoding.dec with stage := .bcsum, inBuf := bytesOf [0x61, 0x62, 0x63, 0x64],
                                                     blkLen := 0x80000004#32 } };
        t.snap.dstCap ≠ 0#32 ∧ t.dec.field ++ t.bytes t.snap.src = leBytes 4 (0xA3643705#32).toNat ++ [] ∧
          0xA3643705#32 = xxh32 t.dec.inBuf 0#32 ∧ t.dec.blkLen.getLsbD 31 = true ∧
          t.snap.dstCap.toNat ≤ t.dec.inBuf.length) ∧
      (let d := { decoding.dec with stage := .bcsum, inBuf := bytesOf [0x15, 0x61, 0x01, 0x00, 0x00], blkLen := 5#32 };
        d.blkLen.getLsbD 31 = false ∧ 0xD3F7E818#32 = xxh32 d.inBuf 0#32 ∧
          decodeBlock d.inBuf d.blockSize false (if d.chained then d.hist else []) = .ok (bytesOf tenA, 5)) := by decide

/-- What FDEC_READ has left of frame A's block after two bytes of its payload (46_frame_decoder.md R317). -/
def midPayload : State := withSnap (after (.fdecRead false) (withSnap decoding (regions 0x1007 6 0x3000 10)))
  (regions 0x100D 7 0x3000 10)

/-- A whole block of frame A ahead, and the rest of it behind two bytes of its payload; and a block with its checksum (R327). -/
theorem blockAhead_examples :
    (withSnap decoding (regions 0x1007 13 0x3000 10)).BlockAhead 5#32 (bytesOf [0x15, 0x61, 0x01, 0x00, 0x00]) []
        (bytesOf [0x00, 0x00, 0x00, 0x00]) ∧
      (midPayload.dec.stage = .payload ∧ midPayload.dec.inBuf = bytesOf [0x15, 0x61] ∧
        midPayload.BlockAhead 5#32 (bytesOf [0x15, 0x61, 0x01, 0x00, 0x00]) [] (bytesOf [0x00, 0x00, 0x00, 0x00])) ∧
      (let s := loaded (regions 0x1000 12 0x3000 4) [0x04, 0x00, 0x00, 0x80, 0x61, 0x62, 0x63, 0x64, 0x05, 0x37, 0x64, 0xA3];
        { s with dec := { decoding.dec with bcsum := true } }.BlockAhead 0x80000004#32 (bytesOf [0x61, 0x62, 0x63, 0x64])
          (leBytes 4 (xxh32 (bytesOf [0x61, 0x62, 0x63, 0x64]) 0#32).toNat) []) := by decide

/-- Both states of `blockAhead_examples` without a checksum meet the hypotheses of the serving clause. -/
theorem witness_FdecReadServes_block :
    (let s := withSnap decoding (regions 0x1007 13 0x3000 10);
      s.dec.state = .headerRead ∧ s.snap.src.Fits ∧ s.snap.dst.Fits ∧ s.snap.src.Apart s.snap.dst ∧
        s.snap.dstCap ≠ 0#32 ∧ s.dec.bcsum = false ∧
        s.dec.Decodes 5#32 (bytesOf [0x15, 0x61, 0x01, 0x00, 0x00]) (bytesOf tenA) ∧
        s.snap.dstCap.toNat ≤ (bytesOf tenA).length) ∧
      (midPayload.dec.state = .headerRead ∧ midPayload.snap.src.Fits ∧ midPayload.snap.dst.Fits ∧
        midPayload.snap.src.Apart midPayload.snap.dst ∧ midPayload.snap.dstCap ≠ 0#32 ∧ midPayload.dec.bcsum = false) := by
  refine ⟨⟨by decide, by decide, by decide, by decide, by decide, by decide, ?_, by decide⟩, by decide⟩
  unfold Decoder.Decodes
  rw [if_neg (by decide)]
  exact ⟨5, by decide⟩

/-- A raw block of four bytes serves its payload. -/
theorem witness_FdecReadServes_raw :
    decoding.dec.Decodes 0x80000004#32 (bytesOf [0x61, 0x62, 0x63, 0x64]) (bytesOf [0x61, 0x62, 0x63, 0x64]) := by
  unfold Decoder.Decodes
  rw [if_pos (by decide)]

/-- A payload that does not decode, behind its length word and behind its first byte, and a checksum that does not fit. -/
theorem witness_FrameDecoderTraps_block :
    (let s := loaded (regions 0x1000 6 0x3000 1) [0x02, 0x00, 0x00, 0x00, 0xF0, 0x00];
      let t := { s with dec := decoding.dec };
      t.dec.state = .headerRead ∧ t.snap.dstCap ≠ 0#32 ∧ t.snap.src.Fits ∧ t.snap.dst.Fits ∧ t.snap.src.Apart t.snap.dst ∧
        t.BlockAhead 2#32 (bytesOf [0xF0, 0x00]) [] [] ∧ t.dec.bcsum = false ∧ (2#32).getLsbD 31 = false ∧
        decodeBlock (bytesOf [0xF0, 0x00]) t.dec.blockSize false (if t.dec.chained then t.dec.hist else []) =
          .error .literalOverrun) ∧
      (let s := loaded (regions 0x1005 1 0x3000 1) [0x02, 0x00, 0x00, 0x00, 0xF0, 0x00];
        let t := { s with dec := { decoding.dec with stage := .payload, blkLen := 2#32, inBuf := bytesOf [0xF0] } };
        t.BlockAhead 2#32 (bytesOf [0xF0, 0x00]) [] []) ∧
      (let s := loaded (regions 0x1000 9 0x3000 1) [0x01, 0x00, 0x00, 0x80, 0x61, 0x00, 0x00, 0x00, 0x00];
        let t := { s with dec := { decoding.dec with bcsum := true } };
        t.dec.state = .headerRead ∧ t.snap.dstCap ≠ 0#32 ∧ t.dec.bcsum = true ∧
          t.BlockAhead 0x80000001#32 (bytesOf [0x61]) (bytesOf [0x00, 0x00, 0x00, 0x00]) [] ∧
          bytesOf [0x00, 0x00, 0x00, 0x00] ≠ leBytes 4 (xxh32 (bytesOf [0x61]) 0#32).toNat) := by decide

/-- A header split behind one byte of the magic number, behind it, behind FLG, inside the content size, inside the dictionary
id and before the checksum byte. -/
theorem headerAhead_examples :
    ([1, 4, 5, 9, 15, 18].map fun n => (cut n longHeader).dec.stage) = [.magic, .flg, .bd, .csize, .dictId, .hc] ∧
      ∀ n ∈ [1, 4, 5, 9, 15, 18], (cut n longHeader).HeaderAhead 0x69#8 0x40#8 1#64 2#32 0x00#8 [] := by decide

/-- FDEC_READ on the six states of `headerAhead_examples`, whose checksum byte does not fit, on a magic number whose last byte
is wrong, and on a version 0 behind three bytes of the magic number and behind all of it. -/
theorem witness_FrameDecoderTraps_split :
    ((∀ n ∈ [1, 4, 5, 9, 15, 18], (cut n longHeader).snap.src.Fits ∧ (cut n longHeader).snap.dst.Fits ∧
          (cut n longHeader).snap.src.Apart (cut n longHeader).snap.dst) ∧
        versionOf 0x69#8 = 1#2 ∧ 0x00#8 ≠ (xxh32 (headerFields 0x69#8 0x40#8 1#64 2#32) 0#32).extractLsb' 8 8) ∧
      (let s := cut 3 [0x04, 0x22, 0x4D, 0x19];
        s.dec.state = .opening ∧ s.dec.stage = .magic ∧ s.dec.field.length < 4 ∧
          s.dec.field ++ s.bytes s.snap.src = [0x04#8, 0x22#8, 0x4D#8, 0x19#8] ++ []) ∧
      (let s := cut 3 [0x04, 0x22, 0x4D, 0x18, 0x20];
        s.dec.state = .opening ∧ s.dec.stage = .magic ∧ s.dec.field.length < 4 ∧
          s.dec.field ++ s.bytes s.snap.src = [0x04#8, 0x22#8, 0x4D#8, 0x18#8] ++ 0x20#8 :: [] ∧ versionOf 0x20#8 ≠ 1#2) ∧
      (let s := cut 4 [0x04, 0x22, 0x4D, 0x18, 0x20];
        s.dec.state = .opening ∧ s.dec.stage = .flg ∧ s.dec.field = [] ∧ s.bytes s.snap.src = 0x20#8 :: []) := by decide

/-- Frame A's header completed by FDEC_READ, from inside the magic number and at its checksum byte. -/
theorem witness_FdecReadServes_header :
    (∀ n ∈ [3, 6], (cut n frameA).HeaderAhead 0x60#8 0x40#8 0#64 0#32 0x82#8 ((bytesOf frameA).drop 7) ∧
      (cut n frameA).snap.src.Fits ∧ (cut n frameA).snap.dst.Fits ∧ (cut n frameA).snap.src.Apart (cut n frameA).snap.dst) ∧
      versionOf 0x60#8 = 1#2 ∧ 0x82#8 = headerChecksum (headerFields 0x60#8 0x40#8 0#64 0#32) ∧
      descriptorReserved 0x60#8 0x40#8 = false ∧ 4 ≤ sizeCode 0x40#8 ∧ (0x60#8).getLsbD 2 = false ∧
      (0x60#8).getLsbD 0 = false := by decide

/-- Room for one byte more than the current block holds, also behind an empty block; no room, at serving and before a length
word; and a block that decodes to no bytes. -/
theorem witness_FdecReadServes_onward :
    (let s := withSnap serving (regions 0x1010 4 0x3004 7);
      s.dec.state = .blockLoop ∧ s.dec.stage = .serve ∧ s.snap.src.Fits ∧ s.snap.dst.Fits ∧ s.snap.src.Apart s.snap.dst ∧
        s.dec.servePos ≤ s.dec.outBuf.length ∧ s.dec.outBuf.length - s.dec.servePos + 1 = s.snap.dstCap.toNat) ∧
      (let s := withSnap { serving with dec := { serving.dec with outBuf := [], servePos := 0 } } (regions 0x1010 4 0x3000 1);
        s.dec.state = .blockLoop ∧ s.dec.stage = .serve ∧ s.snap.src.Fits ∧ s.snap.dst.Fits ∧ s.snap.src.Apart s.snap.dst ∧
          s.dec.servePos ≤ s.dec.outBuf.length ∧ s.dec.outBuf.length - s.dec.servePos < s.snap.dstCap.toNat) ∧
      (let s := withSnap serving (regions 0x1010 4 0x3004 0);
        s.dec.state = .blockLoop ∧ s.dec.stage = .serve ∧ s.snap.src.Fits ∧ s.snap.dst.Fits ∧
          s.snap.src.Apart s.snap.dst ∧ s.snap.dstCap = 0#32) ∧
      (let s := withSnap decoding (regions 0x1007 13 0x3000 0);
        s.dec.state = .headerRead ∧ s.dec.stage = .blkLen ∧ s.snap.src.Fits ∧ s.snap.dst.Fits ∧
          s.snap.src.Apart s.snap.dst ∧ s.snap.dstCap = 0#32) ∧
      (let s := loaded (regions 0x1000 5 0x3000 1) [0x01, 0x00, 0x00, 0x00, 0x00];
        let t := { s with dec := decoding.dec };
        t.dec.state = .headerRead ∧ t.snap.src.Fits ∧ t.snap.dst.Fits ∧ t.snap.src.Apart t.snap.dst ∧
          t.snap.dstCap ≠ 0#32 ∧ t.BlockAhead 1#32 [0x00#8] [] [] ∧ t.dec.bcsum = false ∧
          t.dec.Decodes 1#32 [0x00#8] []) := by
  refine ⟨by decide, by decide, by decide, by decide, by decide, by decide, by decide, by decide, by decide, by decide,
    by decide, ?_⟩
  unfold Decoder.Decodes
  rw [if_neg (by decide)]
  exact ⟨1, by decide⟩

theorem witness_FdecReadServes :
    (serving.dec.state = .blockLoop ∧ serving.dec.stage = .serve ∧ serving.snap.src.Fits ∧ serving.snap.dst.Fits ∧
        serving.snap.src.Apart serving.snap.dst ∧
        serving.snap.dstCap.toNat ≤ serving.dec.outBuf.length - serving.dec.servePos ∧
        serving.dec.servePos < serving.dec.outBuf.length ∧ serving.snap.dstCap ≠ 0#32) ∧
      (finished.dec.state = .closed ∧ finished.dec.stage = .finish ∧ finished.snap.src.Fits ∧ finished.snap.dst.Fits ∧
        finished.snap.src.Apart finished.snap.dst) := by decide

/-- A field that SRC does not complete, in the block length word, in the header with no room in DST, and in a payload. -/
theorem witness_FdecReadInputExhausted :
    (let s := withSnap decoding (regions 0x1007 3 0x3000 100);
      s.dec.state = .headerRead ∧ s.dec.stage = .blkLen ∧ s.snap.src.Fits ∧ s.snap.dst.Fits ∧
        s.snap.src.Apart s.snap.dst ∧ s.snap.dstCap ≠ 0#32 ∧
        s.dec.field.length + s.snap.srcLen.toNat < s.dec.fieldSize) ∧
      (let s := withSnap (after (.fdecOpen false) (loaded (regions 0x1000 3 0x2000 0) frameA)) (regions 0x1003 0 0x3000 0);
        s.dec.state = .opening ∧ s.dec.stage = .magic ∧ s.snap.src.Fits ∧ s.snap.dst.Fits ∧ s.snap.src.Apart s.snap.dst ∧
          s.dec.stage.inHeader = true ∧ s.dec.field.length + s.snap.srcLen.toNat < s.dec.fieldSize) ∧
      (let s := withSnap midPayload (regions 0x100D 2 0x3000 10);
        s.dec.state ≠ .unopened ∧ s.dec.state ≠ .failed ∧ s.dec.stage = .payload ∧ s.snap.src.Fits ∧ s.snap.dst.Fits ∧
          s.snap.src.Apart s.snap.dst ∧ s.snap.dstCap ≠ 0#32 ∧
          s.dec.inBuf.length + s.snap.srcLen.toNat < s.dec.fieldSize) := by decide

/-- FDEC_OPEN with three bytes, and with all of a header but its checksum byte. -/
theorem witness_FdecReadInputExhausted_open :
    (let s := loaded (regions 0x1000 3 0x2000 0) frameA;
      s.dec.isOpen = false ∧ s.snap.src.Fits ∧ s.snap.srcLen.toNat < 4) ∧
      (let s := loaded (regions 0x1000 6 0x2000 0) frameA;
        s.dec.isOpen = false ∧ s.snap.src.Fits ∧ versionOf 0x60#8 = 1#2 ∧
          s.bytes s.snap.src ++ [0x82#8] = [0x04#8, 0x22#8, 0x4D#8, 0x18#8] ++ ([0x60#8, 0x40#8] ++
            (if (0x60#8).getLsbD 3 then leBytes 8 (0#64).toNat else []) ++
            (if (0x60#8).getLsbD 0 then leBytes 4 (0#32).toNat else [])) ++ [0x82#8]) := by decide

/-- An independent block of ten "a", as the decoder of frame A meets it. -/
theorem witness_BlockSurvivesTheTransport :
    let s := withSnap decoding (regions 0x1007 13 0x3000 10);
    let e := { encoding.enc with buf := bytesOf tenA };
    s.dec.state = .headerRead ∧ s.dec.stage = .blkLen ∧ s.dec.field = [] ∧ s.dec.bcsum = false ∧
      s.dec.chained = e.chained ∧ e.chained = false ∧ s.dec.blockSize = e.blockSize ∧ e.blockSize ≤ 4194304 ∧ e.buf ≠ [] ∧
      e.buf.length ≤ e.blockSize ∧ e.hist.length + e.buf.length ≤ 10 ∧ s.snap.src.Fits ∧ s.snap.dst.Fits ∧
      s.snap.src.Apart s.snap.dst ∧ s.snap.dstCap.toNat = e.buf.length ∧
      s.bytes s.snap.src = (emitBlock e encoding.index 10).1 ++ bytesOf [0x00, 0x00, 0x00, 0x00] := by decide

/-- A chained stream behind no history yet. -/
theorem witness_BlockSurvivesTheTransport_chained :
    let e := { encoding.enc with buf := bytesOf tenA, chained := true };
    let s := withSnap { decoding with dec := { decoding.dec with chained := true } } (regions 0x1007 13 0x3000 10);
    e.chained = true ∧ s.dec.chained = e.chained ∧ s.dec.hist = e.hist ∧
      FitIndex e.level.toNat (encoding.index) (10 - e.buf.length) ∧
      s.bytes s.snap.src = (emitBlock e encoding.index 10).1 ++ bytesOf [0x00, 0x00, 0x00, 0x00] := by
  refine ⟨by decide, by decide, by decide, ?_, by decide⟩
  intro h p hp
  have hh : encoding.index.head = [] := by decide
  rw [hh] at hp
  simp [Table.get, Sparse.find] at hp

theorem witness_HostRace :
    let s := { toEncode with running := some 0x20#32 };
    (∃ r ∈ s.busyReads ++ s.busyWrites, r.holds (0x1000#32).toNat = true) ∧
      (∃ r ∈ s.busyWrites, r.holds (0x201B#32).toNat = true) ∧
      (∀ r ∈ s.busyReads ++ s.busyWrites, r.holds (0x0FFF#32).toNat = false) ∧
      (∀ r ∈ s.busyWrites, r.holds (0x1000#32).toNat = false) := by decide

/-- The regions of commands of each kind: none, SRC alone, SRC and DST, SRC with PREFIX or DICT, DST alone. -/
theorem witness_HostRace_regions :
    ((running 0x00#32).busyReads = [] ∧ (running 0x00#32).busyWrites = []) ∧
      (let s := { toEncode with running := some 0x10#32 }; s.busyReads = [s.snap.src] ∧ s.busyWrites = []) ∧
      (let s := { toEncode with running := some 0x51#32 }; s.busyReads = [s.snap.src] ∧ s.busyWrites = [s.snap.dst]) ∧
      (let s := { toEncode with running := some 0x230#32 };
        s.busyReads = [s.snap.src, s.snap.behind] ∧ s.busyWrites = [s.snap.dst]) ∧
      (let s := { toEncode with running := some 0x430#32 };
        s.busyReads = [s.snap.src, s.snap.dict] ∧ s.busyWrites = [s.snap.dst]) ∧
      (let s := { toEncode with running := some 0x42#32 }; s.busyReads = [] ∧ s.busyWrites = [s.snap.dst]) := by decide

/-- A running command with no regions. -/
theorem witness_HostRace_none : (running 0x11#32).command = some .matchFind ∧ (running 0x03#32).command = none := by decide

theorem witness_StepKeepsMemoryForm :
    toEncode.mem.wf = true ∧ (seen (step (toEncode.withFetchWord 32 0x20)) fun t => t.mem.wf) = some true := by decide

theorem witness_StepKeepsStatus : StatusOk (running 0x20#32) ∧ ∃ t, step (running 0x03#32) = .next t :=
  ⟨statusOk_running _, ⟨_, rfl⟩⟩

theorem fitIndex_none (level : Nat) (x : Index) (start : Nat) (hh : x.head = []) (hc : x.chain = [])
    (hn : x.nextToUpdate ≤ start) : FitIndex level x start := by
  have h1 : ∀ n, HeadBelow x n := by
    intro n h p hp
    rw [hh] at hp
    simp [Table.get, Sparse.find] at hp
  unfold FitIndex
  split
  · exact h1 _
  · refine ⟨⟨fun h p hp => h1 _ h p hp, fun k e he => ?_⟩, hn⟩
    rw [hc] at he
    simp [Table.get, Sparse.find] at he

/-- An open chained stream is in order. -/
theorem witness_StepKeepsEncoderAndIndex :
    let s := after (.fencOpen 9#4) (loaded { regions 0 0 0x2000 7 with fdesc := 0x00004040#32 } []);
    EncoderOk s.enc s.index ∧ IndexOk s.index ∧ ∃ t, step s = .next t := by
  refine ⟨⟨by decide, by decide, by decide, by decide, by decide, by decide, by decide, by decide, by decide, by decide,
    by decide, fun _ _ => fitIndex_none _ _ _ (by decide) (by decide) (by decide)⟩, fun h => ?_, ⟨_, rfl⟩⟩
  exact absurd h (by decide)

/-- A stream that serves a block is in order. -/
theorem witness_StepKeepsDecoder : DecoderOk serving ∧ ∃ t, step serving = .next t := by
  refine ⟨⟨by decide, by decide, by decide, by decide, by decide, by decide, by decide, by decide, by decide, by decide,
    by decide⟩, ⟨_, rfl⟩⟩

end Sys2Proof.Tests
end

section
/-! PROOFS. What one step can do, said once (10_state.md R31-R37, 70_reset_and_hazards.md R402, R420), and the invariant of
STATUS. Every invariant of the step is then a case analysis over `StepEffect`. -/

namespace Sys2Proof.Machine

/-! ### The commands and the host's accesses -/

/-- Every command answers in the frame of every command. -/
theorem exec_answers (i : Instr) (s : State) : Answers s (exec i s) := by
  cases i with
  | nop => exact nop_answers s
  | abortEnc => exact abortEnc_answers s
  | abortDec => exact abortDec_answers s
  | matchInit hc => exact matchInit_answers hc s
  | matchFind => exact matchFind_answers s
  | matchWiden => exact matchWiden_answers s
  | blockEncode level => exact blockEncode_answers level s
  | blockDecode eoo dmode short => exact blockDecode_answers eoo dmode short s
  | fencOpen level => exact fencOpen_answers level s
  | fencWrite => exact fencWrite_answers s
  | fencClose => exact fencClose_answers s
  | fdecOpen inEof => exact fdecOpen_answers inEof s
  | fdecRead inEof => exact fdecRead_answers inEof s

/-- What a command keeps and how it ends, of the state it answers. -/
theorem exec_next {i : Instr} {s t : State} (h : exec i s = .next t) : CommandFrame s t ∧ Ended s t := by
  obtain ⟨u, hu, hframe, -, -, hended⟩ := exec_answers i s
  obtain rfl : u = t := by rw [hu] at h; exact Host.Outcome.next.inj h
  exact ⟨hframe, hended⟩

/-- What the host's accesses do. -/
inductive HostEffect (s : State) : State → Prop
  /-- A read, or a write of MEM, CTRL, IRQ_STATUS or an argument register. -/
  | plain (args : Args) (enDone enErr done err : Bool) (mem : Memory) (value : Word) (draws : Nat) :
    HostEffect s { s with args := args, irqEnDone := enDone, irqEnErr := enErr, donePend := done, errPend := err,
                          mem := mem, lastRead := value, draws := draws }
  /-- A write of CMD while a command runs (R37). -/
  | dropped (hbusy : s.busy = true) : HostEffect s { s with status := { s.status with overrun := true } }
  /-- A write of CMD while idle (R37). -/
  | accepted (w : Word) (latency draws : Nat) (hidle : s.busy = false) :
    HostEffect s { s.accept w latency with draws := draws }
  /-- A reset (R400, R402). -/
  | reset (u : State) : HostEffect s u.clearEngine

theorem readReg_effect (s : State) (offset : Nat) : HostEffect s (s.readReg offset) := by
  unfold State.readReg
  split
  · exact .plain s.args s.irqEnDone s.irqEnErr s.donePend s.errPend s.mem _ _
  · exact .plain s.args s.irqEnDone s.irqEnErr s.donePend s.errPend s.mem _ s.draws

theorem writeCtrl_effect (s : State) (v : Word) : HostEffect s (s.writeCtrl v) := by
  unfold State.writeCtrl
  split
  · exact .reset s.abandon
  · exact .plain s.args _ _ s.donePend s.errPend s.mem s.lastRead s.draws

theorem writeCmd_effect (s : State) (w : Word) : HostEffect s (s.writeCmd w) := by
  unfold State.writeCmd
  split
  · next hb => exact .dropped hb
  · next hb => exact .accepted w _ _ (by simpa using hb)

theorem writeReg_effect (s : State) (offset : Nat) (v : Word) : HostEffect s (s.writeReg offset v) := by
  unfold State.writeReg
  split
  · exact writeCtrl_effect s v
  · exact .plain s.args s.irqEnDone s.irqEnErr _ _ s.mem s.lastRead s.draws
  · exact writeCmd_effect s v
  · exact .plain _ s.irqEnDone s.irqEnErr s.donePend s.errPend s.mem s.lastRead s.draws

theorem hostAccess_effect {op : HostOp} {s t : State} (h : hostAccess op s = .next t) : HostEffect s t := by
  cases op with
  | write offset size v =>
    simp only [hostAccess] at h
    split at h
    · cases h; exact writeReg_effect s _ v
    · cases h
  | read offset size =>
    simp only [hostAccess] at h
    split at h
    · cases h; exact readReg_effect s _
    · cases h
  | memWrite a b =>
    simp only [hostAccess, hostMemWrite] at h
    split at h
    · cases h
    · cases h; exact .plain s.args s.irqEnDone s.irqEnErr s.donePend s.errPend _ s.lastRead s.draws
  | memRead a =>
    simp only [hostAccess, hostMemRead] at h
    split at h
    · cases h
    · cases h; exact .plain s.args s.irqEnDone s.irqEnErr s.donePend s.errPend s.mem _ s.draws
  | wait => cases h; exact readReg_effect s _
  | hardReset => cases h; exact .reset s.abandon

/-- What a step does: the engine refuses or runs the latched word, or the host makes its next access. -/
inductive StepEffect (s : State) : State → Prop
  | refused (c : Cause) : StepEffect s (s.raise c)
  | ran (i : Instr) (t : State) (h : exec i s = .next t) : StepEffect s t
  | still : StepEffect s s
  | host (rest : List HostOp) (t : State) (h : HostEffect { s with inbox := rest, latency := s.latency - 1 } t) :
    StepEffect s t

theorem runCommand_effect {s t : State} (h : runCommand s = .next t) : StepEffect s t := by
  unfold runCommand at h
  split at h
  · cases h; exact .still
  · split at h
    · cases h; exact .refused _
    · exact .ran _ t h

theorem step_effect {s t : State} (h : step s = .next t) : StepEffect s t := by
  unfold step at h
  split at h
  · exact runCommand_effect h
  · unfold hostTurn at h
    split at h
    · cases h; exact .still
    · exact .host _ t (hostAccess_effect h)

/-! ### What every command keeps -/

/-- Settles O19: every command answers in the command frame. -/
theorem commandsKeepHostRegisters : Obligations.CommandsKeepHostRegisters :=
  fun _ _ _ h => (exec_next h).1

/-! ### STATUS says one thing at a time -/

theorem StatusOk.ofDone {s t : State} {needInput frameEnd : Bool} (hidle : t.running = none)
    (hflags : ¬ (needInput = true ∧ frameEnd = true)) (ht : t.status = s.status.ofDone needInput frameEnd) :
    StatusOk t := by
  have hb : t.busy = false := by simp [State.busy, hidle]
  constructor <;> simp_all [Status.ofDone]

theorem StatusOk.ofError {s t : State} {c : Cause} (hidle : t.running = none) (ht : t.status = s.status.ofError c) :
    StatusOk t := by
  have hb : t.busy = false := by simp [State.busy, hidle]
  constructor
  case named => intro _; exact ⟨c, by rw [ht]; rfl, by rw [ht]; rfl⟩
  all_goals simp_all [Status.ofError]

/-- With nothing reported STATUS says nothing twice. -/
theorem StatusOk.blank {t : State} (o : Bool) (ht : t.status = { Status.zero with overrun := o }) : StatusOk t := by
  constructor <;> simp [ht, Status.zero]

/-- StatusOk reads BUSY and the stored fields only. -/
theorem StatusOk.of_same {s t : State} (h : StatusOk s) (hr : t.running = s.running) (hs : t.status = s.status) :
    StatusOk t := by
  obtain ⟨h1, h2, h3, h4, h5, h6⟩ := h
  constructor <;> simp only [State.busy, hr, hs] <;> assumption

theorem Ended.statusOk {s t : State} (h : Ended s t) (hidle : t.running = none) : StatusOk t := by
  obtain ⟨needInput, frameEnd, hflags, ht, -⟩ | ⟨c, ht, -⟩ := h
  · exact .ofDone hidle hflags ht
  · exact .ofError hidle ht

theorem HostEffect.statusOk {s t : State} (h : HostEffect s t) (hs : StatusOk s) : StatusOk t := by
  cases h with
  | plain => exact hs.of_same rfl rfl
  | dropped hbusy => exact .blank true (by simp only; rw [hs.running hbusy])
  | accepted => exact .blank false rfl
  | reset => exact .blank false rfl

/-- Settles O57: a command ends with one report, an accepted command has none, and a dropped one only flags itself. -/
theorem stepKeepsStatus : Obligations.StepKeepsStatus := by
  intro s t hs h
  cases step_effect h with
  | refused c => exact .ofError rfl rfl
  | ran i t h =>
    obtain ⟨hframe, hended⟩ := exec_next h
    exact hended.statusOk hframe.idle.1
  | still => exact hs
  | host rest t h => exact h.statusOk (hs.of_same rfl rfl)

end Sys2Proof.Machine
end

section
/-! PROOFS. What a command does not read it hands on (10_state.md R46, R50): with the argument registers, or a stream context
it does not own, replaced by anything, it answers the same with the same replacement. What it does not change follows: a
context replaced by itself. -/

namespace Sys2Proof.Machine

/-! ### Replacements -/

/-- A replacement of the argument registers, the stream contexts and the index, each on its own; `id` keeps one. -/
structure Replacement where
  args : Args → Args
  enc : Encoder → Encoder
  index : Index → Index
  dec : Decoder → Decoder
  decFdesc : Word → Word
  decCsize : BitVec 64 → BitVec 64
  decDictId : Word → Word

/-- The machine with the contexts replaced. -/
def State.replace (s : State) (o : Replacement) : State :=
  { s with
    args := o.args s.args, enc := o.enc s.enc, index := o.index s.index, dec := o.dec s.dec,
    decFdesc := o.decFdesc s.decFdesc, decCsize := o.decCsize s.decCsize, decDictId := o.decDictId s.decDictId }

/-- The next state of an answer with the contexts replaced. -/
def replaceNext (o : Replacement) : Result → Result
  | .next t => .next (t.replace o)
  | .fault f => .fault f
  | .refused r => .refused r

/-- The commands that read the index: those that may change it, and MATCH_WIDEN (R50, R180). -/
def readsIndex : Instr → Bool
  | .matchWiden => true
  | i => ofIndex i

/-- The part of a replacement that concerns no context of a command's own. -/
def Replacement.besides (o : Replacement) (i : Instr) : Replacement :=
  { args := o.args
    enc := cond (ofEncoder i) id o.enc
    index := cond (readsIndex i) id o.index
    dec := cond (ofDecoder i) id o.dec
    decFdesc := cond (ofDecoder i) id o.decFdesc
    decCsize := cond (ofDecoder i) id o.decCsize
    decDictId := cond (ofDecoder i) id o.decDictId }

/-- The part of a replacement beside the decoder stream. -/
def Replacement.besidesDecoder (o : Replacement) : Replacement :=
  { o with dec := id, decFdesc := id, decCsize := id, decDictId := id }

section
variable (o : Replacement) (s : State)

/-- Behind pre-checks that read nothing of what is replaced (R363) only what follows them counts. -/
theorem checked_replace (q : Option Cause) {r u : Result} (h : u = replaceNext o r) :
    (match q with | some c => .next ((s.replace o).raise c) | none => u) =
      replaceNext o (match q with | some c => .next (s.raise c) | none => r) := by
  cases q with
  | some c => rfl
  | none => exact h

/-! ### The commands that end in more ways than one -/

theorem abortEnc_replace :
    execAbortEnc (s.replace (o.besides .abortEnc)) = replaceNext (o.besides .abortEnc) (execAbortEnc s) := by
  have hsame : (s.replace (o.besides .abortEnc)).dropEncoder = s.dropEncoder.replace (o.besides .abortEnc) := by
    unfold State.dropEncoder
    rw [show (s.replace (o.besides .abortEnc)).enc = s.enc from rfl]
    split <;> rfl
  unfold execAbortEnc
  rw [hsame]
  rfl

theorem blockEncode_replace (level : BitVec 4) :
    execBlockEncode level (s.replace (o.besides (.blockEncode level))) =
      replaceNext (o.besides (.blockEncode level)) (execBlockEncode level s) := by
  refine checked_replace _ s ((levelCause level).or (firstCause (blockEncodeChecks s))) ?_
  have hsource : encodeSource level (s.replace (o.besides (.blockEncode level))) = encodeSource level s := rfl
  simp only [hsource, show (s.replace (o.besides (.blockEncode level))).snap = s.snap from rfl]
  split <;> rfl

theorem blockDecode_replace (eoo : Bool) (dmode : BitVec 2) (short : Bool) :
    execBlockDecode eoo dmode short (s.replace o) = replaceNext o (execBlockDecode eoo dmode short s) := by
  refine checked_replace o s ((fieldCause (.blockDecode eoo dmode short)).or (firstCause (blockDecodeChecks dmode s))) ?_
  change (match decodeBlock (s.memRead s.snap.srcAddr.toNat s.snap.srcLen.toNat) s.snap.dstCap.toNat eoo
    (dictBytes s dmode) with | .error c => _ | .ok (out, used) => _) = _
  cases decodeBlock (s.memRead s.snap.srcAddr.toNat s.snap.srcLen.toNat) s.snap.dstCap.toNat eoo (dictBytes s dmode) <;> rfl

theorem fencClose_replace :
    execFencClose (s.replace (o.besides .fencClose)) = replaceNext (o.besides .fencClose) (execFencClose s) := by
  unfold execFencClose
  rw [show (s.replace (o.besides .fencClose)).enc = s.enc from rfl]
  cases s.enc.isOpen with
  | false => rfl
  | true => exact checked_replace _ s (firstCause (fencCloseChecks s)) rfl

/-- The end of a run with the contexts replaced. -/
def DecEnd.replace (o : Replacement) : DecEnd → DecEnd
  | .stop r needInput frameEnd => .stop { r with state := r.state.replace o } needInput frameEnd
  | .fail r c => .fail { r with state := r.state.replace o } c

/-- What stands beside the decoder stream in a run is what stood there at its start (R313). -/
theorem DecEnd.replace_eq_withOthers {cap : Nat} {q : DecEnd} (h : RunFrame s cap q.run) :
    q.withOthers (o.args s.args) (o.enc s.enc) (o.index s.index) = q.replace o.besidesDecoder := by
  have hrest := h.rest
  cases q with
  | stop r needInput frameEnd =>
    simp only [DecEnd.withOthers, DecEnd.replace, DecRun.withOthers, State.replace, DecEnd.run] at hrest ⊢
    rw [hrest]
    rfl
  | fail r c =>
    simp only [DecEnd.withOthers, DecEnd.replace, DecRun.withOthers, State.replace, DecEnd.run] at hrest ⊢
    rw [hrest]
    rfl

/-- A frame run reads the decoder stream only, of what can be replaced (R46, R50). -/
theorem frameRun_replace (opening inEof : Bool) (cap : Nat) :
    frameRun opening inEof cap (s.replace o.besidesDecoder) = (frameRun opening inEof cap s).replace o.besidesDecoder :=
  (decLoop_others opening inEof cap (stageBound s.snap.srcLen.toNat) ⟨s, 0, 0⟩ (o.args s.args) (o.enc s.enc)
    (o.index s.index)).trans (DecEnd.replace_eq_withOthers o s (frameRun_frame opening inEof cap s))

theorem fdecRead_replace (inEof : Bool) :
    execFdecRead inEof (s.replace o.besidesDecoder) = replaceNext o.besidesDecoder (execFdecRead inEof s) := by
  refine checked_replace _ s (firstCause (fdecReadChecks s)) ?_
  rw [frameRun_replace, show (s.replace o.besidesDecoder).snap = s.snap from rfl]
  cases frameRun false inEof s.snap.dstCap.toNat s <;> rfl

theorem fdecOpen_replace (inEof : Bool) :
    execFdecOpen inEof (s.replace o.besidesDecoder) = replaceNext o.besidesDecoder (execFdecOpen inEof s) := by
  have hopen : (s.replace o.besidesDecoder).openDecoder = s.openDecoder.replace o.besidesDecoder := rfl
  refine checked_replace _ s (firstCause (fdecOpenChecks s)) ?_
  rw [hopen, frameRun_replace]
  cases frameRun true inEof 0 s.openDecoder <;> rfl

end

/-! ### Every command -/

/-- A command answers the same, with the same replacement, whatever replaces the contexts that are not its own (R46, R50). -/
theorem exec_replace (i : Instr) (s : State) (o : Replacement) :
    exec i (s.replace (o.besides i)) = replaceNext (o.besides i) (exec i s) := by
  cases i with
  | nop => rfl
  | abortEnc => exact abortEnc_replace o s
  | abortDec => rfl
  | matchInit hc => exact checked_replace _ s (firstCause (matchInitChecks s)) rfl
  | matchFind => exact checked_replace _ s (firstCause (matchFindChecks s)) rfl
  | matchWiden => exact checked_replace _ s (firstCause (matchWidenChecks s)) rfl
  | blockEncode level => exact blockEncode_replace o s level
  | blockDecode eoo dmode short => exact blockDecode_replace o s eoo dmode short
  | fencOpen level => exact checked_replace _ s ((levelCause level).or (firstCause (fencOpenChecks s))) rfl
  | fencWrite => exact checked_replace _ s (firstCause (fencWriteChecks s)) rfl
  | fencClose => exact fencClose_replace o s
  | fdecOpen inEof => exact fdecOpen_replace o s inEof
  | fdecRead inEof => exact fdecRead_replace o s inEof

/-- The same of the state a command answers, for a replacement that concerns none of its contexts. -/
theorem exec_next_replace {i : Instr} {s t : State} {o : Replacement} (h : exec i s = .next t) (ho : o.besides i = o) :
    exec i (s.replace o) = .next (t.replace o) := by
  have := exec_replace i s o
  rw [ho, h] at this
  exact this

/-- Replacing nothing. -/
def Replacement.keep : Replacement := ⟨id, id, id, id, id, id, id⟩

section
variable {i : Instr} {s t : State}

/-- A command that is not the encoder's answers the same whatever stands in the encoder context (R50). -/
theorem exec_with_enc (h : exec i s = .next t) (hi : ofEncoder i = false) (e : Encoder) :
    exec i { s with enc := e } = .next { t with enc := e } :=
  exec_next_replace (o := { Replacement.keep with enc := fun _ => e }) h
    (by simp [Replacement.besides, Replacement.keep, hi])

/-- A command that is not the decoder's answers the same whatever stands in the decoder context (R50). -/
theorem exec_with_dec (h : exec i s = .next t) (hi : ofDecoder i = false) (d : Decoder) (fdesc : Word) (csize : BitVec 64)
    (dictId : Word) :
    exec i { s with dec := d, decFdesc := fdesc, decCsize := csize, decDictId := dictId } =
      .next { t with dec := d, decFdesc := fdesc, decCsize := csize, decDictId := dictId } :=
  exec_next_replace
    (o := { Replacement.keep with
      dec := fun _ => d, decFdesc := fun _ => fdesc, decCsize := fun _ => csize, decDictId := fun _ => dictId }) h
    (by simp [Replacement.besides, Replacement.keep, hi])

/-- A command that does not read the index answers the same whatever stands in it (R50). -/
theorem exec_with_index (h : exec i s = .next t) (hi : readsIndex i = false) (x : Index) :
    exec i { s with index := x } = .next { t with index := x } :=
  exec_next_replace (o := { Replacement.keep with index := fun _ => x }) h
    (by simp [Replacement.besides, Replacement.keep, hi])

/-- Every command answers the same whatever stands in the argument registers (R46). -/
theorem exec_with_args (h : exec i s = .next t) (a : Args) : exec i { s with args := a } = .next { t with args := a } :=
  exec_next_replace (o := { Replacement.keep with args := fun _ => a }) h
    (by simp [Replacement.besides, Replacement.keep])

/-! ### What a command leaves unchanged -/

/-- Only the encoder's commands change the encoder context (R50): put in its own place, it is what the command leaves. -/
theorem exec_keeps_enc (h : exec i s = .next t) (hi : ofEncoder i = false) : t.enc = s.enc := by
  have ht : t = { t with enc := s.enc } := Host.Outcome.next.inj (h.symm.trans (exec_with_enc h hi s.enc))
  rw [ht]

/-- Only the decoder's commands change the decoder context and its header registers (R50). -/
theorem exec_keeps_dec (h : exec i s = .next t) (hi : ofDecoder i = false) :
    t.dec = s.dec ∧ t.decFdesc = s.decFdesc ∧ t.decCsize = s.decCsize ∧ t.decDictId = s.decDictId := by
  have ht : t = { t with dec := s.dec, decFdesc := s.decFdesc, decCsize := s.decCsize, decDictId := s.decDictId } :=
    Host.Outcome.next.inj (h.symm.trans (exec_with_dec h hi _ _ _ _))
  rw [ht]
  exact ⟨rfl, rfl, rfl, rfl⟩

/-- MATCH_WIDEN reads the index and leaves it (R180). -/
theorem matchWiden_index (h : execMatchWiden s = .next t) : t.index = s.index := by
  unfold execMatchWiden at h
  split at h <;> cases h <;> rfl

/-- Of the commands that do not change the index only MATCH_WIDEN reads it (R50, R180). -/
theorem readsIndex_false (hi : ofIndex i = false) (hw : i ≠ .matchWiden) : readsIndex i = false := by
  cases i with
  | matchWiden => exact absurd rfl hw
  | _ => exact hi

/-- Only these commands change the index (R47, R50). -/
theorem exec_keeps_index (h : exec i s = .next t) (hi : ofIndex i = false) : t.index = s.index := by
  by_cases hw : i = .matchWiden
  · subst hw
    exact matchWiden_index h
  · have ht : t = { t with index := s.index } :=
      Host.Outcome.next.inj (h.symm.trans (exec_with_index h (readsIndex_false hi hw) s.index))
    rw [ht]

end

/-- Settles O22: a command answers with the same replacement whatever replaces a context it does not own; its frame is that
of a context replaced by itself. -/
theorem streamsAreIndependent : Obligations.StreamsAreIndependent := by
  refine ⟨fun i s t h => ⟨exec_keeps_enc h, exec_keeps_dec h, exec_keeps_index h⟩, fun i s e hi => ?_,
    fun i s d fdesc csize dictId hi => ?_, fun i s x hi hw => ?_⟩ <;> obtain ⟨t, h, -⟩ := exec_answers i s
  · exact ⟨t, h, exec_with_enc h hi e⟩
  · exact ⟨t, h, exec_with_dec h hi d fdesc csize dictId⟩
  · exact ⟨t, h, exec_with_index h (readsIndex_false hi hw) x⟩

/-- Settles O23: no command reads the argument registers. -/
theorem commandsReadOnlyTheSnapshot : Obligations.CommandsReadOnlyTheSnapshot := by
  intro i s a
  obtain ⟨t, h, -⟩ := exec_answers i s
  exact ⟨t, h, exec_with_args h a⟩

end Sys2Proof.Machine
end

section
/-! PROOFS. The encoder stream and the index it shares with the match commands stay in order (10_state.md R47, R48, R50, R51;
40_match_engine.md R164, R168; 45_frame_encoder.md R285, R287). -/

namespace Sys2Proof.Machine

/-- The encoder stream and the shared index are in order. -/
def EncodersOk (s : State) : Prop := EncoderOk s.enc s.index ∧ IndexOk s.index

theorem EncodersOk.of_same {s t : State} (h : EncodersOk s) (he : t.enc = s.enc) (hx : t.index = s.index) :
    EncodersOk t := by
  unfold EncodersOk
  rw [he, hx]
  exact h

/-- A stream that is not open is in order beside an index it does not own, once its buffers are empty (R280). -/
theorem EncoderOk.of_shut {e : Encoder} {x : Index} (ho : e.isOpen = false) (hb : e.buf = []) (hh : e.hist = [])
    (hx : x.owner ≠ .encoder) : EncoderOk e x := by
  constructor <;> simp [ho, hb, hh, hx]

/-- A stream beside an index it does not own is in order beside any other such index (R50). -/
theorem EncoderOk.beside {e : Encoder} {x y : Index} (h : EncoderOk e x) (hx : x.owner ≠ .encoder)
    (hy : y.owner ≠ .encoder) : EncoderOk e y := by
  have ho : e.isOpen = false := by
    rw [← Bool.not_eq_true, ← h.owned]
    exact hx
  exact .of_shut ho (h.shut ho).1 (h.shut ho).2 hy

/-- An index that MATCH does not own is in order. -/
theorem IndexOk.of_owner {x : Index} (hx : x.owner ≠ .matcher) : IndexOk x := fun h => absurd h hx

/-- The index an open stream owns is not MATCH's (R50). -/
theorem EncoderOk.indexOk {e : Encoder} {x : Index} (h : EncoderOk e x) (ho : e.isOpen = true) : IndexOk x :=
  .of_owner (by simp [h.owned.2 ho])

/-- A cleared index is fit for MATCH_FIND (R164, R171). -/
theorem Index.MatchOk.of_empty {x : Index} (hh : x.head = []) (hc : x.chain = []) : x.MatchOk := by
  unfold Index.MatchOk
  split <;> simp [HcIndex, hh, hc, Table.get, Sparse.find]

/-! ### The commands of the index -/

theorem abortEnc_encodersOk {s t : State} (hs : EncodersOk s) (h : execAbortEnc s = .next t) : EncodersOk t := by
  unfold execAbortEnc State.dropEncoder at h
  cases h
  split
  · exact hs.of_same rfl rfl
  · by_cases ho : s.index.owner = .encoder
    · simp only [ho, if_true]
      exact ⟨.of_shut rfl rfl rfl (by simp), .of_owner (by simp)⟩
    · simp only [ho, if_false]
      exact ⟨.of_shut rfl rfl rfl ho, hs.2⟩

theorem matchInit_encodersOk {hc : Bool} {s t : State} (hs : EncodersOk s) (h : execMatchInit hc s = .next t) :
    EncodersOk t := by
  unfold execMatchInit at h
  split at h <;> cases h
  · exact hs.of_same rfl rfl
  · next hn =>
    rw [firstCause_none] at hn
    have hfree := hn (s.index.owner == .encoder, .indexBusy) (by simp [matchInitChecks])
    exact ⟨hs.1.beside (by simpa using hfree) (by simp [Index.init]), fun _ => .of_empty rfl rfl⟩

/-- A search from a cursor in order keeps the index fit for the next (R165, R166, R175). -/
theorem indexFind_matchOk {v : View} {x : Index} {c low budget limit : Nat} (hx : x.MatchOk) (hl : c + 4 ≤ limit)
    (hc : cursorBehind x c = false) : (indexFind v x c low budget limit).2.MatchOk := by
  unfold indexFind
  cases hk : x.kind with
  | fast =>
    simp only [fastProbe_index, Index.MatchOk, cursorBehind, hk] at hx hc ⊢
    intro h p hp
    refine ⟨c, rfl, ?_⟩
    rw [Table.get_set] at hp
    split at hp
    · cases hp; exact le_rfl
    · obtain ⟨l, hl, hpl⟩ := hx h p hp
      simp only [hl, decide_eq_false_iff_not] at hc
      omega
  | hc =>
    simp only [Index.MatchOk, cursorBehind, hk, decide_eq_false_iff_not] at hx hc
    obtain ⟨-, hfit, -, -, hkind, -⟩ := hcFind_spec v x c low budget limit hx (by omega) hl
    simp only [Index.MatchOk, hkind, hk]
    exact hfit

theorem indexFind_owner (v : View) (x : Index) (c low budget limit : Nat) :
    SameOwner x (indexFind v x c low budget limit).2 := by
  unfold indexFind
  split
  · exact fastProbe_owner v x c low limit
  · exact hcFind_owner v x c low budget limit

theorem matchFind_encodersOk {s t : State} (hs : EncodersOk s) (h : execMatchFind s = .next t) : EncodersOk t := by
  unfold execMatchFind at h
  split at h <;> cases h
  · exact hs.of_same rfl rfl
  · next hn =>
    rw [firstCause_none] at hn
    simp only [matchFindChecks, List.forall_mem_cons, bne_eq_false_iff_eq, Bool.or_eq_false_iff,
      decide_eq_false_iff_not, not_lt] at hn
    obtain ⟨hown, ⟨⟨⟨-, hlimit⟩, -⟩, hcursor⟩, -⟩ := hn
    have hsame := (indexFind_owner (s.indexView s.snap.arg3.toNat) s.index s.snap.arg0.toNat s.snap.arg1.toNat
      s.snap.arg2.toNat s.snap.arg3.toNat).1
    exact ⟨hs.1.beside (by simp [hown]) (by simp [hsame, hown]), fun _ => indexFind_matchOk (hs.2 hown) hlimit hcursor⟩

theorem blockEncode_encodersOk {level : BitVec 4} {s t : State} (hs : EncodersOk s)
    (h : execBlockEncode level s = .next t) : EncodersOk t := by
  have hfree : (encodeSource level s).2.owner = .free := (encodeBlock_owner _ _ _ _ _ _).1
  unfold execBlockEncode at h
  split at h
  · cases h; exact hs.of_same rfl rfl
  · next hn =>
    rw [or_none, firstCause_none] at hn
    have hown := hn.2 (s.index.owner == .encoder, .indexBusy) (by simp [blockEncodeChecks])
    have key : EncoderOk s.enc (encodeSource level s).2 ∧ IndexOk (encodeSource level s).2 :=
      ⟨hs.1.beside (by simpa using hown) (by simp [hfree]), .of_owner (by simp [hfree])⟩
    simp only at h
    split at h <;> cases h <;> exact key

/-! ### The commands of the encoder stream -/

theorem levelCause_none {level : BitVec 4} : levelCause level = none ↔ LevelOk level = true := by
  revert level
  decide

theorem blockSizeOf_pos (code : Nat) : 0 < blockSizeOf code := Nat.two_pow_pos _

theorem Encoder.opened_ok (level : BitVec 4) (a : Args) (x : Index) (hl : LevelOk level = true) (hc : 4 ≤ sizeCode a.bd) :
    EncoderOk (Encoder.opened level a) (x.forStream level) where
  owned := ⟨fun _ => rfl, fun _ => rfl⟩
  kind _ := rfl
  level _ := hl
  size _ := ⟨hc, rfl⟩
  chaining _ := rfl
  room _ := blockSizeOf_pos _
  count := le_rfl
  shut h := by cases h
  window := Nat.zero_le _
  alone _ := rfl
  history _ _ := rfl
  fit _ _ := FitIndex.clear level.toNat x 0

theorem fencOpen_encodersOk {level : BitVec 4} {s t : State} (hs : EncodersOk s) (h : execFencOpen level s = .next t) :
    EncodersOk t := by
  unfold execFencOpen at h
  split at h <;> cases h
  · exact hs.of_same rfl rfl
  · next hn =>
    rw [or_none, levelCause_none, firstCause_none] at hn
    obtain ⟨hlevel, hn⟩ := hn
    have hcode := hn (decide (sizeCode s.snap.bd < 4), .badBlockSizeCode) (by simp [fencOpenChecks])
    simp only [decide_eq_false_iff_not, not_lt] at hcode
    have hok := Encoder.opened_ok level s.snap s.index hlevel hcode
    exact ⟨hok, hok.indexOk rfl⟩

/-- Taking content bytes keeps an open stream in order (R287). -/
theorem WriteInv.encoderOk {e : Encoder} {x : Index} {k : Nat} {r : WriteRun} (w : WriteInv e x k r) (h : EncoderOk e x)
    (ho : e.isOpen = true) : EncoderOk (r.context (e.total + k)) r.index := by
  obtain ⟨hlevel, hflg, hbd, hblock, hchained, -, -⟩ := w.same
  obtain ⟨howner, hkind, -, -⟩ := w.owner
  have hlen : (r.context (e.total + k)).buf.length = r.size := by simp [WriteRun.context, w.size]
  have hlater : e.total + k = r.soFar := w.soFar.symm
  constructor
  case owned => exact ⟨fun _ => rfl, fun _ => howner.trans (h.owned.2 ho)⟩
  case kind => exact fun _ => by rw [hkind, h.kind ho, WriteRun.context, hlevel]
  case level => exact fun _ => by rw [WriteRun.context, hlevel]; exact h.level ho
  case size => exact fun _ => by rw [WriteRun.context, hbd, hblock]; exact h.size ho
  case chaining => exact fun _ => by rw [WriteRun.context, hflg, hchained]; exact h.chaining ho
  case room => exact fun _ => by rw [hlen, WriteRun.context, hblock]; exact w.room (h.room ho)
  case count => rw [hlen, WriteRun.context, hlater]; exact w.total h.count
  case shut => exact fun hc => by cases hc
  case window => exact w.window h.window
  case alone =>
    intro hc
    have hc' : e.chained = false := hchained.symm.trans hc
    exact (w.alone hc').trans (h.alone hc')
  case history =>
    intro _ hc
    have hc' : e.chained = true := hchained.symm.trans hc
    rw [hlen, WriteRun.context, hlater]
    exact w.history h.count hc' (h.history ho hc')
  case fit =>
    intro _ hc
    have hc' : e.chained = true := hchained.symm.trans hc
    rw [hlen, WriteRun.context, hlater, hlevel]
    exact w.fit h.count hc' (h.fit ho hc')

theorem fencWrite_encodersOk {s t : State} (hs : EncodersOk s) (h : execFencWrite s = .next t) : EncodersOk t := by
  unfold execFencWrite at h
  split at h <;> cases h
  · exact hs.of_same rfl rfl
  · next hn =>
    rw [firstCause_none] at hn
    have ho : s.enc.isOpen = true := by simpa using hn (!s.enc.isOpen, .badState) (by simp [fencWriteChecks])
    have hw := writeLoop_inv s.enc s.index (s.memRead s.snap.srcAddr.toNat s.snap.srcLen.toNat)
    rw [show (s.memRead s.snap.srcAddr.toNat s.snap.srcLen.toNat).length = s.snap.srcLen.toNat from
      Memory.length_readBytes ..] at hw
    have hok := hw.encoderOk hs.1 ho
    exact ⟨hok, hok.indexOk rfl⟩

/-- Nothing is pending behind a flush (R292). -/
theorem flushBlock_buf (e : Encoder) (x : Index) : (flushBlock e x).2.1.buf = [] := by
  unfold flushBlock
  split
  · rfl
  · next hb => exact List.length_eq_zero_iff.1 (by simpa using hb)

theorem fencClose_encodersOk {s t : State} (hs : EncodersOk s) (h : execFencClose s = .next t) : EncodersOk t := by
  unfold execFencClose at h
  split at h
  · split at h <;> cases h
    · exact hs.of_same rfl rfl
    · exact ⟨.of_shut rfl (flushBlock_buf _ _) rfl (by simp), .of_owner (by simp)⟩
  · cases h
    exact hs.of_same rfl rfl

/-- Every command keeps the encoder stream and the shared index in order; those that own neither by R50. -/
theorem exec_encodersOk {i : Instr} {s t : State} (hs : EncodersOk s) (h : exec i s = .next t) : EncodersOk t := by
  have hframe (he : ofEncoder i = false) (hx : ofIndex i = false) : EncodersOk t :=
    hs.of_same (exec_keeps_enc h he) (exec_keeps_index h hx)
  cases i with
  | nop => exact hframe rfl rfl
  | abortEnc => exact abortEnc_encodersOk hs h
  | abortDec => exact hframe rfl rfl
  | matchInit hc => exact matchInit_encodersOk hs h
  | matchFind => exact matchFind_encodersOk hs h
  | matchWiden => exact hframe rfl rfl
  | blockEncode level => exact blockEncode_encodersOk hs h
  | blockDecode eoo dmode short => exact hframe rfl rfl
  | fencOpen level => exact fencOpen_encodersOk hs h
  | fencWrite => exact fencWrite_encodersOk hs h
  | fencClose => exact fencClose_encodersOk hs h
  | fdecOpen inEof => exact hframe rfl rfl
  | fdecRead inEof => exact hframe rfl rfl

/-- The reset machine has no encoder stream and an empty index (R47, R48, R400). -/
theorem reset_encodersOk : EncodersOk State.reset := ⟨.of_shut rfl rfl rfl (by decide), .of_owner (by decide)⟩

theorem HostEffect.encodersOk {s t : State} (h : HostEffect s t) (hs : EncodersOk s) : EncodersOk t := by
  cases h with
  | plain => exact hs.of_same rfl rfl
  | dropped => exact hs.of_same rfl rfl
  | accepted => exact hs.of_same rfl rfl
  | reset => exact reset_encodersOk.of_same rfl rfl

/-- Settles O58: the commands keep the order, the host touches neither context but by a reset. -/
theorem stepKeepsEncoderAndIndex : Obligations.StepKeepsEncoderAndIndex := by
  intro s t he hx h
  have hs : EncodersOk s := ⟨he, hx⟩
  show EncodersOk t
  cases step_effect h with
  | refused c => exact hs.of_same rfl rfl
  | ran i t h => exact exec_encodersOk hs h
  | still => exact hs
  | host rest t h => exact h.encodersOk (hs.of_same rfl rfl)

end Sys2Proof.Machine
end

section
/-! PROOFS. The decoder stream and its header registers stay in order (10_state.md R43, R49, R51; 46_frame_decoder.md R312). -/

namespace Sys2Proof.Machine

/-- A decoder stream at reset is in order (R49, R400). -/
theorem DecoderOk.of_reset {s : State} (hd : s.dec = Decoder.reset) (hf : s.decFdesc = 0#32) (hc : s.decCsize = 0#64)
    (hi : s.decDictId = 0#32) : DecoderOk s := by
  constructor <;> simp [hd, hf, hc, hi, Decoder.reset, Decoder.headerDone]

/-- A new frame is in order (R311). -/
theorem openDecoder_inOrder (s : State) : InOrder s.openDecoder := by
  refine ⟨?_, by simp, by simp⟩
  constructor <;> simp [Decoder.reset, Decoder.headerDone, DecStage.inHeader]

/-- A stream that fails stays in order (R319). -/
theorem InOrder.fail {s : State} (h : InOrder s) : DecoderOk s.failDecoder := by
  obtain ⟨hok, -, -⟩ := h
  constructor
  case mirror => exact hok.mirror
  case served => exact hok.served
  case window => exact hok.window
  case alone => exact hok.alone
  all_goals simp [Decoder.headerDone]

/-- A stream FDEC_READ accepts is in order and neither unopened nor failed (R312). -/
theorem InOrder.of_readable {s : State} (h : DecoderOk s) (hr : s.dec.unreadable = false) : InOrder s := by
  refine ⟨h, ?_, ?_⟩ <;> intro hst <;> simp [Decoder.unreadable, hst] at hr

theorem frameRun_inOrder (opening inEof : Bool) (cap : Nat) {s : State} (h : InOrder s) :
    InOrder (frameRun opening inEof cap s).run.state :=
  decLoop_ok opening inEof cap _ h

theorem abortDec_decoderOk {s t : State} (h : execAbortDec s = .next t) : DecoderOk t := by
  cases h
  exact .of_reset rfl rfl rfl rfl

theorem fdecOpen_decoderOk {inEof : Bool} {s t : State} (hs : DecoderOk s) (h : execFdecOpen inEof s = .next t) :
    DecoderOk t := by
  have hrun := frameRun_inOrder true inEof 0 (openDecoder_inOrder s)
  unfold execFdecOpen at h
  split at h
  · cases h; exact hs.of_kept rfl rfl rfl rfl
  · cases hq : frameRun true inEof 0 s.openDecoder with
    | stop r needInput frameEnd => rw [hq] at h hrun; cases h; exact hrun.1.of_kept rfl rfl rfl rfl
    | fail r c => rw [hq] at h hrun; cases h; exact hrun.fail.of_kept rfl rfl rfl rfl

theorem fdecRead_decoderOk {inEof : Bool} {s t : State} (hs : DecoderOk s) (h : execFdecRead inEof s = .next t) :
    DecoderOk t := by
  unfold execFdecRead at h
  split at h
  · cases h; exact hs.of_kept rfl rfl rfl rfl
  · next hn =>
    rw [firstCause_none] at hn
    have hread := hn (s.dec.unreadable, .badState) (by simp [fdecReadChecks])
    have hrun := frameRun_inOrder false inEof s.snap.dstCap.toNat (InOrder.of_readable hs hread)
    cases hq : frameRun false inEof s.snap.dstCap.toNat s with
    | stop r needInput frameEnd => rw [hq] at h hrun; cases h; exact hrun.1.of_kept rfl rfl rfl rfl
    | fail r c => rw [hq] at h hrun; cases h; exact hrun.fail.of_kept rfl rfl rfl rfl

/-- Every command keeps the decoder stream in order; those that do not own it by R50. -/
theorem exec_decoderOk {i : Instr} {s t : State} (hs : DecoderOk s) (h : exec i s = .next t) : DecoderOk t := by
  cases hi : ofDecoder i with
  | false =>
    obtain ⟨hd, hf, hc, hid⟩ := exec_keeps_dec h hi
    exact hs.of_kept hf hc hid hd
  | true =>
    cases i with
    | abortDec => exact abortDec_decoderOk h
    | fdecOpen inEof => exact fdecOpen_decoderOk hs h
    | fdecRead inEof => exact fdecRead_decoderOk hs h
    | _ => cases hi

theorem reset_decoderOk : DecoderOk State.reset := .of_reset rfl rfl rfl rfl

theorem HostEffect.decoderOk {s t : State} (h : HostEffect s t) (hs : DecoderOk s) : DecoderOk t := by
  cases h with
  | plain => exact hs.of_kept rfl rfl rfl rfl
  | dropped => exact hs.of_kept rfl rfl rfl rfl
  | accepted => exact hs.of_kept rfl rfl rfl rfl
  | reset => exact reset_decoderOk.of_kept rfl rfl rfl rfl

/-- Settles O59: the decoder's commands keep the order stage by stage, the host touches the stream by a reset only. -/
theorem stepKeepsDecoder : Obligations.StepKeepsDecoder := by
  intro s t hs h
  cases step_effect h with
  | refused c => exact hs.of_kept rfl rfl rfl rfl
  | ran i t h => exact exec_decoderOk hs h
  | still => exact hs
  | host rest t h => exact h.decoderOk (hs.of_kept rfl rfl rfl rfl)

/-- Settles O60: STATUS reports nothing, no stream is open, the index is free, and MEM lists nothing. -/
theorem resetMeetsInvariants : Obligations.ResetMeetsInvariants :=
  ⟨rfl, .blank false rfl, reset_encodersOk.1, reset_encodersOk.2, reset_decoderOk⟩

end Sys2Proof.Machine
end

section
/-! PROOFS. The register port (10_state.md R31-R44): which registers an offset names, what a write of each does, and the bits
of the words the host reads. -/

namespace Sys2Proof.Machine

/-! ### Register offsets -/

theorem hostAccess_write {offset : BitVec 12} (ho : offset.toNat % 4 = 0) (s : State) (v : Word) :
    hostAccess (.write offset 4 v) s = .next (s.writeReg offset.toNat v) := by
  simp [hostAccess, accessOk, ho]

theorem hostAccess_read {offset : BitVec 12} (ho : offset.toNat % 4 = 0) (s : State) :
    hostAccess (.read offset 4) s = .next (s.readReg offset.toNat) := by
  simp [hostAccess, accessOk, ho]

/-- Only a 32-bit access at a multiple of 4 is defined (R32). -/
theorem accessOk_false {offset : BitVec 12} {size : Nat} (h : size ≠ 4 ∨ offset.toNat % 4 ≠ 0) :
    accessOk offset size = false := by
  obtain h | h := h <;> simp [accessOk, h]

/-- Above DEC_TOTAL_HI every offset is reserved (R31). -/
theorem regValue_reserved (s : State) (offset : Nat) (h : 0x078 ≤ offset) : s.regValue offset = 0#32 := by
  simp (disch := omega) only [State.regValue, State.streamReg, State.plainReg, Option.getD_none]

/-- A write anywhere but at CTRL, IRQ_STATUS and CMD goes to the argument registers (R31). -/
theorem writeReg_args (s : State) (offset : Nat) (v : Word) (h1 : offset ≠ 0x004) (h2 : offset ≠ 0x00C)
    (h3 : offset ≠ 0x010) : s.writeReg offset v = { s with args := s.args.write offset v } := by
  simp (disch := omega) only [State.writeReg]

/-- Outside SRC_ADDR to CSIZE_HI there is no argument register (R31). -/
theorem Args.write_outside (a : Args) (offset : Nat) (v : Word) (h : offset < 0x014 ∨ 0x044 < offset) :
    a.write offset v = a := by
  simp (disch := omega) only [Args.write]

/-- Settles O9: an idle read only records its value, and a write at an offset with no writable register changes nothing. -/
theorem registerPortRules : Obligations.RegisterPortRules := by
  intro s offset
  refine ⟨fun ho hidle => ?_, ⟨rfl, rfl, rfl, regValue_reserved s _⟩, fun v ho h1 h2 h3 hout => ?_, fun v size h => ?_⟩
  · rw [hostAccess_read ho]
    simp [State.readReg, hidle]
  · rw [hostAccess_write ho, writeReg_args s _ v h1 h2 h3, Args.write_outside s.args _ v hout]
  · simp [hostAccess, accessOk_false h]

/-! ### The argument registers -/

/-- The argument registers in the order of their offsets, from 0x014 on (R38-R41). -/
def Args.words (a : Args) : List Word :=
  [a.srcAddr, a.srcLen, a.dstAddr, a.dstCap, a.dictAddr, a.dictLen, a.arg0, a.arg1, a.arg2, a.arg3, a.fdesc, a.csizeLo,
    a.csizeHi]

theorem Args.words_write (a : Args) (v : Word) (k : Nat) (hk : k < 13) :
    (a.write (0x014 + 4 * k) v).words = a.words.set k v := by
  interval_cases k <;> rfl

theorem regValue_argument (s : State) (k : Nat) (hk : k < 13) : s.regValue (0x014 + 4 * k) = s.args.words.getD k 0#32 := by
  interval_cases k <;> rfl

/-- No other register shows an argument (R31): of the offsets named one by one, those of arguments are excluded, and the
registers at the others do not read them. -/
theorem regValue_args (s : State) (a : Args) (o : Nat) (ho : ¬ (0x014 ≤ o ∧ o ≤ 0x044 ∧ o % 4 = 0)) :
    ({ s with args := a } : State).regValue o = s.regValue o := by
  unfold State.regValue State.plainReg
  split <;> first | omega | rfl

/-- Settles O11: the write sets one of the thirteen words, and a read of another offset sees another word or none. -/
theorem argumentWriteReadsBack : Obligations.ArgumentWriteReadsBack := by
  intro s v k hk
  have hoff : (BitVec.ofNat 12 (0x014 + 4 * k)).toNat = 0x014 + 4 * k := by
    rw [BitVec.toNat_ofNat]
    omega
  have hread (j : Nat) (hj : j < 13) :
      ({ s with args := s.args.write (0x014 + 4 * k) v } : State).regValue (0x014 + 4 * j) =
        (s.args.words.set k v).getD j 0#32 := by
    rw [regValue_argument _ j hj, Args.words_write s.args v k hk]
  refine ⟨{ s with args := s.args.write (0x014 + 4 * k) v }, ?_, rfl, ?_, fun o ho => ?_⟩
  · rw [hostAccess_write (by omega), hoff, writeReg_args s _ v (by omega) (by omega) (by omega)]
  · rw [hread k hk]
    simp [Args.words, hk]
  · by_cases harg : 0x014 ≤ o ∧ o ≤ 0x044 ∧ o % 4 = 0
    · obtain ⟨j, hj, rfl⟩ : ∃ j, j < 13 ∧ o = 0x014 + 4 * j := ⟨(o - 0x014) / 4, by omega, by omega⟩
      rw [hread j hj, regValue_argument s j hj, List.getD_eq_getElem?_getD, List.getElem?_set_ne (by omega),
        List.getD_eq_getElem?_getD]
    · exact regValue_args s _ o harg

/-! ### IRQ_STATUS, CTRL and the interrupt line -/

/-- Settles O12: done sets DONE_PEND, an error sets ERR_PEND, and each leaves the other. -/
theorem irqStatusWriteOneToClear : Obligations.IrqStatusWriteOneToClear := by
  refine ⟨fun s v => ⟨rfl, rfl⟩, fun i s t h => ?_, rfl⟩
  obtain ⟨needInput, frameEnd, -, ht, hdone, herr⟩ | ⟨c, ht, herr, hdone, -⟩ := (exec_next h).2
  · simp [ht, Status.ofDone, hdone, herr]
  · simp [ht, Status.ofError, hdone, herr]

/-- The bits of CTRL as the host reads it (R34). -/
theorem ctrlWord_bits (s : State) : s.ctrlWord.getLsbD 1 = s.irqEnDone ∧ s.ctrlWord.getLsbD 2 = s.irqEnErr := by
  simp only [State.ctrlWord, BitVec.getLsbD_append]
  simp

/-- The bits of IRQ_STATUS as the host reads it (R36). -/
theorem irqStatusWord_bits (s : State) :
    s.irqStatusWord.getLsbD 0 = s.donePend ∧ s.irqStatusWord.getLsbD 1 = s.errPend := by
  simp only [State.irqStatusWord, BitVec.getLsbD_append]
  simp

/-- The enables of a word written to CTRL read back at their bits, all others 0 (R34). -/
theorem ctrlWord_write (s : State) (v : Word) :
    ({ s with irqEnDone := v.getLsbD 1, irqEnErr := v.getLsbD 2 } : State).ctrlWord = v &&& 6#32 := by
  apply BitVec.eq_of_getLsbD_eq
  intro i hi
  simp only [State.ctrlWord, BitVec.getLsbD_append, BitVec.getLsbD_and]
  interval_cases i <;> simp

/-- Settles O13, from the bits of CTRL and IRQ_STATUS. -/
theorem ctrlAndInterruptLine : Obligations.CtrlAndInterruptLine := by
  refine ⟨fun s v hv => ⟨?_, ctrlWord_write s v⟩, fun s => ?_, rfl⟩
  · rw [hostAccess_write (by decide)]
    show Host.Outcome.next (s.writeCtrl v) = _
    rw [State.writeCtrl, if_neg (by rw [hv]; decide)]
  · show s.irqLine = (s.irqStatusWord.getLsbD 0 && s.ctrlWord.getLsbD 1 ||
      s.irqStatusWord.getLsbD 1 && s.ctrlWord.getLsbD 2)
    simp only [State.irqLine, ctrlWord_bits, irqStatusWord_bits]

/-! ### STATUS, the decoder's registers and the counters -/

/-- The one-bit fields of STATUS (R35). -/
theorem statusWord_bits (s : State) :
    s.statusWord.getLsbD 0 = s.busy ∧ s.statusWord.getLsbD 1 = s.status.done ∧ s.statusWord.getLsbD 2 = s.status.err ∧
      s.statusWord.getLsbD 3 = s.status.needInput ∧ s.statusWord.getLsbD 4 = s.status.frameEnd ∧
      s.statusWord.getLsbD 19 = false ∧ s.statusWord.getLsbD 23 = false ∧
      s.statusWord.getLsbD 26 = s.status.overrun ∧ s.statusWord.getLsbD 27 = (s.index.kind == .hc) := by
  simp only [State.statusWord, BitVec.getLsbD_append]
  cases s.index.kind <;> simp [kindCode]

/-- The wider fields of STATUS (R35, R47-R49). -/
theorem statusWord_fields (s : State) :
    s.statusWord.extractLsb' 5 3 = s.status.errCode ∧ s.statusWord.extractLsb' 8 8 = s.status.errCause ∧
      s.statusWord.extractLsb' 16 3 = encStateCode s.enc.state ∧
      s.statusWord.extractLsb' 20 3 = decStateCode s.dec.state ∧
      s.statusWord.extractLsb' 24 2 = ownerCode s.index.owner ∧ s.statusWord.extractLsb' 28 4 = 0#4 := by
  refine ⟨?_, ?_, ?_, ?_, ?_, ?_⟩ <;>
    simp (disch := decide) only [State.statusWord, BitVec.extractLsb'_append_eq_of_le,
      BitVec.extractLsb'_append_eq_of_add_le, Nat.reduceSub, BitVec.extractLsb'_eq_self]

/-- A 64-bit register as a pair of words, low word first (R43, R44). -/
theorem toNat_halves (x : BitVec 64) :
    (x.extractLsb' 32 32).toNat * 2 ^ 32 + (x.extractLsb' 0 32).toNat = x.toNat := by
  have hx := x.isLt
  simp only [BitVec.extractLsb'_toNat, Nat.shiftRight_eq_div_pow]
  omega

/-- Settles O14, from the bits and fields of STATUS and the halves of the 64-bit registers. -/
theorem readOnlyRegisterLayout : Obligations.ReadOnlyRegisterLayout := by
  intro s
  obtain ⟨b0, b1, b2, b3, b4, b19, b23, b26, b27⟩ := statusWord_bits s
  obtain ⟨f5, f8, f16, f20, f24, f28⟩ := statusWord_fields s
  refine ⟨b0, b1, b2, b3, b4, f5, f8, ?_, b19, ?_, b23, ?_, b26, b27, f28, rfl, rfl, ?_, toNat_halves _, toNat_halves _⟩
  · exact (congrArg BitVec.toNat f16).trans (by cases s.enc.state <;> rfl)
  · exact (congrArg BitVec.toNat f20).trans (by cases s.dec.state <;> rfl)
  · exact (congrArg BitVec.toNat f24).trans (by cases s.index.owner <;> rfl)
  · exact (toNat_halves _).trans (BitVec.toNat_ofNat ..)

/-! ### CMD and reset -/

/-- Settles O15, by the two branches of a CMD write. -/
theorem cmdAcceptsOrDrops : Obligations.CmdAcceptsOrDrops := by
  intro s w
  have hwrite : hostAccess (.write 0x010#12 4 w) s = .next (s.writeCmd w) := hostAccess_write (by decide) s w
  refine ⟨fun hidle => ⟨_, hwrite, ?_⟩, fun hbusy => ?_⟩
  · simp [State.writeCmd, hidle, State.accept]
  · rw [hwrite]
    simp [State.writeCmd, hbusy]

/-- Right after reset every plain register but ID reads 0 (R31, R400). -/
theorem reset_plainReg (offset : Nat) (h : 0 < offset) : State.reset.plainReg offset = 0#32 := by
  unfold State.plainReg
  split
  case h_1 => exact absurd h (Nat.lt_irrefl 0)
  all_goals rfl

/-- Right after reset every register but ID reads 0 (R31, R400). -/
theorem reset_regValue (offset : Nat) (h : 0 < offset) : State.reset.regValue offset = 0#32 := by
  unfold State.regValue State.streamReg
  split
  case h_9 => exact reset_plainReg offset h
  all_goals rfl

/-- Settles O7: the fields are those of `State.reset`, the registers read 0. -/
theorem resetLeavesListedState : Obligations.ResetLeavesListedState :=
  ⟨rfl, rfl, rfl, rfl, rfl, rfl, rfl, fun offset h _ => reset_regValue offset h, rfl, rfl, rfl, rfl, rfl⟩

end Sys2Proof.Machine
end

section
/-! PROOFS. MEM (20_memory.md R80-R86, R96): what a step leaves of it and that it stays in canonical form, which bytes a
command may write, and where a host access races with the running command. -/

namespace Sys2Proof.Machine

/-! ### What a command does to MEM -/

/-- What a command does to MEM, of the state it answers: it writes inside DST and keeps the canonical form (R80, R86). -/
theorem exec_mem {i : Instr} {s t : State} (h : exec i s = .next t) :
    MemFrame s t ∧ (s.mem.wf = true → t.mem.wf = true) := by
  obtain ⟨u, hu, -, hmem, hwf, -⟩ := exec_answers i s
  obtain rfl : u = t := Host.Outcome.next.inj (hu.symm.trans h)
  exact ⟨hmem, hwf⟩

section
variable {s t : State}

theorem abortEnc_mem (h : execAbortEnc s = .next t) : t.mem = s.mem := by
  unfold execAbortEnc State.dropEncoder at h
  cases h
  split <;> rfl

theorem matchInit_mem {hc : Bool} (h : execMatchInit hc s = .next t) : t.mem = s.mem := by
  unfold execMatchInit at h
  split at h <;> cases h <;> rfl

theorem matchFind_mem (h : execMatchFind s = .next t) : t.mem = s.mem := by
  unfold execMatchFind at h
  split at h <;> cases h <;> rfl

theorem matchWiden_mem (h : execMatchWiden s = .next t) : t.mem = s.mem := by
  unfold execMatchWiden at h
  split at h <;> cases h <;> rfl

/-- FDEC_OPEN serves no byte, and its errors free none (R311, log 4). -/
theorem fdecOpen_mem {inEof : Bool} (h : execFdecOpen inEof s = .next t) : t.mem = s.mem := by
  have hrun : (frameRun true inEof 0 s.openDecoder).run.state.mem = s.mem :=
    (frameRun_frame true inEof 0 s.openDecoder).quiet rfl
  unfold execFdecOpen at h
  split at h
  · cases h; rfl
  · split at h <;> next hq => rw [hq] at hrun; cases h; exact hrun

end

/-- Settles O20: every command writes in its frame; those without a DST reach no write of MEM on any path. -/
theorem commandsWriteOnlyDst : Obligations.CommandsWriteOnlyDst := by
  intro i s t h
  refine ⟨(exec_mem h).1, ?_⟩
  rintro (rfl | rfl | rfl | ⟨hc, rfl⟩ | rfl | rfl | ⟨inEof, rfl⟩)
  · cases h; rfl
  · exact abortEnc_mem h
  · cases h; rfl
  · exact matchInit_mem h
  · exact matchFind_mem h
  · exact matchWiden_mem h
  · exact fdecOpen_mem h

/-! ### What the host does to MEM -/

/-- Free bytes end with the address space (R367, log 21), so that they keep the canonical form. -/
theorem scramble_mem_wf {s : State} (a n : Nat) (hs : s.mem.wf = true) : (s.scramble a n).mem.wf = true := by
  refine Memory.wf_writeBytes _ _ _ hs ?_
  rw [← List.length_eq_zero_iff, length_freeBytes]
  omega

theorem abandon_mem_wf {s : State} (hs : s.mem.wf = true) : s.abandon.mem.wf = true := by
  unfold State.abandon
  split
  · exact hs
  · exact scramble_mem_wf _ _ hs

/-- A register write leaves MEM, unless it resets the engine (R34, R402). -/
theorem writeReg_mem (s : State) (offset : Nat) (v : Word) :
    (s.writeReg offset v).mem = s.mem ∨ (s.writeReg offset v).mem = s.abandon.mem := by
  unfold State.writeReg
  split
  · unfold State.writeCtrl
    split
    · exact .inr rfl
    · exact .inl rfl
  · exact .inl rfl
  · unfold State.writeCmd
    split <;> exact .inl rfl
  · exact .inl rfl

theorem readReg_mem (s : State) (offset : Nat) : (s.readReg offset).mem = s.mem := by
  unfold State.readReg
  split <;> rfl

/-- What an access of the host does to MEM: nothing, a reset's free bytes, or its own byte (R96, R402). -/
theorem hostAccess_mem {op : HostOp} {s t : State} (h : hostAccess op s = .next t) :
    t.mem = s.mem ∨ t.mem = s.abandon.mem ∨ ∃ a b, op = .memWrite a b ∧ t.mem = s.mem.writeBytes a.toNat [b] := by
  cases op with
  | write offset size v =>
    simp only [hostAccess] at h
    split at h <;> cases h
    exact (writeReg_mem s _ v).imp_right .inl
  | read offset size =>
    simp only [hostAccess] at h
    split at h <;> cases h
    exact .inl (readReg_mem s _)
  | memWrite a b =>
    simp only [hostAccess, hostMemWrite] at h
    split at h <;> cases h
    exact .inr (.inr ⟨a, b, rfl, rfl⟩)
  | memRead a =>
    simp only [hostAccess, hostMemRead] at h
    split at h <;> cases h
    exact .inl rfl
  | wait => cases h; exact .inl (readReg_mem s _)
  | hardReset => cases h; exact .inr (.inl rfl)

theorem hostAccess_mem_wf {op : HostOp} {s t : State} (hs : s.mem.wf = true) (h : hostAccess op s = .next t) :
    t.mem.wf = true := by
  obtain hm | hm | ⟨a, b, -, hm⟩ := hostAccess_mem h <;> rw [hm]
  · exact hs
  · exact abandon_mem_wf hs
  · exact Memory.wf_writeBytes _ _ _ hs (.inr a.isLt)

/-! ### MEM stays in its canonical form -/

theorem runCommand_mem_wf {s t : State} (hs : s.mem.wf = true) (h : runCommand s = .next t) : t.mem.wf = true := by
  unfold runCommand at h
  split at h
  · cases h; exact hs
  · split at h
    · cases h; exact hs
    · exact (exec_mem h).2 hs

theorem hostTurn_mem_wf {s t : State} (hs : s.mem.wf = true) (h : hostTurn s = .next t) : t.mem.wf = true := by
  unfold hostTurn at h
  split at h
  · cases h; exact hs
  · next op rest _ => exact hostAccess_mem_wf (s := { s with inbox := rest, latency := s.latency - 1 }) hs h

/-- Settles O56: commands and host accesses write inside the address space, free bytes end with it. -/
theorem stepKeepsMemoryForm : Obligations.StepKeepsMemoryForm := by
  intro s t hs h
  unfold step at h
  split at h
  · exact runCommand_mem_wf hs h
  · exact hostTurn_mem_wf hs h

/-! ### The regions of the running command -/

/-- A decoded command has no illegal field (R113). -/
theorem fieldCause_of_decode {w : Word} {i : Instr} (h : decode w = .ok i) : fieldCause i = none := by
  unfold decode at h
  split at h
  · cases h
  · split at h
    · cases h
    · split at h
      · cases h
      · next hf => cases h; exact hf

/-- A decoded BLOCK_DECODE has one of the three dictionary modes (R113, R252). -/
theorem dictRegions_of_decode {w : Word} {eoo short : Bool} {dmode : BitVec 2}
    (h : decode w = .ok (.blockDecode eoo dmode short)) (a : Args) :
    dictRegions a dmode = if dmode = 1#2 then [a.behind] else if dmode = 2#2 then [a.dict] else [] := by
  have hmode : dmode ≠ 3#2 := by
    rintro rfl
    cases fieldCause_of_decode h
  unfold dictRegions
  have hmodes : ∀ d : BitVec 2, d = 0#2 ∨ d = 1#2 ∨ d = 2#2 ∨ d = 3#2 := by decide
  obtain rfl | rfl | rfl | rfl := hmodes dmode
  · rfl
  · rfl
  · rfl
  · exact absurd rfl hmode

/-- Which bytes stand in the DICT_LEN bytes behind DST (R253, log 7). -/
theorem behind_holds_iff (a : Args) (x : Nat) :
    a.behind.holds x = true ↔ a.dstAddr.toNat ≤ x + a.dictLen.toNat ∧ x < a.dstAddr.toNat := by
  unfold Region.holds
  rw [decide_eq_true_iff]
  simp only [Args.behind]
  omega

theorem mem_readRegions {s : State} {i : Instr} {r : Region} (h : r ∈ readRegions s i) :
    r = s.snap.src ∨ r = s.snap.dict ∨ r = s.snap.behind := by
  have hdict (dmode : BitVec 2) (hr : r ∈ dictRegions s.snap dmode) : r = s.snap.dict ∨ r = s.snap.behind := by
    unfold dictRegions at hr
    split at hr
    · cases hr
    · split at hr
      · exact .inr (List.mem_singleton.1 hr)
      · exact .inl (List.mem_singleton.1 hr)
  cases i with
  | blockDecode eoo dmode short => exact (List.mem_cons.1 h).imp_right (hdict dmode)
  | matchInit | blockEncode | fencWrite | fdecOpen | fdecRead => exact .inl (List.mem_singleton.1 h)
  | _ => cases h

theorem mem_writeRegions {s : State} {i : Instr} {r : Region} (h : r ∈ writeRegions s i) : r = s.snap.dst := by
  cases i with
  | blockEncode | blockDecode | fencOpen | fencWrite | fencClose | fdecRead => exact List.mem_singleton.1 h
  | _ => cases h

section
variable {s : State} {i : Instr} {r : Region}

theorem command_eq_some_iff : s.command = some i ↔ ∃ w, s.running = some w ∧ decode w = .ok i := by
  unfold State.command
  cases s.running with
  | none => simp
  | some w => cases hd : decode w <;> simp [hd]

theorem busyReads_of_command (h : s.command = some i) : s.busyReads = readRegions s i := by
  unfold State.busyReads
  rw [h]

theorem busyWrites_of_command (h : s.command = some i) : s.busyWrites = writeRegions s i := by
  unfold State.busyWrites
  rw [h]

/-- Without a running command nothing is a region (R96, log 25). -/
theorem busy_of_command_none (h : s.command = none) : s.busyReads = [] ∧ s.busyWrites = [] := by
  unfold State.busyReads State.busyWrites
  rw [h]
  exact ⟨rfl, rfl⟩

theorem mem_busyReads (h : r ∈ s.busyReads) : r = s.snap.src ∨ r = s.snap.dict ∨ r = s.snap.behind := by
  cases hc : s.command with
  | none => simp [busy_of_command_none hc] at h
  | some i => rw [busyReads_of_command hc] at h; exact mem_readRegions h

theorem mem_busyWrites (h : r ∈ s.busyWrites) : r = s.snap.dst := by
  cases hc : s.command with
  | none => simp [busy_of_command_none hc] at h
  | some i => rw [busyWrites_of_command hc] at h; exact mem_writeRegions h

end

/-! ### Where a host access races -/

section
variable (s : State) (a : Word) (b : Byte)

/-- A host write races exactly in a region of the running command (R96). -/
theorem hostMemWrite_eq : hostMemWrite a b s =
    if ∃ r ∈ s.busyReads ++ s.busyWrites, r.holds a.toNat = true then .fault .hostRace
    else .next (s.memWrite a.toNat [b]) := by
  simp only [hostMemWrite, ← List.any_append, List.any_eq_true]

/-- A host read races exactly in a region the running command writes (R96). -/
theorem hostMemRead_eq : hostMemRead a s =
    if ∃ r ∈ s.busyWrites, r.holds a.toNat = true then .fault .hostRace
    else .next { s with lastRead := (s.mem.read a.toNat).setWidth 32 } := by
  simp only [hostMemRead, List.any_eq_true]

end

/-- The host's byte stands at its address, every other byte stays (R85). -/
theorem read_memWrite_byte (s : State) (a x : Nat) (b : Byte) :
    (s.memWrite a [b]).mem.read x = if x = a then b else s.mem.read x := by
  rw [State.memWrite_mem, Memory.read_writeBytes]
  by_cases hx : x = a
  · subst hx; simp
  · rw [if_neg hx, if_neg (by simp only [List.length_singleton]; omega)]

/-- Settles O55: the race test is membership in a region, and the regions are read off the running command. -/
theorem hostRace : Obligations.HostRace := by
  intro s a b
  refine ⟨fun h => ?_, fun h => ?_, fun h => ⟨s.memWrite a.toNat [b], ?_, rfl, fun x => read_memWrite_byte s _ x b⟩,
    fun h => ?_, fun r => mem_busyReads, fun r => mem_busyWrites, behind_holds_iff s.snap, ?_,
    fun i => command_eq_some_iff, fun i hi => ?_⟩
  · exact (hostMemWrite_eq s a b).trans (if_pos h)
  · exact (hostMemRead_eq s a).trans (if_pos h)
  · exact (hostMemWrite_eq s a b).trans (if_neg (by simpa using h))
  · exact (hostMemRead_eq s a).trans (if_neg (by simpa using h))
  · rintro (hi | hi | hi)
    · exact busy_of_command_none hi
    · exact ⟨busyReads_of_command hi, busyWrites_of_command hi⟩
    · exact ⟨busyReads_of_command hi, busyWrites_of_command hi⟩
  · rw [busyReads_of_command hi, busyWrites_of_command hi]
    cases i with
    | blockDecode eoo dmode short =>
      obtain ⟨w, -, hw⟩ := command_eq_some_iff.1 hi
      exact ⟨congrArg (s.snap.src :: ·) (dictRegions_of_decode hw s.snap), rfl⟩
    | _ => exact ⟨rfl, rfl⟩

end Sys2Proof.Machine
end

section
/-! PROOFS. Command words (30_encoding.md R110-R114): the three parts of a word, the rows of the opcode map, and which words
decode to which command. -/

namespace Sys2Proof.Machine

/-! ### The parts of a word (R110) -/

section
variable (w : Word)

theorem opcodeOf_toNat : (opcodeOf w).toNat = w.toNat % 256 := by simp [opcodeOf]

theorem modOf_toNat : (modOf w).toNat = w.toNat / 256 % 256 := by simp [modOf, Nat.shiftRight_eq_div_pow]

theorem upperOf_toNat : (upperOf w).toNat = w.toNat / 65536 := by
  have := w.isLt
  simp only [upperOf, BitVec.extractLsb'_toNat, Nat.shiftRight_eq_div_pow]
  omega

end

/-- A word is its three parts. -/
theorem word_ext {v w : Word} (ho : opcodeOf v = opcodeOf w) (hm : modOf v = modOf w) (hu : upperOf v = upperOf w) :
    v = w := by
  have ho := congrArg BitVec.toNat ho
  have hm := congrArg BitVec.toNat hm
  have hu := congrArg BitVec.toNat hu
  rw [opcodeOf_toNat, opcodeOf_toNat] at ho
  rw [modOf_toNat, modOf_toNat] at hm
  rw [upperOf_toNat, upperOf_toNat] at hu
  exact BitVec.eq_of_toNat_eq (by omega)

/-- The parts of the word of any command. -/
theorem encode_parts : ∀ i : Instr, Laws.EncodeFields.Statement i
  | .nop => Laws.EncodeFields.nop
  | .abortEnc => Laws.EncodeFields.abortEnc
  | .abortDec => Laws.EncodeFields.abortDec
  | .matchInit hc => Laws.EncodeFields.matchInit hc
  | .matchFind => Laws.EncodeFields.matchFind
  | .matchWiden => Laws.EncodeFields.matchWiden
  | .blockEncode level => Laws.EncodeFields.blockEncode level
  | .blockDecode eoo dmode short => Laws.EncodeFields.blockDecode eoo dmode short
  | .fencOpen level => Laws.EncodeFields.fencOpen level
  | .fencWrite => Laws.EncodeFields.fencWrite
  | .fencClose => Laws.EncodeFields.fencClose
  | .fdecOpen inEof => Laws.EncodeFields.fdecOpen inEof
  | .fdecRead inEof => Laws.EncodeFields.fdecRead inEof

/-! ### The rows of the opcode map (R111, R112) -/

/-- Every command stands in the row of its opcode, and its modifier byte leaves the reserved bits 0. -/
theorem opcodeRow_of_command (i : Instr) :
    ∃ reserved, opcodeRow (opcodeByte i) (modByte i) = some (reserved, i) ∧ modByte i &&& reserved = 0#8 := by
  cases i with
  | matchInit flag | fdecOpen flag | fdecRead flag => exact ⟨0xFE#8, by revert flag; decide⟩
  | blockEncode level | fencOpen level => exact ⟨0xF0#8, by revert level; decide⟩
  | blockDecode eoo dmode short => exact ⟨0xF0#8, by revert eoo dmode short; decide⟩
  | _ => exact ⟨0xFF#8, by decide⟩

/-! What a modifier byte is whose reserved bits are 0, and when one of them is set. -/

theorem flagByte_of_reserved : ∀ m : BitVec 8, m &&& 0xFE#8 = 0#8 → flagByte (m.getLsbD 0) = m := by decide

theorem fields_of_reserved : ∀ m : BitVec 8, m &&& 0xF0#8 = 0#8 →
    (m.extractLsb' 0 4).setWidth 8 = m ∧
      modByte (.blockDecode (m.getLsbD 0) (m.extractLsb' 1 2) (m.getLsbD 3)) = m := by decide

theorem reserved_all_iff : ∀ m : BitVec 8, m &&& 0xFF#8 ≠ 0#8 ↔ m.toNat ≠ 0 := by decide

theorem reserved_behind_flag_iff : ∀ m : BitVec 8, m &&& 0xFE#8 ≠ 0#8 ↔ 2 ≤ m.toNat := by decide

theorem reserved_behind_fields_iff : ∀ m : BitVec 8, m &&& 0xF0#8 ≠ 0#8 ↔ 16 ≤ m.toNat := by decide

section
variable {op m reserved : BitVec 8} {i : Instr}

/-- What a row can hold, by the modifier bits its commands use: none, the lowest, or the lower four. -/
theorem opcodeRow_cases (h : opcodeRow op m = some (reserved, i)) :
    opcodeByte i = op ∧
      (reserved = 0xFF#8 ∧ i ∈ [.nop, .abortEnc, .abortDec, .matchFind, .matchWiden, .fencWrite, .fencClose] ∨
        reserved = 0xFE#8 ∧ i ∈ [.matchInit (m.getLsbD 0), .fdecOpen (m.getLsbD 0), .fdecRead (m.getLsbD 0)] ∨
        reserved = 0xF0#8 ∧ i ∈ [.blockEncode (m.extractLsb' 0 4), .fencOpen (m.extractLsb' 0 4),
          .blockDecode (m.getLsbD 0) (m.extractLsb' 1 2) (m.getLsbD 3)]) := by
  unfold opcodeRow at h
  split at h <;> cases h <;> next hop => exact ⟨BitVec.eq_of_toNat_eq hop.symm, by simp⟩

theorem opcodeRow_none_iff : opcodeRow op m = none ↔
    op.toNat ∉ [0x00, 0x01, 0x02, 0x10, 0x11, 0x12, 0x20, 0x30, 0x40, 0x41, 0x42, 0x50, 0x51] := by
  unfold opcodeRow
  split <;> simp_all

/-- With the reserved bits 0 the row gives the command whose bytes these are. -/
theorem bytes_of_opcodeRow (h : opcodeRow op m = some (reserved, i)) (hm : m &&& reserved = 0#8) :
    opcodeByte i = op ∧ modByte i = m := by
  obtain ⟨hop, ⟨rfl, hi⟩ | ⟨rfl, hi⟩ | ⟨rfl, hi⟩⟩ := opcodeRow_cases h <;> refine ⟨hop, ?_⟩ <;>
    simp only [List.mem_cons, List.not_mem_nil, or_false] at hi
  · have hzero : 0#8 = m := hm.symm.trans BitVec.and_allOnes
    rcases hi with rfl | rfl | rfl | rfl | rfl | rfl | rfl <;> exact hzero
  · rcases hi with rfl | rfl | rfl <;> exact flagByte_of_reserved m hm
  · obtain ⟨hlevel, hmode⟩ := fields_of_reserved m hm
    rcases hi with rfl | rfl | rfl
    · exact hlevel
    · exact hlevel
    · exact hmode

/-- Which modifier bits a row reserves, by the byte as a number (R112). -/
theorem reserved_iff (h : opcodeRow op m = some (reserved, i)) : m &&& reserved ≠ 0#8 ↔
    if op.toNat = 0x10 ∨ op.toNat = 0x50 ∨ op.toNat = 0x51 then 2 ≤ m.toNat
    else if op.toNat = 0x20 ∨ op.toNat = 0x30 ∨ op.toNat = 0x40 then 16 ≤ m.toNat else m.toNat ≠ 0 := by
  obtain ⟨rfl, ⟨rfl, hi⟩ | ⟨rfl, hi⟩ | ⟨rfl, hi⟩⟩ := opcodeRow_cases h <;>
    simp only [List.mem_cons, List.not_mem_nil, or_false] at hi
  · rw [reserved_all_iff]
    rcases hi with rfl | rfl | rfl | rfl | rfl | rfl | rfl <;> rfl
  · rw [reserved_behind_flag_iff]
    rcases hi with rfl | rfl | rfl <;> rfl
  · rw [reserved_behind_fields_iff]
    rcases hi with rfl | rfl | rfl <;> rfl

/-- The field checks of a row (R113, steps 3 and 4), by the bytes as numbers. -/
theorem fieldCause_of_opcodeRow (h : opcodeRow op m = some (reserved, i)) (hm : m &&& reserved = 0#8) : fieldCause i =
    if (op.toNat = 0x20 ∨ op.toNat = 0x40) ∧ m.toNat ∈ [1, 2, 13, 14, 15] then some .badLevel
    else if op.toNat = 0x30 ∧ m.toNat / 2 % 4 = 3 then some .badMode
    else if op.toNat = 0x30 ∧ 8 ≤ m.toNat then some .partialDecode else none := by
  obtain ⟨rfl, ⟨rfl, hi⟩ | ⟨rfl, hi⟩ | ⟨rfl, hi⟩⟩ := opcodeRow_cases h <;>
    simp only [List.mem_cons, List.not_mem_nil, or_false] at hi
  · rcases hi with rfl | rfl | rfl | rfl | rfl | rfl | rfl <;> rfl
  · rcases hi with rfl | rfl | rfl <;> rfl
  · revert hm
    rcases hi with rfl | rfl | rfl <;> revert m <;> decide

end

/-! ### Decoding (R113) -/

theorem fieldCause_none_iff {i : Instr} : fieldCause i = none ↔ i.WellFormed = true := by
  cases i with
  | blockEncode level | fencOpen level => exact levelCause_none
  | blockDecode eoo dmode short => revert dmode short; cases eoo <;> decide
  | _ => simp [fieldCause, Instr.WellFormed]

/-- Decoding a word whose opcode has a row. -/
theorem decode_of_opcodeRow {w : Word} {reserved : BitVec 8} {i : Instr}
    (h : opcodeRow (opcodeOf w) (modOf w) = some (reserved, i)) :
    decode w = if upperOf w ≠ 0#16 ∨ modOf w &&& reserved ≠ 0#8 then .error .reservedBits
      else (fieldCause i).elim (.ok i) .error := by
  simp only [decode, h]
  cases fieldCause i <;> rfl

/-- The word of a command decodes to it, unless one of its fields is refused. -/
theorem decode_encode (i : Instr) : decode (encode i) = (fieldCause i).elim (.ok i) .error := by
  obtain ⟨hop, hmod, hupper⟩ := encode_parts i
  obtain ⟨reserved, hrow, hreserved⟩ := opcodeRow_of_command i
  rw [← hop, ← hmod] at hrow
  rw [decode_of_opcodeRow hrow, if_neg (by simp [hupper, hmod, hreserved])]

/-- A word that decodes has the parts of its command, whose fields are allowed. -/
theorem parts_of_decode {w : Word} {i : Instr} (h : decode w = .ok i) :
    opcodeOf w = opcodeByte i ∧ modOf w = modByte i ∧ upperOf w = 0#16 ∧ fieldCause i = none := by
  cases hrow : opcodeRow (opcodeOf w) (modOf w) with
  | none => simp [decode, hrow] at h
  | some row =>
    obtain ⟨reserved, j⟩ := row
    rw [decode_of_opcodeRow hrow] at h
    split at h
    · cases h
    · next hz =>
      obtain ⟨hupper, hreserved⟩ := not_or.1 hz
      obtain ⟨hop, hmod⟩ := bytes_of_opcodeRow hrow (not_not.1 hreserved)
      cases hf : fieldCause j <;> rw [hf] at h <;> cases h
      exact ⟨hop.symm, hmod.symm, not_not.1 hupper, hf⟩

theorem decode_encode_of_wellFormed {i : Instr} (hi : i.WellFormed = true) : decode (encode i) = .ok i := by
  rw [decode_encode, fieldCause_none_iff.2 hi]
  rfl

/-- Settles O3: the parts of the word name the command's row, and no field is refused. -/
theorem decodeEncodeRoundTrip : Obligations.DecodeEncodeRoundTrip := fun _ hi => decode_encode_of_wellFormed hi

/-- Settles O4: a word that decodes has the parts of its command's word. -/
theorem encodeDecodeRoundTrip : Obligations.EncodeDecodeRoundTrip := by
  intro w i h
  obtain ⟨hop, hmod, hupper, hfields⟩ := parts_of_decode h
  obtain ⟨eop, emod, eupper⟩ := encode_parts i
  exact ⟨word_ext (eop.trans hop.symm) (emod.trans hmod.symm) (eupper.trans hupper.symm), fieldCause_none_iff.1 hfields⟩

/-- Settles O5: the row of the opcode fixes the reserved bits and the field checks, and what passes them is the command. -/
theorem commandWordVerdicts : Obligations.CommandWordVerdicts := by
  intro w
  simp only [← opcodeOf_toNat, ← modOf_toNat, ← upperOf_toNat]
  cases hrow : opcodeRow (opcodeOf w) (modOf w) with
  | none =>
    rw [if_pos (opcodeRow_none_iff.1 hrow)]
    simp [decode, hrow]
  | some row =>
    obtain ⟨reserved, i⟩ := row
    have hupper : upperOf w ≠ 0#16 ↔ (upperOf w).toNat ≠ 0 := BitVec.toNat_ne_iff_ne.symm
    have hbits := or_congr hupper (reserved_iff hrow)
    rw [if_neg (opcodeRow_none_iff.not.1 (by rw [hrow]; exact Option.some_ne_none _)), decode_of_opcodeRow hrow]
    by_cases hz : upperOf w ≠ 0#16 ∨ modOf w &&& reserved ≠ 0#8
    · rw [if_pos (hbits.1 hz), if_pos hz]
    · have hreserved := not_not.1 (not_or.1 hz).2
      obtain ⟨hop, hmod⟩ := bytes_of_opcodeRow hrow hreserved
      rw [if_neg (hbits.not.1 hz), if_neg hz, fieldCause_of_opcodeRow hrow hreserved]
      split_ifs
      · rfl
      · rfl
      · rfl
      · exact ⟨i, rfl, congrArg _ hop, congrArg _ hmod⟩

theorem decode_word {w : Word} {i : Instr} (hi : i.WellFormed = true) (hw : encode i = w) : decode w = .ok i :=
  hw ▸ decode_encode_of_wellFormed hi

/-- Settles O1: each reference word is the word of its command. -/
theorem commandWordsDecode : Obligations.CommandWordsDecode := by
  refine ⟨decode_word rfl rfl, decode_word rfl rfl, decode_word rfl rfl, fun level hl => decode_word hl ?_,
    fun eoo dmode hd => decode_word ?_ ?_, decode_word rfl rfl, decode_word rfl rfl, decode_word rfl rfl,
    decode_word rfl rfl, decode_word rfl rfl, decode_word rfl rfl⟩
  · revert level; decide
  · simpa [Instr.WellFormed] using hd
  · clear hd; revert eoo dmode; decide

/-! ### Refused fields (R112, log 18) -/

theorem levelCause_some {level : BitVec 4} (h : LevelOk level = false) : levelCause level = some .badLevel := by
  revert level
  decide

/-- A command with a refused field reports it before anything else. -/
theorem exec_of_fieldCause {i : Instr} {c : Cause} (h : fieldCause i = some c) (s : State) :
    exec i s = .next (s.raise c) := by
  cases i with
  | blockEncode level =>
    have h : levelCause level = some c := h
    simp only [exec, execBlockEncode, h, Option.some_or]
  | blockDecode eoo dmode short => simp only [exec, execBlockDecode, h, Option.some_or]
  | fencOpen level =>
    have h : levelCause level = some c := h
    simp only [exec, execFencOpen, h, Option.some_or]
  | _ => cases h

/-- A refused field: what decoding the command's word and running the command answer. -/
theorem refused_of_fieldCause {i : Instr} {c : Cause} (h : fieldCause i = some c) :
    decode (encode i) = .error c ∧ ∀ s : State, exec i s = .next (s.raise c) :=
  ⟨by rw [decode_encode, h]; rfl, exec_of_fieldCause h⟩

/-- Settles O6: decoding and the command check the fields with one function. -/
theorem illegalFieldsTrap : Obligations.IllegalFieldsTrap := by
  refine ⟨fun level hl => ?_, fun eoo short => refused_of_fieldCause rfl, fun eoo dmode hd => refused_of_fieldCause ?_⟩
  · obtain ⟨hblock, hexec⟩ := refused_of_fieldCause (i := .blockEncode level) (levelCause_some hl)
    obtain ⟨hframe, hopen⟩ := refused_of_fieldCause (i := .fencOpen level) (levelCause_some hl)
    exact ⟨hblock, hframe, fun s => ⟨hexec s, hopen s⟩⟩
  · simp [fieldCause, hd]

/-! ### Turns (R420, log 2) -/

section
variable {s : State} {w : Word} {op : HostOp} {rest : List HostOp}

theorem hostIdle_cons (hop : op ≠ .wait) (hbox : s.inbox = op :: rest) : s.hostIdle = false := by
  unfold State.hostIdle
  rw [hbox]
  cases op <;> simp_all

theorem hostTurn_cons (hbox : s.inbox = op :: rest) :
    hostTurn s = hostAccess op { s with inbox := rest, latency := s.latency - 1 } := by
  unfold hostTurn
  rw [hbox]

/-- The running command completes when the host is idle or the latency is used up. -/
theorem step_engine (hrun : s.running = some w) (h : s.hostIdle = true ∨ s.latency = 0) : step s = runCommand s := by
  have hturn : s.engineTurn = true := by simpa [State.engineTurn, State.busy, hrun] using h
  rw [step, if_pos hturn]

theorem step_host (h : s.running = none ∨ s.hostIdle = false ∧ s.latency ≠ 0) : step s = hostTurn s := by
  have hturn : s.engineTurn = false := by
    rcases h with hrun | ⟨hidle, hlatency⟩
    · simp [State.engineTurn, State.busy, hrun]
    · simp [State.engineTurn, hidle, hlatency]
  rw [step, hturn]
  rfl

/-- Whose turn it is while a command runs. -/
theorem step_turns (hrun : s.running = some w) :
    (s.inbox = [] → step s = runCommand s) ∧
    (∀ rest, s.inbox = .wait :: rest → step s = runCommand s) ∧
    (∀ op rest, s.inbox = op :: rest → op ≠ .wait →
      (s.latency = 0 → step s = runCommand s) ∧
      (s.latency ≠ 0 → step s = hostAccess op { s with inbox := rest, latency := s.latency - 1 })) :=
  ⟨fun hbox => step_engine hrun (.inl (by simp [State.hostIdle, hbox])),
    fun _ hbox => step_engine hrun (.inl (by simp [State.hostIdle, hbox])),
    fun _ _ hbox hop => ⟨fun hl => step_engine hrun (.inr hl),
      fun hl => (step_host (.inr ⟨hostIdle_cons hop hbox, hl⟩)).trans (hostTurn_cons hbox)⟩⟩

end

/-- Settles O2: the turns are those of any running command, and the engine's turn decodes its word. -/
theorem stepRunsDecodedCommand : Obligations.StepRunsDecodedCommand := by
  refine ⟨fun s w i hrun hw => ?_, fun s hidle => ⟨fun hbox => ?_, fun op rest hbox => ?_⟩, fun s w c hrun hw => ?_⟩
  · have hcommand : runCommand s = exec i s := by simp only [runCommand, hrun, hw]
    exact hcommand ▸ step_turns hrun
  · rw [step_host (.inl hidle), hostTurn, hbox]
  · exact (step_host (.inl hidle)).trans (hostTurn_cons hbox)
  · have hcommand : runCommand s = .next (s.raise c) := by simp only [runCommand, hrun, hw]
    exact hcommand ▸ step_turns hrun

end Sys2Proof.Machine
end

section
/-! PROOFS. Sequences as bytes (30_encoding.md R120-R126): that a length field is written in one way, what a sequence and a
payload take (41_fast_encoder.md R199), and the block decoder's verdicts on them (44_block_decoder.md R254-R259). -/

namespace Sys2Proof.Machine

/-! ### Length fields (R121, R125) -/

/-- What an extension read as: bytes 255, and a last byte that is not. -/
theorem readExt_some {l rest : List Byte} {acc n : Nat} (h : readExt l acc = some (n, rest)) :
    ∃ (q : Nat) (e : Byte), e ≠ 0xFF#8 ∧ l = List.replicate q 0xFF#8 ++ e :: rest ∧ n = acc + 255 * q + e.toNat := by
  induction l generalizing acc with
  | nil => cases h
  | cons b l ih =>
    unfold readExt at h
    split at h
    · next hb =>
      obtain ⟨q, e, he, rfl, rfl⟩ := ih h
      exact ⟨q + 1, e, he, by rw [hb]; rfl, by omega⟩
    · next hb =>
      cases h
      exact ⟨0, b, hb, rfl, rfl⟩

/-- A length reads exactly from the fields that spell it. -/
theorem readLength_eq_some_iff {k n : Nat} {input rest : List Byte} :
    readLength k input = some (n, rest) ↔ LengthField k input n rest := by
  refine ⟨fun h => ?_, readLength_field⟩
  unfold readLength at h
  split at h
  · next hk => exact .inr ⟨hk, readExt_some h⟩
  · next hk =>
    cases h
    exact .inl ⟨hk, rfl, rfl⟩

/-- The extension bytes of 15 + 255 q + e. -/
theorem lenExt_extended {q : Nat} {e : Byte} (he : e ≠ 0xFF#8) :
    lenExt (15 + 255 * q + e.toNat) = List.replicate q 0xFF#8 ++ [e] := by
  have hlt : e.toNat < 255 := by bv_omega
  have hq : (15 + 255 * q + e.toNat - 15) / 255 = q := by omega
  have hr : (15 + 255 * q + e.toNat - 15) % 255 = e.toNat := by omega
  rw [lenExt, if_neg (by omega), hq, hr, BitVec.ofNat_toNat, BitVec.setWidth_eq]

/-- Settles O38: a field that reads as n is the nibble and the extension bytes n is written with. -/
theorem lengthFieldsAreUnique : Obligations.LengthFieldsAreUnique := by
  intro n k field rest hk
  constructor
  · intro h
    rcases readLength_eq_some_iff.1 h with ⟨hk15, rfl, hfield⟩ | ⟨rfl, q, e, he, hfield, rfl⟩
    · have hlt : n < 15 := by omega
      exact ⟨by omega, by rw [lenExt, if_pos hlt]; simpa using hfield⟩
    · refine ⟨by omega, ?_⟩
      rw [lenExt_extended he]
      exact List.append_cancel_right (hfield.trans (List.append_cons _ _ _))
  · rintro ⟨rfl, rfl⟩
    exact readLength_lenExt n rest

/-! ### What a payload takes (R199) -/

/-- The payload of every level meets both bounds. -/
theorem length_encodeBlock_bounds (v : View) (x : Index) (level : BitVec 4) (start stop low : Nat) (hs : start ≤ stop)
    (hx : FitIndex level.toNat x start) :
    (encodeBlock v x level.toNat start stop low).1.length ≤ payloadBound (stop - start) ∧
      (encodeBlock v x level.toNat start stop low).1.length < compressBound (stop - start) :=
  have h := length_encodeBlock_le v x level.toNat start stop low hx hs
  ⟨h, h.trans_lt (payloadBound_lt_compressBound _)⟩

/-- Settles O34: the size of each part, in extension bytes, and the bound of any covering parse. -/
theorem encodeOutputBound : Obligations.EncodeOutputBound := by
  refine ⟨fun n => ⟨rfl, rfl⟩, fun v q => ?_, fun m hm => ?_, fun l => ?_, length_emitSeq_le, length_emitLast_le,
    fun v low start stop p hp => length_emitBlockBytes_le hp, length_encodeBlock_bounds, fun level dict content => ?_⟩
  · rw [length_emitSeq, length_lenExt, length_lenExt]
    omega
  · rw [length_lenExt]
    exact extLen_match m hm
  · rw [length_lenExt]
    exact extLen_literals l
  · have h := length_encodeBlock_bounds (View.ofList 0 (dict ++ content)) (Index.reset.clear dict.length) level dict.length
      (dict.length + content.length) 0 (Nat.le_add_right _ _) (FitIndex.clear level.toNat _ _)
    rwa [Nat.add_sub_cancel_left] at h

/-! ### The verdicts on a sequence (R254, R256-R259) -/

section
variable {cap nibble n : Nat} {eoo : Bool} {dict out : Array Byte} {input rest : List Byte}

/-- The literal half behind a length field that spells n. -/
theorem decodeLiterals_of_field (h : LengthField nibble input n rest) : decodeLiterals cap eoo nibble input out =
    if rest.length < n then .error .literalOverrun
    else if cap < out.size + n then .error (overflowCause eoo)
    else .ok (rest.drop n, (out.toList ++ rest.take n).toArray) := by
  simp only [decodeLiterals, readLength_field h]
  rw [← List.append_toArray, Array.toArray_toList]

/-- The match half: the offset, then the length field, then the bound. -/
theorem decodeMatch_cons (b0 b1 : Byte) : decodeMatch cap eoo dict nibble (b0 :: b1 :: input) out =
    let off := b0.toNat + 256 * b1.toNat
    if off = 0 then .error .offsetZero
    else if out.size + dict.size < off then .error .offsetBeforeWindow
    else (readLength nibble input).elim (.error .tokenTruncated) fun r =>
      if cap < out.size + (r.1 + 4) then .error (overflowCause eoo)
      else .ok (r.2, replay dict off (r.1 + 4) out) := by
  have hoff : leNat [b0, b1] = b0.toNat + 256 * b1.toNat := rfl
  simp only [decodeMatch, hoff]
  cases readLength nibble input <;> rfl

/-- The match half behind a legal offset. -/
theorem decodeMatch_of_offset {b0 b1 : Byte} (h1 : 1 ≤ b0.toNat + 256 * b1.toNat)
    (h2 : b0.toNat + 256 * b1.toNat ≤ out.size + dict.size) : decodeMatch cap eoo dict nibble (b0 :: b1 :: input) out =
    (readLength nibble input).elim (.error .tokenTruncated) fun r =>
      if cap < out.size + (r.1 + 4) then .error (overflowCause eoo)
      else .ok (r.2, replay dict (b0.toNat + 256 * b1.toNat) (r.1 + 4) out) := by
  rw [decodeMatch_cons]
  exact (if_neg (by omega)).trans (if_neg (by omega))

end

/-- One sequence of the loop: as many more are allowed as there is input left. -/
theorem decodeLoop_cons (cap : Nat) (eoo : Bool) (dict : Array Byte) (token : Byte) (input : List Byte) (out : Array Byte) :
    decodeLoop cap eoo dict (token :: input).length (token :: input) out =
      (decodeLiterals cap eoo (token.toNat / 16) input out).bind fun r =>
        if atBoundary cap eoo r.1 r.2 then .ok r
        else (decodeMatch cap eoo dict (token.toNat % 16) r.1 r.2).bind fun q =>
          decodeLoop cap eoo dict q.1.length q.1 q.2 := by
  rw [List.length_cons, decodeLoop]
  cases h1 : decodeLiterals cap eoo (token.toNat / 16) input out with
  | error c => rfl
  | ok r =>
    obtain ⟨input1, out1⟩ := r
    obtain ⟨hlen1, -⟩ := decodeLiterals_spec _ _ _ _ _ _ _ h1
    simp only [Except.bind]
    split
    · rfl
    · cases h2 : decodeMatch cap eoo dict (token.toNat % 16) input1 out1 with
      | error c => rfl
      | ok q =>
        obtain ⟨input2, out2⟩ := q
        obtain ⟨hlen2, -⟩ := decodeMatch_spec _ _ _ _ _ _ _ _ h2
        obtain ⟨k, hk⟩ : ∃ k, input.length = input2.length + k := ⟨input.length - input2.length, by omega⟩
        simp only [hk]
        exact decodeLoop_enough cap eoo dict _ k input2 out2 le_rfl

theorem atBoundary_iff (cap : Nat) (eoo : Bool) (input : List Byte) (out : Array Byte) :
    atBoundary cap eoo input out = true ↔ (eoo = false ∧ input = []) ∨ (eoo = true ∧ out.size = cap) := by
  cases eoo <;> simp [atBoundary]

/-- Settles O42: each half by the field in front of it, and the loop sequence by sequence. -/
theorem matchVerdicts : Obligations.MatchVerdicts := by
  refine ⟨fun cap nibble eoo input out => ⟨fun h => ?_, fun n rest h => ?_⟩, fun cap nibble eoo dict out input h => ?_,
    fun cap nibble eoo dict out b0 b1 input => ⟨?_, ?_, ?_⟩, fun cap eoo dict => ⟨fun input => ?_, fun out => rfl, ?_⟩⟩
  · simp only [decodeLiterals, readLength_early h]
  · rw [decodeLiterals_of_field h]
    refine ⟨fun h1 => if_pos h1, fun h1 h2 => ?_, fun h1 h2 => ?_⟩
    · rw [if_neg (by omega), if_pos h2]
      rfl
    · rw [if_neg (by omega), if_neg (by omega)]
  · match input, h with
    | [], _ => rfl
    | [_], _ => rfl
  · intro h0
    rw [decodeMatch_cons]
    exact if_pos h0
  · intro h0
    rw [decodeMatch_cons]
    exact (if_neg (by omega)).trans (if_pos h0)
  · intro h1 h2
    rw [decodeMatch_of_offset h1 h2]
    refine ⟨fun h => ?_, fun n rest h => ?_⟩
    · rw [readLength_early h]
      rfl
    · rw [readLength_field h]
      exact ⟨fun h3 => if_pos h3, fun h3 => if_neg (by omega)⟩
  · simp only [decodeBlock]
    cases decodeLoop cap eoo dict.toArray input.length input #[] <;> rfl
  · intro token input out
    simp only [decodeLoop_cons]
    cases decodeLiterals cap eoo (token.toNat / 16) input out with
    | error c => rfl
    | ok r =>
      simp only [Except.bind, atBoundary_iff]
      split
      · rfl
      · cases decodeMatch cap eoo dict.toArray (token.toNat % 16) r.1 r.2 <;> rfl

end Sys2Proof.Machine
end

section
/-! PROOFS. Opening a frame: FENC_OPEN writes the header (45_frame_encoder.md R281-R283), FDEC_OPEN reads one
(46_frame_decoder.md R311-R316). -/

namespace Sys2Proof.Machine

/-! ### FENC_OPEN (R281, R283) -/

theorem length_descriptorBytes (flg bd : Byte) (csize : Nat) :
    (descriptorBytes flg bd csize).length = if flg.getLsbD 3 then 10 else 2 := by
  unfold descriptorBytes
  split <;> simp

theorem length_frameHeader (flg bd : Byte) (csize : Nat) :
    (frameHeader flg bd csize).length = if flg.getLsbD 3 then 15 else 7 := by
  simp only [frameHeader, magicBytes, List.length_append, length_leBytes, length_descriptorBytes]
  split <;> rfl

theorem Encoder.isOpen_false_iff {e : Encoder} : e.isOpen = false ↔ e.state = .unopened ∨ e.state = .closed := by
  unfold Encoder.isOpen
  cases e.state <;> simp

/-- The pre-checks of FENC_OPEN pass (R281, R282). -/
theorem fencOpenChecks_pass {s : State} (hshut : s.enc.isOpen = false) (hfits : s.snap.dst.Fits)
    (hdesc : s.snap.DescriptorOk) (hroom : (openHeader s.snap).length ≤ s.snap.dstCap.toNat) :
    firstCause (fencOpenChecks s) = none := by
  obtain ⟨hupper, hreserved, hversion, hsize, hbsum, hcsum, hdict⟩ := hdesc
  have hwraps : s.snap.dst.wraps = false := (Region.wraps_false _).2 hfits
  rw [firstCause_none]
  simp [-BitVec.getLsbD_eq_getElem, fencOpenChecks, anyWraps, hshut, hwraps, hupper, hreserved, hversion, hsize, hbsum,
    hcsum, hdict, hroom]

/-- Settles O44: with every pre-check passed the header is written, and the stream and the index are those of a new frame. -/
theorem fencOpenResult : Obligations.FencOpenResult := by
  intro level s hlevel hshut hfits hdesc d h
  refine ⟨length_frameHeader s.snap.flg s.snap.bd s.snap.csize, fun hroom => ?_⟩
  have hchecks := fencOpenChecks_pass (Encoder.isOpen_false_iff.2 hshut) hfits hdesc hroom
  simp only [exec, execFencOpen, levelCause_none.2 hlevel, hchecks, Option.or_none]
  rfl

/-! ### FDEC_OPEN (R311, R314-R316) -/

theorem Decoder.isOpen_false_iff {d : Decoder} :
    d.isOpen = false ↔ d.state = .unopened ∨ d.state = .closed ∨ d.state = .failed := by
  unfold Decoder.isOpen
  cases d.state <;> simp

theorem fdecOpenChecks_pass {s : State} (hshut : s.dec.isOpen = false) (hfits : s.snap.src.Fits) :
    firstCause (fdecOpenChecks s) = none := by
  have hwraps : s.snap.src.wraps = false := (Region.wraps_false _).2 hfits
  rw [firstCause_none]
  simp [fdecOpenChecks, anyWraps, hshut, hwraps]

/-- The checks behind a header pass (R315, R316). -/
theorem headerChecks_pass {d : Decoder} (hreserved : descriptorReserved d.flg d.bd = false) (hsize : 4 ≤ sizeCode d.bd)
    (hcsum : d.flg.getLsbD 2 = false) (hdict : d.flg.getLsbD 0 = false) :
    firstCause (headerChecks d [headerChecksum d.hdr]) = none := by
  rw [firstCause_none]
  simp [-BitVec.getLsbD_eq_getElem, headerChecks, hreserved, hsize, hcsum, hdict]

/-- A header without a dictionary id is the one of the frame encoder. -/
theorem headerFields_eq_descriptorBytes {flg : Byte} (hdict : flg.getLsbD 0 = false) (bd : Byte) (csize : BitVec 64)
    (dictId : Word) : headerFields flg bd csize dictId = descriptorBytes flg bd csize.toNat := by
  simp [-BitVec.getLsbD_eq_getElem, headerFields, descriptorBytes, hdict]

/-- A supported header read up to its checksum byte passes the checks, and FDEC_OPEN stops behind it (R311, R313). -/
theorem decLoop_opened {inEof : Bool} {q : DecRun} {sum : Byte}
    (hpass : firstCause (headerChecks q.state.dec [sum]) = none) (n : Nat) :
    (hcStage [sum] q).andThen (decLoop true inEof 0 (n + 1)) =
      .stop (q.withDec { q.state.dec with
        blockSize := blockSizeOf (sizeCode q.state.dec.bd), chained := !q.state.dec.flg.getLsbD 5,
        bcsum := q.state.dec.flg.getLsbD 4, state := .headerRead, stage := .blkLen }) false false := by
  rw [hcStage_pass hpass, DecStep.andThen_more]
  exact decLoop_halt rfl

/-- Settles O49: the run reads the header up to its checksum byte, the checks pass, and it stops before the first block. -/
theorem fdecOpenResult : Obligations.FdecOpenResult := by
  intro inEof s flg bd csize rest hshut hfits hversion hreserved hsize hcsum hdict hsrc
  have hfields : headerFields flg bd csize 0#32 = descriptorBytes flg bd csize.toNat :=
    headerFields_eq_descriptorBytes hdict bd csize 0#32
  have hsum : s.bytes s.snap.src = magicBytes ++ (headerFields flg bd csize 0#32 ++
      headerChecksum (headerFields flg bd csize 0#32) :: rest) := by
    rw [hsrc, hfields, frameHeader]
    simp only [List.append_assoc, List.singleton_append]
  obtain ⟨k, r, hk, hr, hrun⟩ := decLoop_header true inEof 0 (openDecoder_headerAhead s hsum) hversion
  obtain ⟨q, -, hip, hserved, hq, hchecked⟩ := decLoop_checked true inEof 0 hr
  have hpass : firstCause (headerChecks q.state.dec [headerChecksum (headerFields flg bd csize 0#32)]) = none := by
    rw [hq]
    exact headerChecks_pass (d := { s.openDecoder.dec with
      stage := .hc, field := [], hdr := headerFields flg bd csize 0#32, flg := flg, bd := bd }) hreserved hsize hcsum hdict
  have hloop (n : Nat) := (hrun (n + 2)).trans ((hchecked (n + 1)).trans (decLoop_opened hpass n))
  have hframe := frameRun_of_loop (k := 2 + k) (by omega) fun n => Nat.add_assoc n 2 k ▸ hloop n
  have hused : q.ip = if flg.getLsbD 3 then 15 else 7 := by
    have hlen := congrArg List.length hsrc
    have hsrcLen : (s.bytes s.snap.src).length = s.snap.srcLen.toNat := Memory.length_readBytes _ _ _
    have hend : q.ip + rest.length = s.snap.srcLen.toNat := hip
    rw [List.length_append, length_frameHeader] at hlen
    omega
  simp only [exec, execFdecOpen, fdecOpenChecks_pass (Decoder.isOpen_false_iff.2 hshut) hfits, hframe, DecRun.withDec, hq,
    hserved, hused, hdict, hfields]
  rfl

end Sys2Proof.Machine
end

section
/-! PROOFS. The match commands (40_match_engine.md R160-R180): their pre-checks in order, which search MATCH_FIND answers,
and what that search finds. -/

namespace Sys2Proof.Machine

/-! ### Pre-checks (R171, R175, R180, R372) -/

/-- Two checks, each passed just when its condition holds: the first that is not passed is reported. -/
theorem firstCause_two {bad bad' : Bool} {P Q : Prop} [Decidable P] [Decidable Q] (h : bad = false ↔ P)
    (h' : bad' = false ↔ Q) (c c' : Cause) :
    firstCause [(bad, c), (bad', c')] = if P then if Q then none else some c' else some c := by
  cases bad <;> cases bad' <;> simp [firstCause, ← h, ← h']

theorem firstCause_matchInitChecks (s : State) :
    firstCause (matchInitChecks s) =
      if s.index.owner ≠ .encoder then if s.snap.src.Fits then none else some .regionWrap else some .indexBusy :=
  firstCause_two beq_eq_false_iff_ne (by simp only [anyWraps_false, List.forall_mem_singleton, Region.wraps_false]) _ _

/-- The cursor is in order (R175): above the last probe of a FAST index, not below the last inserted position of an HC
index. -/
theorem cursorBehind_false_iff (x : Index) (c : Nat) :
    cursorBehind x c = false ↔
      (x.kind = .fast → ∀ p, x.lastProbe = some p → p < c) ∧ (x.kind = .hc → x.nextToUpdate ≤ c + 1) := by
  unfold cursorBehind
  cases x.kind with
  | fast => cases x.lastProbe <;> simp
  | hc => simp; omega

open Classical in
theorem firstCause_matchFindChecks (s : State) :
    firstCause (matchFindChecks s) =
      if s.index.owner = .matcher then if s.CursorOk then none else some .badCursor else some .indexNotReady := by
  refine firstCause_two bne_eq_false_iff_eq ?_ _ _
  simp only [State.CursorOk, Bool.or_eq_false_iff, decide_eq_false_iff_not, not_lt, cursorBehind_false_iff, and_assoc]

theorem firstCause_matchWidenChecks (s : State) :
    firstCause (matchWidenChecks s) =
      if s.index.owner = .matcher then if s.WidenOk then none else some .badCursor else some .indexNotReady := by
  refine firstCause_two bne_eq_false_iff_eq ?_ _ _
  simp only [Bool.or_eq_false_iff, decide_eq_false_iff_not, not_lt, not_le, and_assoc]

/-- Settles O26: the two pre-checks, and the index of `Index.init`. -/
theorem matchInitResult : Obligations.MatchInitResult := by
  intro hc s
  refine ⟨fun hown => ?_, fun hown hfits => ?_, fun hown hfits => ?_⟩
  · simp only [exec, execMatchInit, firstCause_matchInitChecks, if_neg (not_not.2 hown)]
  · simp only [exec, execMatchInit, firstCause_matchInitChecks, if_pos hown, if_neg hfits]
  · simp only [exec, execMatchInit, firstCause_matchInitChecks, if_pos hown, if_pos hfits]
    rfl

/-- Settles O30: the pre-checks, each before the search or the widening. -/
theorem matchCommandsTrap : Obligations.MatchCommandsTrap := by
  intro s
  refine ⟨fun hown => ⟨?_, ?_⟩, fun hown hcursor => ?_, fun hown hwiden => ?_⟩
  · simp only [exec, execMatchFind, firstCause_matchFindChecks, if_neg hown]
  · simp only [exec, execMatchWiden, firstCause_matchWidenChecks, if_neg hown]
  · simp only [exec, execMatchFind, firstCause_matchFindChecks, if_pos hown, if_neg hcursor]
  · simp only [exec, execMatchWiden, firstCause_matchWidenChecks, if_pos hown, if_neg hwiden]

/-- All four bytes at the cursor are indexed (R175). -/
theorem State.CursorOk.hashable {s : State} (h : s.CursorOk) : s.snap.arg0.toNat + 4 ≤ s.snap.arg3.toNat := h.2.1

theorem State.CursorOk.not_behind {s : State} (h : s.CursorOk) : cursorBehind s.index s.snap.arg0.toNat = false := by
  obtain ⟨-, -, -, hordered⟩ := h
  exact (cursorBehind_false_iff _ _).2 hordered

theorem State.CursorOk.nextToUpdate_le {s : State} (h : s.CursorOk) (hk : s.index.kind = .hc) :
    s.index.nextToUpdate ≤ s.snap.arg0.toNat + 1 := ((cursorBehind_false_iff _ _).1 h.not_behind).2 hk

/-! ### The indexed bytes -/

/-- The indexed bytes are those of MEM from the index's base on (R161, R175). -/
theorem State.indexView_byte (s : State) {limit p : Nat} (hp : p < limit) :
    (s.indexView limit).byte p = s.mem.read (s.index.base.toNat + p) := by
  simp [State.indexView, View.ofList, View.byte, State.memRead, Memory.readBytes, hp]

/-- How far MATCH_WIDEN grows the match of its arguments. -/
def State.widening (s : State) : Nat :=
  widenBy (s.indexView s.snap.arg0.toNat) s.snap.arg0.toNat s.snap.arg1.toNat s.snap.arg2.toNat s.snap.arg3.toNat

/-- Past its pre-checks MATCH_WIDEN reports its widening. -/
theorem matchWiden_widening {s : State} (hown : s.index.owner = .matcher) (hwiden : s.WidenOk) :
    exec .matchWiden s =
      .next (s.complete (s.snap.arg0.toNat - s.widening) (s.snap.arg1.toNat - s.widening) s.widening) := by
  simp only [exec, execMatchWiden, firstCause_matchWidenChecks, if_pos hown, if_pos hwiden]
  rfl

/-- Settles O29: `widenBy` grows over equal bytes, as far as its bounds let it. -/
theorem matchWidenResult : Obligations.MatchWidenResult := by
  intro s hown hwiden
  have hspec := widenBy_spec (s.indexView s.snap.arg0.toNat) s.snap.arg0.toNat s.snap.arg1.toNat s.snap.arg2.toNat
    s.snap.arg3.toNat
  rw [← State.widening] at hspec
  obtain ⟨hkAnchor, hkLow, hequal, hends⟩ := hspec
  have hexec := matchWiden_widening hown hwiden
  obtain ⟨hbefore, hanchor, hlow, -⟩ := hwiden
  have hbyte (p : Nat) (hp : p < s.snap.arg0.toNat) := s.indexView_byte hp
  refine ⟨s.widening, hexec, by omega, by omega, fun j hj => ?_, fun hc hl => ?_⟩
  · rw [← hbyte _ (by omega), ← hbyte _ (by omega)]
    exact hequal j hj
  · rw [← hbyte _ (by omega), ← hbyte _ (by omega)]
    exact hends (by omega) (by omega)

/-! ### The answer of MATCH_FIND (R175) -/

/-- What MATCH_FIND searches for, from the arguments of its state. -/
def State.search (s : State) : Found × Index :=
  indexFind (s.indexView s.snap.arg3.toNat) s.index s.snap.arg0.toNat s.snap.arg1.toNat s.snap.arg2.toNat
    s.snap.arg3.toNat

section AnswerOfMatchFind
variable {s : State} (hown : s.index.owner = .matcher) (hcursor : s.CursorOk)
include hown hcursor

/-- Past its pre-checks MATCH_FIND reports its search. -/
theorem matchFind_search :
    exec .matchFind s = .next ({ s with index := s.search.2 }.complete s.search.1.len s.search.1.cand
      (if 0 < s.search.1.len then s.snap.arg0.toNat - s.search.1.cand else 0)) := by
  simp only [exec, execMatchFind, firstCause_matchFindChecks, if_pos hown, if_pos hcursor]
  rfl

theorem matchFind_found {n p : Nat} (hf : s.search.1 = ⟨n, p⟩) (hn : 0 < n) :
    exec .matchFind s = .next ({ s with index := s.search.2 }.complete n p (s.snap.arg0.toNat - p)) := by
  rw [matchFind_search hown hcursor, hf, if_pos hn]

theorem matchFind_none (hf : s.search.1 = Found.none) :
    exec .matchFind s = .next ({ s with index := s.search.2 }.complete 0 0 0) := by
  rw [matchFind_search hown hcursor, hf]
  rfl

end AnswerOfMatchFind

/-! ### The FAST probe (R165) -/

theorem fastHit_iff (v : View) (c low : Nat) (o : Option Nat) (p : Nat) :
    fastHit v c low o = some p ↔ o = some p ∧ low ≤ p ∧ c - p ≤ 65535 ∧ v.seq p = v.seq c := by
  refine ⟨fastHit_spec v c low o p, ?_⟩
  rintro ⟨rfl, hlow, hnear, hseq⟩
  simp [fastHit, Config.maxDistance, hlow, hnear, hseq]

theorem fastProbe_hit {v : View} {x : Index} {c low p : Nat} (limit : Nat)
    (h : fastHit v c low (Table.get x.head (v.hash .fast c)) = some p) :
    (fastProbe v x c low limit).1 = ⟨4 + matchLen v (c + 4) (p + 4) limit, p⟩ := by
  simp only [fastProbe, h]

theorem fastProbe_miss {v : View} {x : Index} {c low : Nat} (limit : Nat)
    (h : fastHit v c low (Table.get x.head (v.hash .fast c)) = none) :
    (fastProbe v x c low limit).1 = Found.none := by
  simp only [fastProbe, h]

theorem State.search_fast {s : State} (hk : s.index.kind = .fast) :
    s.search = fastProbe (s.indexView s.snap.arg3.toNat) s.index s.snap.arg0.toNat s.snap.arg1.toNat
      s.snap.arg3.toNat := by
  simp only [State.search, indexFind, hk]

/-- Settles O27: the head entry is a hit or it is not, and either way the cursor is inserted. -/
theorem matchFindFastResult : Obligations.MatchFindFastResult := by
  intro s hown hk hcursor c limit v usable t
  have hlimit : c + 4 ≤ limit := hcursor.hashable
  have hinsert : { s with index := s.search.2 } = t := by rw [State.search_fast hk, fastProbe_index]
  refine ⟨fun p hp ⟨hlow, hnear, hseq⟩ => ?_, fun hmiss => ?_⟩
  · have hhit := (fastHit_iff v c s.snap.arg1.toNat _ p).2 ⟨hp, hlow, hnear, hseq⟩
    refine ⟨_, v.longest_of_seq c p limit hlimit hseq, Nat.le_add_right 4 _, ?_⟩
    rw [← hinsert]
    exact matchFind_found hown hcursor (by rw [State.search_fast hk, fastProbe_hit limit hhit]) (by omega)
  · have hnone : fastHit v c s.snap.arg1.toNat (Table.get s.index.head (v.hash .fast c)) = none := by
      refine Option.eq_none_iff_forall_ne_some.2 fun p hp => ?_
      obtain ⟨hget, husable⟩ := (fastHit_iff v c s.snap.arg1.toNat _ p).1 hp
      exact hmiss p hget husable
    rw [← hinsert]
    exact matchFind_none hown hcursor (by rw [State.search_fast hk, fastProbe_miss limit hnone])

/-! ### A reported match is real (R169) -/

/-- The parts of an index a search may write. -/
theorem SameOwner.eq_with {x y : Index} (h : SameOwner x y) :
    y = { x with head := y.head, chain := y.chain, nextToUpdate := y.nextToUpdate, lastProbe := y.lastProbe } := by
  obtain ⟨howner, hkind, hbase, hlen⟩ := h
  rw [← howner, ← hkind, ← hbase, ← hlen]

/-- A search of an index fit for MATCH_FIND, from a cursor in order, answers a sound match (R165, R167, R169). -/
theorem indexFind_sound {v : View} {x : Index} {c low budget limit : Nat} (hx : x.MatchOk) (hl : c + 4 ≤ limit)
    (hc : cursorBehind x c = false) : Sound v c low limit (indexFind v x c low budget limit).1 := by
  obtain ⟨hfast, hhc⟩ := (cursorBehind_false_iff x c).1 hc
  unfold Index.MatchOk at hx
  unfold indexFind
  cases hk : x.kind with
  | fast =>
    rw [hk] at hx
    refine (fastProbe_spec v x c low limit hl fun h p hp => ?_).1
    obtain ⟨l, hlast, hle⟩ := hx h p hp
    exact Nat.lt_of_le_of_lt hle (hfast hk l hlast)
  | hc =>
    rw [hk] at hx
    exact (hcFind_spec v x c low budget limit hx (hhc hk) hl).1

/-- A walk that ends with length 0 has found no match (R167). -/
theorem foldl_visit_eq_none (v : View) (c limit : Nat) (l : List Nat) (best : Found) (hb : best.len = 0 → best = Found.none)
    (h : (l.foldl (visit v c limit) best).len = 0) : l.foldl (visit v c limit) best = Found.none := by
  induction l generalizing best with
  | nil => exact hb h
  | cons p l ih =>
    refine ih _ (fun hp => ?_) h
    unfold visit at hp ⊢
    split at hp
    · exact absurd hp (by simp)
    · next hno => rw [if_neg hno]; exact hb hp

/-- A search that answers length 0 answers no match (R165, R167). -/
theorem indexFind_none {v : View} {x : Index} {c low budget limit : Nat}
    (h : (indexFind v x c low budget limit).1.len = 0) : (indexFind v x c low budget limit).1 = Found.none := by
  unfold indexFind at h ⊢
  cases hk : x.kind with
  | fast =>
    rw [hk] at h
    cases hhit : fastHit v c low (Table.get x.head (v.hash .fast c)) with
    | none => exact fastProbe_miss limit hhit
    | some p => exact absurd (fastProbe_hit limit hhit ▸ h) (by simp)
  | hc =>
    rw [hk] at h
    simp only [hcFind, hcWalk_eq_chained] at h ⊢
    exact foldl_visit_eq_none v c limit _ Found.none (fun _ => rfl) h

/-- MATCH_FIND's search answers no match or a real and whole one (R163, R169, R175). -/
theorem State.search_sound {s : State} (hcursor : s.CursorOk) (hx : s.index.MatchOk) :
    s.search.1 = Found.none ∨
      (0 < s.search.1.len ∧
        Sound (s.indexView s.snap.arg3.toNat) s.snap.arg0.toNat s.snap.arg1.toNat s.snap.arg3.toNat s.search.1 ∧
        (s.indexView s.snap.arg3.toNat).Longest s.snap.arg0.toNat s.search.1.cand s.snap.arg3.toNat s.search.1.len) := by
  by_cases hlen : s.search.1.len = 0
  · exact .inl (indexFind_none hlen)
  · exact .inr ⟨Nat.pos_of_ne_zero hlen, indexFind_sound hx hcursor.hashable hcursor.not_behind,
      (indexFind_longest _ _ _ _ _ _ hcursor.hashable).resolve_left hlen⟩

/-- A sound match of full length, as RESULT0, RESULT1 and RESULT2 show it and in the bytes of MEM. -/
theorem Sound.reported {s : State} {c low limit : Nat} {f : Found} (hs : Sound (s.indexView limit) c low limit f)
    (hf : 0 < f.len) (hw : limit < 2 ^ 32) (hl : (s.indexView limit).Longest c f.cand limit f.len) :
    let r0 := (BitVec.ofNat 32 f.len).toNat
    let r1 := (BitVec.ofNat 32 f.cand).toNat
    let r2 := (BitVec.ofNat 32 (c - f.cand)).toNat
    4 ≤ r0 ∧ 1 ≤ r2 ∧ r2 ≤ 65535 ∧ r1 + r2 = c ∧ low ≤ r1 ∧ c + r0 ≤ limit ∧
      (∀ j, j < r0 → s.mem.read (s.index.base.toNat + r1 + j) = s.mem.read (s.index.base.toNat + c + j)) ∧
      (c + r0 < limit → s.mem.read (s.index.base.toNat + r1 + r0) ≠ s.mem.read (s.index.base.toNat + c + r0)) := by
  obtain hzero | ⟨hfour, hback, hlow, hnear, hinside, hequal⟩ := hs
  · omega
  rw [BitVec.toNat_ofNat, BitVec.toNat_ofNat, BitVec.toNat_ofNat, Nat.mod_eq_of_lt (by omega : f.len < 2 ^ 32),
    Nat.mod_eq_of_lt (by omega : f.cand < 2 ^ 32), Nat.mod_eq_of_lt (by omega : c - f.cand < 2 ^ 32)]
  refine ⟨hfour, by omega, hnear, by omega, hlow, hinside, fun j hj => ?_, fun hroom => ?_⟩
  · have := hequal j hj
    rwa [s.indexView_byte (by omega), s.indexView_byte (by omega), ← Nat.add_assoc, ← Nat.add_assoc] at this
  · have := hl.ends hroom
    rwa [s.indexView_byte (by omega), s.indexView_byte (by omega), ← Nat.add_assoc, ← Nat.add_assoc] at this

/-- A match of a position with the cursor's four bytes has at least these (R163). -/
theorem View.Longest.four_le {v : View} {c p limit n : Nat} (h : v.Longest c p limit n) (hc : c + 4 ≤ limit)
    (hs : v.seq p = v.seq c) : 4 ≤ n := by
  rw [h.unique (v.longest_of_seq c p limit hc hs)]
  exact Nat.le_add_right 4 _

/-! ### The HC search (R166, R167) -/

theorem State.search_hc {s : State} (hk : s.index.kind = .hc) :
    s.search = hcFind (s.indexView s.snap.arg3.toNat) s.index s.snap.arg0.toNat s.snap.arg1.toNat s.snap.arg2.toNat
      s.snap.arg3.toNat := by
  simp only [State.search, indexFind, hk]

/-- Inserting n positions from NEXT_TO_UPDATE on moves it behind them, whatever the tables hold (R166). -/
theorem foldl_hcInsert_nextToUpdate (v : View) (x : Index) (n : Nat) :
    ((List.range' x.nextToUpdate n).foldl (hcInsert v) x).nextToUpdate = x.nextToUpdate + n := by
  cases n with
  | zero => rfl
  | succ n => simp [List.range'_1_concat, hcInsert, Nat.add_assoc]

/-- The index an HC search leaves over one of the bytes as they are now is one of these bytes (R166). -/
theorem hcFind_builtFrom {v : View} {x : Index} {c low budget limit : Nat} (hx : x.BuiltFrom v)
    (hn : x.nextToUpdate ≤ c + 1) (hc : c + 4 ≤ limit) :
    (hcFind v x c low budget limit).2.BuiltFrom v ∧ (hcFind v x c low budget limit).2.nextToUpdate = c + 1 := by
  have hnext : (hcFind v x c low budget limit).2.nextToUpdate = c + 1 := by
    rw [(hcFind_tried v x c low budget limit hc).2, foldl_hcInsert_nextToUpdate]
    omega
  obtain ⟨hhead, hchain⟩ := hx.insert c limit hn hc
  obtain ⟨hhead', hchain'⟩ := hcInsert_clear v (List.range (c + 1)) x (hcFind v x c low budget limit).2
  refine ⟨?_, hnext⟩
  unfold Index.BuiltFrom
  rw [hnext]
  exact ⟨hhead.trans hhead', hchain.trans hchain'⟩

/-- Over an index of the bytes as they are now a search tries the most recent positions of the window with the cursor's hash
(R167, R168). -/
theorem chained_of_builtFrom {v : View} {x : Index} {c : Nat} (low budget : Nat) (hx : x.BuiltFrom v)
    (hn : x.nextToUpdate = c + 1) :
    chained x.chain c low budget (Table.get x.chain (c % 65536)) = (v.sameHash c low).take budget := by
  have hchain (p : Nat) (hp : p ≤ c) (hd : c - p ≤ Config.maxDistance) :
      Table.get x.chain (p % Config.chainSize) = chainPrev p (lastHash v (v.hash .hc p) p) := by
    unfold Index.BuiltFrom at hx
    rw [hn] at hx
    rw [hx.2]
    refine built_chain v x (c + 1) p (by omega) ?_
    simp only [Config.maxDistance, Config.chainSize] at hd ⊢
    omega
  exact chained_built v x.chain c low hchain budget c le_rfl (by simp) rfl

/-- Settles O28: every match is sound and of full length, an HC search over current bytes finds the best, and any HC search
finds the first longest of what it tries. -/
theorem matchFindSound : Obligations.MatchFindSound := by
  refine ⟨fun s hown hcursor hx => ?_, fun s hown hk hcursor => ?_, fun s hown hk hcursor => ?_⟩
  · have hindex : s.search.2 = { s.index with
        head := s.search.2.head, chain := s.search.2.chain, nextToUpdate := s.search.2.nextToUpdate,
        lastProbe := s.search.2.lastProbe } := (indexFind_owner ..).eq_with
    refine ⟨_, matchFind_search hown hcursor, rfl, indexFind_matchOk hx hcursor.hashable hcursor.not_behind,
      congrArg (fun x => State.complete { s with index := x } _ _ _) hindex, ?_⟩
    obtain hnone | ⟨hpos, hsound, hlongest⟩ := State.search_sound hcursor hx
    · left
      rw [hnone]
      exact ⟨rfl, rfl, rfl⟩
    · right
      rw [if_pos hpos]
      exact hsound.reported hpos s.snap.arg3.isLt hlongest
  · intro c low limit v hbuilt hbudget
    have hlimit : c + 4 ≤ limit := hcursor.hashable
    have hnext := hcursor.nextToUpdate_le hk
    obtain ⟨hnone, hbest, -⟩ := hcFind_best v s.index c low s.snap.arg2.toNat limit hbuilt hnext hlimit hbudget
    obtain ⟨hbuilt', hnext'⟩ := hcFind_builtFrom (low := low) (budget := s.snap.arg2.toNat) hbuilt hnext hlimit
    rw [← State.search_hc hk] at hnone hbest hbuilt' hnext'
    refine ⟨s.search.2, hbuilt', hnext', fun h => matchFind_none hown hcursor (hnone h), fun p n h => ?_⟩
    obtain ⟨-, -, -, hseq⟩ := h.candidate
    have hpos : 0 < n := Nat.lt_of_lt_of_le (by decide) (h.longest.four_le hlimit hseq)
    exact matchFind_found hown hcursor (hbest p n h) hpos
  · intro c low budget limit v insert x tried
    have hlimit : c + 4 ≤ limit := hcursor.hashable
    obtain ⟨hfound, hinsert⟩ := hcFind_tried v s.index c low budget limit hlimit
    have hx : s.search.2 = x := (congrArg Prod.snd (State.search_hc hk)).trans hinsert
    replace hfound : s.search.1 = tried.foldl (visit v c limit) Found.none := by
      rw [State.search_hc hk, hfound, hinsert]
      rfl
    have hlength : tried.length ≤ budget := chained_length ..
    rw [← hx]
    refine ⟨hlength, fun hzero => matchFind_none hown hcursor ?_, fun hmiss => matchFind_none hown hcursor ?_,
      fun p n h => ?_, fun hbuilt => ?_⟩
    · have htried : tried = [] := List.eq_nil_of_length_eq_zero (Nat.le_zero.1 (hzero ▸ hlength))
      rw [hfound, htried]
      rfl
    · exact hfound.trans (visit_none v c limit tried Found.none hmiss)
    · obtain ⟨hfirst, hpos⟩ := h.found hlimit
      exact matchFind_found hown hcursor (hfound.trans hfirst) hpos
    · obtain ⟨hbuilt', hnext'⟩ := hcFind_builtFrom (low := low) (budget := budget) hbuilt
        (hcursor.nextToUpdate_le hk) hlimit
      rw [hinsert] at hbuilt' hnext'
      exact chained_of_builtFrom low budget hbuilt' hnext'

/-! ### The hash (R162) -/

/-- Settles O31: `hashOf_lt` bounds the hash; the values compute. -/
theorem hashValues : Obligations.HashValues :=
  ⟨fun x => ⟨hashOf_lt .fast x, hashOf_lt .hc x, rfl, rfl⟩, by decide, by decide, by decide, by decide⟩

end Sys2Proof.Machine
end

section
/-! PROOFS. Block encoding (41_fast_encoder.md R190-R200): the parse of every level covers its block, the pre-checks of
BLOCK_ENCODE in order, and what it answers behind them with and without room for the payload. -/

namespace Sys2Proof.Machine

/-! ### Parses (R190, R198, R216, R236) -/

/-- Settles O36: `parseBlock_covers` level by level; a cleared index is fit anywhere. -/
theorem parsesCoverTheBlock : Obligations.ParsesCoverTheBlock :=
  ⟨fun v x level start stop low hs hx => parseBlock_covers v x level.toNat start stop low hx hs,
    fun level => FitIndex.clear level.toNat⟩

/-! ### Pre-checks (R191, R372) -/

/-- A check that is passed just when its condition holds leaves the word to the checks behind it. -/
theorem firstCause_cons {bad : Bool} {P : Prop} [Decidable P] (h : bad = false ↔ P) (c : Cause)
    (rest : List (Bool × Cause)) : firstCause ((bad, c) :: rest) = if P then firstCause rest else some c := by
  cases bad <;> simp [firstCause, ← h]

theorem Region.overlaps_false_iff_apart (r q : Region) : r.overlaps q = false ↔ r.Apart q := by
  rw [Region.overlaps_false, or_comm (a := q.start + q.len ≤ r.start)]

theorem anyWraps_pair (r q : Region) : anyWraps [r, q] = false ↔ r.Fits ∧ q.Fits := by
  simp [anyWraps_false, Region.wraps_false]

theorem anyOverlap_pair (r q : Region) : anyOverlap [r, q] = false ↔ r.Apart q := by
  simp only [anyOverlap, List.any_cons, List.any_nil, Bool.or_false, Region.overlaps_false_iff_apart]

theorem firstCause_blockEncodeChecks (s : State) :
    firstCause (blockEncodeChecks s) =
      if s.index.owner ≠ .encoder then
        if s.snap.src.Fits ∧ s.snap.dst.Fits then
          if s.snap.src.Apart s.snap.dst then
            if s.snap.srcLen.toNat ≤ 4194304 then none else some .lengthTooLarge
          else some .regionOverlap
        else some .regionWrap
      else some .indexBusy := by
  have hlength : decide (Config.maxBlock < s.snap.srcLen.toNat) = false ↔ s.snap.srcLen.toNat ≤ 4194304 := by
    rw [decide_eq_false_iff_not, not_lt, Config.maxBlock]
  unfold blockEncodeChecks
  rw [firstCause_cons beq_eq_false_iff_ne, firstCause_cons (anyWraps_pair _ _), firstCause_cons (anyOverlap_pair _ _),
    firstCause_cons hlength]
  rfl

/-! ### The payload and the index (R190, R191, R200) -/

/-- BLOCK_ENCODE makes the payload of SRC without a dictionary, whatever index it finds. -/
theorem encodeSource_payload (level : BitVec 4) (s : State) :
    (encodeSource level s).1 = encoded level [] (s.bytes s.snap.src) := by
  have hindex : s.index.forEncode level = (Index.reset.clear 0).labelled (s.index.forEncode level) := rfl
  have hlength : (s.bytes s.snap.src).length = s.snap.srcLen.toNat := Memory.length_readBytes _ _ _
  unfold encodeSource encoded
  simp only
  rw [hindex, encodeBlock_labelled, hlength, List.length_nil, Nat.zero_add, List.nil_append]
  rfl

/-- The index BLOCK_ENCODE leaves is owned by no one and of the level's kind. -/
theorem encodeSource_index (level : BitVec 4) (s : State) :
    (encodeSource level s).2.owner = .free ∧ (encodeSource level s).2.kind = levelKind level := by
  obtain ⟨howner, hkind, -⟩ := encodeBlock_owner (View.ofList 0 (s.memRead s.snap.srcAddr.toNat s.snap.srcLen.toNat))
    (s.index.forEncode level) level.toNat 0 s.snap.srcLen.toNat 0
  exact ⟨howner, hkind⟩

/-- The payload of a content meets the bound of R199, whatever dictionary it was made with. -/
theorem length_encoded_le (level : BitVec 4) (dict content : List Byte) :
    (encoded level dict content).length ≤ payloadBound content.length := by
  have h := length_encodeBlock_le (View.ofList 0 (dict ++ content)) (Index.reset.clear dict.length) level.toNat dict.length
    (dict.length + content.length) 0 (FitIndex.clear _ _ _) (Nat.le_add_right _ _)
  rwa [Nat.add_sub_cancel_left] at h

/-- A payload decodes with its dictionary to its content: at end on input size into any room for it, at end on output size
into just that room, whatever follows the payload (R258, R260). -/
theorem decodeBlock_encoded (level : BitVec 4) (dict content tail : List Byte) (cap : Nat) (eoo : Bool)
    (hcap : content.length ≤ cap) (hin : eoo = false → tail = []) (hout : eoo = true → cap = content.length) :
    decodeBlock (encoded level dict content ++ tail) cap eoo dict =
      .ok (content, (encoded level dict content).length) := by
  have hlength : dict.length + content.length - dict.length = content.length := Nat.add_sub_cancel_left _ _
  have hdict : (View.ofList 0 (dict ++ content)).slice 0 dict.length = dict := by
    rw [View.slice_ofList_mid 0 (dict ++ content) 0 dict.length le_rfl (by simp)]
    simp
  have hcontent : (View.ofList 0 (dict ++ content)).slice dict.length (dict.length + content.length) = content := by
    rw [View.slice_ofList_mid 0 (dict ++ content) _ _ (Nat.zero_le _) (by simp), hlength]
    simp
  have h := decodeBlock_encodeBlock (View.ofList 0 (dict ++ content)) (Index.reset.clear dict.length) level.toNat
    dict.length (dict.length + content.length) 0 cap eoo tail (FitIndex.clear _ _ _) (Nat.le_add_right _ _)
    (Nat.zero_le _) (by rwa [hlength]) hin (by rwa [hlength])
  rwa [hdict, hcontent] at h

/-! ### BLOCK_ENCODE (R191) -/

section
variable {level : BitVec 4} {s : State} (hlevel : LevelOk level = true)
include hlevel

/-- At a legal level the first check that is not passed is reported. -/
theorem blockEncode_refused {c : Cause} (h : firstCause (blockEncodeChecks s) = some c) :
    exec (.blockEncode level) s = .next (s.raise c) := by
  simp only [exec, execBlockEncode, levelCause_none.2 hlevel, h, Option.none_or]

variable (hpassed : firstCause (blockEncodeChecks s) = none)
include hpassed

theorem blockEncode_full (hroom : s.snap.dstCap.toNat < (encoded level [] (s.bytes s.snap.src)).length) :
    exec (.blockEncode level) s = .next ({ s with index := (encodeSource level s).2 }.raiseExec .dstFull) := by
  rw [← encodeSource_payload] at hroom
  simp only [exec, execBlockEncode, levelCause_none.2 hlevel, hpassed, Option.or_none, if_pos hroom]

theorem blockEncode_done (hroom : (encoded level [] (s.bytes s.snap.src)).length ≤ s.snap.dstCap.toNat) :
    exec (.blockEncode level) s =
      .next (({ s with index := (encodeSource level s).2 }.memWrite s.snap.dstAddr.toNat
        (encoded level [] (s.bytes s.snap.src))).complete (encoded level [] (s.bytes s.snap.src)).length
          s.snap.srcLen.toNat 0) := by
  rw [← encodeSource_payload] at hroom ⊢
  simp only [exec, execBlockEncode, levelCause_none.2 hlevel, hpassed, Option.or_none, if_neg (not_lt.2 hroom)]

end

/-- Settles O32: the bound of R199 is below the room R195 asks for, and the payload with room for it is written. -/
theorem blockEncodeResult : Obligations.BlockEncodeResult := by
  intro level s hlevel hown hsrc hdst hapart hmax hroom
  have hpassed : firstCause (blockEncodeChecks s) = none := by
    rw [firstCause_blockEncodeChecks, if_pos hown, if_pos ⟨hsrc, hdst⟩, if_pos hapart, if_pos hmax]
  have hcontent : (s.bytes s.snap.src).length = s.snap.srcLen.toNat := Memory.length_readBytes _ _ _
  have hbound := length_encoded_le level [] (s.bytes s.snap.src)
  have hdecode := decodeBlock_encoded level [] (s.bytes s.snap.src) [] _ false le_rfl (fun _ => rfl) nofun
  rw [List.append_nil, hcontent] at hdecode
  rw [hcontent] at hbound
  have hfits : (encoded level [] (s.bytes s.snap.src)).length ≤ s.snap.dstCap.toNat := by
    obtain hexact | hworst := hroom
    · exact hexact
    · unfold payloadBound at hbound
      omega
  obtain ⟨howner, hkind⟩ := encodeSource_index level s
  exact ⟨_, _, rfl, blockEncode_done hlevel hpassed hfits, howner, hkind, hbound, hdecode⟩

/-- Settles O33: the pre-checks in order, and behind them the error that frees DST. -/
theorem blockEncodeTraps : Obligations.BlockEncodeTraps := by
  intro level s hlevel
  have hcause := firstCause_blockEncodeChecks s
  refine ⟨fun hown => ?_, fun hown hfits => ?_, fun hown hsrc hdst hapart => ?_, fun hown hsrc hdst hapart hlong => ?_,
    fun hown hsrc hdst hapart hmax hroom => ?_⟩
  · rw [if_neg (not_not.2 hown)] at hcause
    exact blockEncode_refused hlevel hcause
  · rw [if_pos hown, if_neg hfits] at hcause
    exact blockEncode_refused hlevel hcause
  · rw [if_pos hown, if_pos ⟨hsrc, hdst⟩, if_neg hapart] at hcause
    exact blockEncode_refused hlevel hcause
  · rw [if_pos hown, if_pos ⟨hsrc, hdst⟩, if_pos hapart, if_neg (not_le.2 hlong)] at hcause
    exact blockEncode_refused hlevel hcause
  · rw [if_pos hown, if_pos ⟨hsrc, hdst⟩, if_pos hapart, if_pos hmax] at hcause
    have hexec := blockEncode_full hlevel hcause hroom
    exact ⟨_, hexec, rfl, (encodeSource_index level s).1, rfl, (exec_mem hexec).1.outside⟩

end Sys2Proof.Machine
end

section
/-! PROOFS. Prices of the optimal encoder (43_optimal_encoder.md R232): where a longer length takes one more extension byte,
what one more literal costs, and that the two prices of a sequence add up to the bytes it is emitted as. -/

namespace Sys2Proof.Machine

/-! ### Extension bytes (R125) -/

/-- One formula for both branches of `extLen`: the number of steps 15, 270, 525, ... up to v. -/
theorem extLen_eq_div (v : Nat) : extLen v = (v + 240) / 255 := by
  unfold extLen
  split <;> omega

/-- The length n + 1 is the first one that takes a further extension byte exactly when it is 15 + 255j. -/
theorem extLen_succ_of_step {n : Nat} (h : ∃ j, n + 1 = 15 + 255 * j) : extLen (n + 1) = extLen n + 1 := by
  obtain ⟨j, hj⟩ := h
  rw [extLen_eq_div, extLen_eq_div]
  omega

theorem extLen_succ_of_not_step {n : Nat} (h : ¬ ∃ j, n + 1 = 15 + 255 * j) : extLen (n + 1) = extLen n := by
  have hdvd : ¬ 255 ∣ n + 240 + 1 := fun ⟨k, hk⟩ => h ⟨k - 1, by omega⟩
  rw [extLen_eq_div, extLen_eq_div, Nat.add_right_comm, Nat.succ_div_of_not_dvd hdvd]

/-! ### Prices (R232) -/

theorem litPrice_succ_sub (n : Nat) : litPrice (n + 1) - litPrice n = 1 + (extLen (n + 1) - extLen n) := by
  have hmono : extLen n ≤ extLen (n + 1) := by
    rw [extLen_eq_div, extLen_eq_div]
    omega
  unfold litPrice
  omega

/-- The token byte is in the match's price (R232). -/
theorem length_emitSeq_eq_prices (v : View) (q : Sequence) :
    (emitSeq v q).length = litPrice (q.ip - q.anchor) + matchPrice q.len := by
  rw [length_emitSeq, litPrice, matchPrice]
  omega

/-- Settles O37: one more literal is a byte and, at a step of `extLen`, one extension byte. -/
theorem prices : Obligations.Prices := by
  refine ⟨fun _ => rfl, fun _ _ => rfl, fun n => ⟨fun hstep => ?_, fun hstep => ?_⟩, length_emitSeq_eq_prices⟩
  · rw [litPrice_succ_sub, extLen_succ_of_step hstep, Nat.add_sub_cancel_left]
  · rw [litPrice_succ_sub, extLen_succ_of_not_step hstep, Nat.sub_self]

end Sys2Proof.Machine
end

section
/-! PROOFS. Block decoding (44_block_decoder.md R251-R260): match replay byte by byte, the round trip of a payload, the
pre-checks of BLOCK_DECODE in order, and what it answers behind them when decodeBlock answers and when it raises a cause. -/

namespace Sys2Proof.Machine

/-! ### Match replay (R257) -/

/-- Replay leaves the output it starts from. -/
theorem toList_prefix_replay (dict : Array Byte) (off n : Nat) (out : Array Byte) :
    out.toList <+: (replay dict off n out).toList := by
  induction n generalizing out with
  | zero => exact List.prefix_rfl
  | succ n ih =>
    have hpush : out.toList <+: (out.push (byteBehind dict out off)).toList := by simp
    exact hpush.trans (ih _)

/-- The first byte of a replay is the one `off` before it, and later ones are replayed behind it. -/
theorem getD_replay (dict : Array Byte) {off : Nat} (hoff : 1 ≤ off) (n : Nat) (out : Array Byte)
    (hwindow : off ≤ dict.size + out.size) (j : Nat) (hj : j < n) :
    (dict.toList ++ (replay dict off n out).toList).getD (dict.size + out.size + j) 0#8 =
      (dict.toList ++ (replay dict off n out).toList).getD (dict.size + out.size + j - off) 0#8 := by
  induction n generalizing out j with
  | zero => exact absurd hj (Nat.not_lt_zero j)
  | succ n ih =>
    cases j with
    | zero =>
      have hsize : (dict.toList ++ out.toList).length = dict.size + out.size := by simp
      obtain ⟨tail, htail⟩ := toList_prefix_replay dict off n (out.push (byteBehind dict out off))
      have hall : dict.toList ++ (replay dict off (n + 1) out).toList =
          (dict.toList ++ out.toList) ++ byteBehind dict out off :: tail := by
        rw [replay, ← htail, Array.toList_push]
        simp
      rw [hall, Nat.add_zero]
      calc
        _ = byteBehind dict out off := by
          rw [← hsize, List.getD_append_right _ _ _ _ le_rfl, Nat.sub_self, List.getD_cons_zero]
        _ = (dict.toList ++ out.toList).getD (dict.size + out.size - off) 0#8 := byteBehind_append dict out off hwindow
        _ = _ := (List.getD_append _ _ _ _ (by omega)).symm
    | succ j =>
      have hnext := ih (out.push (byteBehind dict out off)) (by rw [Array.size_push]; omega) j (Nat.lt_of_succ_lt_succ hj)
      have hindex : dict.size + (out.size + 1) + j = dict.size + out.size + (j + 1) := by omega
      rwa [Array.size_push, hindex] at hnext

/-- Settles O43: the output before the copy stays in front, and `getD_replay` gives the new bytes. -/
theorem replayCopiesForward : Obligations.ReplayCopiesForward := by
  intro dict out off n hoff hwindow all
  have hsize : (dict.toList ++ out.toList).length = dict.size + out.size := by simp
  have hprefix : dict.toList ++ out.toList <+: all := (List.prefix_append_right_inj _).2 (toList_prefix_replay ..)
  refine ⟨?_, ?_, getD_replay dict hoff n out hwindow⟩
  · simp [all, Nat.add_assoc]
  · rw [← hsize, ← List.prefix_iff_eq_take.1 hprefix]

/-! ### The round trip (R260) -/

/-- Settles O35: the round trip of `decodeBlock_encoded` without a dictionary and with nothing behind the payload. -/
theorem blockRoundTrip : Obligations.BlockRoundTrip := by
  intro level content
  have h (cap : Nat) (eoo : Bool) (hcap : content.length ≤ cap) (hout : eoo = true → cap = content.length) :=
    decodeBlock_encoded level [] content [] cap eoo hcap (fun _ => rfl) hout
  simp only [List.append_nil] at h
  exact ⟨fun eoo => h _ eoo le_rfl fun _ => rfl, fun cap hcap => h cap false hcap nofun⟩

/-! ### Pre-checks (R251, R253, R372) -/

theorem anyOverlap_cons_false (r : Region) (rest : List Region) :
    anyOverlap (r :: rest) = false ↔ (∀ q ∈ rest, r.Apart q) ∧ anyOverlap rest = false := by
  simp only [anyOverlap, Bool.or_eq_false_iff, List.any_eq_false, Bool.not_eq_true, Region.overlaps_false_iff_apart]

/-- A block decode has at most one dictionary region. -/
theorem anyOverlap_dictRegions (a : Args) (dmode : BitVec 2) : anyOverlap (dictRegions a dmode) = false := by
  unfold dictRegions
  split
  · rfl
  · split <;> rfl

theorem anyOverlap_blockDecode (s : State) (dmode : BitVec 2) :
    anyOverlap (s.snap.src :: s.snap.dst :: dictRegions s.snap dmode) = false ↔
      s.snap.src.Apart s.snap.dst ∧ ∀ r ∈ dictRegions s.snap dmode, s.snap.src.Apart r ∧ s.snap.dst.Apart r := by
  simp only [anyOverlap_cons_false, anyOverlap_dictRegions, List.forall_mem_cons, and_true, and_assoc, forall_and]

theorem anyWraps_blockDecode (s : State) (dmode : BitVec 2) :
    (anyWraps [s.snap.src, s.snap.dst] || (dmode == 2#2 && anyWraps [s.snap.dict])) = false ↔
      s.snap.src.Fits ∧ s.snap.dst.Fits ∧ (dmode = 2#2 → s.snap.dict.Fits) := by
  have hdict : anyWraps [s.snap.dict] = false ↔ s.snap.dict.Fits := by
    simp only [anyWraps_false, List.forall_mem_singleton, Region.wraps_false]
  rw [Bool.or_eq_false_iff, anyWraps_pair, and_assoc, Bool.and_eq_false_imp, beq_iff_eq, hdict]

theorem prefixUnderflow_false_iff (s : State) (dmode : BitVec 2) :
    (dmode == 1#2 && decide (s.snap.dstAddr.toNat < s.snap.dictLen.toNat)) = false ↔
      (dmode = 1#2 → s.snap.dictLen.toNat ≤ s.snap.dstAddr.toNat) := by
  rw [Bool.and_eq_false_imp, beq_iff_eq, decide_eq_false_iff_not, not_lt]

theorem firstCause_blockDecodeChecks (dmode : BitVec 2) (s : State) :
    firstCause (blockDecodeChecks dmode s) =
      if s.snap.src.Fits ∧ s.snap.dst.Fits ∧ (dmode = 2#2 → s.snap.dict.Fits) then
        if dmode = 1#2 → s.snap.dictLen.toNat ≤ s.snap.dstAddr.toNat then
          if s.snap.src.Apart s.snap.dst ∧
              ∀ r ∈ dictRegions s.snap dmode, s.snap.src.Apart r ∧ s.snap.dst.Apart r then none
          else some .regionOverlap
        else some .prefixUnderflow
      else some .regionWrap := by
  unfold blockDecodeChecks
  rw [firstCause_cons (anyWraps_blockDecode s dmode), firstCause_cons (prefixUnderflow_false_iff s dmode),
    firstCause_cons (anyOverlap_blockDecode s dmode)]
  rfl

theorem firstCause_blockDecodeChecks_passed {dmode : BitVec 2} {s : State}
    (hfits : s.snap.src.Fits ∧ s.snap.dst.Fits ∧ (dmode = 2#2 → s.snap.dict.Fits))
    (hroom : dmode = 1#2 → s.snap.dictLen.toNat ≤ s.snap.dstAddr.toNat)
    (hapart : s.snap.src.Apart s.snap.dst ∧
      ∀ r ∈ dictRegions s.snap dmode, s.snap.src.Apart r ∧ s.snap.dst.Apart r) :
    firstCause (blockDecodeChecks dmode s) = none := by
  rw [firstCause_blockDecodeChecks, if_pos hfits, if_pos hroom, if_pos hapart]

/-! ### BLOCK_DECODE (R251) -/

section
variable {eoo : Bool} {dmode : BitVec 2} {s : State}

/-- A BLOCK_DECODE without error has written what decodeBlock answered. -/
theorem blockDecode_eq_complete {short : Bool} {t : State} (h : exec (.blockDecode eoo dmode short) s = .next t)
    (herr : t.status.err = false) :
    ∃ out used, decodeBlock (s.bytes s.snap.src) s.snap.dstCap.toNat eoo (dictBytes s dmode) = .ok (out, used) ∧
      t = (s.memWrite s.snap.dstAddr.toNat out).complete out.length used 0 := by
  simp only [exec, execBlockDecode] at h
  split at h
  · cases h
    cases herr
  · split at h
    · cases h
      cases herr
    · next out used hdecode =>
      cases h
      exact ⟨out, used, hdecode, rfl⟩

variable (hmode : dmode ≠ 3#2)
include hmode

theorem fieldCause_blockDecode : fieldCause (.blockDecode eoo dmode false) = none := if_neg hmode

/-- In a legal mode the first check that is not passed is reported. -/
theorem blockDecode_refused {c : Cause} (h : firstCause (blockDecodeChecks dmode s) = some c) :
    exec (.blockDecode eoo dmode false) s = .next (s.raise c) := by
  simp only [exec, execBlockDecode, fieldCause_blockDecode hmode, h, Option.none_or]

variable (hpassed : firstCause (blockDecodeChecks dmode s) = none)
include hpassed

theorem blockDecode_done {out : List Byte} {used : Nat}
    (h : decodeBlock (s.bytes s.snap.src) s.snap.dstCap.toNat eoo (dictBytes s dmode) = .ok (out, used)) :
    exec (.blockDecode eoo dmode false) s =
      .next ((s.memWrite s.snap.dstAddr.toNat out).complete out.length used 0) := by
  simp only [State.bytes, Args.src] at h
  simp only [exec, execBlockDecode, fieldCause_blockDecode hmode, hpassed, Option.or_none, h]

theorem blockDecode_failed {c : Cause}
    (h : decodeBlock (s.bytes s.snap.src) s.snap.dstCap.toNat eoo (dictBytes s dmode) = .error c) :
    exec (.blockDecode eoo dmode false) s = .next (s.raiseExec c) := by
  simp only [State.bytes, Args.src] at h
  simp only [exec, execBlockDecode, fieldCause_blockDecode hmode, hpassed, Option.or_none, h]

end

/-- PREFIX that starts inside the address space is all of [DST_ADDR - DICT_LEN, DST_ADDR). -/
theorem dictBytes_prefix {s : State} (h : s.snap.dictLen.toNat ≤ s.snap.dstAddr.toNat) :
    dictBytes s 1#2 = s.memRead (s.snap.dstAddr.toNat - s.snap.dictLen.toNat) s.snap.dictLen.toNat := by
  have hregions : dictRegions s.snap 1#2 = [s.snap.behind] := rfl
  rw [dictBytes, hregions, List.flatMap_singleton, Args.behind, min_eq_left h]

/-- Settles O39: behind the checks of R251 the command writes what decodeBlock answers, of a payload its content. -/
theorem blockDecodeResult : Obligations.BlockDecodeResult := by
  refine ⟨?_, fun s => ⟨rfl, List.flatMap_singleton .., dictBytes_prefix⟩, ?_⟩
  · intro eoo dmode out used s hmode hsrc hdst hdict hroom hapart hregions hdecode
    exact blockDecode_done hmode
      (firstCause_blockDecodeChecks_passed ⟨hsrc, hdst, hdict⟩ hroom ⟨hapart, hregions⟩) hdecode
  · intro eoo dmode level content tail s hmode hsrc hdst hdict hroom hapart hregions hbytes hend
    refine blockDecode_done hmode
      (firstCause_blockDecodeChecks_passed ⟨hsrc, hdst, hdict⟩ hroom ⟨hapart, hregions⟩) ?_
    rw [hbytes]
    cases eoo with
    | false =>
      obtain ⟨hcap, htail⟩ := hend
      exact decodeBlock_encoded level _ content tail _ false hcap (fun _ => htail) nofun
    | true => exact decodeBlock_encoded level _ content tail _ true (Nat.le_of_eq hend.symm) nofun fun _ => hend

/-- Settles O40: the pre-checks in order, and behind them the error that frees DST. -/
theorem blockDecodeTraps : Obligations.BlockDecodeTraps := by
  intro eoo dmode s hmode fits room apart
  have hcause := firstCause_blockDecodeChecks dmode s
  refine ⟨fun hfits => ?_, fun hfits hroom => ?_, fun hfits hroom hapart => ?_,
    fun hfits hroom hapart c hdecode => ?_, fun hfits hroom hapart hempty => ?_⟩
  · rw [if_neg hfits] at hcause
    exact blockDecode_refused hmode hcause
  · rw [if_pos hfits, if_neg hroom] at hcause
    exact blockDecode_refused hmode hcause
  · rw [if_pos hfits, if_pos hroom, if_neg hapart] at hcause
    exact blockDecode_refused hmode hcause
  · have hexec := blockDecode_failed hmode (firstCause_blockDecodeChecks_passed hfits hroom hapart) hdecode
    exact ⟨_, hexec, rfl, rfl, (exec_mem hexec).1.outside⟩
  · have hsrc : s.bytes s.snap.src = [] := by
      rw [State.bytes, Args.src, hempty]
      rfl
    have hdecode : decodeBlock (s.bytes s.snap.src) s.snap.dstCap.toNat eoo (dictBytes s dmode) =
        .error .tokenTruncated := by
      rw [hsrc]
      rfl
    have hexec := blockDecode_failed hmode (firstCause_blockDecodeChecks_passed hfits hroom hapart) hdecode
    exact ⟨_, hexec, rfl, (exec_mem hexec).1.outside⟩

/-- Settles O41: the counts are those of `decodeBlock_spec`, and both fit their registers. -/
theorem blockDecodeEndsAtItsBoundary : Obligations.BlockDecodeEndsAtItsBoundary := by
  intro eoo dmode s t h herr
  obtain ⟨out, used, hdecode, rfl⟩ := blockDecode_eq_complete h herr
  obtain ⟨hout, hused, -, hin, hfull⟩ := decodeBlock_spec _ _ _ _ _ _ hdecode
  have hsrc : (s.bytes s.snap.src).length = s.snap.srcLen.toNat := Memory.length_readBytes _ _ _
  rw [hsrc] at hused hin
  have hr0 : (BitVec.ofNat 32 out.length).toNat = out.length := by
    rw [BitVec.toNat_ofNat, Nat.mod_eq_of_lt (hout.trans_lt s.snap.dstCap.isLt)]
  have hr1 : (BitVec.ofNat 32 used).toNat = used := by
    rw [BitVec.toNat_ofNat, Nat.mod_eq_of_lt (hused.trans_lt s.snap.srcLen.isLt)]
  refine ⟨hr0.trans_le hout, hr1.trans_le hused, rfl, fun heoo => ?_, fun heoo => ?_⟩
  · exact BitVec.eq_of_toNat_eq (hr1.trans (hin heoo))
  · exact BitVec.eq_of_toNat_eq (hr0.trans (hfull heoo))

end Sys2Proof.Machine
end

section
/-! PROOFS. The frame encoder's commands (45_frame_encoder.md R280-R294): their pre-checks in order, what FENC_WRITE and
FENC_CLOSE answer behind them, and that content may be split among writes. -/

namespace Sys2Proof.Machine

/-! ### Pre-checks (R281, R282, R287, R291, R292, R372) -/

theorem anyWraps_singleton (r : Region) : anyWraps [r] = false ↔ r.Fits := by
  simp only [anyWraps_false, List.forall_mem_singleton, Region.wraps_false]

/-- The cause FENC_OPEN reports of a descriptor it does not accept (R281, R282). -/
def Args.descriptorCause (a : Args) : Cause :=
  if a.fdesc.extractLsb' 16 16 ≠ 0#16 ∨ descriptorReserved a.flg a.bd = true then .reservedBits
  else if versionOf a.flg ≠ 1#2 then .badVersion
  else if sizeCode a.bd < 4 then .badBlockSizeCode
  else if a.flg.getLsbD 4 = true then .blockChecksumEncode
  else if a.flg.getLsbD 2 = true then .contentChecksum
  else .dictionaryId

/-- The checks of the descriptor, and those behind them (R281, R282). -/
theorem firstCause_descriptor (a : Args) (rest : List (Bool × Cause)) :
    firstCause ((a.fdesc.extractLsb' 16 16 != 0#16 || descriptorReserved a.flg a.bd, .reservedBits) ::
        (versionOf a.flg != 1#2, .badVersion) :: (decide (sizeCode a.bd < 4), .badBlockSizeCode) ::
        (a.flg.getLsbD 4, .blockChecksumEncode) :: (a.flg.getLsbD 2, .contentChecksum) ::
        (a.flg.getLsbD 0, .dictionaryId) :: rest) =
      if a.DescriptorOk then firstCause rest else some a.descriptorCause := by
  have hbits : (a.fdesc.extractLsb' 16 16 != 0#16 || descriptorReserved a.flg a.bd) = false ↔
      a.fdesc.extractLsb' 16 16 = 0#16 ∧ descriptorReserved a.flg a.bd = false := by
    rw [Bool.or_eq_false_iff, bne_eq_false_iff_eq]
  have hsize : decide (sizeCode a.bd < 4) = false ↔ 4 ≤ sizeCode a.bd := by
    rw [decide_eq_false_iff_not, not_lt]
  rw [firstCause_cons hbits, firstCause_cons bne_eq_false_iff_eq, firstCause_cons hsize, firstCause_cons Iff.rfl,
    firstCause_cons Iff.rfl, firstCause_cons Iff.rfl, Args.descriptorCause]
  -- Both sides now test the same conditions in the same order.
  grind

theorem firstCause_fencOpenChecks (s : State) :
    firstCause (fencOpenChecks s) =
      if s.enc.isOpen = false then
        if s.snap.dst.Fits then
          if s.snap.DescriptorOk then
            if (if s.snap.flg.getLsbD 3 then 15 else 7) ≤ s.snap.dstCap.toNat then none else some .dstFull
          else some s.snap.descriptorCause
        else some .regionWrap
      else some .badState := by
  have hroom : decide (s.snap.dstCap.toNat < (openHeader s.snap).length) = false ↔
      (if s.snap.flg.getLsbD 3 then 15 else 7) ≤ s.snap.dstCap.toNat := by
    rw [decide_eq_false_iff_not, not_lt, openHeader, length_frameHeader]
  unfold fencOpenChecks
  rw [firstCause_cons Iff.rfl, firstCause_cons (anyWraps_singleton _), firstCause_descriptor, firstCause_cons hroom]
  rfl

theorem firstCause_fencWriteChecks (s : State) :
    firstCause (fencWriteChecks s) =
      if s.enc.isOpen = true then
        if s.snap.src.Fits ∧ s.snap.dst.Fits then
          if s.snap.src.Apart s.snap.dst then
            if writeNeed s.enc s.snap.srcLen.toNat ≤ s.snap.dstCap.toNat then none else some .dstFull
          else some .regionOverlap
        else some .regionWrap
      else some .badState := by
  have hopen : (!s.enc.isOpen) = false ↔ s.enc.isOpen = true := by rw [Bool.not_eq_false']
  have hroom : decide (s.snap.dstCap.toNat < writeNeed s.enc s.snap.srcLen.toNat) = false ↔
      writeNeed s.enc s.snap.srcLen.toNat ≤ s.snap.dstCap.toNat := by
    rw [decide_eq_false_iff_not, not_lt]
  unfold fencWriteChecks
  rw [firstCause_cons hopen, firstCause_cons (anyWraps_pair _ _), firstCause_cons (anyOverlap_pair _ _),
    firstCause_cons hroom]
  rfl

/-- The end marker takes four bytes, a pending block four beside its content (R291). -/
theorem closeNeed_eq (e : Encoder) : closeNeed e = if e.buf = [] then 4 else e.buf.length + 8 := by
  unfold closeNeed
  cases e.buf <;> simp

theorem firstCause_fencCloseChecks (s : State) :
    firstCause (fencCloseChecks s) =
      if s.snap.dst.Fits then
        if (if s.enc.buf = [] then 4 else s.enc.buf.length + 8) ≤ s.snap.dstCap.toNat then none else some .dstFull
      else some .regionWrap :=
  firstCause_two (anyWraps_singleton _) (by rw [decide_eq_false_iff_not, not_lt, closeNeed_eq]) _ _

section
variable {s : State} {c : Cause}

/-- At a legal level the first check that is not passed is reported. -/
theorem fencOpen_refused {level : BitVec 4} (hlevel : LevelOk level = true) (h : firstCause (fencOpenChecks s) = some c) :
    exec (.fencOpen level) s = .next (s.raise c) := by
  simp only [exec, execFencOpen, levelCause_none.2 hlevel, h, Option.none_or]

theorem fencWrite_refused (h : firstCause (fencWriteChecks s) = some c) : exec .fencWrite s = .next (s.raise c) := by
  simp only [exec, execFencWrite, h]

theorem fencClose_refused (hopen : s.enc.isOpen = true) (h : firstCause (fencCloseChecks s) = some c) :
    exec .fencClose s = .next (s.raise c) := by
  simp only [exec, execFencClose, if_pos hopen, h]

end

/-- Settles O47: each command's checks in order. -/
theorem frameEncoderTraps : Obligations.FrameEncoderTraps := by
  intro level s hlevel
  have hopen := firstCause_fencOpenChecks s
  have hwrite := firstCause_fencWriteChecks s
  have hclose := firstCause_fencCloseChecks s
  refine ⟨fun ho => ?_, fun ho hfits => ?_, fun ho hfits hdesc => ?_, fun ho hfits hdesc hroom => ?_, fun ho => ?_,
    fun ho hfits => ?_, fun ho hsrc hdst hapart => ?_, fun ho hsrc hdst hapart hroom => ?_, fun ho hfits => ?_,
    fun ho hfits hroom => ?_⟩
  · rw [if_neg (by simp [ho])] at hopen
    exact fencOpen_refused hlevel hopen
  · rw [if_pos ho, if_neg hfits] at hopen
    exact fencOpen_refused hlevel hopen
  · rw [if_pos ho, if_pos hfits, if_neg hdesc] at hopen
    exact fencOpen_refused hlevel hopen
  · rw [if_pos ho, if_pos hfits, if_pos hdesc, if_neg (not_le.2 hroom)] at hopen
    exact fencOpen_refused hlevel hopen
  · rw [if_neg (by simp [ho])] at hwrite
    exact fencWrite_refused hwrite
  · rw [if_pos ho, if_neg hfits] at hwrite
    exact fencWrite_refused hwrite
  · rw [if_pos ho, if_pos ⟨hsrc, hdst⟩, if_neg hapart] at hwrite
    exact fencWrite_refused hwrite
  · rw [if_pos ho, if_pos ⟨hsrc, hdst⟩, if_pos hapart, writeNeed, if_neg (not_le.2 hroom)] at hwrite
    exact fencWrite_refused hwrite
  · rw [if_neg hfits] at hclose
    exact fencClose_refused ho hclose
  · rw [if_pos hfits, if_neg (not_le.2 hroom)] at hclose
    exact fencClose_refused ho hclose

/-! ### FENC_WRITE (R287-R289) -/

/-- The length word of a raw block carries bit 31 beside the length (R140, R288). -/
theorem rawLength_eq {n : Nat} (h : n ≤ 4194304) : 0x80000000 ||| n = 2 ^ 31 + n :=
  (Nat.two_pow_add_eq_or_of_lt (i := 31) (by omega) 1).symm

/-- The write loop emits one block for every block size of content (R287). -/
theorem writeLoop_blocks {e : Encoder} (hroom : e.buf.length < e.blockSize) (x : Index) (content : List Byte) :
    (writeLoop e x content).blocks = (e.buf.length + content.length) / e.blockSize := by
  have hinv := writeLoop_inv e x content
  have hshort := hinv.room hroom
  rw [← hinv.count, Nat.mul_comm, Nat.mul_add_div (by omega), Nat.div_eq_of_lt hshort, Nat.add_zero]

/-- With every check passed FENC_WRITE takes all of SRC and hands on what the write loop leaves. -/
theorem fencWrite_done {s : State} (hpassed : firstCause (fencWriteChecks s) = none) :
    let r := writeLoop s.enc s.index (s.bytes s.snap.src)
    exec .fencWrite s = .next (({ s.memWrite s.snap.dstAddr.toNat r.out with
      enc := r.context (s.enc.total + s.snap.srcLen.toNat), index := r.index }).complete r.out.length
        s.snap.srcLen.toNat r.blocks) := by
  simp only [exec, execFencWrite, hpassed]
  rfl

/-- The context a write leaves, by what the write changes of it (R287). -/
theorem WriteInv.context_eq {e : Encoder} {x : Index} {k : Nat} {r : WriteRun} (w : WriteInv e x k r) (total : Nat) :
    r.context total =
      { e with state := .blockLoop, buf := r.held.reverse, hist := r.enc.hist, total := total } := by
  obtain ⟨hlevel, hflg, hbd, hsize, hchained, -, -⟩ := w.same
  rw [← hlevel, ← hflg, ← hbd, ← hsize, ← hchained]
  rfl

/-- Settles O45: the write loop on content up to one block, R288's block bytes, and the command around the loop. -/
theorem fencWriteResult : Obligations.FencWriteResult := by
  refine ⟨fun e x content hroom => ⟨fun hshort => ?_, fun hfull => ?_⟩, fun e x soFar hlength => ?_, ?_⟩
  · rw [writeLoop_short e x content hshort]
    simp [WriteRun.context]
  · rw [writeLoop_full e x content hroom hfull]
    exact ⟨rfl, rfl, rfl, rfl⟩
  · rw [emitBlock_eq, blockBytes, rawLength_eq hlength]
    rfl
  · intro s hopen hroom hsrc hdst hapart hneed n r enc blocks
    have hpassed : firstCause (fencWriteChecks s) = none := by
      rw [firstCause_fencWriteChecks, if_pos hopen, if_pos ⟨hsrc, hdst⟩, if_pos hapart, writeNeed, if_pos hneed]
    have hcontent : (s.bytes s.snap.src).length = n := Memory.length_readBytes _ _ _
    have hblocks : r.blocks = blocks := by
      rw [writeLoop_blocks hroom, hcontent]
    obtain ⟨hheld, -, -, -, -, -, hkept, hchained⟩ := writeLoop_taken s.enc s.index (s.bytes s.snap.src) hroom
    have hinv := writeLoop_inv s.enc s.index (s.bytes s.snap.src)
    obtain ⟨howner, hkind, hbase, hlen⟩ := hinv.owner
    have hout := length_writeLoop s.enc s.index (s.bytes s.snap.src)
    rw [hcontent] at hout
    rw [← hblocks]
    refine ⟨fencWrite_done hpassed, hout.trans hneed, ?_, hkept, hchained, howner, hkind, hbase, hlen⟩
    rw [← hheld]
    exact hinv.context_eq _

/-! ### FENC_CLOSE (R292, R293) -/

theorem Encoder.isOpen_iff {e : Encoder} : e.isOpen = true ↔ e.state = .headerWritten ∨ e.state = .blockLoop := by
  unfold Encoder.isOpen
  cases e.state <;> simp

theorem flushBlock_empty {e : Encoder} (h : e.buf = []) (x : Index) : flushBlock e x = ([], e, x, 0) :=
  if_neg (by simp [h])

theorem flushBlock_pending {e : Encoder} (h : e.buf ≠ []) (x : Index) :
    flushBlock e x =
      ((emitBlock e x e.total).1, (emitBlock e x e.total).2.1, (emitBlock e x e.total).2.2, 1) :=
  if_pos (List.length_pos_of_ne_nil h)

/-- With every check passed FENC_CLOSE writes the flushed block and the end marker. -/
theorem fencClose_done {s : State} (hopen : s.enc.isOpen = true) (hpassed : firstCause (fencCloseChecks s) = none) :
    let q := flushBlock s.enc s.index
    exec .fencClose s = .next (({ s.memWrite s.snap.dstAddr.toNat (q.1 ++ leBytes 4 0) with
      enc := { q.2.1 with state := .closed, hist := [] }
      index := { q.2.2.1 with owner := .free } }).complete (q.1.length + 4) 0 q.2.2.2) := by
  simp only [exec, execFencClose, if_pos hopen, hpassed, List.length_append, length_leBytes]

/-- Settles O46: an open stream is flushed, and no open stream is left alone. -/
theorem fencCloseResult : Obligations.FencCloseResult := by
  refine fun s => ⟨fun hshut => ?_, fun hopen hfits hneed => ?_⟩
  · simp only [exec, execFencClose, Encoder.isOpen_false_iff.2 hshut]
    rfl
  · have hpassed : firstCause (fencCloseChecks s) = none := by
      rw [firstCause_fencCloseChecks, if_pos hfits, if_pos hneed]
    have hdone := fencClose_done (Encoder.isOpen_iff.2 hopen) hpassed
    by_cases hbuf : s.enc.buf = []
    · rw [flushBlock_empty hbuf] at hdone
      simp only [if_pos hbuf]
      exact ⟨[], _, _, hdone, rfl, by simp only [hbuf], rfl, rfl, rfl, rfl⟩
    · obtain ⟨-, hkind, hbase, hlen⟩ := emitBlock_owner s.enc s.index s.enc.total
      rw [flushBlock_pending hbuf] at hdone
      simp only [if_neg hbuf]
      exact ⟨_, _, _, hdone, rfl, rfl, rfl, hkind, hbase, hlen⟩

/-! ### Splitting the content among writes (R294) -/

/-- A content byte that fills the pending block emits it (R287). -/
theorem takeByte_of_full {r : WriteRun} (h : r.size + 1 = r.enc.blockSize) (b : Byte) :
    takeByte r b =
      let q := emitBlock { r.enc with buf := (b :: r.held).reverse } r.index (r.soFar + 1)
      { enc := q.2.1, index := q.2.2, held := [], size := 0, soFar := r.soFar + 1, out := r.out ++ q.1,
        blocks := r.blocks + 1 } := if_pos h

/-- A content byte that leaves the pending block short is only taken (R287). -/
theorem takeByte_of_short {r : WriteRun} (h : r.size + 1 ≠ r.enc.blockSize) (b : Byte) :
    takeByte r b = { r with held := b :: r.held, size := r.size + 1, soFar := r.soFar + 1 } := if_neg h

/-- The run behind an earlier output, with those fields of a context that no content byte reads. -/
def WriteRun.behind (r : WriteRun) (e : Encoder) (out : List Byte) (blocks : Nat) : WriteRun :=
  { r with
    enc := { r.enc with buf := e.buf, total := e.total, state := e.state }
    out := out ++ r.out
    blocks := blocks + r.blocks }

theorem WriteRun.context_behind (r : WriteRun) (e : Encoder) (out : List Byte) (blocks total : Nat) :
    (r.behind e out blocks).context total = r.context total := rfl

/-- A content byte does behind an earlier output what it does without (R287). -/
theorem takeByte_behind (r : WriteRun) (e : Encoder) (out : List Byte) (blocks : Nat) (b : Byte) :
    ∃ e', takeByte (r.behind e out blocks) b = (takeByte r b).behind e' out blocks := by
  by_cases hfull : r.size + 1 = r.enc.blockSize
  · refine ⟨{ e with buf := [] }, ?_⟩
    rw [takeByte_of_full hfull, takeByte_of_full (r := r.behind e out blocks) hfull]
    simp only [WriteRun.behind, emitBlock_eq, List.append_assoc, Nat.add_assoc]
    rfl
  · exact ⟨e, by rw [takeByte_of_short hfull, takeByte_of_short (r := r.behind e out blocks) hfull]; rfl⟩

theorem takeBytes_behind (content : List Byte) (r : WriteRun) (e : Encoder) (out : List Byte) (blocks : Nat) :
    ∃ e', content.foldl takeByte (r.behind e out blocks) = (content.foldl takeByte r).behind e' out blocks := by
  induction content generalizing r e with
  | nil => exact ⟨e, rfl⟩
  | cons b content ih =>
    obtain ⟨e', he'⟩ := takeByte_behind r e out blocks b
    rw [List.foldl_cons, he']
    exact ih (takeByte r b) e'

/-- A write left is the start of the next write behind its output (R287). -/
theorem WriteInv.restart {e : Encoder} {x : Index} {k : Nat} {r : WriteRun} (w : WriteInv e x k r) :
    (writeStart (r.context (e.total + k)) r.index).behind r.enc r.out r.blocks = r := by
  have hsize := w.size
  have hsoFar := w.soFar
  simp [WriteRun.behind, writeStart, WriteRun.context, ← hsize, ← hsoFar]

/-- Settles O48: the second write goes on where the first one stands, behind its output. -/
theorem writeSplitIndependent : Obligations.WriteSplitIndependent := by
  intro e x first second r1 e1 r2 r
  obtain ⟨e', he'⟩ := takeBytes_behind second (writeStart e1 r1.index) r1.enc r1.out r1.blocks
  have hsplit : r = r2.behind e' r1.out r1.blocks := by
    have hrestart : (writeStart e1 r1.index).behind r1.enc r1.out r1.blocks = r1 := (writeLoop_inv e x first).restart
    rw [hrestart] at he'
    exact (List.foldl_append ..).trans he'
  have htotal : e.total + (first ++ second).length = e1.total + second.length := by
    rw [List.length_append, ← Nat.add_assoc]
    rfl
  rw [hsplit, WriteRun.context_behind, htotal]
  exact ⟨rfl, rfl, rfl, rfl⟩

end Sys2Proof.Machine
end

section
/-! PROOFS. A block on its way from the frame encoder to the frame decoder (45_frame_encoder.md R288-R290,
46_frame_decoder.md R313, R321, R322): its length word and payload, and that FDEC_READ with room for just its content serves
that content. -/

namespace Sys2Proof.Machine

/-! ### The length word (R140) -/

/-- The length word of a compressed block: bit 31 clear (R140). -/
theorem lengthWord_compressed {n : Nat} (h : n ≤ 4194304) :
    (BitVec.ofNat 32 n).toNat = n ∧ (BitVec.ofNat 32 n).getLsbD 31 = false := by
  refine ⟨by rw [BitVec.toNat_ofNat, Nat.mod_eq_of_lt (by omega)], ?_⟩
  rw [BitVec.getLsbD_ofNat, Nat.testBit_lt_two_pow (by omega), Bool.and_false]

/-- The length word of a raw block: bit 31 set (R140). -/
theorem lengthWord_raw {n : Nat} (h : n ≤ 4194304) :
    (BitVec.ofNat 32 (2 ^ 31 + n)).toNat = 2 ^ 31 + n ∧ (BitVec.ofNat 32 (2 ^ 31 + n)).getLsbD 31 = true := by
  refine ⟨by rw [BitVec.toNat_ofNat, Nat.mod_eq_of_lt (by omega)], ?_⟩
  rw [BitVec.getLsbD_ofNat, Nat.testBit_two_pow_add_eq, Nat.testBit_lt_two_pow (by omega)]
  rfl

/-! ### The emitted block (R288-R290) -/

/-- A payload that decodes to anything has a byte (R256). -/
theorem ne_nil_of_decodeBlock {payload dict : List Byte} {cap : Nat} {eoo : Bool} {r : List Byte × Nat}
    (h : decodeBlock payload cap eoo dict = .ok r) : payload ≠ [] := by
  rintro rfl
  cases h

/-- A block is a length word and that many payload bytes, no more than the content, and a decoder with the stream's history
decodes them to the content (R288-R290, R321, R322). -/
theorem emitBlock_decodes {e : Encoder} {x : Index} {soFar : Nat} {d : Decoder} (hne : e.buf ≠ [])
    (hmax : e.buf.length ≤ 4194304) (hcount : e.hist.length + e.buf.length ≤ soFar)
    (hfit : e.chained = true → FitIndex e.level.toNat x (soFar - e.buf.length)) (hsize : e.buf.length ≤ d.blockSize)
    (hchained : d.chained = e.chained) (hhist : e.chained = true → d.hist = e.hist) :
    ∃ (w : Word) (payload : List Byte), (emitBlock e x soFar).1 = leBytes 4 w.toNat ++ payload ∧
      payload.length = w.toNat % 2 ^ 31 ∧ payload ≠ [] ∧ payload.length ≤ e.buf.length ∧ d.Decodes w payload e.buf := by
  rw [emitBlock_eq, blockBytes]
  by_cases hshort : (blockPayload e x soFar).1.length < e.buf.length
  · obtain ⟨hword, hbit⟩ := lengthWord_compressed (hshort.le.trans hmax)
    have hdict : (if d.chained then d.hist else []) = if e.chained then e.hist else [] := by
      rw [hchained]
      split
      · next hc => exact hhist hc
      · rfl
    have hdecode := blockPayload_decodes e x soFar d.blockSize hcount hsize hfit
    refine ⟨BitVec.ofNat 32 (blockPayload e x soFar).1.length, (blockPayload e x soFar).1, ?_, ?_,
      ne_nil_of_decodeBlock hdecode, hshort.le, ?_⟩
    · rw [if_pos hshort, hword]
    · rw [hword, Nat.mod_eq_of_lt (by omega)]
    · rw [Decoder.Decodes, hbit, if_neg Bool.false_ne_true, hdict]
      exact ⟨_, hdecode⟩
  · obtain ⟨hword, hbit⟩ := lengthWord_raw hmax
    refine ⟨BitVec.ofNat 32 (2 ^ 31 + e.buf.length), e.buf, ?_, ?_, hne, le_rfl, ?_⟩
    · rw [if_neg hshort, rawLength_eq hmax, hword]
    · rw [hword, Nat.add_mod_left, Nat.mod_eq_of_lt (by omega)]
    · rw [Decoder.Decodes, hbit, if_pos rfl]

/-! ### Serving a block (R313, R322) -/

theorem blockContent_of_decodes {d : Decoder} {out : List Byte} (h : d.Decodes d.blkLen d.inBuf out) :
    blockContent d = .ok out := by
  unfold Decoder.Decodes at h
  unfold blockContent
  split at h
  · next hraw => rw [if_pos hraw, h]
  · next hraw =>
    obtain ⟨used, hdecode⟩ := h
    rw [if_neg hraw, hdecode]

theorem decodeCurrent_of_content {r : DecRun} {out : List Byte} (h : blockContent r.state.dec = .ok out) :
    decodeCurrent r = .more (r.withDec { r.state.dec with
      outBuf := out
      hist := if r.state.dec.chained then lastBytes Config.window (r.state.dec.hist ++ out) else r.state.dec.hist
      servePos := 0
      stage := .serve
      state := .blockLoop }) := by
  simp only [decodeCurrent, h]

/-- With room for all of a block's content and nothing served of it yet, the SERVE stage serves it whole (R313). -/
theorem serveStage_whole {r : DecRun} {out : List Byte} (hbuf : r.state.dec.outBuf = out) (hpos : r.state.dec.servePos = 0)
    (hserved : r.served = 0) :
    serveStage out.length r =
      .more ⟨{ r.state.memWrite r.state.snap.dstAddr.toNat out with
        dec := { r.state.dec with
          servePos := out.length, total := r.state.dec.total + BitVec.ofNat 64 out.length, stage := .blkLen } },
        r.ip, out.length⟩ := by
  simp [serveStage, hbuf, hpos, hserved]

theorem decStage_serve {opening inEof : Bool} {cap : Nat} {r : DecRun} (hstage : r.state.dec.stage = .serve)
    (hroom : r.served ≠ cap) : decStage opening inEof cap r = serveStage cap r := by
  simp only [decStage, hstage, if_neg hroom]

/-- Before a length word a run with no room left stops (R313). -/
theorem decStage_blkLen_full {opening inEof : Bool} {cap : Nat} {r : DecRun} (hstage : r.state.dec.stage = .blkLen)
    (hfull : r.served = cap) : decStage opening inEof cap r = .stop r false false := by
  simp [decStage, hstage, hfull]

/-- A run that is to serve a block whose content just fills DST serves it and stops before the next length word (R313). -/
theorem decLoop_serve_whole {r : DecRun} {out : List Byte} (hstage : r.state.dec.stage = .serve)
    (hbuf : r.state.dec.outBuf = out) (hpos : r.state.dec.servePos = 0) (hserved : r.served = 0) (hout : out ≠ [])
    (inEof : Bool) (n : Nat) :
    decLoop false inEof out.length (n + 2) r =
      .stop ⟨{ r.state.memWrite r.state.snap.dstAddr.toNat out with
        dec := { r.state.dec with
          servePos := out.length, total := r.state.dec.total + BitVec.ofNat 64 out.length, stage := .blkLen } },
        r.ip, out.length⟩ false false := by
  have hroom : r.served ≠ out.length := by
    rw [hserved, ne_comm, ne_eq, List.length_eq_zero_iff]
    exact hout
  rw [decLoop_more ((decStage_serve hstage hroom).trans (serveStage_whole hbuf hpos hserved))]
  exact decLoop_halt (decStage_blkLen_full rfl rfl)

/-- The decoder stream behind a block with length word w and this payload, all of whose content `out` has been served
(R313, R322). -/
def Decoder.servedBlock (d : Decoder) (w : Word) (payload out : List Byte) : Decoder :=
  { d with
    state := .blockLoop, stage := .blkLen, field := [], blkLen := w, inBuf := payload, outBuf := out
    servePos := out.length, total := d.total + BitVec.ofNat 64 out.length
    hist := if d.chained then lastBytes Config.window (d.hist ++ out) else d.hist }

/-- A run in front of the decoding of a block whose content just fills DST decodes it, serves it and stops (R313). -/
theorem AtBlock.decLoop_served {s : State} {w : Word} {payload rest out : List Byte} {q : DecRun}
    (h : AtBlock s w payload rest q) (hout : out ≠ []) (hdec : s.dec.Decodes w payload out) (inEof : Bool) (n : Nat) :
    (decodeCurrent q).andThen (decLoop false inEof out.length (n + 2)) =
      .stop ⟨{ s.memWrite s.snap.dstAddr.toNat out with dec := s.dec.servedBlock w payload out }, q.ip, out.length⟩
        false false := by
  obtain ⟨⟨stage, hstate⟩, -, hserved⟩ := h
  have hcontent : blockContent q.state.dec = .ok out := by
    rw [hstate]
    exact blockContent_of_decodes hdec
  rw [decodeCurrent_of_content hcontent, DecStep.andThen_more]
  refine (decLoop_serve_whole (by rfl) (by rfl) (by rfl) (by exact hserved) hout inEof n).trans ?_
  simp only [DecRun.withDec, hstate]
  rfl

/-- With room for just the content of a block without checksum, the run takes the block and serves its content (R313). -/
theorem frameRun_served (inEof : Bool) {s : State} {w : Word} {payload rest out : List Byte}
    (hahead : s.BlockAhead w payload [] rest) (hbcsum : s.dec.bcsum = false) (hout : out ≠ [])
    (hdec : s.dec.Decodes w payload out) :
    ∃ used, used + rest.length = s.snap.srcLen.toNat ∧ frameRun false inEof out.length s =
      .stop ⟨{ s.memWrite s.snap.dstAddr.toNat out with dec := s.dec.servedBlock w payload out }, used, out.length⟩
        false false := by
  obtain ⟨k, q, hk, hat, hrun⟩ := decLoop_block inEof out.length s w payload [] rest
    (mt List.length_eq_zero_iff.1 hout) hahead
  have hbehind : behindBlock s.dec.bcsum payload [] q = decodeCurrent q := by simp [behindBlock, hbcsum]
  have hloop (n : Nat) := hbehind ▸ hrun (n + 2)
  refine ⟨q.ip, hat.ip, frameRun_of_loop (k := 3 + k) (by omega) fun n => ?_⟩
  rw [← Nat.add_assoc]
  exact (hloop n).trans (hat.decLoop_served hout hdec inEof n)

/-- A FDEC_READ whose checks pass and whose run stops completes with what the run leaves (R320). -/
theorem fdecRead_stop {inEof needInput frameEnd : Bool} {s : State} {r : DecRun}
    (hpassed : firstCause (fdecReadChecks s) = none)
    (hrun : frameRun false inEof s.snap.dstCap.toNat s = .stop r needInput frameEnd) :
    exec (.fdecRead inEof) s = .next (r.state.finishWith needInput frameEnd r.served r.ip 0) := by
  simp only [exec, execFdecRead, hpassed, hrun]

/-- Settles O53: FDEC_READ takes the block's length word and payload, decodes them to the content and serves it. -/
theorem blockSurvivesTheTransport : Obligations.BlockSurvivesTheTransport := by
  intro inEof s e x soFar rest hopen hstage hfield hbcsum hchained hhist hsize hmax hne hroom hcount hfit hsrc hdst hapart
    hcap hbytes
  obtain ⟨w, payload, hblock, hpayload, hsome, hle, hdec⟩ :=
    emitBlock_decodes (d := s.dec) hne (hroom.trans hmax) hcount hfit (hsize ▸ hroom) hchained hhist
  have hahead : s.BlockAhead w payload [] rest := by
    refine ⟨hpayload, by rw [hbcsum]; rfl, .inl ⟨hstage, by rw [hfield]; decide, hsome, by omega, ?_⟩⟩
    rw [hfield, hbytes, hblock, List.append_nil, List.nil_append]
  obtain ⟨used, hend, hframe⟩ := frameRun_served inEof hahead hbcsum hne hdec
  have hused : used = (emitBlock e x soFar).1.length := by
    have hlength := congrArg List.length hbytes
    have hsrcLength : (s.bytes s.snap.src).length = s.snap.srcLen.toNat := Memory.length_readBytes _ _ _
    rw [List.length_append] at hlength
    omega
  have hread : s.dec.unreadable = false := by
    unfold Decoder.unreadable
    rcases hopen with h | h <;> rw [h]
  have hexec := fdecRead_stop (fdecReadChecks_pass hread hsrc hdst hapart) (by rw [hcap]; exact hframe)
  refine ⟨_, hexec, rfl, ?_, ?_, rfl, rfl, rfl, rfl, rfl, fun hc => ?_, rfl, rfl⟩
  · rw [State.finishWith_result0, BitVec.toNat_ofNat, Nat.mod_eq_of_lt (hcap ▸ s.snap.dstCap.isLt)]
  · have hlt := s.snap.srcLen.isLt
    have hfits : used < 2 ^ 32 := by omega
    rw [State.finishWith_result1, BitVec.toNat_ofNat]
    exact (Nat.mod_eq_of_lt hfits).trans hused
  · have hdc : s.dec.chained = true := hchained.trans hc
    rw [emitBlock_eq, State.finishWith_dec]
    simp only [Decoder.servedBlock, nextHistory, hdc, hc, hhist hc, if_true]

end Sys2Proof.Machine
end

section
/-! PROOFS. The frame decoder's commands (46_frame_decoder.md R311-R327, R340, R341): the values of its hash, the pre-checks
in order, and how the end of a frame run becomes a command's answer. -/

namespace Sys2Proof.Machine

/-! ### XXH32 (R340, R341) -/

/-- Settles O54: both functions compute. -/
theorem xxh32Values : Obligations.Xxh32Values :=
  ⟨by decide, by decide, by decide, by decide, by decide, by decide, by decide, by decide, by decide, by decide,
    by decide, by decide, by decide, by decide, by decide, by decide⟩

/-! ### Pre-checks (R311, R312, R320, R372) -/

theorem firstCause_fdecOpenChecks (s : State) :
    firstCause (fdecOpenChecks s) =
      if s.dec.isOpen = false then if s.snap.src.Fits then none else some .regionWrap else some .badState :=
  firstCause_two Iff.rfl (anyWraps_singleton _) _ _

theorem firstCause_fdecReadChecks (s : State) :
    firstCause (fdecReadChecks s) =
      if s.dec.unreadable = false then
        if s.snap.src.Fits ∧ s.snap.dst.Fits then
          if s.snap.src.Apart s.snap.dst then none else some .regionOverlap
        else some .regionWrap
      else some .badState := by
  unfold fdecReadChecks
  rw [firstCause_cons Iff.rfl, firstCause_cons (anyWraps_pair _ _), firstCause_cons (anyOverlap_pair _ _)]
  rfl

/-- FDEC_READ is refused on a stream that is unopened or failed (R312). -/
theorem Decoder.unreadable_false_iff {d : Decoder} :
    d.unreadable = false ↔ d.state ≠ .unopened ∧ d.state ≠ .failed := by
  unfold Decoder.unreadable
  cases d.state <;> simp

/-- A stream whose header is read can be served from (R312). -/
theorem Decoder.readable_of_headerRead {d : Decoder} (h : d.state = .headerRead ∨ d.state = .blockLoop) :
    d.unreadable = false := by
  rw [Decoder.unreadable_false_iff]
  rcases h with h | h <;> simp [h]

theorem fdecReadChecks_pass_of_headerRead {s : State} (h : s.dec.state = .headerRead ∨ s.dec.state = .blockLoop)
    (hsrc : s.snap.src.Fits) (hdst : s.snap.dst.Fits) (hapart : s.snap.src.Apart s.snap.dst) :
    firstCause (fdecReadChecks s) = none :=
  fdecReadChecks_pass (Decoder.readable_of_headerRead h) hsrc hdst hapart

/-- A stream inside a header can be read on (R312). -/
theorem Decoder.readable_of_opening {d : Decoder} (h : d.state = .opening) : d.unreadable = false := by
  rw [Decoder.unreadable_false_iff]
  simp [h]

theorem Args.dstCap_toNat_ne_zero {a : Args} (h : a.dstCap ≠ 0#32) : a.dstCap.toNat ≠ 0 :=
  fun h0 => h (BitVec.eq_of_toNat_eq h0)

section
variable {inEof : Bool} {s : State} {c : Cause}

theorem fdecOpen_refused (h : firstCause (fdecOpenChecks s) = some c) :
    exec (.fdecOpen inEof) s = .next (s.raise c) := by
  simp only [exec, execFdecOpen, h]

theorem fdecRead_refused (h : firstCause (fdecReadChecks s) = some c) :
    exec (.fdecRead inEof) s = .next (s.raise c) := by
  simp only [exec, execFdecRead, h]

end

/-! ### The end of a run (R313, R318, R319) -/

/-- The machine t is what a command from s answers that raises c where its run stands in the machine u (R319, R362). -/
structure FailedAt (s u : State) (c : Cause) (t : State) : Prop where
  status : t.status = s.status.ofError c
  dec : t.dec = { u.dec with state := .failed }
  fdesc : t.decFdesc = u.decFdesc
  csize : t.decCsize = u.decCsize
  dictId : t.decDictId = u.decDictId

/-- A run does not touch STATUS (R361, R362). -/
theorem frameRun_status {opening inEof : Bool} {cap : Nat} {s : State} {r : DecRun}
    (h : (frameRun opening inEof cap s).run = r) : r.state.status = s.status := by
  have hrest := (frameRun_frame opening inEof cap s).rest
  rw [h] at hrest
  rw [hrest]

section
variable {inEof : Bool} {s t : State} {r : DecRun} {c : Cause}

section
variable (hshut : s.dec.isOpen = false) (hfits : s.snap.src.Fits)
include hshut hfits

/-- A FDEC_OPEN whose run fails reports the cause and leaves the stream failed, MEM as it was (R311, R319, log 4). -/
theorem fdecOpen_failed (hrun : frameRun true inEof 0 s.openDecoder = .fail r c) :
    ∃ t, exec (.fdecOpen inEof) s = .next t ∧ FailedAt s r.state c t ∧ t.mem = s.mem := by
  have hstatus : r.state.status = s.openDecoder.status := frameRun_status (congrArg DecEnd.run hrun)
  have hexec : exec (.fdecOpen inEof) s = .next (r.state.failDecoder.raise c) := by
    simp only [exec, execFdecOpen, fdecOpenChecks_pass hshut hfits, hrun]
  exact ⟨_, hexec, ⟨congrArg (Status.ofError · c) hstatus, rfl, rfl, rfl, rfl⟩, fdecOpen_mem hexec⟩

/-- A FDEC_OPEN whose run stops completes with what the run leaves (R311). -/
theorem fdecOpen_stop {needInput frameEnd : Bool} (hrun : frameRun true inEof 0 s.openDecoder = .stop r needInput frameEnd) :
    exec (.fdecOpen inEof) s = .next (r.state.finishWith needInput frameEnd r.served r.ip 0) := by
  simp only [exec, execFdecOpen, fdecOpenChecks_pass hshut hfits, hrun]

end

/-- A FDEC_READ whose run fails reports the cause and leaves the stream failed (R319, R320). -/
theorem fdecRead_failed (hpassed : firstCause (fdecReadChecks s) = none) (hexec : exec (.fdecRead inEof) s = .next t)
    (hrun : frameRun false inEof s.snap.dstCap.toNat s = .fail r c) : FailedAt s r.state c t := by
  have hstatus : r.state.status = s.status := frameRun_status (congrArg DecEnd.run hrun)
  simp only [exec, execFdecRead, hpassed, hrun] at hexec
  cases hexec
  exact ⟨congrArg (Status.ofError · c) hstatus, rfl, rfl, rfl, rfl⟩

end

end Sys2Proof.Machine
end

section
/-! PROOFS. Frame headers under the decoder's commands (46_frame_decoder.md R311-R318): a header that is refused, one that is
accepted, and one that SRC holds a beginning of. -/

namespace Sys2Proof.Machine

/-! ### The checks behind a header (R315, R316) -/

/-- The engine does not take this header (R315, R316). -/
abbrev HeaderRefused (hdr : List Byte) (flg bd sum : Byte) : Prop :=
  sum ≠ (xxh32 hdr 0#32).extractLsb' 8 8 ∨ descriptorReserved flg bd = true ∨ sizeCode bd < 4 ∨ flg.getLsbD 2 = true ∨
    flg.getLsbD 0 = true

/-- The cause reported of a header the engine does not take: the first check it does not pass (R315, R316). -/
def headerCause (hdr : List Byte) (flg bd sum : Byte) : Cause :=
  if sum ≠ (xxh32 hdr 0#32).extractLsb' 8 8 then .headerChecksum
  else if descriptorReserved flg bd = true then .headerReserved
  else if sizeCode bd < 4 then .headerBlockSize
  else if flg.getLsbD 2 = true then .contentChecksum
  else .dictionaryId

theorem firstCause_headerChecks {d : Decoder} {sum : Byte} (h : HeaderRefused d.hdr d.flg d.bd sum) :
    firstCause (headerChecks d [sum]) = some (headerCause d.hdr d.flg d.bd sum) := by
  unfold HeaderRefused at h
  simp only [headerChecks, firstCause, headerCause, headerChecksum, List.headD_cons, bne_iff_ne, decide_eq_true_eq]
  -- Both sides now test the same conditions in the same order.
  grind

/-- The machine behind a header with these fields that the engine takes (R314). -/
def State.behindHeader (s : State) (flg bd : Byte) (csize : BitVec 64) (dictId : Word) : State :=
  { s with
    dec := { s.dec with
      state := .headerRead, stage := .blkLen, field := [], hdr := headerFields flg bd csize dictId, flg := flg, bd := bd
      blockSize := 2 ^ (2 * sizeCode bd + 8), chained := !flg.getLsbD 5, bcsum := flg.getLsbD 4 }
    decFdesc := (0#16 ++ bd ++ flg : BitVec (16 + 8 + 8))
    decCsize := if flg.getLsbD 3 then csize else s.decCsize }

section
variable {s : State} {hdr : List Byte} {flg bd sum : Byte} {fdesc : Word} {csize : BitVec 64} {dictId : Word} {r : DecRun}
  {rest : List Byte} (opening inEof : Bool) (cap : Nat)

/-- A header that is refused behind its checksum byte ends the run, its fields in the header registers (R315, R316). -/
theorem AtHeader.checksRefuse (h : AtHeader s .hc hdr flg bd fdesc csize dictId r (sum :: rest))
    (hrefused : HeaderRefused hdr flg bd sum) :
    ∃ q, q.state = { s with
        dec := { s.dec with stage := .hc, field := [], hdr := hdr, flg := flg, bd := bd }
        decFdesc := fdesc, decCsize := csize, decDictId := dictId } ∧
      ∀ n, decLoop opening inEof cap (n + 1) r = .fail q (headerCause hdr flg bd sum) := by
  obtain ⟨q, -, -, -, hq, hchecked⟩ := decLoop_checked opening inEof cap h
  have hcause : firstCause (headerChecks q.state.dec [sum]) = some (headerCause hdr flg bd sum) := by
    rw [hq]
    exact firstCause_headerChecks (d := { s.dec with stage := .hc, field := [], hdr := hdr, flg := flg, bd := bd }) hrefused
  refine ⟨q, hq, fun n => ?_⟩
  rw [hchecked, hcStage_refuse hcause]
  rfl

/-- A header of version 1 that is refused, read from any stage of it on (R314-R316). -/
theorem decLoop_headerRefused (h : s.HeaderAhead flg bd csize dictId sum rest) (hversion : versionOf flg = 1#2)
    (hrefused : HeaderRefused (headerFields flg bd csize dictId) flg bd sum) :
    ∃ k q, k ≤ 6 ∧ q.state = { s with
        dec := { s.dec with stage := .hc, field := [], hdr := headerFields flg bd csize dictId, flg := flg, bd := bd }
        decFdesc := (0#16 ++ bd ++ flg : BitVec (16 + 8 + 8)), decCsize := if flg.getLsbD 3 then csize else s.decCsize
        decDictId := if flg.getLsbD 0 then dictId else s.decDictId } ∧
      ∀ n, decLoop opening inEof cap (n + k) ⟨s, 0, 0⟩ =
        .fail q (headerCause (headerFields flg bd csize dictId) flg bd sum) := by
  obtain ⟨k, r, hk, hr, hrun⟩ := decLoop_header opening inEof cap h hversion
  obtain ⟨q, hq, hfail⟩ := hr.checksRefuse opening inEof cap hrefused
  exact ⟨1 + k, q, by omega, hq, fun n => by rw [← Nat.add_assoc, hrun, hfail]⟩

/-- A header of version 1 that passes the checks, read from any stage of it on, leaves the stream in HEADER_READ
(R314-R316). -/
theorem decLoop_headerAccepted (h : s.HeaderAhead flg bd csize dictId sum rest) (hversion : versionOf flg = 1#2)
    (hsum : sum = headerChecksum (headerFields flg bd csize dictId)) (hreserved : descriptorReserved flg bd = false)
    (hsize : 4 ≤ sizeCode bd) (hcsum : flg.getLsbD 2 = false) (hdict : flg.getLsbD 0 = false) :
    ∃ k, k ≤ 6 ∧ ∀ n, decLoop opening inEof cap (n + k) ⟨s, 0, 0⟩ =
      decLoop opening inEof cap n ⟨s.behindHeader flg bd csize dictId, s.snap.srcLen.toNat - rest.length, 0⟩ := by
  obtain ⟨k, r, hk, hr, hrun⟩ := decLoop_header opening inEof cap h hversion
  obtain ⟨q, -, hip, hserved, hq, hchecked⟩ := decLoop_checked opening inEof cap hr
  have hpass : firstCause (headerChecks q.state.dec [sum]) = none := by
    rw [hq, hsum]
    exact headerChecks_pass (d := { s.dec with
      stage := .hc, field := [], hdr := headerFields flg bd csize dictId, flg := flg, bd := bd }) hreserved hsize hcsum hdict
  have hused : q.ip = s.snap.srcLen.toNat - rest.length := by omega
  refine ⟨1 + k, by omega, fun n => ?_⟩
  rw [← Nat.add_assoc, hrun, hchecked, hcStage_pass hpass, DecStep.andThen_more]
  simp only [DecRun.withDec, hq, hused, hserved, hdict]
  rfl

end

/-! ### Input that ends inside a field (R317, R318) -/

theorem Decoder.soFar_eq (d : Decoder) : d.soFar = if d.stage = .payload then d.inBuf else d.field := by
  unfold Decoder.soFar
  cases d.stage <;> rfl

theorem Decoder.keep_eq (d : Decoder) (got : List Byte) :
    d.keep got = if d.stage = .payload then { d with inBuf := got } else { d with field := got } := by
  unfold Decoder.keep
  cases d.stage <;> rfl

theorem ne_payload_of_inHeader {stage : DecStage} (h : stage.inHeader = true) : stage ≠ .payload := by
  rintro rfl
  cases h

/-- A stage with a field gathers it, unless it is one for a length word where the run is to stop (R313). -/
theorem decStage_gathers {opening inEof : Bool} {cap : Nat} {r : DecRun} (hsize : 0 < r.state.dec.fieldSize)
    (hgo : r.state.dec.stage.inHeader = false → opening = false ∧ r.served ≠ cap) :
    ∃ next, decStage opening inEof cap r = gather inEof r.state.dec.fieldSize r next := by
  unfold Decoder.fieldSize at hsize ⊢
  unfold decStage
  cases hstage : r.state.dec.stage <;> simp only [hstage] at hsize hgo ⊢
  case blkLen =>
    obtain ⟨hopening, hroom⟩ := hgo rfl
    rw [if_neg (by simp [hopening, hroom])]
    exact ⟨_, rfl⟩
  case serve | finish => omega
  all_goals exact ⟨_, rfl⟩

/-- A stage whose field is longer than what there is of it keeps that, or fails at the end of the transport (R318). -/
theorem decStage_starved {opening inEof : Bool} {cap : Nat} {r : DecRun} (hip : r.ip ≤ r.state.snap.srcLen.toNat)
    (hgo : r.state.dec.stage.inHeader = false → opening = false ∧ r.served ≠ cap)
    (hshort : (r.state.dec.soFar ++ r.ahead).length < r.state.dec.fieldSize) :
    decStage opening inEof cap r =
      if inEof then .fail { r with ip := r.state.snap.srcLen.toNat } .transportEof
      else .stop ({ r with ip := r.state.snap.srcLen.toNat }.withDec (r.state.dec.keep (r.state.dec.soFar ++ r.ahead)))
        true false := by
  obtain ⟨next, hnext⟩ := decStage_gathers (inEof := inEof) (Nat.zero_lt_of_lt hshort) hgo
  rw [hnext]
  exact gather_starved inEof _ r next hip hshort

/-- The bytes of the frame that a stream inside the header has read. -/
def Decoder.headerSeen (d : Decoder) : List Byte := (if d.stage = .magic then [] else magicBytes) ++ d.hdr ++ d.field

/-- The run ends for want of input inside the header: it fails at the end of the transport, or it keeps all of the
input (R318). -/
def EndsInHeader (inEof : Bool) (s : State) (input : List Byte) (e : DecEnd) : Prop :=
  if inEof then ∃ q, e = .fail q .transportEof
  else ∃ q, e = .stop q true false ∧ q.ip = s.snap.srcLen.toNat ∧ q.served = 0 ∧ q.state.dec.state = s.dec.state ∧
    q.state.dec.stage.inHeader = true ∧ q.state.dec.field.length < q.state.dec.fieldSize ∧
    q.state.dec.headerSeen = input

/-- The run ends so within m stages. -/
def CutWithin (opening inEof : Bool) (cap : Nat) (s : State) (input : List Byte) (m : Nat) (r : DecRun) : Prop :=
  ∀ n, EndsInHeader inEof s input (decLoop opening inEof cap (n + m) r)

section
variable {s : State} {stage : DecStage} {hdr : List Byte} {flg bd : Byte} {fdesc : Word} {csize : BitVec 64}
  {dictId : Word} {r : DecRun} {input ahead : List Byte} (opening inEof : Bool) (cap : Nat)

theorem CutWithin.mono {m m' : Nat} (h : CutWithin opening inEof cap s input m r) (hm : m ≤ m') :
    CutWithin opening inEof cap s input m' r := by
  intro n
  have hcut := h (n + (m' - m))
  rwa [Nat.add_assoc, Nat.sub_add_cancel hm] at hcut

theorem CutWithin.before {m : Nat} {q : DecRun} (h : CutWithin opening inEof cap s input m q)
    (hstep : ∀ n, decLoop opening inEof cap (n + 1) r = decLoop opening inEof cap n q) :
    CutWithin opening inEof cap s input (m + 1) r := by
  intro n
  rw [← Nat.add_assoc, hstep]
  exact h n

/-- A header that ends inside the stage's field ends the run (R318). -/
theorem AtHeader.starved (h : AtHeader s stage hdr flg bd fdesc csize dictId r ahead) (hstage : stage.inHeader = true)
    (hseen : (if stage = .magic then [] else magicBytes) ++ hdr ++ ahead = input)
    (hshort : ahead.length < r.state.dec.fieldSize) : CutWithin opening inEof cap s input 1 r := by
  intro n
  have hst : r.state.dec.stage = stage := h.stage_eq
  have hhdr : r.state.dec.hdr = hdr := congrArg (·.dec.hdr) h.state
  have hsnap : r.state.snap = s.snap := by rw [h.state]
  have hpayload : r.state.dec.stage ≠ .payload := ne_payload_of_inHeader (hst ▸ hstage)
  have hsoFar : r.state.dec.soFar ++ r.ahead = ahead := by
    rw [Decoder.soFar_eq, if_neg hpayload]
    exact h.left
  have hend := decStage_starved (opening := opening) (inEof := inEof) (cap := cap) (r := r) (by rw [hsnap]; exact h.ip)
    (by rw [hst, hstage]; nofun) (by rw [hsoFar]; exact hshort)
  rw [hsoFar, Decoder.keep_eq, if_neg hpayload] at hend
  unfold EndsInHeader
  cases inEof with
  | true => exact ⟨_, decLoop_halt hend⟩
  | false =>
    refine ⟨_, decLoop_halt hend, congrArg (·.srcLen.toNat) hsnap, h.served, congrArg (·.dec.state) h.state, hst ▸ hstage,
      hshort, ?_⟩
    simp only [DecRun.withDec, Decoder.headerSeen, hst, hhdr, hseen]

/-- A beginning of the header ends inside the stage's field or has all of it. -/
theorem AtHeader.cut {m : Nat} {f tail more : List Byte}
    (h : AtHeader s stage hdr flg bd fdesc csize dictId r ahead) (hstage : stage.inHeader = true)
    (hf : r.state.dec.fieldSize = f.length)
    (hseen : (if stage = .magic then [] else magicBytes) ++ hdr ++ ahead = input) (happ : ahead ++ more = f ++ tail)
    (hnext : ∀ rest, ahead = f ++ rest → rest ++ more = tail → CutWithin opening inEof cap s input (m + 1) r) :
    CutWithin opening inEof cap s input (m + 1) r := by
  by_cases hshort : ahead.length < f.length
  · exact (h.starved opening inEof cap hstage hseen (hf ▸ hshort)).mono opening inEof cap (by omega)
  · obtain ⟨rest, hrest⟩ : f <+: ahead :=
      List.prefix_of_prefix_length_le ⟨tail, happ.symm⟩ ⟨more, rfl⟩ (not_lt.1 hshort)
    rw [← hrest, List.append_assoc, List.append_cancel_left_eq] at happ
    exact hnext rest hrest.symm happ

variable {more : List Byte} {b c sum : Byte} {z : BitVec 64} {v : Word} (hmore : more ≠ [])
include hmore

theorem AtHeader.cut_hc (h : AtHeader s .hc hdr flg bd fdesc csize dictId r ahead)
    (hseen : magicBytes ++ hdr ++ ahead = input) (happ : ahead ++ more = [sum]) :
    CutWithin opening inEof cap s input 1 r := by
  refine h.starved opening inEof cap rfl hseen ?_
  have hlen := congrArg List.length happ
  have hpos := List.length_pos_iff.2 hmore
  rw [List.length_append, List.length_singleton] at hlen
  simp only [Decoder.fieldSize, h.stage_eq]
  omega

theorem AtHeader.cut_dictId (h : AtHeader s (afterCsize flg) hdr flg bd fdesc csize dictId r ahead)
    (hseen : magicBytes ++ hdr ++ ahead = input)
    (happ : ahead ++ more = (if flg.getLsbD 0 then leBytes 4 v.toNat else []) ++ [sum]) :
    CutWithin opening inEof cap s input 2 r := by
  unfold afterCsize at h
  cases hf : flg.getLsbD 0 with
  | false =>
    simp only [hf, Bool.false_eq_true, if_false, List.nil_append] at h happ
    exact (h.cut_hc opening inEof cap hmore hseen happ).mono opening inEof cap (by omega)
  | true =>
    simp only [hf, if_true] at h happ
    refine h.cut opening inEof cap rfl (by simp only [Decoder.fieldSize, h.stage_eq, length_leBytes]) hseen happ
      fun rest hahead hrest => ?_
    obtain ⟨q, hq, hstep⟩ := (hahead ▸ h).dictionary opening inEof cap
    exact (hq.cut_hc opening inEof cap hmore (by simpa [hahead] using hseen) hrest).before opening inEof cap hstep

theorem AtHeader.cut_csize
    (h : AtHeader s (if flg.getLsbD 3 then .csize else afterCsize flg) hdr flg bd fdesc csize dictId r ahead)
    (hseen : magicBytes ++ hdr ++ ahead = input)
    (happ : ahead ++ more = (if flg.getLsbD 3 then leBytes 8 z.toNat else []) ++
      ((if flg.getLsbD 0 then leBytes 4 v.toNat else []) ++ [sum])) :
    CutWithin opening inEof cap s input 3 r := by
  cases hf : flg.getLsbD 3 with
  | false =>
    simp only [hf, Bool.false_eq_true, if_false, List.nil_append] at h happ
    exact (h.cut_dictId opening inEof cap hmore hseen happ).mono opening inEof cap (by omega)
  | true =>
    simp only [hf, if_true] at h happ
    refine h.cut opening inEof cap rfl (by simp only [Decoder.fieldSize, h.stage_eq, length_leBytes]) hseen happ
      fun rest hahead hrest => ?_
    obtain ⟨q, hq, hstep⟩ := (hahead ▸ h).contentSize opening inEof cap
    exact (hq.cut_dictId opening inEof cap hmore (by simpa [hahead] using hseen) hrest).before opening inEof cap hstep

theorem AtHeader.cut_bd (h : AtHeader s .bd hdr flg bd fdesc csize dictId r ahead)
    (hseen : magicBytes ++ hdr ++ ahead = input)
    (happ : ahead ++ more = [c] ++ ((if flg.getLsbD 3 then leBytes 8 z.toNat else []) ++
      ((if flg.getLsbD 0 then leBytes 4 v.toNat else []) ++ [sum]))) :
    CutWithin opening inEof cap s input 4 r := by
  refine h.cut opening inEof cap rfl (by simp only [Decoder.fieldSize, h.stage_eq, List.length_singleton]) hseen happ
    fun rest hahead hrest => ?_
  obtain ⟨q, hq, hstep⟩ := AtHeader.descriptor opening inEof cap (hahead ▸ h)
  exact (hq.cut_csize opening inEof cap hmore (by simpa [hahead] using hseen) hrest).before opening inEof cap hstep

theorem AtHeader.cut_flg (h : AtHeader s .flg hdr flg bd fdesc csize dictId r ahead) (hversion : versionOf b = 1#2)
    (hseen : magicBytes ++ hdr ++ ahead = input)
    (happ : ahead ++ more = [b] ++ ([c] ++ ((if b.getLsbD 3 then leBytes 8 z.toNat else []) ++
      ((if b.getLsbD 0 then leBytes 4 v.toNat else []) ++ [sum])))) :
    CutWithin opening inEof cap s input 5 r := by
  refine h.cut opening inEof cap rfl (by simp only [Decoder.fieldSize, h.stage_eq, List.length_singleton]) hseen happ
    fun rest hahead hrest => ?_
  obtain ⟨q, hq, hstep⟩ := AtHeader.version opening inEof cap (hahead ▸ h) hversion
  exact (hq.cut_bd opening inEof cap hmore (by simpa [hahead] using hseen) hrest).before opening inEof cap hstep

/-- A run over a proper beginning of a header of version 1 ends for want of input (R314, R317, R318). -/
theorem AtHeader.cut_magic (h : AtHeader s .magic [] flg bd fdesc csize dictId r ahead) (hversion : versionOf b = 1#2)
    (happ : ahead ++ more = magicBytes ++ (headerFields b c z v ++ [sum])) :
    CutWithin opening inEof cap s ahead 6 r := by
  refine h.cut opening inEof cap rfl (by simp only [Decoder.fieldSize, h.stage_eq]; rfl) rfl happ
    fun rest hahead hrest => ?_
  obtain ⟨q, hq, hstep⟩ := AtHeader.magic opening inEof cap (hahead ▸ h)
  simp only [headerFields, List.append_assoc, List.cons_append, List.nil_append] at hrest
  exact (hq.cut_flg opening inEof cap hmore hversion (by simp [hahead]) hrest).before opening inEof cap hstep

end

end Sys2Proof.Machine
end

section
/-! PROOFS. Input that ends inside a field under FDEC_OPEN and FDEC_READ (46_frame_decoder.md R311, R317, R318). -/

namespace Sys2Proof.Machine

/-- The four bytes a frame begins with (R314). -/
theorem magicBytes_eq : magicBytes = [0x04#8, 0x22#8, 0x4D#8, 0x18#8] := by decide

theorem length_bytes (s : State) (r : Region) : (s.bytes r).length = r.len := Memory.length_readBytes _ _ _

/-- A new frame stands before its magic number (R311). -/
theorem AtHeader.opened (s : State) :
    AtHeader s.openDecoder .magic [] 0#8 0#8 0#32 0#64 0#32 ⟨s.openDecoder, 0, 0⟩ (s.bytes s.snap.src) :=
  AtHeader.start s.openDecoder (Nat.zero_lt_succ _)

/-- A new frame with fewer bytes in SRC than the magic number has (R311). -/
theorem openDecoder_short {s : State} (h : s.snap.srcLen.toNat < 4) :
    (s.openDecoder.dec.soFar ++ s.openDecoder.bytes s.openDecoder.snap.src).length < s.openDecoder.dec.fieldSize := by
  rw [List.length_append, length_bytes]
  exact (Nat.zero_add _).trans_lt h

/-- A command whose first stage lacks input ends with it (R318). -/
theorem decLoop_starved {opening inEof : Bool} {cap : Nat} {s : State}
    (hgo : s.dec.stage.inHeader = false → opening = false ∧ cap ≠ 0)
    (hshort : (s.dec.soFar ++ s.bytes s.snap.src).length < s.dec.fieldSize) (n : Nat) :
    decLoop opening inEof cap (n + 1) ⟨s, 0, 0⟩ =
      if inEof then .fail ⟨s, s.snap.srcLen.toNat, 0⟩ .transportEof
      else .stop ⟨{ s with dec := s.dec.keep (s.dec.soFar ++ s.bytes s.snap.src) }, s.snap.srcLen.toNat, 0⟩ true false := by
  have hstep := decStage_starved (inEof := inEof) (r := ⟨s, 0, 0⟩) (Nat.zero_le _)
    (fun h => ⟨(hgo h).1, (hgo h).2.symm⟩) hshort
  rw [decLoop_step hstep]
  cases inEof <;> rfl

/-- A FDEC_OPEN whose SRC ends inside the header keeps all of it and asks for more, or fails at the end of the
transport (R311, R318). -/
theorem fdecOpen_cut {inEof : Bool} {s : State} {m : Nat} (hshut : s.dec.isOpen = false) (hfits : s.snap.src.Fits)
    (hcut : CutWithin true inEof 0 s.openDecoder (s.bytes s.snap.src) m ⟨s.openDecoder, 0, 0⟩) :
    ∃ t, exec (.fdecOpen inEof) s = .next t ∧ t.mem = s.mem ∧
      (inEof = false → t.status = s.status.ofDone true false ∧ t.result0 = 0#32 ∧ t.result1 = s.snap.srcLen ∧
        t.result2 = 0#32 ∧ t.dec.state = .opening ∧ t.dec.stage.inHeader = true ∧
        t.dec.field.length < t.dec.fieldSize ∧ t.dec.headerSeen = s.bytes s.snap.src) ∧
      (inEof = true → t.status = s.status.ofError .transportEof ∧ t.dec.state = .failed) := by
  have hend : EndsInHeader inEof s.openDecoder (s.bytes s.snap.src) (frameRun true inEof 0 s.openDecoder) :=
    frameRun_enough true inEof 0 m s.openDecoder ▸ hcut _
  unfold EndsInHeader at hend
  cases inEof with
  | true =>
    obtain ⟨q, hframe⟩ := hend
    obtain ⟨t, hexec, hfail, hmem⟩ := fdecOpen_failed hshut hfits hframe
    exact ⟨t, hexec, hmem, nofun, fun _ => ⟨hfail.status, by rw [hfail.dec]⟩⟩
  | false =>
    obtain ⟨q, hframe, hip, hserved, hstate, hstage, hfield, hseen⟩ := hend
    have hexec := fdecOpen_stop hshut hfits hframe
    have hstatus : q.state.status = s.openDecoder.status := frameRun_status (congrArg DecEnd.run hframe)
    have hused : BitVec.ofNat 32 q.ip = s.snap.srcLen := by
      rw [hip]
      exact (BitVec.ofNat_toNat ..).trans (BitVec.setWidth_eq _)
    exact ⟨_, hexec, fdecOpen_mem hexec, fun _ => ⟨congrArg (Status.ofDone · _ _) hstatus,
      congrArg (BitVec.ofNat 32) hserved, hused, rfl, hstate, hstage, hfield, hseen⟩, nofun⟩

/-- Settles O52: a stage that lacks input ends the run, the first one of FDEC_READ, or whichever stage of the header a
beginning of it leads FDEC_OPEN to. -/
theorem fdecReadInputExhausted : Obligations.FdecReadInputExhausted := by
  refine ⟨?_, fun s hshut hfits hshort => ?_, ?_⟩
  · intro inEof s hopened hgood hsrc hdst hapart hroom had hshort got
    have hpassed := fdecReadChecks_pass (Decoder.unreadable_false_iff.2 ⟨hopened, hgood⟩) hsrc hdst hapart
    have hhad : s.dec.soFar = had := s.dec.soFar_eq
    have hend := decLoop_starved (opening := false) (inEof := inEof) (cap := s.snap.dstCap.toNat) (s := s)
      (fun h => ⟨rfl, Args.dstCap_toNat_ne_zero (hroom h)⟩)
      (by rw [List.length_append, length_bytes, hhad]; exact hshort)
    rw [hhad, Decoder.keep_eq] at hend
    refine ⟨fun heof => ?_, fun heof => ?_⟩ <;> subst heof
    · exact fdecRead_stop hpassed (frameRun_of_loop (by decide) hend)
    · obtain ⟨t, hexec, -, hmem, -⟩ := exec_answers (.fdecRead true) s
      have hfail := fdecRead_failed hpassed hexec (frameRun_of_loop (by decide) hend)
      refine ⟨t, hexec, hfail.status, ?_, ?_, hmem.outside⟩ <;> rw [hfail.dec]
  · have hend := decLoop_starved (opening := true) (inEof := false) (cap := 0) (s := s.openDecoder) nofun
      (openDecoder_short hshort)
    exact fdecOpen_stop hshut hfits (frameRun_of_loop (by decide) hend)
  · intro inEof s flg bd csize dictId sum more hshut hfits hversion d magic hbytes hmore
    refine fdecOpen_cut hshut hfits
      (AtHeader.cut_magic true inEof 0 hmore (AtHeader.opened s) (c := bd) (z := csize) (v := dictId) (sum := sum) hversion ?_)
    rw [hbytes, magicBytes_eq, ← List.append_assoc]
    rfl

end Sys2Proof.Machine
end

section
/-! PROOFS. Blocks under FDEC_READ (46_frame_decoder.md R313, R317, R321-R323): the length word, and what becomes of a block
that is all in SRC. -/

namespace Sys2Proof.Machine

section
variable {s : State} {w : Word} {rest : List Byte}

/-! ### A length word or a checksum (R317) -/

/-- The first stage of a FDEC_READ gathers a field of four bytes that is all in SRC. -/
theorem gather_word (hstage : s.dec.stage ≠ .payload) (hfield : s.dec.field.length < 4)
    (hahead : s.dec.field ++ s.bytes s.snap.src = leBytes 4 w.toNat ++ rest) (inEof : Bool)
    (next : List Byte → DecRun → DecStep) :
    ∃ q, gather inEof 4 ⟨s, 0, 0⟩ next = next (leBytes 4 w.toNat) q ∧ q.ip + rest.length = s.snap.srcLen.toNat ∧
      q.served = 0 ∧ q.state = { s with dec := { s.dec with field := [] } } := by
  have hsoFar : s.dec.soFar = s.dec.field := by rw [Decoder.soFar_eq, if_neg hstage]
  obtain ⟨q, hq, -, hip, hserved, hstate⟩ := gather_ahead inEof 4 ⟨s, 0, 0⟩ next (leBytes 4 w.toNat) rest
    (by rw [hsoFar]; omega) (length_leBytes _ _) (Nat.zero_le _) (by rw [hsoFar, DecRun.ahead_start, hahead])
  exact ⟨q, hq, hip, hserved, hstate⟩

/-- With room in DST a FDEC_READ that meets a length word takes it (R313, R321). -/
theorem decLoop_lengthWord (hstage : s.dec.stage = .blkLen) (hroom : s.snap.dstCap ≠ 0#32) (hfield : s.dec.field.length < 4)
    (hahead : s.dec.field ++ s.bytes s.snap.src = leBytes 4 w.toNat ++ rest) (inEof : Bool) :
    ∃ q, q.ip + rest.length = s.snap.srcLen.toNat ∧ q.served = 0 ∧
      q.state = { s with dec := { s.dec with field := [] } } ∧
      ∀ n, decLoop false inEof s.snap.dstCap.toNat (n + 1) ⟨s, 0, 0⟩ =
        (blkLenStage (leBytes 4 w.toNat) q).andThen (decLoop false inEof s.snap.dstCap.toNat n) := by
  obtain ⟨q, hq, hip, hserved, hstate⟩ := gather_word (by rw [hstage]; decide) hfield hahead inEof blkLenStage
  have hne : ¬ ((false || (0 == s.snap.dstCap.toNat)) = true) := by
    simpa using (Args.dstCap_toNat_ne_zero hroom).symm
  refine ⟨q, hip, hserved, hstate, fun n => decLoop_step ?_⟩
  simp only [decStage, hstage, if_neg hne, hq]

/-! ### A block (R321-R323) -/

/-- A FDEC_READ from s comes to stand in front of the decoding of a block with length word w, this payload and, if it has a
checksum, these checksum bytes, with `rest` behind them. -/
def ReachesBlock (inEof : Bool) (s : State) (bcsum : Bool) (w : Word) (payload sum rest : List Byte) : Prop :=
  ∃ k q, k ≤ 2 ∧ AtBlock s w payload rest q ∧ ∀ n, decLoop false inEof s.snap.dstCap.toNat (n + 1 + k) ⟨s, 0, 0⟩ =
    (behindBlock bcsum payload sum q).andThen (decLoop false inEof s.snap.dstCap.toNat n)

section
variable {inEof : Bool}

theorem State.BlockAhead.reaches {payload sum : List Byte} (h : s.BlockAhead w payload sum rest)
    (hroom : s.snap.dstCap ≠ 0#32) : ReachesBlock inEof s s.dec.bcsum w payload sum rest :=
  decLoop_block inEof _ s w payload sum rest (Args.dstCap_toNat_ne_zero hroom) h

/-- A FDEC_READ that meets a block's checksum stands behind its payload (R323). -/
theorem reachesBlock_of_bcsum (hstage : s.dec.stage = .bcsum) (hfield : s.dec.field.length < 4)
    (hahead : s.dec.field ++ s.bytes s.snap.src = leBytes 4 w.toNat ++ rest) :
    ReachesBlock inEof s true s.dec.blkLen s.dec.inBuf (leBytes 4 w.toNat) rest := by
  obtain ⟨q, hq, hip, hserved, hstate⟩ := gather_word (by rw [hstage]; decide) hfield hahead inEof bcsumStage
  refine ⟨0, q, Nat.zero_le _, ⟨⟨.bcsum, by rw [hstate, ← hstage]⟩, hip, hserved⟩, fun n => decLoop_step ?_⟩
  simp only [decStage, hstage, hq, bcsumStage, behindBlock, hstate, ne_eq, leBytes_le32 (length_leBytes 4 _), true_and]

theorem behindBlock_fits {bcsum : Bool} {payload sum : List Byte} (q : DecRun)
    (hsum : bcsum = true → sum = leBytes 4 (xxh32 payload 0#32).toNat) :
    behindBlock bcsum payload sum q = decodeCurrent q :=
  if_neg fun h => h.2 (hsum h.1)

theorem frameCause_eq (c : Cause) : frameCause c = if c = .dstFull then .outputOverrun else c := by
  cases c <;> rfl

/-- A compressed block that does not decode is refused with the cause, an output past the block size as corrupt (R322). -/
theorem decodeCurrent_of_error {r : DecRun} {c : Cause} (hbit : r.state.dec.blkLen.getLsbD 31 = false)
    (hdecode : decodeBlock r.state.dec.inBuf r.state.dec.blockSize false
      (if r.state.dec.chained then r.state.dec.hist else []) = .error c) :
    decodeCurrent r = .fail r (if c = .dstFull then .outputOverrun else c) := by
  have hcontent : blockContent r.state.dec = .error (frameCause c) := by
    rw [blockContent, hbit, if_neg Bool.false_ne_true, hdecode]
  simp only [decodeCurrent, hcontent, frameCause_eq]

section
variable {t : State} {bcsum : Bool} {payload sum : List Byte} {c : Cause}
  (h : ReachesBlock inEof s bcsum w payload sum rest) (hpassed : firstCause (fdecReadChecks s) = none)
  (hexec : exec (.fdecRead inEof) s = .next t)
include h hpassed hexec

/-- A block whose checksum does not fit (R323). -/
theorem ReachesBlock.badChecksum (hbcsum : bcsum = true) (hsum : sum ≠ leBytes 4 (xxh32 payload 0#32).toNat) :
    t.status = s.status.ofError .blockChecksum ∧ t.dec.state = .failed ∧ t.dec.total = s.dec.total := by
  obtain ⟨k, q, hk, ⟨⟨stage, hstate⟩, -, -⟩, hrun⟩ := h
  have hbehind : behindBlock bcsum payload sum q = .fail q .blockChecksum := if_pos ⟨hbcsum, hsum⟩
  have hend (n : Nat) := Nat.add_assoc n 1 k ▸ (hbehind ▸ hrun n)
  have hfail := fdecRead_failed hpassed hexec (frameRun_of_loop (by omega) hend)
  refine ⟨hfail.status, ?_, ?_⟩ <;> rw [hfail.dec]
  rw [hstate]

/-- A compressed block whose checksum fits, if it has one, and whose payload does not decode (R322). -/
theorem ReachesBlock.undecodable (hsum : bcsum = true → sum = leBytes 4 (xxh32 payload 0#32).toNat)
    (hbit : w.getLsbD 31 = false)
    (hdecode : decodeBlock payload s.dec.blockSize false (if s.dec.chained then s.dec.hist else []) = .error c) :
    t.status = s.status.ofError (if c = .dstFull then .outputOverrun else c) ∧ t.dec.state = .failed ∧
      t.dec.total = s.dec.total := by
  obtain ⟨k, q, hk, ⟨⟨stage, hstate⟩, -, -⟩, hrun⟩ := h
  have herror : decodeCurrent q = .fail q (if c = .dstFull then .outputOverrun else c) :=
    decodeCurrent_of_error (by rw [hstate]; exact hbit) (by rw [hstate]; exact hdecode)
  have hend (n : Nat) := Nat.add_assoc n 1 k ▸ (herror ▸ behindBlock_fits q hsum ▸ hrun n)
  have hfail := fdecRead_failed hpassed hexec (frameRun_of_loop (by omega) hend)
  refine ⟨hfail.status, ?_, ?_⟩ <;> rw [hfail.dec]
  rw [hstate]

end

/-- A block length above the block size (R321). -/
theorem fdecRead_tooLarge {t : State} (hpassed : firstCause (fdecReadChecks s) = none)
    (hexec : exec (.fdecRead inEof) s = .next t) (hstage : s.dec.stage = .blkLen) (hroom : s.snap.dstCap ≠ 0#32)
    (hfield : s.dec.field.length < 4) (hahead : s.dec.field ++ s.bytes s.snap.src = leBytes 4 w.toNat ++ rest)
    (hlarge : s.dec.blockSize < w.toNat % 2 ^ 31) :
    t.status = s.status.ofError .blockTooLarge ∧ t.dec.state = .failed ∧ t.dec.total = s.dec.total := by
  obtain ⟨q, -, -, hstate, hrun⟩ := decLoop_lengthWord hstage hroom hfield hahead inEof
  have hword : blkLenStage (leBytes 4 w.toNat) q = .fail (q.withDec { q.state.dec with blkLen := w }) .blockTooLarge := by
    have hsize : q.state.dec.blockSize = s.dec.blockSize := by rw [hstate]
    simp only [blkLenStage, le32_leBytes, payloadLen]
    rw [if_neg (by omega), if_pos (hsize ▸ hlarge)]
  have hend (n : Nat) := hword ▸ hrun n
  have hfail := fdecRead_failed hpassed hexec (frameRun_of_loop (by decide) hend)
  refine ⟨hfail.status, ?_, ?_⟩ <;> rw [hfail.dec]
  simp only [DecRun.withDec, hstate]

end

end

end Sys2Proof.Machine
end

section
/-! PROOFS. The errors of the frame decoder's commands (46_frame_decoder.md R311, R312, R314-R316, R318-R323). -/

namespace Sys2Proof.Machine

section
variable {s : State} {flg : Byte} {f rest : List Byte} (opening inEof : Bool) (cap : Nat)

/-- A stream before or inside the magic number, with other four bytes there, refuses them (R314). -/
theorem decLoop_badMagic (hstage : s.dec.stage = .magic) (hfield : s.dec.field.length < 4)
    (hahead : s.dec.field ++ s.bytes s.snap.src = f ++ rest) (hlength : f.length = 4) (hf : f ≠ magicBytes) :
    ∃ q, ∀ n, decLoop opening inEof cap (n + 1) ⟨s, 0, 0⟩ = .fail q .badMagic := by
  have hat := AtHeader.start s (by simpa only [Decoder.fieldSize, hstage] using hfield)
  rw [hstage, hahead] at hat
  obtain ⟨q, -, hrun⟩ := hat.badMagic opening inEof cap hlength hf
  exact ⟨q, hrun⟩

/-- The FLG byte is the next of the header, or the first behind the magic number. -/
abbrev State.FlgAhead (s : State) (flg : Byte) (rest : List Byte) : Prop :=
  (s.dec.stage = .magic ∧ s.dec.field.length < 4 ∧ s.dec.field ++ s.bytes s.snap.src = magicBytes ++ flg :: rest) ∨
    (s.dec.stage = .flg ∧ s.dec.field = [] ∧ s.bytes s.snap.src = flg :: rest)

/-- A refused version shows in DEC_HDR and DEC_FDESC (R314). -/
theorem decLoop_versionRefused (h : s.FlgAhead flg rest) (hversion : versionOf flg ≠ 1#2) :
    ∃ k q, k ≤ 2 ∧ q.state.dec.hdr = s.dec.hdr ++ [flg] ∧
      q.state.decFdesc = (s.decFdesc.extractLsb' 8 24 ++ flg : BitVec (24 + 8)) ∧
      ∀ n, decLoop opening inEof cap (n + k) ⟨s, 0, 0⟩ = .fail q .version := by
  obtain ⟨k, r, hk, hr, hrun⟩ : ∃ k r, k ≤ 1 ∧
      AtHeader s .flg s.dec.hdr s.dec.flg s.dec.bd s.decFdesc s.decCsize s.decDictId r (flg :: rest) ∧
      ∀ n, decLoop opening inEof cap (n + k) ⟨s, 0, 0⟩ = decLoop opening inEof cap n r := by
    rcases h with ⟨hstage, hfield, hahead⟩ | ⟨hstage, hfield, hahead⟩
    · have hat := AtHeader.start s (by simpa only [Decoder.fieldSize, hstage] using hfield)
      rw [hstage, hahead] at hat
      obtain ⟨r, hr, hrun⟩ := hat.magic opening inEof cap
      exact ⟨1, r, le_rfl, hr, hrun⟩
    · have hat := AtHeader.start s (by simp only [Decoder.fieldSize, hstage, hfield, List.length_nil]; decide)
      rw [hstage, hfield, hahead] at hat
      exact ⟨0, _, Nat.zero_le _, hat, fun _ => rfl⟩
  obtain ⟨q, hq, hfail⟩ := hr.refused opening inEof cap hversion
  exact ⟨1 + k, q, by omega, by rw [hq], by rw [hq], fun n => by rw [← Nat.add_assoc, hrun, hfail]⟩

end

/-- The first four bytes of SRC. -/
theorem bytes_eq_four (s : State) (h : 4 ≤ s.snap.srcLen.toNat) :
    s.bytes s.snap.src = s.memRead s.snap.srcAddr.toNat 4 ++ (s.bytes s.snap.src).drop 4 := by
  have hfour : s.memRead s.snap.srcAddr.toNat 4 = (s.bytes s.snap.src).take 4 :=
    memRead_part s s.snap.srcAddr.toNat s.snap.srcLen.toNat 0 4 (by omega)
  rw [hfour, List.take_append_drop]

/-- DEC_FDESC of a new frame behind its FLG byte. -/
theorem fdesc_of_flg (flg : Byte) : ((0#32).extractLsb' 8 24 ++ flg : BitVec (24 + 8)) = flg.setWidth 32 := by
  rw [BitVec.setWidth_eq_append (by decide)]
  rfl

/-! ### FDEC_OPEN (R311, R314-R316, R318) -/

section
variable {inEof : Bool} {s : State} {flg bd sum : Byte} {csize : BitVec 64} {dictId : Word} {rest : List Byte}
  (hshut : s.dec.isOpen = false) (hfits : s.snap.src.Fits)
include hshut hfits

theorem fdecOpen_badMagic (hlength : 4 ≤ s.snap.srcLen.toNat) (hmagic : s.memRead s.snap.srcAddr.toNat 4 ≠ magicBytes) :
    ∃ t, exec (.fdecOpen inEof) s = .next t ∧ t.status = s.status.ofError .badMagic ∧ t.dec.state = .failed ∧
      t.mem = s.mem := by
  obtain ⟨q, hrun⟩ := decLoop_badMagic (s := s.openDecoder) true inEof 0 rfl (Nat.zero_lt_succ _) (bytes_eq_four s hlength)
    (Memory.length_readBytes _ _ _) hmagic
  obtain ⟨t, hexec, hfail, hmem⟩ := fdecOpen_failed hshut hfits (frameRun_of_loop (by decide) hrun)
  exact ⟨t, hexec, hfail.status, by rw [hfail.dec], hmem⟩

/-- A transport that ends inside the magic number (R318). -/
theorem fdecOpen_transportEof (hshort : s.snap.srcLen.toNat < 4) :
    ∃ t, exec (.fdecOpen true) s = .next t ∧ t.status = s.status.ofError .transportEof ∧ t.dec.state = .failed ∧
      t.mem = s.mem := by
  have hrun := decLoop_starved (opening := true) (inEof := true) (cap := 0) (s := s.openDecoder) nofun
    (openDecoder_short hshort)
  obtain ⟨t, hexec, hfail, hmem⟩ := fdecOpen_failed hshut hfits (frameRun_of_loop (by decide) hrun)
  exact ⟨t, hexec, hfail.status, by rw [hfail.dec], hmem⟩

theorem fdecOpen_versionRefused (hbytes : s.bytes s.snap.src = magicBytes ++ flg :: rest) (hversion : versionOf flg ≠ 1#2) :
    ∃ t, exec (.fdecOpen inEof) s = .next t ∧ t.status = s.status.ofError .version ∧ t.dec.state = .failed ∧
      t.decFdesc = flg.setWidth 32 ∧ t.mem = s.mem := by
  obtain ⟨k, q, hk, -, hfdesc, hrun⟩ := decLoop_versionRefused (s := s.openDecoder) true inEof 0
    (.inl ⟨rfl, Nat.zero_lt_succ _, hbytes⟩) hversion
  obtain ⟨t, hexec, hfail, hmem⟩ := fdecOpen_failed hshut hfits (frameRun_of_loop (by omega) hrun)
  exact ⟨t, hexec, hfail.status, by rw [hfail.dec], (hfail.fdesc.trans hfdesc).trans (fdesc_of_flg flg), hmem⟩

theorem fdecOpen_headerRefused (hversion : versionOf flg = 1#2)
    (hbytes : s.bytes s.snap.src = magicBytes ++ (headerFields flg bd csize dictId ++ sum :: rest))
    (hrefused : HeaderRefused (headerFields flg bd csize dictId) flg bd sum) :
    ∃ t, exec (.fdecOpen inEof) s = .next t ∧ t.dec.state = .failed ∧ t.mem = s.mem ∧
      t.decFdesc = (0#16 ++ bd ++ flg : BitVec (16 + 8 + 8)) ∧
      t.decCsize = (if flg.getLsbD 3 then csize else 0#64) ∧ t.decDictId = (if flg.getLsbD 0 then dictId else 0#32) ∧
      t.status = s.status.ofError (headerCause (headerFields flg bd csize dictId) flg bd sum) := by
  obtain ⟨k, q, hk, hq, hrun⟩ := decLoop_headerRefused true inEof 0 (openDecoder_headerAhead s hbytes) hversion hrefused
  obtain ⟨t, hexec, hfail, hmem⟩ := fdecOpen_failed hshut hfits (frameRun_of_loop (by omega) hrun)
  exact ⟨t, hexec, by rw [hfail.dec], hmem, by rw [hfail.fdesc, hq], by rw [hfail.csize, hq]; rfl,
    by rw [hfail.dictId, hq]; rfl, hfail.status⟩

end

/-! ### FDEC_READ inside a header (R312, R314-R316) -/

section
variable {inEof : Bool} {s t : State} {flg bd sum : Byte} {csize : BitVec 64} {dictId : Word} {f rest : List Byte}
  (hpassed : s.dec.state = .opening → firstCause (fdecReadChecks s) = none)
  (hexec : exec (.fdecRead inEof) s = .next t)
include hpassed hexec

theorem fdecRead_badMagic (hstate : s.dec.state = .opening) (hstage : s.dec.stage = .magic)
    (hfield : s.dec.field.length < 4) (hahead : s.dec.field ++ s.bytes s.snap.src = f ++ rest) (hlength : f.length = 4)
    (hf : f ≠ magicBytes) : t.status = s.status.ofError .badMagic ∧ t.dec.state = .failed := by
  obtain ⟨q, hrun⟩ := decLoop_badMagic false inEof s.snap.dstCap.toNat hstage hfield hahead hlength hf
  have hfail := fdecRead_failed (hpassed hstate) hexec (frameRun_of_loop (by decide) hrun)
  exact ⟨hfail.status, by rw [hfail.dec]⟩

theorem fdecRead_versionRefused (hstate : s.dec.state = .opening) (hahead : s.FlgAhead flg rest)
    (hversion : versionOf flg ≠ 1#2) :
    t.status = s.status.ofError .version ∧ t.dec.state = .failed ∧ t.dec.hdr = s.dec.hdr ++ [flg] ∧
      t.decFdesc = (s.decFdesc.extractLsb' 8 24 ++ flg : BitVec (24 + 8)) := by
  obtain ⟨k, q, hk, hhdr, hfdesc, hrun⟩ := decLoop_versionRefused false inEof s.snap.dstCap.toNat hahead hversion
  have hfail := fdecRead_failed (hpassed hstate) hexec (frameRun_of_loop (by omega) hrun)
  exact ⟨hfail.status, by rw [hfail.dec], by rw [hfail.dec]; exact hhdr, hfail.fdesc.trans hfdesc⟩

/-- The checksum byte alone is left of the header; nothing is asked of the header registers. -/
theorem fdecRead_checksRefuse (hstate : s.dec.state = .opening) (hstage : s.dec.stage = .hc) (hfield : s.dec.field = [])
    (hbytes : s.bytes s.snap.src = sum :: rest) (hrefused : HeaderRefused s.dec.hdr s.dec.flg s.dec.bd sum) :
    t.dec.state = .failed ∧ t.decFdesc = s.decFdesc ∧
      t.status = s.status.ofError (headerCause s.dec.hdr s.dec.flg s.dec.bd sum) := by
  have hat := AtHeader.start s (by simp only [Decoder.fieldSize, hstage, hfield, List.length_nil]; decide)
  rw [hstage, hfield, hbytes] at hat
  obtain ⟨q, hq, hrun⟩ := AtHeader.checksRefuse false inEof s.snap.dstCap.toNat hat hrefused
  have hfail := fdecRead_failed (hpassed hstate) hexec (frameRun_of_loop (by decide) hrun)
  exact ⟨by rw [hfail.dec], by rw [hfail.fdesc, hq], hfail.status⟩

theorem fdecRead_headerRefused (hahead : s.HeaderAhead flg bd csize dictId sum rest) (hversion : versionOf flg = 1#2)
    (hrefused : HeaderRefused (headerFields flg bd csize dictId) flg bd sum) :
    t.dec.state = .failed ∧ t.decFdesc = (0#16 ++ bd ++ flg : BitVec (16 + 8 + 8)) ∧
      t.decCsize = (if flg.getLsbD 3 then csize else s.decCsize) ∧
      t.decDictId = (if flg.getLsbD 0 then dictId else s.decDictId) ∧
      t.status = s.status.ofError (headerCause (headerFields flg bd csize dictId) flg bd sum) := by
  obtain ⟨k, q, hk, hq, hrun⟩ := decLoop_headerRefused false inEof s.snap.dstCap.toNat hahead hversion hrefused
  obtain ⟨hstate, -⟩ := hahead
  have hfail := fdecRead_failed (hpassed hstate) hexec (frameRun_of_loop (by omega) hrun)
  exact ⟨by rw [hfail.dec], by rw [hfail.fdesc, hq], by rw [hfail.csize, hq], by rw [hfail.dictId, hq], hfail.status⟩

end

/-- Settles O50: the pre-checks in order, and behind them the stage that refuses its field. -/
theorem frameDecoderTraps : Obligations.FrameDecoderTraps := by
  intro inEof s
  have hopen := firstCause_fdecOpenChecks s
  have hread := firstCause_fdecReadChecks s
  refine ⟨fun ho => ?_, fun ho hfits => ?_, fun ho hfits hlength hmagic => ?_, fun ho hfits hshort heof => ?_,
    fun hr => ?_, fun hopened hgood hfits => ?_, fun hopened hgood hsrc hdst hapart => ?_,
    fun flg rest ho hfits hbytes hversion => ?_, ?_, fun hsrc hdst hapart => ?_⟩
  · rw [if_neg (by simp [ho])] at hopen
    exact fdecOpen_refused hopen
  · rw [if_pos ho, if_neg hfits] at hopen
    exact fdecOpen_refused hopen
  · exact fdecOpen_badMagic ho hfits hlength (magicBytes_eq ▸ hmagic)
  · exact heof ▸ fdecOpen_transportEof ho hfits hshort
  · rw [if_neg (by rw [Decoder.unreadable_false_iff]; tauto)] at hread
    exact fdecRead_refused hread
  · rw [if_pos (Decoder.unreadable_false_iff.2 ⟨hopened, hgood⟩), if_neg hfits] at hread
    exact fdecRead_refused hread
  · rw [if_pos (Decoder.unreadable_false_iff.2 ⟨hopened, hgood⟩), if_pos ⟨hsrc, hdst⟩, if_neg hapart] at hread
    exact fdecRead_refused hread
  · exact fdecOpen_versionRefused ho hfits (magicBytes_eq ▸ hbytes) hversion
  · intro flg bd csize dictId sum rest ho hfits hversion d hbytes hrefused
    refine fdecOpen_headerRefused (rest := rest) ho hfits hversion ?_ hrefused
    rw [hbytes, magicBytes_eq, ← List.append_assoc]
    rfl
  · obtain ⟨t, hexec, -, hmem, -⟩ := exec_answers (.fdecRead inEof) s
    have hblocks (h : s.dec.state = .headerRead ∨ s.dec.state = .blockLoop) :=
      fdecReadChecks_pass_of_headerRead h hsrc hdst hapart
    have hheader (h : s.dec.state = .opening) := fdecReadChecks_pass (Decoder.readable_of_opening h) hsrc hdst hapart
    refine ⟨t, hexec, fun _ => hmem.outside, fun _ _ => fdecRead_checksRefuse hheader hexec,
      fun w rest hstate hfield hbytes => ⟨fun hstage hroom => ?_, fun hstage hsum => ?_,
        fun c hstage hsum hbit hdecode => ?_⟩,
      fun w payload sum rest hstate hroom hahead => ⟨?_, fun c hsum hbit hdecode => ?_⟩,
      fun f rest hstate hstage hfield hahead hlength hf => ?_, fun flg rest hstate hahead hversion => ?_,
      fun _ _ _ _ _ _ => fdecRead_headerRefused hheader hexec⟩
    · exact fdecRead_tooLarge (hblocks hstate) hexec hstage hroom hfield hbytes
    · refine (reachesBlock_of_bcsum hstage hfield hbytes).badChecksum (hblocks hstate) hexec rfl fun hwords => hsum ?_
      exact (le32_leBytes w).symm.trans (hwords ▸ le32_leBytes _)
    · exact (reachesBlock_of_bcsum hstage hfield hbytes).undecodable (hblocks hstate) hexec (fun _ => by rw [hsum]) hbit
        hdecode
    · exact (hahead.reaches hroom).badChecksum (hblocks hstate) hexec
    · exact (hahead.reaches hroom).undecodable (hblocks hstate) hexec hsum hbit hdecode
    · exact fdecRead_badMagic hheader hexec hstate hstage hfield hahead hlength (magicBytes_eq ▸ hf)
    · exact fdecRead_versionRefused hheader hexec hstate (magicBytes_eq ▸ hahead) hversion

end Sys2Proof.Machine
end

section
/-! PROOFS. What FDEC_READ serves (46_frame_decoder.md R312, R313, R321-R327). -/

namespace Sys2Proof.Machine

/-! ### Serving (R313, R325) -/

/-- With content to serve and no room left a run stops (R313, R325). -/
theorem decStage_serve_full {opening inEof : Bool} {cap : Nat} {r : DecRun} (hstage : r.state.dec.stage = .serve)
    (hfull : r.served = cap) : decStage opening inEof cap r = .stop r false false := by
  simp only [decStage, hstage, if_pos hfull]

/-- After the end marker a run stops at once (R324). -/
theorem decStage_finish {opening inEof : Bool} {cap : Nat} {r : DecRun} (hstage : r.state.dec.stage = .finish) :
    decStage opening inEof cap r = .stop r false true := by
  simp only [decStage, hstage]

/-- The machine behind serving the next n bytes of the current block, all of it or not, at the start of DST (R313). -/
def State.served (s : State) (n : Nat) : State :=
  { s.memWrite s.snap.dstAddr.toNat ((s.dec.outBuf.drop s.dec.servePos).take n) with
    dec := { s.dec with servePos := s.dec.servePos + n, total := s.dec.total + BitVec.ofNat 64 n,
                        stage := if s.dec.servePos + n = s.dec.outBuf.length then .blkLen else .serve } }

/-- A run that has served nothing yet serves what there is room for, or all the block still holds (R313). -/
theorem serveStage_eq {s : State} {cap n ip : Nat} (hpos : s.dec.servePos ≤ s.dec.outBuf.length)
    (hn : n = min cap (s.dec.outBuf.length - s.dec.servePos)) : serveStage cap ⟨s, ip, 0⟩ = .more ⟨s.served n, ip, n⟩ := by
  have hdone : s.dec.outBuf.length ≤ s.dec.servePos + n ↔ s.dec.servePos + n = s.dec.outBuf.length := by omega
  simp only [serveStage, Nat.sub_zero, Nat.add_zero, Nat.zero_add, ← hn, hdone]
  rfl

/-- A run that has room for no more than the block still holds serves that and stops (R313, R325). -/
theorem decLoop_serve_part {inEof : Bool} {s : State} {cap ip : Nat} (hstage : s.dec.stage = .serve) (hroom : cap ≠ 0)
    (hle : cap ≤ s.dec.outBuf.length - s.dec.servePos) (n : Nat) :
    decLoop false inEof cap (n + 2) ⟨s, ip, 0⟩ = .stop ⟨s.served cap, ip, cap⟩ false false := by
  have hserve : decStage false inEof cap ⟨s, ip, 0⟩ = .more ⟨s.served cap, ip, cap⟩ :=
    (decStage_serve hstage hroom.symm).trans (serveStage_eq (by omega) (min_eq_left hle).symm)
  rw [decLoop_more hserve]
  refine decLoop_halt ?_
  by_cases hdone : s.dec.servePos + cap = s.dec.outBuf.length
  · exact decStage_blkLen_full (if_pos hdone) rfl
  · exact decStage_serve_full (if_neg hdone) rfl

/-- A FDEC_READ before a length word or content, with DST_CAP = 0, does nothing (R325). -/
theorem decLoop_noRoom {inEof : Bool} {s : State} {cap : Nat} (hstage : s.dec.stage = .serve ∨ s.dec.stage = .blkLen)
    (hcap : cap = 0) (n : Nat) : decLoop false inEof cap (n + 1) ⟨s, 0, 0⟩ = .stop ⟨s, 0, 0⟩ false false := by
  rcases hstage with hstage | hstage
  · exact decLoop_halt (decStage_serve_full hstage hcap.symm)
  · exact decLoop_halt (decStage_blkLen_full hstage hcap.symm)

/-! ### A block that decodes (R313, R322) -/

/-- The machine behind the decoding of a block with length word w and this payload to the content `out` (R322). -/
def State.decoded (s : State) (w : Word) (payload out : List Byte) : State :=
  { s with
    dec := { s.dec with
      state := .blockLoop, stage := .serve, field := [], blkLen := w, inBuf := payload, outBuf := out, servePos := 0
      hist := if s.dec.chained then lastBytes 65536 (s.dec.hist ++ out) else s.dec.hist } }

section
variable {inEof bcsum : Bool} {s : State} {w : Word} {payload sum rest out : List Byte}

/-- A FDEC_READ that reaches a block whose checksum fits, if it has one, goes on at serving its content (R313, R323). -/
theorem ReachesBlock.decoded (h : ReachesBlock inEof s bcsum w payload sum rest)
    (hsum : bcsum = true → sum = leBytes 4 (xxh32 payload 0#32).toNat) (hdec : s.dec.Decodes w payload out) :
    ∃ k, k ≤ 3 ∧ ∀ n, decLoop false inEof s.snap.dstCap.toNat (n + k) ⟨s, 0, 0⟩ =
      decLoop false inEof s.snap.dstCap.toNat n ⟨s.decoded w payload out, s.snap.srcLen.toNat - rest.length, 0⟩ := by
  obtain ⟨k, q, hk, ⟨⟨stage, hstate⟩, hip, hserved⟩, hrun⟩ := h
  have hcontent : blockContent q.state.dec = .ok out := by
    rw [hstate]
    exact blockContent_of_decodes hdec
  have hused : q.ip = s.snap.srcLen.toNat - rest.length := by omega
  refine ⟨1 + k, by omega, fun n => ?_⟩
  rw [← Nat.add_assoc, hrun, behindBlock_fits q hsum, decodeCurrent_of_content hcontent, DecStep.andThen_more]
  simp only [DecRun.withDec, hstate, hused, hserved]
  rfl

/-- With room for no more than the content, FDEC_READ serves from its start (R313, R325). -/
theorem ReachesBlock.serves (h : ReachesBlock inEof s bcsum w payload sum rest)
    (hpassed : firstCause (fdecReadChecks s) = none)
    (hsum : bcsum = true → sum = leBytes 4 (xxh32 payload 0#32).toNat) (hdec : s.dec.Decodes w payload out)
    (hroom : s.snap.dstCap ≠ 0#32) (hle : s.snap.dstCap.toNat ≤ out.length) :
    let n := s.snap.dstCap.toNat
    exec (.fdecRead inEof) s = .next ({ s.memWrite s.snap.dstAddr.toNat (out.take n) with
      dec := { s.dec with
        state := .blockLoop, stage := (if n = out.length then .blkLen else .serve), field := [], blkLen := w,
        inBuf := payload, outBuf := out, servePos := n, total := s.dec.total + BitVec.ofNat 64 n,
        hist := if s.dec.chained then lastBytes 65536 (s.dec.hist ++ out) else s.dec.hist } }.complete n
          (s.snap.srcLen.toNat - rest.length) 0) := by
  obtain ⟨k, hk, hrun⟩ := h.decoded hsum hdec
  have hend (n : Nat) := (hrun (n + 2)).trans
    (decLoop_serve_part (s := s.decoded w payload out) rfl (Args.dstCap_toNat_ne_zero hroom) hle n)
  have hexec := fdecRead_stop hpassed
    (frameRun_of_loop (k := 2 + k) (by omega) fun n => Nat.add_assoc n 2 k ▸ hend n)
  simp only [State.served, State.decoded, Nat.zero_add, List.drop_zero] at hexec
  exact hexec

/-- FDEC_READ that meets the end marker closes the frame and reports it (R321, R324). -/
theorem fdecRead_endMarker (hpassed : firstCause (fdecReadChecks s) = none) (hstage : s.dec.stage = .blkLen)
    (hroom : s.snap.dstCap ≠ 0#32) (hfield : s.dec.field.length < 4)
    (hahead : s.dec.field ++ s.bytes s.snap.src = leBytes 4 w.toNat ++ rest) (hzero : w.toNat % 2 ^ 31 = 0) :
    exec (.fdecRead inEof) s = .next ({ s with
      dec := { s.dec with state := .closed, stage := .finish, field := [], blkLen := w } }.finishWith false true 0
        (s.snap.srcLen.toNat - rest.length) 0) := by
  obtain ⟨q, hip, hserved, hstate, hrun⟩ := decLoop_lengthWord hstage hroom hfield hahead inEof
  have hused : q.ip = s.snap.srcLen.toNat - rest.length := by omega
  have hword : blkLenStage (leBytes 4 w.toNat) q = .more ⟨{ s with
      dec := { s.dec with state := .closed, stage := .finish, field := [], blkLen := w } },
      s.snap.srcLen.toNat - rest.length, 0⟩ := by
    simp only [blkLenStage, le32_leBytes, payloadLen, if_pos hzero, DecRun.withDec, hstate, hused, hserved]
  simp only [hword, DecStep.andThen_more] at hrun
  have hend (n : Nat) := (hrun (n + 1)).trans (decLoop_halt (decStage_finish rfl))
  exact fdecRead_stop hpassed (frameRun_of_loop (k := 2) (by decide) hend)

end

/-- A block with no checksum bytes, or with the ones of its payload, has a checksum that fits. -/
theorem fits_of_eq_ite {bcsum : Bool} {sum sum' : List Byte} (h : sum = if bcsum then sum' else []) :
    bcsum = true → sum = sum' := by
  rintro rfl
  exact h

/-- Settles O51: the run goes from field to field up to the state a FDEC_READ may start from, and on from there. -/
theorem fdecReadServes : Obligations.FdecReadServes := by
  refine ⟨?_, ?_, ?_, ?_, ?_, ?_, ?_, ?_⟩
  · intro inEof s hstate hstage hsrc hdst hapart hle _ hroom
    exact fdecRead_stop (fdecReadChecks_pass_of_headerRead hstate hsrc hdst hapart)
      (frameRun_of_loop (by decide) (decLoop_serve_part hstage (Args.dstCap_toNat_ne_zero hroom) hle))
  · intro inEof s hstate hstage hsrc hdst hapart
    have hread : s.dec.unreadable = false := by simp [Decoder.unreadable_false_iff, hstate]
    exact fdecRead_stop (fdecReadChecks_pass hread hsrc hdst hapart)
      (frameRun_of_loop (k := 1) (by decide) fun n => decLoop_halt (decStage_finish hstage))
  · intro inEof s w payload sum rest out hstate hsrc hdst hapart hroom hahead hsum hdec hle
    exact (hahead.reaches hroom).serves (fdecReadChecks_pass_of_headerRead hstate hsrc hdst hapart)
      (fits_of_eq_ite hsum) hdec hroom hle
  · intro inEof s hstate hstage hsrc hdst hapart hzero
    exact fdecRead_stop (fdecReadChecks_pass_of_headerRead hstate hsrc hdst hapart)
      (frameRun_of_loop (k := 1) (by decide) (decLoop_noRoom hstage (congrArg BitVec.toNat hzero)))
  · intro inEof s hstate hstage hsrc hdst hapart hpos n hlt
    have hread := Decoder.readable_of_headerRead hstate
    have hserve := (decStage_serve (inEof := inEof) (opening := false) (r := ⟨s, 0, 0⟩) hstage
      (Nat.zero_lt_of_lt hlt).ne).trans (serveStage_eq hpos (min_eq_right hlt.le).symm)
    have hgo := goesOnAs (i := 0) (v := n) inEof 1 (s := s) (u := s.served n) rfl
      ⟨hsrc, hdst, Nat.zero_le _, .inr hlt⟩ hapart hread hread fun _ => decLoop_more hserve
    have hall : s.dec.servePos + n = s.dec.outBuf.length := by omega
    have hbytes : (s.dec.outBuf.drop s.dec.servePos).take n = s.dec.outBuf.drop s.dec.servePos :=
      List.take_of_length_le (by rw [List.length_drop])
    simp only [State.served, hall, hbytes, if_true] at hgo
    exact hgo
  · intro inEof s w payload sum rest out hstate hsrc hdst hapart hroom hahead hsum hdec
    obtain ⟨k, -, hrun⟩ := (hahead.reaches hroom).decoded (fits_of_eq_ite hsum) hdec
    exact goesOnAs inEof k (u := s.decoded w payload out) rfl ⟨hsrc, hdst, Nat.sub_le _ _, .inl rfl⟩ hapart
      (Decoder.readable_of_headerRead hstate) rfl hrun
  · intro inEof s flg bd csize dictId sum rest hsrc hdst hapart hahead hversion hsum hreserved hsize hcsum hdict
    obtain ⟨k, -, hrun⟩ := decLoop_headerAccepted false inEof s.snap.dstCap.toNat hahead hversion hsum hreserved hsize
      hcsum hdict
    exact goesOnAs inEof k (u := s.behindHeader flg bd csize dictId) rfl ⟨hsrc, hdst, Nat.sub_le _ _, .inl rfl⟩ hapart
      (Decoder.readable_of_opening hahead.1) rfl hrun
  · intro inEof s w rest hstate hsrc hdst hapart hroom hfield hbytes
    have hpassed := fdecReadChecks_pass_of_headerRead hstate hsrc hdst hapart
    have hused : s.snap.srcLen.toNat - rest.length = 4 - s.dec.field.length := by
      have hlength := congrArg List.length hbytes
      have hsrcLength : (s.bytes s.snap.src).length = s.snap.srcLen.toNat := length_bytes _ _
      simp only [List.length_append, length_leBytes, hsrcLength] at hlength
      omega
    rw [← hused]
    refine ⟨fun hstage hzero => fdecRead_endMarker hpassed hstage hroom hfield hbytes hzero,
      fun out hstage hsum hdec hle => ?_⟩
    exact (reachesBlock_of_bcsum hstage hfield hbytes).serves hpassed (fun _ => by rw [hsum]) hdec hroom hle

end Sys2Proof.Machine
end

section
/-! PROOFS. The control commands (47_control.md R350-R353). -/

namespace Sys2Proof.Machine

/-! ### NOP (R350) -/

/-- STATUS[2:0] is ERR, DONE and BUSY (R35). -/
theorem statusWord_low (s : State) : s.statusWord.extractLsb' 0 3 =
    (BitVec.ofBool s.status.err ++ BitVec.ofBool s.status.done ++ BitVec.ofBool s.busy : BitVec (1 + 1 + 1)) := by
  obtain ⟨hbusy, hdone, herr, -⟩ := statusWord_bits s
  apply BitVec.eq_of_getLsbD_eq
  intro i hi
  simp only [BitVec.getLsbD_extractLsb', BitVec.getLsbD_append]
  interval_cases i
  · simpa using hbusy
  · simpa using hdone
  · simpa using herr

/-- After a completion without error STATUS reads DONE, neither ERR nor BUSY (R361). -/
theorem statusWord_complete_low (s : State) (r0 r1 r2 : Nat) :
    (s.complete r0 r1 r2).statusWord.extractLsb' 0 3 = 0b010#3 := by
  simp [statusWord_low, State.busy, Status.ofDone]

/-- After a completion without error, and with no error pending, IRQ_STATUS reads DONE_PEND alone (R36, R361). -/
theorem irqStatusWord_complete {s : State} (h : s.errPend = false) (r0 r1 r2 : Nat) :
    (s.complete r0 r1 r2).irqStatusWord = 1#32 := by
  simp [State.irqStatusWord, h]

/-- NOP's own word is the only one of its opcode that sets no reserved bit (R112, R350). -/
theorem decode_opcode_zero {w : Word} (hop : w.toNat % 256 = 0) (hw : w ≠ 0#32) : decode w = .error .reservedBits := by
  have hop : opcodeOf w = 0#8 := BitVec.eq_of_toNat_eq ((opcodeOf_toNat w).trans hop)
  have hrow : opcodeRow (opcodeOf w) (modOf w) = some (0xFF#8, .nop) := by rw [hop]; rfl
  have hset : upperOf w ≠ 0#16 ∨ modOf w &&& 0xFF#8 ≠ 0#8 := by
    by_contra hzero
    obtain ⟨hupper, hmod⟩ := not_or.1 hzero
    exact hw (word_ext hop (BitVec.and_allOnes.symm.trans (not_not.1 hmod)) (not_not.1 hupper))
  rw [decode_of_opcodeRow hrow, if_pos hset]

/-- Settles O24: NOP is a completion with results 0, and its opcode has no modifier bits. -/
theorem nopResult : Obligations.NopResult :=
  ⟨fun s => ⟨s.complete 0 0 0, rfl, rfl, statusWord_complete_low s 0 0 0, fun h => irqStatusWord_complete h 0 0 0⟩,
    fun _ hop hw => decode_opcode_zero hop hw⟩

/-! ### ABORT_ENC and ABORT_DEC (R351, R352) -/

section
variable {s : State}

theorem State.dropEncoder_of_unopened (h : s.enc.state = .unopened) : s.dropEncoder = s :=
  if_pos h

/-- The index of a dropped stream is released where it was the encoder's. -/
theorem State.dropEncoder_of_owned (h : s.enc.state ≠ .unopened) (hown : s.index.owner = .encoder) :
    s.dropEncoder = { s with enc := Encoder.reset, index := { s.index with owner := .free } } := by
  rw [State.dropEncoder, if_neg h, if_pos hown]

/-- An index that is not the encoder's stays as it is beside a dropped stream. -/
theorem State.dropEncoder_of_not_owned (h : s.enc.state ≠ .unopened) (hown : s.index.owner ≠ .encoder) :
    s.dropEncoder = { s with enc := Encoder.reset } := by
  rw [State.dropEncoder, if_neg h, if_neg hown]

/-- ABORT_ENC completes on the state without the stream. -/
theorem exec_abortEnc_of_dropEncoder {u : State} (h : s.dropEncoder = u) :
    exec .abortEnc s = .next (u.complete 0 0 0) := by
  subst h
  rfl

end

/-- Settles O25: ABORT_ENC by the three cases of dropping the encoder stream; ABORT_DEC has one. -/
theorem abortResults : Obligations.AbortResults := fun _ =>
  ⟨fun hstate => exec_abortEnc_of_dropEncoder (State.dropEncoder_of_unopened hstate),
    fun hstate hown => exec_abortEnc_of_dropEncoder (State.dropEncoder_of_owned hstate hown),
    fun hstate hown => exec_abortEnc_of_dropEncoder (State.dropEncoder_of_not_owned hstate hown), rfl⟩

end Sys2Proof.Machine
end

section
/-! PROOFS. Completion and errors (60_exceptions.md R360-R366, R374): what done and raise write, the code of each cause, how
every command ends, and which commands have no error behind their pre-checks. -/

namespace Sys2Proof.Machine

/-! ### done and raise (R361, R362) -/

/-- RESULT0 to RESULT2 as the host reads them (R42). -/
theorem regValue_results (s : State) :
    s.regValue 0x04C = s.result0 ∧ s.regValue 0x050 = s.result1 ∧ s.regValue 0x054 = s.result2 :=
  ⟨rfl, rfl, rfl⟩

theorem busy_of_idle {s : State} (h : s.running = none) : s.busy = false := by
  simp [State.busy, h]

/-- Settles O16: the registers that done and raise write, and that they write no other. -/
theorem completionEffects : Obligations.CompletionEffects := by
  refine ⟨fun s needInput frameEnd r0 r1 r2 => ?_, fun s c => ?_⟩
  · obtain ⟨h0, h1, h2⟩ := regValue_results (s.finishWith needInput frameEnd r0 r1 r2)
    exact ⟨h0, h1, h2, busy_of_idle rfl, rfl, rfl⟩
  · obtain ⟨h0, h1, h2⟩ := regValue_results (s.raise c)
    exact ⟨h0, h1, h2, busy_of_idle rfl, rfl, rfl⟩

/-! ### Error codes (R365, R366) -/

/-- The causes in the order of the spec's list (R366). -/
def causes : List Cause := (List.range 32).map Cause.ofNat

theorem mem_causes (c : Cause) : c ∈ causes := by
  cases c <;> decide

/-- The codes of the list of causes are all different (R366). -/
theorem nodup_causeCodes : (causes.map causeCode).Nodup := by decide

theorem causeCode_injective {c d : Cause} (h : causeCode c = causeCode d) : c = d :=
  List.inj_on_of_nodup_map nodup_causeCodes (mem_causes c) (mem_causes d) h

/-- Settles O17: the tables of classes and causes row by row, and no code twice. -/
theorem errorCodes : Obligations.ErrorCodes := by
  refine ⟨rfl, rfl, rfl, rfl, rfl, fun _ _ => causeCode_injective, fun c => ?_, fun c => ?_⟩
  · cases c <;> rfl
  · cases c <;> rfl

/-! ### Every command ends (R360) -/

/-- Settles O18: a command answers idle, and with done or with an error. -/
theorem everyCommandCompletes : Obligations.EveryCommandCompletes := by
  intro i s
  obtain ⟨t, hexec, hframe, -, -, hended⟩ := exec_answers i s
  refine ⟨t, hexec, busy_of_idle hframe.idle.1, ?_⟩
  obtain ⟨needInput, frameEnd, -, hstatus, hdone, -⟩ | ⟨c, hstatus, herr, -, h0, h1, h2⟩ := hended
  · rw [hstatus]
    exact .inl ⟨rfl, rfl, rfl, rfl, hdone⟩
  · rw [hstatus]
    exact .inr ⟨rfl, rfl, rfl, rfl, herr, h0, h1, h2, c, rfl, rfl⟩

/-! ### Errors of the pre-checks only (R363) -/

/-- An answer without an execution error: done, or an error on the state before the command (R363). -/
inductive DoneOrRefused (s : State) : Result → Prop
  | done (u : State) (r0 r1 r2 : Nat) : DoneOrRefused s (.next (u.complete r0 r1 r2))
  | refused (c : Cause) : DoneOrRefused s (.next (s.raise c))

/-- Completing behind pre-checks. -/
theorem doneOrRefused_checked (s : State) (q : Option Cause) (u : State) (r0 r1 r2 : Nat) :
    DoneOrRefused s (match q with | some c => .next (s.raise c) | none => .next (u.complete r0 r1 r2)) := by
  cases q with
  | some c => exact .refused c
  | none => exact .done u r0 r1 r2

/-- Of the two ways to answer only a refusal sets ERR. -/
theorem DoneOrRefused.eq_raise {s t : State} (h : DoneOrRefused s (.next t)) (herr : t.status.err = true) :
    ∃ c, t = s.raise c := by
  cases h with
  | done u r0 r1 r2 => exact absurd herr Bool.false_ne_true
  | refused c => exact ⟨c, rfl⟩

theorem matchInit_doneOrRefused (hc : Bool) (s : State) : DoneOrRefused s (exec (.matchInit hc) s) :=
  doneOrRefused_checked s (firstCause (matchInitChecks s)) _ _ _ _

theorem matchFind_doneOrRefused (s : State) : DoneOrRefused s (exec .matchFind s) :=
  doneOrRefused_checked s (firstCause (matchFindChecks s)) _ _ _ _

theorem matchWiden_doneOrRefused (s : State) : DoneOrRefused s (exec .matchWiden s) :=
  doneOrRefused_checked s (firstCause (matchWidenChecks s)) _ _ _ _

theorem fencOpen_doneOrRefused (level : BitVec 4) (s : State) : DoneOrRefused s (exec (.fencOpen level) s) :=
  doneOrRefused_checked s ((levelCause level).or (firstCause (fencOpenChecks s))) _ _ _ _

theorem fencWrite_doneOrRefused (s : State) : DoneOrRefused s (exec .fencWrite s) :=
  doneOrRefused_checked s (firstCause (fencWriteChecks s)) _ _ _ _

/-- With no open stream FENC_CLOSE has no check, and is done at once (R292). -/
theorem fencClose_doneOrRefused (s : State) : DoneOrRefused s (exec .fencClose s) := by
  change DoneOrRefused s (execFencClose s)
  unfold execFencClose
  split
  · exact doneOrRefused_checked s (firstCause (fencCloseChecks s)) _ _ _ _
  · exact .done s 0 0 0

/-- The control commands only complete (R350-R352). -/
theorem control_completes {i : Instr} (hi : i = .nop ∨ i = .abortEnc ∨ i = .abortDec) (s : State) :
    ∃ u : State, exec i s = .next (u.complete 0 0 0) := by
  obtain rfl | rfl | rfl := hi
  · exact ⟨s, rfl⟩
  · exact ⟨s.dropEncoder, rfl⟩
  · exact ⟨s.dropDecoder, rfl⟩

/-- Settles O21: a control command is done; each other is done or refused. -/
theorem preCheckErrorsChangeNothing : Obligations.PreCheckErrorsChangeNothing := by
  refine ⟨fun i s t hi h => ?_, fun i s t hi h => ?_⟩
  · obtain ⟨u, hu⟩ := control_completes hi s
    obtain rfl : u.complete 0 0 0 = t := Host.Outcome.next.inj (hu.symm.trans h)
    rfl
  · suffices hanswer : DoneOrRefused s (exec i s) by
      rw [h] at hanswer
      exact hanswer.eq_raise
    obtain ⟨hc, rfl⟩ | rfl | rfl | ⟨level, rfl⟩ | rfl | rfl := hi
    · exact matchInit_doneOrRefused hc s
    · exact matchFind_doneOrRefused s
    · exact matchWiden_doneOrRefused s
    · exact fencOpen_doneOrRefused level s
    · exact fencWrite_doneOrRefused s
    · exact fencClose_doneOrRefused s

end Sys2Proof.Machine
end

section
/-! PROOFS. Resets (70_reset_and_hazards.md R400, R402) and what the host reads while a command runs (R420). -/

namespace Sys2Proof.Machine

section
variable {s : State}

/-! ### Abandoning a command (R402) -/

/-- Idle, there is no command. -/
theorem command_of_idle (h : s.busy = false) : s.command = none := by
  have hrun : s.running = none := Option.not_isSome_iff_eq_none.1 (Bool.eq_false_iff.1 h)
  rw [State.command, hrun]

/-- Scrambling a region leaves every byte outside it (R367). -/
theorem read_scramble_outside {r : Region} {a : Nat} (h : r.holds a = false) :
    (s.scramble r.start r.len).mem.read a = s.mem.read a := by
  rw [Region.holds_false] at h
  rw [State.scramble_mem, Memory.read_writeBytes_outside _ _ _ _ (by rw [length_freeBytes]; omega)]

/-- With no DST to free, abandoning changes nothing (log 25). -/
theorem abandon_of_no_dst (h : s.busyWrites = []) : s.abandon = s := by
  rw [State.abandon, h]

/-- Abandoning a command leaves every byte outside its DST (R402). -/
theorem read_abandon_outside {a : Nat} (h : ∀ r ∈ s.busyWrites, r.holds a = false) :
    s.abandon.mem.read a = s.mem.read a := by
  unfold State.abandon
  cases hw : s.busyWrites with
  | nil => rfl
  | cons r rest => exact read_scramble_outside (h r (hw ▸ List.mem_cons_self))

/-- Abandoning a command touches MEM and the draws only. -/
theorem abandon_frame : s.abandon = { s with mem := s.abandon.mem, draws := s.abandon.draws } := by
  unfold State.abandon
  cases s.busyWrites <;> rfl

/-- A reset leaves the reset values beside MEM and the model's own fields (R400). -/
theorem resetEngine_eq :
    s.resetEngine =
      { State.reset with mem := s.abandon.mem, inbox := s.inbox, lastRead := s.lastRead, draws := s.abandon.draws } :=
  congrArg State.clearEngine abandon_frame

/-- A write of CTRL with SOFT_RESET is the reset (R34, R402). -/
theorem writeReg_softReset {v : Word} (h : v.getLsbD 0 = true) : s.writeReg 0x004 v = s.resetEngine :=
  if_pos h

end

/-- Settles O8: both accesses are the same reset, which abandons the running command and clears the engine. -/
theorem resetsClearTheEngine : Obligations.ResetsClearTheEngine := by
  intro s v hv
  refine ⟨s.resetEngine, rfl, ?_, resetEngine_eq, fun hidle => ?_, fun a ha => ?_⟩
  · rw [hostAccess_write (by decide)]
    exact congrArg _ (writeReg_softReset hv)
  · show s.abandon.mem = s.mem
    rw [abandon_of_no_dst (busy_of_command_none (command_of_idle hidle)).2]
  · exact read_abandon_outside ha

/-! ### Reads while a command runs (R420) -/

section
variable (s : State) (offset : Nat)

/-- The unstable registers are DEC_FDESC to DEC_TOTAL_HI (R43, R44). -/
theorem streamReg_offset (h : (s.streamReg offset).isSome = true) : 0x058 ≤ offset ∧ offset ≤ 0x074 := by
  unfold State.streamReg at h
  split at h
  case h_9 => cases h
  all_goals omega

/-- A read changes nothing but its value and the draws. -/
theorem readReg_frame :
    s.readReg offset = { s with lastRead := (s.readReg offset).lastRead, draws := (s.readReg offset).draws } := by
  unfold State.readReg
  split <;> rfl

/-- A read returns the register as it stands, or of an unstable one its value at completion. -/
theorem readReg_lastRead :
    (s.readReg offset).lastRead = s.regValue offset ∨
      (s.streamReg offset).isSome = true ∧ (s.readReg offset).lastRead = s.atCompletion.regValue offset := by
  unfold State.readReg
  split
  next hunstable =>
    cases Config.freeChoice s.draws with
    | true => exact .inr ⟨(Bool.and_eq_true_iff.1 hunstable).2, rfl⟩
    | false => exact .inl rfl
  next => exact .inl rfl

end

/-- While BUSY, the lower half of STATUS shows BUSY and no report (R37, R420). -/
theorem statusWord_report_busy {s : State} (hbusy : s.busy = true) (hs : StatusOk s) :
    s.statusWord.extractLsb' 0 16 = 1#16 := by
  rw [State.statusWord, hs.running hbusy, hbusy]
  apply BitVec.eq_of_getLsbD_eq
  intro i hi
  simp only [Status.zero, BitVec.getLsbD_extractLsb', BitVec.getLsbD_append]
  interval_cases i <;> simp

/-- Settles O10: from what a register read returns, and STATUS with no report. -/
theorem registerReadsWhileBusy : Obligations.RegisterReadsWhileBusy := by
  intro s offset ho hbusy hs
  obtain ⟨h0, h1, h2⟩ := regValue_results s
  refine ⟨s.readReg offset.toNat, hostAccess_read ho s, readReg_frame s _, ?_, statusWord_report_busy hbusy hs, h0, h1, h2⟩
  obtain hnow | ⟨hstream, hlater⟩ := readReg_lastRead s offset.toNat
  · exact .inl hnow
  · obtain ⟨hlow, hhigh⟩ := streamReg_offset s _ hstream
    exact .inr ⟨hlow, hhigh, hlater⟩

end Sys2Proof.Machine
end
